-- ==== Sys2Proof/Word.lean ====
section
/-! DEFINITION. The word types of the engine (00_scope.md R12, R14): everything is unsigned. -/

namespace Sys2Proof

/-- A byte of a buffer or of a stream (R61). -/
abbrev Byte := BitVec 8

/-- A 16-bit field: `WIDTH`, `HEIGHT`, a Huffman code value (R5, R9). -/
abbrev Half := BitVec 16

/-- A command word, the value written to register `CMD` (R91). -/
abbrev CmdWord := BitVec 32

end Sys2Proof
end

