-- ==== Sys2Proof/Config.lean ====
section
/-! DEFINITION. What an implementation fixes (00_scope.md R6, R7, R10), the small name types the whole
model shares, and the free values (20_memory.md R75, 60_exceptions.md R270). -/

namespace Sys2Proof

/-- `ALG`, bits 1:0 of a command word: the four codecs (R91). -/
inductive Alg where
  | noop | rle | lzw | huf
  deriving DecidableEq, Repr, Inhabited

/-- `DIR`, bit 2 of a command word (R91). -/
inductive Dir where
  | compress | restore
  deriving DecidableEq, Repr, Inhabited

/-- The three legal LZW code widths (R7). -/
inductive LzwWidth where
  | w12 | w16 | w20
  deriving DecidableEq, Repr, Inhabited

/-- `W` as a number of bits (R7). -/
def LzwWidth.bits : LzwWidth → Nat
  | .w12 => 12
  | .w16 => 16
  | .w20 => 20

/-- The table capacity `CAP = 2^W` (R8). -/
def LzwWidth.cap (w : LzwWidth) : Nat := 2 ^ w.bits

/-- One entry of a Huffman table in a stream: `DSYM`, `DLEN`, `DCODE` (R48, R100). -/
structure HufEntry where
  sym  : Byte
  len  : Nat
  code : Nat
  deriving DecidableEq, Repr

namespace Machine

/-- Which record a COMPRESS writes next: the place it has reached in the pseudocode of R123 (log 6). -/
inductive EncPhase where
  | header | raw | rle | lzwClear | lzwCodes | lzwEnd | hufSize | hufTable | hufCodes | pad
  deriving DecidableEq, Repr, Inhabited

/-- Which record a RESTORE reads next: the place it has reached in the pseudocode of R125 (log 6). -/
inductive DecPhase where
  | header | raw | rle | lzw | hufSize | hufTable | hufCodes
  deriving DecidableEq, Repr, Inhabited

/-- `PREFIX[k]`, `SUFFIX[k]` (R40). -/
structure LzwEntry where
  pfx : Nat
  sfx : Byte
  deriving DecidableEq, Repr

/-- `NODE[j]` (R46); its `seq` is its place `j` in the node table. -/
inductive HufNode where
  | leaf (freq : Nat) (sym : Byte)
  | node (freq left right : Nat)
  deriving DecidableEq, Repr

/-- What the private state can hold: every register and table of R33 to R48, and the place of a command (R122, log 6),
each of its own width. The relations the rules keep between them while a command runs are not asked for. -/
structure PrivateContents where
  rpos : Nat
  wpos : Nat
  wacc : BitVec 7
  wcnt : BitVec 3
  dir : Dir
  alg : Alg
  w : LzwWidth
  enc : EncPhase
  dec : DecPhase
  idx : Nat
  rleBase : Nat
  rleI : Nat
  rleS : BitVec 7
  rleL : BitVec 7
  rleCh : Fin 3
  rleCnt : Nat
  rleC : Byte
  rleK : BitVec 7
  rleV : Byte
  lzwTable : List LzwEntry
  cur : Option Nat
  prev : Option Nat
  started : Bool
  clears : Nat
  freq : Vector Nat 256
  nodes : List HufNode
  queue : List Nat
  hlen : Vector (Fin 17) 256
  hcode : Vector Half 256
  dn : Fin 257
  dtab : List HufEntry
  lens : List Nat
  deriving Inhabited

end Machine

/-- The capacities of the two buffers, fixed for a machine (R6, R51). -/
structure Params where
  ibufCap : Nat
  obufCap : Nat
  deriving DecidableEq, Repr

/-- `LEN_W`: the smallest number of bits that holds `max(IBUF_CAP, OBUF_CAP)` (R6). -/
def Params.lenW (p : Params) : Nat := Nat.log2 (max p.ibufCap p.obufCap) + 1

/-- The spec's bound on the capacities (R6). -/
def Params.legal (p : Params) : Prop := 4 ≤ p.ibufCap ∧ 4 ≤ p.obufCap

/-- DESIGN CHOICE (log 1): the capacities of the machine `State.reset` describes. Safe for claims, which are
about every capacity; 8388608 is large enough for every test vector of 95_test_vectors.md. -/
def Config.resetParams : Params := { ibufCap := 8388608, obufCap := 8388608 }

/-- FREE VALUE (log 3; R52, R75, U5, U18): what `IBUF` holds at an index nobody has written, for the
`epoch`-th unspecified contents of the buffer. No body: nothing can be proved about it. -/
opaque Config.ibufUnwritten : (epoch addr : Nat) → Byte

/-- FREE VALUE (log 4; R31, R75, R270, U4): what a host read of `OBUF` returns at an index that holds no valid byte. -/
opaque Config.obufUnspecified : (epoch addr : Nat) → Byte

/-- FREE VALUE (log 15; R270, U5): what the private state holds after a command, for the `epoch`-th command that has
ended. No body: nothing can be proved about it but the widths. -/
opaque Config.unspecifiedPrivate : (epoch : Nat) → Machine.PrivateContents

/-- `HUF_TIEBREAK` (R10), decided by R224 (D19, log 13): of two queued nodes of equal frequency the one
created first (the smaller `seq`) is extracted first. -/
def Config.hufTiebreak (seqA seqB : Nat) : Bool := seqA < seqB

end Sys2Proof
end

