-- ==== Sys2Proof/Syntax.lean ====
section
/-! DEFINITION. The instruction type: one constructor per row of spec/opcode_table.json, in the table's
order. Ten are command words (30_encoding.md R91, R92), twenty are stream records (R93 to R101). -/

namespace Sys2Proof

/-- The rows of the opcode table. A record carries all of its operands, as the encoding lays them out. -/
inductive Instr where
  /-- `CNOOP` 0x00: compress, identity (R126). -/
  | cnoop
  /-- `CRLE` 0x01: compress, run-length encoding (R128). -/
  | crle
  /-- `CLZW` 0x02: compress, LZW at width `LZW_W` (R130). -/
  | clzw
  /-- `CHUF` 0x03: compress, Huffman (R132). -/
  | chuf
  /-- `RNOOP` 0x04: restore, identity (R127). -/
  | rnoop
  /-- `RRLE` 0x05: restore, run-length encoding (R129). -/
  | rrle
  /-- `RLZW` 0x06: restore, LZW at width `LZW_W` (R131). -/
  | rlzw
  /-- `RHUF` 0x07: restore, Huffman (R133). -/
  | rhuf
  /-- `SRESET` 0x80: soft reset (R135). -/
  | sreset
  /-- `CMD.ILLEGAL`: any other command word (R103 (a), R122). -/
  | cmdIllegal (word : CmdWord)
  /-- `HDR`: the stream header (R93). -/
  | hdr (width height : Half)
  /-- `RAW`: one byte of a NoOp payload (R94). -/
  | raw (b : Byte)
  /-- `RLE.REP`: `count` copies of `v` (R95, R96). -/
  | rleRep (count : BitVec 7) (v : Byte)
  /-- `RLE.LIT`: `COUNT = data.length` bytes copied verbatim (R95, R96). -/
  | rleLit (data : List Byte)
  /-- `LZW.LIT.W12`: code 0 to 255 (R97). -/
  | lzwLit12 (v : Byte)
  /-- `LZW.CLEAR.W12`: code 256 (R97). -/
  | lzwClear12
  /-- `LZW.END.W12`: code 257 (R97). -/
  | lzwEnd12
  /-- `LZW.PHRASE.W12`: code 258 to 4095 (R97). -/
  | lzwPhrase12 (c : BitVec 12)
  /-- `LZW.LIT.W16`: code 0 to 255 (R97). -/
  | lzwLit16 (v : Byte)
  /-- `LZW.CLEAR.W16`: code 256 (R97). -/
  | lzwClear16
  /-- `LZW.END.W16`: code 257 (R97). -/
  | lzwEnd16
  /-- `LZW.PHRASE.W16`: code 258 to 65535 (R97). -/
  | lzwPhrase16 (c : BitVec 16)
  /-- `LZW.LIT.W20`: code 0 to 255 (R97). -/
  | lzwLit20 (v : Byte)
  /-- `LZW.CLEAR.W20`: code 256 (R97). -/
  | lzwClear20
  /-- `LZW.END.W20`: code 257 (R97). -/
  | lzwEnd20
  /-- `LZW.PHRASE.W20`: code 258 to 1048575 (R97). -/
  | lzwPhrase20 (c : BitVec 20)
  /-- `HSZ`: the number of Huffman table entries minus 1 (R99). -/
  | hsz (n : Byte)
  /-- `HEN`: one Huffman table entry, `SYM`, `LEN`, `CODE` (R100). -/
  | hen (sym len : Byte) (code : Half)
  /-- `HCW`: one code word, the low `len` bits of `code` (R101). -/
  | hcw (len : BitVec 5) (code : Half)
  /-- `PAD`: `n` zero bits up to the next byte boundary (R153, R159). -/
  | pad (n : BitVec 3)
  deriving DecidableEq, Repr

end Sys2Proof
end

