-- ==== Sys2Proof/WellFormed.lean ====
section
/-! DEFINITION. Which instruction terms stand for an encoding of the spec (30_encoding.md section 3). -/

namespace Sys2Proof

/-- The nine legal command values (R92). -/
def legalCmdWords : List CmdWord :=
  [0x00000000#32, 0x00000001#32, 0x00000002#32, 0x00000003#32, 0x00000004#32, 0x00000005#32,
   0x00000006#32, 0x00000007#32, 0x00000080#32]

/-- The operand bounds the encodings set. An illegal `HEN` (length 0, above 16, ...) is an encoding all the
same: its meaning raises `MalformedStream` (R236). -/
def Instr.wellFormed : Instr → Bool
  | .cnoop => true
  | .crle => true
  | .clzw => true
  | .chuf => true
  | .rnoop => true
  | .rrle => true
  | .rlzw => true
  | .rhuf => true
  | .sreset => true
  | .cmdIllegal word => !legalCmdWords.contains word
  | .hdr _ _ => true
  | .raw _ => true
  | .rleRep _ _ => true
  | .rleLit data => decide (data.length ≤ 127)
  | .lzwLit12 _ => true
  | .lzwClear12 => true
  | .lzwEnd12 => true
  | .lzwPhrase12 c => decide (258 ≤ c.toNat)
  | .lzwLit16 _ => true
  | .lzwClear16 => true
  | .lzwEnd16 => true
  | .lzwPhrase16 c => decide (258 ≤ c.toNat)
  | .lzwLit20 _ => true
  | .lzwClear20 => true
  | .lzwEnd20 => true
  | .lzwPhrase20 c => decide (258 ≤ c.toNat)
  | .hsz _ => true
  | .hen _ _ _ => true
  | .hcw len code => decide (1 ≤ len.toNat) && decide (len.toNat ≤ 16) && decide (code.toNat < 2 ^ len.toNat)
  | .pad _ => true

end Sys2Proof
end

