-- ==== Sys2Proof/Decode.lean ====
section
/-! DEFINITION. From bits to instructions and back (30_encoding.md). The decoder is total and takes the
context a word needs (R102, R104): the command port, or the place of a running RESTORE in its stream. -/

namespace Sys2Proof

/-! ## Bits, most significant first (R13, R63) -/

/-- The `n` bits of `v`, `v[n-1]` first (R63). -/
def bitsOf : (n v : Nat) → List Bool
  | 0, _ => []
  | n + 1, v => v.testBit n :: bitsOf n v

/-- The number whose bits, first bit most significant, are `acc`'s followed by the next `n` of the list; `none` when
fewer than `n` remain: the reader never invents bits (R156). -/
def takeBitsFrom : (n acc : Nat) → List Bool → Option (Nat × List Bool)
  | 0, acc, bs => some (acc, bs)
  | _ + 1, _, [] => none
  | n + 1, acc, b :: bs => takeBitsFrom n (2 * acc + b.toNat) bs

/-- The first `n` bits as a number, and the rest (`GetBits`, R157, on the bits that are left). -/
def takeBits (n : Nat) (bs : List Bool) : Option (Nat × List Bool) := takeBitsFrom n 0 bs

/-- The first byte, and the rest (`GetByte`, R155). -/
def takeByte (bs : List Bool) : Option (Byte × List Bool) :=
  match takeBits 8 bs with
  | some (v, rest) => some (BitVec.ofNat 8 v, rest)
  | none => none

/-- The first `k` bytes, and the rest. -/
def takeBytes : (k : Nat) → List Bool → Option (List Byte × List Bool)
  | 0, bs => some ([], bs)
  | k + 1, bs =>
    match takeByte bs with
    | none => none
    | some (b, rest) =>
      match takeBytes k rest with
      | none => none
      | some (bytes, rest') => some (b :: bytes, rest')

/-- The bits of a byte sequence, first byte first (R63, R64). -/
def bytesBits (bytes : List Byte) : List Bool := bytes.flatMap (fun b => bitsOf 8 b.toNat)

/-- `v[15:8]` (R62). -/
def hiByte (v : Half) : Byte := BitVec.ofNat 8 (v.toNat / 256)

/-- `v[7:0]` (R62). -/
def loByte (v : Half) : Byte := BitVec.ofNat 8 v.toNat

/-! ## The decoder -/

/-- Why no instruction is read. Each is raised by the reader or the code search of a RESTORE. -/
inductive Reject where
  /-- The bits end before the record does, or before its control byte does (R155, R156). -/
  | truncated
  /-- An RLE record's control byte, of this `COUNT`, is there and its data is not (R178, R179, R180 (e)). -/
  | truncatedData (count : Nat)
  /-- No entry of the Huffman table matches (R239). -/
  | noCode
  deriving DecidableEq, Repr

/-- What tells the decoder which format the bits are in (R90, R102, R104). -/
inductive Ctx where
  | cmd
  | hdr
  | raw
  | rle
  | lzw (w : LzwWidth)
  | hsz
  | hen
  /-- The candidate lengths, ascending, and the table (R237, R238). -/
  | hcw (lens : List Nat) (entries : List HufEntry)
  /-- `n` pad bits; their value is never looked at (R159). -/
  | pad (n : BitVec 3)
  deriving DecidableEq, Repr

/-- The most bits an instruction of the context takes. -/
def Ctx.maxBits : Ctx → Nat
  | .cmd => 32
  | .hdr => 32
  | .raw => 8
  | .rle => 1024
  | .lzw w => w.bits
  | .hsz => 8
  | .hen => 32
  | .hcw _ _ => 16
  | .pad n => n.toNat

/-- The command word (R91, R92), compared on all 32 bits. -/
def decodeCmd (v : CmdWord) : Instr :=
  if v = 0x00000000#32 then .cnoop
  else if v = 0x00000001#32 then .crle
  else if v = 0x00000002#32 then .clzw
  else if v = 0x00000003#32 then .chuf
  else if v = 0x00000004#32 then .rnoop
  else if v = 0x00000005#32 then .rrle
  else if v = 0x00000006#32 then .rlzw
  else if v = 0x00000007#32 then .rhuf
  else if v = 0x00000080#32 then .sreset
  else .cmdIllegal v

/-- The class of an LZW code at each width (R97). -/
def lzwInstr (w : LzwWidth) (c : Nat) : Instr :=
  match w with
  | .w12 =>
    if c < 256 then .lzwLit12 (BitVec.ofNat 8 c)
    else if c = 256 then .lzwClear12
    else if c = 257 then .lzwEnd12
    else .lzwPhrase12 (BitVec.ofNat 12 c)
  | .w16 =>
    if c < 256 then .lzwLit16 (BitVec.ofNat 8 c)
    else if c = 256 then .lzwClear16
    else if c = 257 then .lzwEnd16
    else .lzwPhrase16 (BitVec.ofNat 16 c)
  | .w20 =>
    if c < 256 then .lzwLit20 (BitVec.ofNat 8 c)
    else if c = 256 then .lzwClear20
    else if c = 257 then .lzwEnd20
    else .lzwPhrase20 (BitVec.ofNat 20 c)

/-- `Lookup(l, v)`: the symbol of the entry of that length and code (R236). -/
def hufLookup (entries : List HufEntry) (l v : Nat) : Option Byte :=
  match entries with
  | [] => none
  | e :: es => if e.len = l ∧ e.code = v then some e.sym else hufLookup es l v

/-- The code search of R238: each candidate length in ascending order, the first match wins. -/
def decodeCode (entries : List HufEntry) : List Nat → List Bool → Except Reject (Instr × List Bool)
  | [], _ => .error .noCode
  | l :: ls, bs =>
    match takeBits l bs with
    | none => .error .truncated
    | some (v, rest) =>
      if (hufLookup entries l v).isSome then .ok (.hcw (BitVec.ofNat 5 l) (BitVec.ofNat 16 v), rest)
      else decodeCode entries ls bs

/-- An RLE record: the control byte, then its data (R95, R96). -/
def decodeRle (bs : List Bool) : Except Reject (Instr × List Bool) :=
  match takeBits 1 bs with
  | none => .error .truncated
  | some (f, bs1) =>
    match takeBits 7 bs1 with
    | none => .error .truncated
    | some (count, bs2) =>
      if f = 1 then
        match takeByte bs2 with
        | none => .error (.truncatedData count)
        | some (v, rest) => .ok (.rleRep (BitVec.ofNat 7 count) v, rest)
      else
        match takeBytes count bs2 with
        | none => .error (.truncatedData count)
        | some (data, rest) => .ok (.rleLit data, rest)

/-- The decoder: one instruction from the front of the bits, and the bits after it. -/
def decode (ctx : Ctx) (bs : List Bool) : Except Reject (Instr × List Bool) :=
  match ctx with
  | .cmd =>
    match takeBits 32 bs with
    | none => .error .truncated
    | some (v, rest) => .ok (decodeCmd (BitVec.ofNat 32 v), rest)
  | .hdr =>
    match takeBits 16 bs with
    | none => .error .truncated
    | some (w, bs1) =>
      match takeBits 16 bs1 with
      | none => .error .truncated
      | some (h, rest) => .ok (.hdr (BitVec.ofNat 16 w) (BitVec.ofNat 16 h), rest)
  | .raw =>
    match takeByte bs with
    | none => .error .truncated
    | some (b, rest) => .ok (.raw b, rest)
  | .rle => decodeRle bs
  | .lzw w =>
    match takeBits w.bits bs with
    | none => .error .truncated
    | some (c, rest) => .ok (lzwInstr w c, rest)
  | .hsz =>
    match takeByte bs with
    | none => .error .truncated
    | some (n, rest) => .ok (.hsz n, rest)
  | .hen =>
    match takeByte bs with
    | none => .error .truncated
    | some (sym, bs1) =>
      match takeByte bs1 with
      | none => .error .truncated
      | some (len, bs2) =>
        match takeBits 16 bs2 with
        | none => .error .truncated
        | some (code, rest) => .ok (.hen sym len (BitVec.ofNat 16 code), rest)
  | .hcw lens entries => decodeCode entries lens bs
  | .pad n =>
    match takeBits n.toNat bs with
    | none => .error .truncated
    | some (_, rest) => .ok (.pad n, rest)

/-! ## The encoder -/

/-- The code number of an LZW record at each width (R97). -/
def lzwCodeBits (w : LzwWidth) (c : Nat) : List Bool := bitsOf w.bits c

/-- The bits of an instruction, first bit first (R92 to R101, R153). -/
def encode : Instr → List Bool
  | .cnoop => bitsOf 32 0x00
  | .crle => bitsOf 32 0x01
  | .clzw => bitsOf 32 0x02
  | .chuf => bitsOf 32 0x03
  | .rnoop => bitsOf 32 0x04
  | .rrle => bitsOf 32 0x05
  | .rlzw => bitsOf 32 0x06
  | .rhuf => bitsOf 32 0x07
  | .sreset => bitsOf 32 0x80
  | .cmdIllegal word => bitsOf 32 word.toNat
  | .hdr width height => bitsOf 16 width.toNat ++ bitsOf 16 height.toNat
  | .raw b => bitsOf 8 b.toNat
  | .rleRep count v => true :: bitsOf 7 count.toNat ++ bitsOf 8 v.toNat
  | .rleLit data => false :: bitsOf 7 data.length ++ bytesBits data
  | .lzwLit12 v => lzwCodeBits .w12 v.toNat
  | .lzwClear12 => lzwCodeBits .w12 256
  | .lzwEnd12 => lzwCodeBits .w12 257
  | .lzwPhrase12 c => lzwCodeBits .w12 c.toNat
  | .lzwLit16 v => lzwCodeBits .w16 v.toNat
  | .lzwClear16 => lzwCodeBits .w16 256
  | .lzwEnd16 => lzwCodeBits .w16 257
  | .lzwPhrase16 c => lzwCodeBits .w16 c.toNat
  | .lzwLit20 v => lzwCodeBits .w20 v.toNat
  | .lzwClear20 => lzwCodeBits .w20 256
  | .lzwEnd20 => lzwCodeBits .w20 257
  | .lzwPhrase20 c => lzwCodeBits .w20 c.toNat
  | .hsz n => bitsOf 8 n.toNat
  | .hen sym len code => bitsOf 8 sym.toNat ++ bitsOf 8 len.toNat ++ bitsOf 16 code.toNat
  | .hcw len code => bitsOf len.toNat code.toNat
  | .pad n => bitsOf n.toNat 0

/-- The context in which an instruction's encoding is read. A code word needs a table of which it is an
entry and in which no shorter candidate length matches first (R238). -/
def Ctx.admits (ctx : Ctx) (i : Instr) : Prop :=
  match i with
  | .cnoop => ctx = .cmd
  | .crle => ctx = .cmd
  | .clzw => ctx = .cmd
  | .chuf => ctx = .cmd
  | .rnoop => ctx = .cmd
  | .rrle => ctx = .cmd
  | .rlzw => ctx = .cmd
  | .rhuf => ctx = .cmd
  | .sreset => ctx = .cmd
  | .cmdIllegal _ => ctx = .cmd
  | .hdr _ _ => ctx = .hdr
  | .raw _ => ctx = .raw
  | .rleRep _ _ => ctx = .rle
  | .rleLit _ => ctx = .rle
  | .lzwLit12 _ => ctx = .lzw .w12
  | .lzwClear12 => ctx = .lzw .w12
  | .lzwEnd12 => ctx = .lzw .w12
  | .lzwPhrase12 _ => ctx = .lzw .w12
  | .lzwLit16 _ => ctx = .lzw .w16
  | .lzwClear16 => ctx = .lzw .w16
  | .lzwEnd16 => ctx = .lzw .w16
  | .lzwPhrase16 _ => ctx = .lzw .w16
  | .lzwLit20 _ => ctx = .lzw .w20
  | .lzwClear20 => ctx = .lzw .w20
  | .lzwEnd20 => ctx = .lzw .w20
  | .lzwPhrase20 _ => ctx = .lzw .w20
  | .hsz _ => ctx = .hsz
  | .hen _ _ _ => ctx = .hen
  | .hcw len code =>
    ∃ lens entries, ctx = .hcw lens entries ∧ len.toNat ∈ lens ∧ (hufLookup entries len.toNat code.toNat).isSome = true ∧
      lens.Pairwise (· < ·) ∧
      ∀ l ∈ lens, l < len.toNat → hufLookup entries l (code.toNat / 2 ^ (len.toNat - l)) = none
  | .pad n => ctx = .pad n

/-! ## Words as spec/opcode_table.json numbers them -/

/-- Byte `i` of a word whose first byte is bits 7..0. -/
def wordByte (w i : Nat) : Byte := BitVec.ofNat 8 (w / 256 ^ i)

/-- DESIGN CHOICE (log 11): the table's rows overlap, since a word does not name its format (R102). A word
alone is read as: 32 bits, a command word; 8 bits, an RLE control byte; 16 bits, an RLE record when the
flag of its first byte is set, otherwise a 16-bit LZW code; 12, 20 and 24 bits, an LZW code of 12 or 20. -/
def tableCtx (nbits w : Nat) : Option Ctx :=
  if nbits = 32 then some .cmd
  else if nbits = 8 then some .rle
  else if nbits = 16 then (if w.testBit 7 then some .rle else some (.lzw .w16))
  else if nbits = 12 then some (.lzw .w12)
  else if nbits = 20 ∨ nbits = 24 then some (.lzw .w20)
  else none

/-- The word's bits in stream order, followed by operand bytes of zeros: a command word and an LZW code are numbers, most
significant bit first (R63, R91); an RLE record is bytes, the first at bits 7..0. -/
def tableBits (ctx : Ctx) (w : Nat) : List Bool :=
  match ctx with
  | .cmd => bitsOf 32 w
  | .lzw width => bitsOf width.bits w
  | _ => bytesBits [wordByte w 0, wordByte w 1] ++ List.replicate 1008 false

/-- The host's question to the decoder: the instruction whose bits, numbered as the table numbers them, are `w`. -/
def decodeTableWord (nbits w : Nat) : Option Instr :=
  match tableCtx nbits w with
  | none => none
  | some ctx =>
    match decode ctx (tableBits ctx w) with
    | .ok (i, _) => some i
    | .error _ => none

end Sys2Proof
end

