-- ==== Sys2Proof/Machine/State.lean ====
section
/-! DEFINITION. The state of the engine and of the host's side of it, as plain data (10_state.md), and the
reasons a step can stop. -/

namespace Sys2Proof.Machine

/-- `STATE`, shown by register `STATUS` (R23). -/
inductive EngState where
  | idle | busy | done | fault
  deriving DecidableEq, Repr

/-- The causes of an engine fault (R260). An engine fault is a state of the engine (R270), not a stop of the model. -/
inductive Cause where
  | invalidInput | tableOverflow | truncatedStream | malformedTree
  | malformedStream | codeTooLong | outputOverflow | illegalCommand
  deriving DecidableEq, Repr

/-- What the host does (R14, R60, R68, R105, R300), and how far the engine gets meanwhile (log 7). -/
inductive HostAct where
  /-- `RegWrite(n, v)`. A write of `CMD` runs its command to the end before the host acts again (R76). -/
  | regWrite (n v : Nat)
  /-- A write of `CMD` after which the host acts again while the engine is `BUSY` (R68, R120). -/
  | cmdStart (word : CmdWord)
  /-- `RegRead(n)`. -/
  | regRead (n : Nat)
  /-- `IBUF[a] <- b`; `ld IBUF, bytes` is a sequence of these (R105). -/
  | ibufWrite (a : Nat) (b : Byte)
  /-- A read of `OBUF[a]`. -/
  | obufRead (a : Nat)
  /-- The reset input (R300). -/
  | hardReset
  /-- The host lets the engine process one record. -/
  | engine
  /-- `wait`: read `STATUS` until it is not `BUSY` (R105). -/
  | wait
  deriving DecidableEq, Repr

/-- A byte buffer: the bytes it is known to hold, addresses strictly rising. An unlisted address holds an
unspecified byte (R30, R31, R75; log 3). -/
abbrev Memory := List Host.Cell

/-- The whole state (R20). -/
structure State where
  /-- `IBUF_CAP`, `OBUF_CAP` (R6): constants of the machine. -/
  params : Params
  /-- `STATE` (R23). -/
  state : EngState
  /-- `CAUSE` (R24): `none` reads 0. -/
  cause : Option Cause
  /-- `WIDTH` (R25). -/
  width : Half
  /-- `HEIGHT` (R25). -/
  height : Half
  /-- `LZW_W` (R26). -/
  lzwW : BitVec 5
  /-- `IN_LEN` (R27). -/
  inLen : Nat
  /-- `OUT_LEN` (R28). -/
  outLen : Nat
  /-- `IN_USED` (R29). -/
  inUsed : Nat
  /-- `STAT_TABLE` (R32). -/
  statTable : BitVec 21
  /-- `STAT_CLEARS` (R32). -/
  statClears : Nat
  /-- `IBUF` (R30). -/
  ibuf : Memory
  /-- `OBUF` (R31). -/
  obuf : Memory
  /-- MODEL'S OWN (log 3): the index of IBUF's present unspecified contents. -/
  ibufEpoch : Nat
  /-- MODEL'S OWN (log 3): the index of OBUF's present unspecified contents. -/
  obufEpoch : Nat
  /-- MODEL'S OWN (log 15): the index of the next unspecified contents of the private state. -/
  privateEpoch : Nat
  /-- `RPOS`, in bits (R33). -/
  rpos : Nat
  /-- `WPOS`, in bytes (R33). -/
  wpos : Nat
  /-- `WACC`, the pending bits as a number (R34). -/
  wacc : Nat
  /-- `WCNT`, how many bits are pending (R34). -/
  wcnt : Nat
  /-- `DIR` of the running command (R122). -/
  dir : Dir
  /-- `ALG` of the running command (R122). -/
  alg : Alg
  /-- `W` of the running command (R122). -/
  w : LzwWidth
  /-- The place of a COMPRESS in its pseudocode (log 6). -/
  enc : EncPhase
  /-- The place of a RESTORE in its pseudocode (log 6). -/
  dec : DecPhase
  /-- The loop index: `i` of R126, R194, R230; `s` of R229 (log 6). -/
  idx : Nat
  /-- `BASE` (R35). -/
  rleBase : Nat
  /-- `I` (R35). -/
  rleI : Nat
  /-- `S` (R35). -/
  rleS : Nat
  /-- `L` (R35). -/
  rleL : Nat
  /-- `CH` (R35), also the `ch` of R128. -/
  rleCh : Nat
  /-- `CNT` (R35). -/
  rleCnt : Nat
  /-- `C` (R35). -/
  rleC : Byte
  /-- `K` (R35). -/
  rleK : Nat
  /-- `V` (R35). -/
  rleV : Byte
  /-- `PREFIX[k]`, `SUFFIX[k]` for `258 <= k < NEXT`, entry `k` at place `k - 258` (R40). -/
  lzwTable : List LzwEntry
  /-- `CUR` (R41). -/
  cur : Option Nat
  /-- `PREV` (R41). -/
  prev : Option Nat
  /-- `STARTED` (R41). -/
  started : Bool
  /-- `CLEARS` (R41). -/
  clears : Nat
  /-- `FREQ[0..255]` (R45). -/
  freq : List Nat
  /-- `NODE[0..NNODES-1]` (R46). -/
  nodes : List HufNode
  /-- `QUEUE` (R46). -/
  queue : List Nat
  /-- `HLEN[0..255]` (R47). -/
  hlen : List Nat
  /-- `HCODE[0..255]` (R47). -/
  hcode : List Half
  /-- `DN` (R48). -/
  dn : Nat
  /-- `DSYM[i]`, `DLEN[i]`, `DCODE[i]` read so far (R48). -/
  dtab : List HufEntry
  /-- `LENS` (R48). -/
  lens : List Nat
  /-- MODEL'S OWN (log 7): the host's actions still to come. -/
  host : List HostAct
  /-- MODEL'S OWN (log 7): what the last host read returned. -/
  rdata : Nat
  /-- MODEL'S OWN (log 29): the host's hands are off, from the write of `CMD` that starts a command until a `STATUS`
  read returns `DONE` or `FAULT` (R304). -/
  handsOff : Bool
  deriving DecidableEq, Repr

/-- `NEXT`, the next free code: one more than the last entry (R40, R195; log 14). -/
def State.next (s : State) : Nat := 258 + s.lzwTable.length

/-- `NNODES` (R46; log 14). -/
def State.nnodes (s : State) : Nat := s.nodes.length

/-- `N = WIDTH * HEIGHT`, exact (R5). -/
def State.n (s : State) : Nat := s.width.toNat * s.height.toNat

/-- `TOTAL = 3 * N` (R5). -/
def State.total (s : State) : Nat := 3 * s.n

/-- The model has no machine fault: what the spec calls a fault is a state of the engine (R270), and every
host action the spec gives no meaning is one it tells a model to refuse (U3, U17). No constructor, so no step ends
in one; safe. -/
inductive Fault where
  deriving DecidableEq, Repr

/-- Why a step gives a host action no meaning. -/
inductive Refusal where
  /-- Raised by an instruction with no meaning yet, in `exec`'s arm; safe. None is left. -/
  | notModelled (mnemonic : String)
  /-- Raised by a host access other than a `STATUS` read or the `SRESET` word while `BUSY` (R68, R120), and from the start
  of a command until a `STATUS` read returns `DONE` or `FAULT` (R304: "a model should refuse such a host action", U3);
  safe. -/
  | busyAccess
  /-- Raised by a host access to a buffer index at or beyond its capacity (R74, U17: "a model refuses it"); safe. -/
  | bufferIndex
  deriving DecidableEq, Repr

/-- What one step of the pseudocode gives: it goes on, or it reaches `raise <cause>` in a state (R14, R15). -/
inductive Res where
  | ok (s : State)
  | raised (c : Cause) (s : State)
  deriving DecidableEq, Repr

/-- What the sequencer finds where it reads or chooses the next record: the record, or a `raise`. -/
inductive Fetched where
  | record (i : Instr) (s : State)
  | raised (c : Cause) (s : State)
  deriving DecidableEq, Repr

/-- The state right after a hardware reset (R52, R300). The registers of R21 have the values of R52. Every private
register is unspecified there: the values named here are DESIGN CHOICE (log 2), as are the capacities (log 1). -/
def State.reset : State where
  params := Config.resetParams
  state := .idle
  cause := none
  width := 0
  height := 0
  lzwW := 12
  inLen := 0
  outLen := 0
  inUsed := 0
  statTable := 0
  statClears := 0
  ibuf := []
  obuf := []
  ibufEpoch := 0
  obufEpoch := 0
  privateEpoch := 0
  rpos := 0
  wpos := 0
  wacc := 0
  wcnt := 0
  dir := .compress
  alg := .noop
  w := .w12
  enc := .header
  dec := .header
  idx := 0
  rleBase := 0
  rleI := 0
  rleS := 0
  rleL := 0
  rleCh := 0
  rleCnt := 0
  rleC := 0
  rleK := 0
  rleV := 0
  lzwTable := []
  cur := none
  prev := none
  started := false
  clears := 0
  freq := List.replicate 256 0
  nodes := []
  queue := []
  hlen := List.replicate 256 0
  hcode := List.replicate 256 0
  dn := 0
  dtab := []
  lens := []
  host := []
  rdata := 0
  handsOff := false

end Sys2Proof.Machine
end

