-- ==== Sys2Proof/Machine/Flags.lean ====
section
/-! DEFINITION. The status flags and the cause codes as the host reads them (10_state.md R23, R24;
60_exceptions.md R260). They are the only flags the engine has. -/

namespace Sys2Proof.Machine

/-- `STATUS[2:0]`: bit 0 `BUSY`, bit 1 `DONE`, bit 2 `FAULT` (R23). -/
def EngState.bits : EngState → BitVec 3
  | .idle => 0b000#3
  | .busy => 0b001#3
  | .done => 0b010#3
  | .fault => 0b100#3

/-- The cause codes (R260). -/
def Cause.code : Cause → BitVec 4
  | .invalidInput => 1#4
  | .tableOverflow => 2#4
  | .truncatedStream => 3#4
  | .malformedTree => 4#4
  | .malformedStream => 5#4
  | .codeTooLong => 6#4
  | .outputOverflow => 7#4
  | .illegalCommand => 8#4

/-- Register `CAUSE`: 0 when there is no fault (R24). -/
def State.causeBits (s : State) : BitVec 4 :=
  match s.cause with
  | none => 0#4
  | some c => c.code

/-- Register `STATUS` (R23). -/
def State.statusBits (s : State) : BitVec 3 := s.state.bits

end Sys2Proof.Machine
end

