-- ==== Sys2Proof/Machine/Ops.lean ====
section
/-! DEFINITION. The shared operations: buffers, fault entry and exit, command start and completion, the bit
writer (20_memory.md, 40_commands.md, 41_bitstream.md, 60_exceptions.md). -/

namespace Sys2Proof.Machine

/-! ## Buffers (R60, R61, R75) -/

/-- The byte listed at `a`, if any. -/
def Memory.lookup : Memory → Nat → Option Byte
  | [], _ => none
  | (k, v) :: t, a => if a = k then some v else Memory.lookup t a

/-- `buf[a] <- b`: a plain store of one byte (R61), keeping the addresses rising. -/
def Memory.write : Memory → (a : Nat) → (b : Byte) → Memory
  | [], a, b => [(a, b)]
  | (k, v) :: t, a, b =>
    if a < k then (a, b) :: (k, v) :: t
    else if a = k then (a, b) :: t
    else (k, v) :: Memory.write t a b

/-- Consecutive stores from `a` on. -/
def Memory.writeBytes (m : Memory) (a : Nat) : List Byte → Memory
  | [] => m
  | b :: bs => Memory.writeBytes (Memory.write m a b) (a + 1) bs

/-- What is still held at addresses below `n`. -/
def Memory.below (n : Nat) (m : Memory) : Memory := m.filter (fun c => decide (c.1 < n))

/-- Every address of the list is above `lo` and the addresses strictly rise. -/
def Memory.risingFrom (lo : Nat) : Memory → Bool
  | [] => true
  | (k, _) :: t => decide (lo ≤ k) && Memory.risingFrom (k + 1) t

/-- The canonical form: addresses strictly rising. An unlisted address holds no known byte, so no entry can
equal one. -/
def Memory.wf (m : Memory) : Bool := Memory.risingFrom 0 m

/-- `IBUF[a]` as the engine reads it: the byte listed there, or the free value of a byte nobody wrote (R75, U18; log 3). -/
def State.ibufByte (s : State) (a : Nat) : Byte :=
  match Memory.lookup s.ibuf a with
  | some b => b
  | none => Config.ibufUnwritten s.ibufEpoch a

/-- `OBUF[a]` as the host reads it: only indices below `OUT_LEN` of a completed command are valid (R31, R75, U4). DESIGN
CHOICE (log 4): at any other index two reads with the same `obufEpoch` return the same free value. -/
def State.obufByte (s : State) (a : Nat) : Byte :=
  if s.state = .done ∧ a < s.outLen then
    match Memory.lookup s.obuf a with
    | some b => b
    | none => Config.obufUnspecified s.obufEpoch a
  else Config.obufUnspecified s.obufEpoch a

/-- `len` bytes of `IBUF` from index `base` on. -/
def State.ibufBytes (s : State) : (base len : Nat) → List Byte
  | _, 0 => []
  | base, len + 1 => s.ibufByte base :: s.ibufBytes (base + 1) len

/-! ## Fault entry and exit (R270, R271) -/

/-- The private state holds `c`: every register and table of R33 to R48 and the place of the command. -/
def State.withPrivate (s : State) (c : PrivateContents) : State :=
  { s with rpos := c.rpos, wpos := c.wpos, wacc := c.wacc.toNat % 2 ^ c.wcnt.toNat, wcnt := c.wcnt.toNat,
           dir := c.dir, alg := c.alg, w := c.w, enc := c.enc, dec := c.dec, idx := c.idx,
           rleBase := c.rleBase, rleI := c.rleI, rleS := c.rleS.toNat, rleL := c.rleL.toNat, rleCh := c.rleCh.val,
           rleCnt := c.rleCnt, rleC := c.rleC, rleK := c.rleK.toNat, rleV := c.rleV,
           lzwTable := c.lzwTable, cur := c.cur, prev := c.prev, started := c.started, clears := c.clears,
           freq := c.freq.toList, nodes := c.nodes, queue := c.queue, hlen := c.hlen.toList.map Fin.val,
           hcode := c.hcode.toList, dn := c.dn.val, dtab := c.dtab, lens := c.lens }

/-- The end of a command makes all private state unspecified (R270, U5): a free value, another one each time (log 15). -/
def forgetPrivate (s : State) : State :=
  { s.withPrivate (Config.unspecifiedPrivate s.privateEpoch) with privateEpoch := s.privateEpoch + 1 }

/-- Fault entry, `raise c` (R270): the cause, the four result registers at 0, `STATE = FAULT`; every byte of `OBUF`
becomes unspecified (log 4), and so does all private state (log 15). `WIDTH` and `HEIGHT` stay as they are at that
moment. -/
def faultEntry (c : Cause) (s : State) : State :=
  { forgetPrivate s with
    cause := some c, outLen := 0, inUsed := 0, statTable := 0, statClears := 0, state := .fault,
    obuf := [], obufEpoch := s.obufEpoch + 1 }

/-- What is left of a run of pseudocode: the state it ends in, or the fault state (R15, R270). -/
def Res.settle : Res → State
  | .ok s => s
  | .raised c s => faultEntry c s

/-- Statements run in order; the first `raise` ends the command (R15). -/
def Res.bind (r : Res) (f : State → Res) : Res :=
  match r with
  | .ok s => f s
  | .raised c s => .raised c s

/-- `SoftReset()` (R135, R301), the exit from `FAULT` (R271): the reset values of R52, `IBUF` and `OBUF` kept, but
`OBUF` unspecified when a command is aborted (U15; log 4). Private registers: log 2. DEDUCED (log 29): the host's hands are
free then. -/
def softReset (s : State) : State :=
  { State.reset with
    params := s.params, ibuf := s.ibuf, ibufEpoch := s.ibufEpoch, host := s.host, rdata := s.rdata,
    privateEpoch := s.privateEpoch,
    obuf := if s.state = .busy then [] else s.obuf,
    obufEpoch := if s.state = .busy then s.obufEpoch + 1 else s.obufEpoch }

/-- Hardware reset (R300): the reset values of R52, both buffers unspecified. DEDUCED (log 29): the host's hands are free
then. -/
def hardReset (s : State) : State :=
  { State.reset with
    params := s.params, host := s.host, rdata := s.rdata,
    ibufEpoch := s.ibufEpoch + 1, obufEpoch := s.obufEpoch + 1, privateEpoch := s.privateEpoch }

/-! ## Command start and completion (R121, R134) -/

/-- The first part of `StartCommand` (R121): `BUSY`, the results of the last command invalid, every private register
and table fresh (R20); the host's hands are off from here on (R304). R121 names no value for the RLE registers and `HCODE`; 0 is DESIGN CHOICE (log 30). `WIDTH`, `HEIGHT`, `LZW_W`, `IN_LEN`, `IBUF` and the bytes of `OBUF` are not touched. -/
def startCommand (s : State) : State :=
  { s with state := .busy, cause := none, outLen := 0, inUsed := 0, statTable := 0, statClears := 0,
           rpos := 0, wpos := 0, wacc := 0, wcnt := 0,
           rleBase := 0, rleI := 0, rleS := 0, rleL := 0, rleCh := 0, rleCnt := 0, rleC := 0, rleK := 0, rleV := 0,
           lzwTable := [], cur := none, prev := none, started := false, clears := 0,
           freq := List.replicate 256 0, nodes := [], queue := [], hlen := List.replicate 256 0,
           hcode := List.replicate 256 0, dn := 0, dtab := [], lens := [],
           enc := .header, dec := .header, idx := 0, handsOff := true }

/-- How many entries the encoder's Huffman table has: the byte values with a code (R47, R229). -/
def State.hufCount (s : State) : Nat := (s.hlen.filter (fun l => decide (0 < l))).length

/-- `STAT_TABLE` at completion (R32, R130 to R133). -/
def State.finalStatTable (s : State) : BitVec 21 :=
  match s.alg with
  | .noop => 0
  | .rle => 0
  | .lzw => BitVec.ofNat 21 s.next
  | .huf =>
    match s.dir with
    | .compress => BitVec.ofNat 21 s.hufCount
    | .restore => BitVec.ofNat 21 s.dn

/-- `STAT_CLEARS` at completion (R32). -/
def State.finalStatClears (s : State) : Nat :=
  match s.alg with
  | .noop => 0
  | .rle => 0
  | .lzw => s.clears
  | .huf => 0

/-- Completion (R134), with `IN_USED = used` and the diagnostics of R32. Bytes of `OBUF` at or above `OUT_LEN` are
unspecified from here on (R31). DESIGN CHOICE (log 4): they are a new free value, the same at every read until the next
completion, fault, abort or hardware reset; R75 and U4 leave each read any value.
All private state is unspecified afterwards (U5; log 15) but the bit writer, which a completed command has flushed:
`WCNT` is 0 there (R34). -/
def complete (used : Nat) (s : State) : State :=
  { forgetPrivate s with
    wacc := s.wacc, wcnt := s.wcnt,
    inUsed := used, statTable := s.finalStatTable, statClears := s.finalStatClears,
    outLen := s.wpos, state := .done, obuf := Memory.below s.wpos s.obuf,
    obufEpoch := s.obufEpoch + 1 }

/-- `ceil8(p)` (R12). -/
def ceil8 (p : Nat) : Nat := (p + 7) / 8

/-- The end of `Compress` (R123) and completion. -/
def finishCompress (s : State) : State := complete s.inLen s

/-- The end of `Restore` (R125) and completion. -/
def finishRestore (s : State) : State := complete (ceil8 s.rpos) s

/-! ## The bit writer (R151 to R153) -/

/-- `PutByte(b)` (R151), whatever `WCNT` is (log 28): the capacity is tested before the store. -/
def putByte (b : Byte) (s : State) : Res :=
  if s.params.obufCap ≤ s.wpos then .raised .outputOverflow s
  else .ok { s with obuf := Memory.write s.obuf s.wpos b, wpos := s.wpos + 1 }

/-- `PutByte` of each byte in order. -/
def putBytes : List Byte → State → Res
  | [], s => .ok s
  | b :: bs, s => (putByte b s).bind (putBytes bs)

/-- One turn of the loop of `PutBits` (R152). -/
def putBit (b : Bool) (s : State) : Res :=
  if s.wcnt + 1 = 8 then
    putByte (BitVec.ofNat 8 (s.wacc * 2 + b.toNat)) { s with wacc := 0, wcnt := 0 }
  else .ok { s with wacc := s.wacc * 2 + b.toNat, wcnt := s.wcnt + 1 }

/-- The loop of `PutBits` over the bits, first to last. -/
def putBitList : List Bool → State → Res
  | [], s => .ok s
  | b :: bs, s => (putBit b s).bind (putBitList bs)

/-- `PutBits(v, n)` (R152). DESIGN CHOICE (log 28): a width of 0 puts nothing, a width above 20 is put bit by bit, and of a
value that does not fit the low `n` bits are put; no rule asks for any of these. -/
def putBits (v n : Nat) (s : State) : Res := putBitList (bitsOf n v) s

/-- How many zero bits bring the writer to a byte boundary (R153). -/
def State.padWidth (s : State) : Nat := (8 - s.wcnt) % 8

/-- `FlushBits()` (R153): the zero bits that complete the pending byte. -/
def flushBits (s : State) : Res := putBits 0 s.padWidth s

end Sys2Proof.Machine
end

