-- ==== Sys2Proof/Machine/Operands.lean ====
section
/-! DEFINITION. Where operands come from: the bit reader over `IBUF` (41_bitstream.md R155 to R158), the
context the sequencer decodes a record in, and the registers as the host reads and writes them (10_state.md R21). -/

namespace Sys2Proof.Machine

/-! ## The bit reader -/

/-- Stream bit `q`: bit `7 - (q mod 8)` of byte `q div 8` (R13, R63). -/
def State.streamBit (s : State) (q : Nat) : Bool := (s.ibufByte (q / 8)).toNat.testBit (7 - q % 8)

/-- `k` stream bits from `q` on. -/
def State.bitsFrom (s : State) : (q k : Nat) → List Bool
  | _, 0 => []
  | q, k + 1 => s.streamBit q :: s.bitsFrom (q + 1) k

/-- The bits at `RPOS`: the next `n`, or as many as the stream still has (R33, R156). -/
def State.window (s : State) (n : Nat) : List Bool := s.bitsFrom s.rpos (min n (8 * s.inLen - s.rpos))

/-- `PeekBits(n)` (R156). DESIGN CHOICE (log 28): a width of 0 reads the number 0 and a width above 20 as many bits; no rule
peeks so. -/
def peekBits (n : Nat) (s : State) : Except Cause Nat :=
  match takeBits n (s.window n) with
  | some (v, _) => .ok v
  | none => .error .truncatedStream

/-- `SkipBits(n)` (R158). -/
def skipBits (n : Nat) (s : State) : State := { s with rpos := s.rpos + n }

/-- `GetBits(n)` (R157), at any width as `peekBits` (log 28). -/
def getBits (n : Nat) (s : State) : Except Cause (Nat × State) :=
  match peekBits n s with
  | .ok v => .ok (v, skipBits n s)
  | .error c => .error c

/-- `GetByte()` (R155), at any `RPOS` (log 28). -/
def getByte (s : State) : Except Cause (Byte × State) :=
  match getBits 8 s with
  | .ok (v, s') => .ok (BitVec.ofNat 8 v, s')
  | .error c => .error c

/-! ## Decoding at `RPOS` -/

/-- The format of the record a RESTORE reads next (R102, R104). -/
def State.ctx (s : State) : Ctx :=
  match s.dec with
  | .header => .hdr
  | .raw => .raw
  | .rle => .rle
  | .lzw => .lzw s.w
  | .hufSize => .hsz
  | .hufTable => .hen
  | .hufCodes => .hcw s.lens s.dtab

/-- How many bytes the current channel still lacks (R177). -/
def State.rleRoom (s : State) : Nat := s.n - s.rleCnt

/-- The fault of a record that is not there. An RLE record cut after its control byte: the count is tested before its data
is read (R180 (e)). -/
def State.rejectCause (s : State) : Reject → Cause
  | .truncated => .truncatedStream
  | .truncatedData count => if s.rleRoom < count then .malformedStream else .truncatedStream
  | .noCode => .malformedStream

/-- A RESTORE fetches its next record at `RPOS` and moves past it (R33). -/
def readRecord (s : State) : Fetched :=
  match decode s.ctx (s.window s.ctx.maxBits) with
  | .ok (i, rest) => .record i (skipBits ((s.window s.ctx.maxBits).length - rest.length) s)
  | .error r => .raised (s.rejectCause r) s

/-! ## Registers as the host sees them (R21) -/

/-- `RegRead(n)` (R21): a write-only register and numbers 11 and above read 0. -/
def State.regRead (s : State) (n : Nat) : Nat :=
  match n with
  | 0 => 0
  | 1 => s.statusBits.toNat
  | 2 => s.causeBits.toNat
  | 3 => s.width.toNat
  | 4 => s.height.toNat
  | 5 => s.lzwW.toNat
  | 6 => s.inLen
  | 7 => s.outLen
  | 8 => s.inUsed
  | 9 => s.statTable.toNat
  | 10 => s.statClears
  | _ => 0

/-- `RegWrite(n, v)` to a register other than `CMD` in `IDLE` or `DONE` (R21, R25, R26, R27): the register keeps the low
bits of the value; a read-only register and numbers 11 and above ignore it. -/
def State.regWrite (s : State) (n v : Nat) : State :=
  match n with
  | 3 => { s with width := BitVec.ofNat 16 v }
  | 4 => { s with height := BitVec.ofNat 16 v }
  | 5 => { s with lzwW := BitVec.ofNat 5 v }
  | 6 => { s with inLen := v % 2 ^ s.params.lenW }
  | _ => s

end Sys2Proof.Machine
end

