-- ==== Sys2Proof/Machine/Huffman.lean ====
section
/-! DEFINITION. The Huffman tree builder, the code table, and the meanings of `HSZ`, `HEN` and `HCW`
(44_huffman.md). -/

namespace Sys2Proof.Machine

/-! ## The frequency pass and the tree (R221 to R225) -/

/-- One more occurrence of byte `b` (R221). -/
def freqBump (freq : List Nat) (b : Byte) : List Nat := freq.set b.toNat (freq.getD b.toNat 0 + 1)

/-- The frequency pass (R221). -/
def freqCount (freq : List Nat) (bytes : List Byte) : List Nat := bytes.foldl freqBump freq

/-- The leaves, one per byte value that occurs, in ascending order of byte value (R222); `b` is the value the front of
the list counts. -/
def hufLeaves : (b : Nat) → (freq : List Nat) → List HufNode
  | _, [] => []
  | b, f :: fs => if 0 < f then .leaf f (BitVec.ofNat 8 b) :: hufLeaves (b + 1) fs else hufLeaves (b + 1) fs

/-- `NODE[j].freq` (R46). -/
def nodeFreq (nodes : List HufNode) (j : Nat) : Nat :=
  match nodes[j]? with
  | some (.leaf f _) => f
  | some (.node f _ _) => f
  | none => 0

/-- Node `a` is extracted before node `b`: the smaller frequency, then the tie-break (R224). -/
def hufBefore (nodes : List HufNode) (a b : Nat) : Bool :=
  decide (nodeFreq nodes a < nodeFreq nodes b) ||
    (decide (nodeFreq nodes a = nodeFreq nodes b) && Config.hufTiebreak a b)

/-- The first node of `j :: js` to be extracted. -/
def hufMin (nodes : List HufNode) : (j : Nat) → (js : List Nat) → Nat
  | j, [] => j
  | j, x :: xs => hufMin nodes (if hufBefore nodes x j then x else j) xs

/-- `ExtractMin(QUEUE)` (R224). -/
def extractMin (nodes : List HufNode) : (queue : List Nat) → Option (Nat × List Nat)
  | [] => none
  | j :: js => some (hufMin nodes j js, (j :: js).erase (hufMin nodes j js))

/-- The merge loop (R223), at most `fuel` turns: the first node extracted is the left child. -/
def hufMerge : (fuel : Nat) → List HufNode → (queue : List Nat) → List HufNode × List Nat
  | 0, nodes, queue => (nodes, queue)
  | fuel + 1, nodes, queue =>
    match extractMin nodes queue with
    | none => (nodes, queue)
    | some (x, q1) =>
      match extractMin nodes q1 with
      | none => (nodes, queue)
      | some (y, q2) =>
        hufMerge fuel (nodes ++ [.node (nodeFreq nodes x + nodeFreq nodes y) x y]) (q2 ++ [nodes.length])

/-! ## Code assignment (R226 to R228) -/

/-- `Assign(j, v, d)` (R226) at most `fuel` nodes deep. A node that is not there would be a malformed tree (R242): that
branch and the end of the fuel are the engine's self-check (R264; log 17). -/
def hufAssign (nodes : List HufNode) :
    (fuel j v d : Nat) → List Nat × List Half → Except Cause (List Nat × List Half)
  | 0, _, _, _, _ => .error .malformedTree
  | fuel + 1, j, v, d, t =>
    match nodes[j]? with
    | none => .error .malformedTree
    | some (.leaf _ sym) =>
      if 16 < d then .error .codeTooLong
      else .ok (t.1.set sym.toNat d, t.2.set sym.toNat (BitVec.ofNat 16 v))
    | some (.node _ left right) =>
      match hufAssign nodes fuel left (v * 2) (d + 1) t with
      | .error c => .error c
      | .ok t1 => hufAssign nodes fuel right (v * 2 + 1) (d + 1) t1

/-- The tree and the codes of `HufEncode` (R221 to R228), before anything is written. One distinct byte value has the
one-bit code 0 (R225). -/
def hufBuild (s : State) : Res :=
  let freq := freqCount s.freq (s.ibufBytes 0 s.total)
  let leaves := hufLeaves 0 freq
  match leaves with
  | [.leaf _ sym] =>
    .ok { s with freq := freq, nodes := leaves, queue := [0],
                 hlen := s.hlen.set sym.toNat 1, hcode := s.hcode.set sym.toNat 0 }
  | _ =>
    let merged := hufMerge leaves.length leaves (List.range leaves.length)
    let s1 := { s with freq := freq, nodes := merged.1, queue := merged.2 }
    match merged.2 with
    | [root] =>
      match hufAssign merged.1 merged.1.length root 0 0 (s.hlen, s.hcode) with
      | .ok t => .ok { s1 with hlen := t.1, hcode := t.2 }
      | .error c => .raised c s1
    | _ => .raised .malformedTree s1

/-! ## Writing the table and the payload (R229, R230) -/

/-- The first byte value at or above the front's that has a code; `b` is the front's value. -/
def symbolFrom : (b : Nat) → (hlen : List Nat) → Option Nat
  | _, [] => none
  | b, l :: ls => if 0 < l then some b else symbolFrom (b + 1) ls

/-- The next byte value of the loop of R229, from `idx` on. -/
def State.nextSymbol (s : State) : Option Nat := symbolFrom s.idx (s.hlen.drop s.idx)

/-- `HLEN[b]` (R47). -/
def State.codeLen (s : State) (b : Nat) : Nat := s.hlen.getD b 0

/-- `HCODE[b]` (R47). -/
def State.codeVal (s : State) (b : Nat) : Half := s.hcode.getD b 0

/-- `PutByte(k - 1)`, the table size (R229). -/
def emitHsz (n : Byte) (s : State) : Res :=
  (putByte n s).bind (fun s1 => .ok { s1 with enc := .hufTable, idx := 0 })

/-- One table entry (R229); after the last the code words follow. -/
def emitHen (sym len : Byte) (code : Half) (s : State) : Res :=
  (putBytes [sym, len, hiByte code, loByte code] s).bind (fun s1 =>
    let s2 := { s1 with idx := sym.toNat + 1 }
    if s2.nextSymbol.isSome then .ok s2 else .ok { s2 with enc := .hufCodes, idx := 0 })

/-- One code word (R230); after the last the pad follows. -/
def emitHcw (len : BitVec 5) (code : Half) (s : State) : Res :=
  (putBits code.toNat len.toNat s).bind (fun s1 =>
    let s2 := { s1 with idx := s1.idx + 1 }
    if s2.idx < s2.total then .ok s2 else .ok { s2 with enc := .pad })

/-! ## Reading the table and the payload (R235 to R241) -/

/-- `DN <- GetByte() + 1` (R235). -/
def readHsz (n : Byte) (s : State) : Res :=
  .ok { s with dn := n.toNat + 1, dtab := [], dec := .hufTable }

/-- `LENS` (R237): the distinct lengths in use, ascending. -/
def lensOf (entries : List HufEntry) : List Nat :=
  (List.range 17).filter (fun l => entries.any (fun e => decide (e.len = l)))

/-- One table entry and its checks in the order of R236; after the last `LENS` is known and the code words follow. -/
def readHen (sym len : Byte) (code : Half) (s : State) : Res :=
  if len.toNat = 0 ∨ 16 < len.toNat then .raised .malformedStream s
  else if 2 ^ len.toNat ≤ code.toNat then .raised .malformedStream s
  else if (hufLookup s.dtab len.toNat code.toNat).isSome then .raised .malformedStream s
  else
    let dtab := s.dtab ++ [{ sym := sym, len := len.toNat, code := code.toNat }]
    if dtab.length < s.dn then .ok { s with dtab := dtab }
    else .ok { s with dtab := dtab, lens := lensOf dtab, dec := .hufCodes }

/-- One code word (R238); when `TOTAL` bytes are out decoding ends (R241). A code that is in no entry is R239. -/
def readHcw (len : BitVec 5) (code : Half) (s : State) : Res :=
  match hufLookup s.dtab len.toNat code.toNat with
  | none => .raised .malformedStream s
  | some b => (putByte b s).bind (fun s1 => if s1.wpos < s1.total then .ok s1 else .ok (finishRestore s1))

/-! ## The meanings -/

/-- `HSZ` in either direction. -/
def hszRecord (n : Byte) (s : State) : Res :=
  match s.dir with
  | .compress => emitHsz n s
  | .restore => readHsz n s

/-- `HEN` in either direction. -/
def henRecord (sym len : Byte) (code : Half) (s : State) : Res :=
  match s.dir with
  | .compress => emitHen sym len code s
  | .restore => readHen sym len code s

/-- `HCW` in either direction. -/
def hcwRecord (len : BitVec 5) (code : Half) (s : State) : Res :=
  match s.dir with
  | .compress => emitHcw len code s
  | .restore => readHcw len code s

/-- The meaning of `HSZ`. -/
def execHsz (n : Byte) (s : State) : Host.Outcome State Fault Refusal := .next (hszRecord n s).settle

/-- The meaning of `HEN`. -/
def execHen (sym len : Byte) (code : Half) (s : State) : Host.Outcome State Fault Refusal :=
  .next (henRecord sym len code s).settle

/-- The meaning of `HCW`. -/
def execHcw (len : BitVec 5) (code : Half) (s : State) : Host.Outcome State Fault Refusal :=
  .next (hcwRecord len code s).settle

end Sys2Proof.Machine
end

