-- ==== Sys2Proof/Machine/Lzw.lean ====
section
/-! DEFINITION. The LZW encoder and decoder (43_lzw.md): the table, and the meanings of the twelve LZW code rows. -/

namespace Sys2Proof.Machine

/-! ## The table (R40, R42, R193, R195) -/

/-- Entry `k` of the table, defined for `258 <= k < NEXT` (R40). -/
def lzwEntry (table : List LzwEntry) (k : Nat) : Option LzwEntry :=
  if k < 258 then none else table[k - 258]?

/-- The loop of `Find(p, b)`; the front entry has code `k`. -/
def findFrom (p : Nat) (b : Byte) : List LzwEntry → (k : Nat) → Option Nat
  | [], _ => none
  | e :: es, k => if e.pfx = p ∧ e.sfx = b then some k else findFrom p b es (k + 1)

/-- `Find(p, b)` (R193). -/
def State.lzwFind (s : State) (p : Nat) (b : Byte) : Option Nat := findFrom p b s.lzwTable 258

/-- `str(c)` with at most `fuel` uses of `PREFIX`. DESIGN CHOICE (log 27): empty for 256, 257 and from `NEXT` on, where R42
leaves it undefined and no rule applies it. -/
def lzwStrFuel (table : List LzwEntry) : (fuel c : Nat) → List Byte
  | 0, _ => []
  | fuel + 1, c =>
    if c < 256 then [BitVec.ofNat 8 c]
    else
      match lzwEntry table c with
      | some e => lzwStrFuel table fuel e.pfx ++ [e.sfx]
      | none => []

/-- `str(c)` (R42): `PREFIX[c] < c`, so the recursion uses each entry at most once. -/
def lzwStr (table : List LzwEntry) (c : Nat) : List Byte := lzwStrFuel table (table.length + 1) c

/-- `first(c)` with at most `fuel` uses of `PREFIX` (R42). DESIGN CHOICE (log 27): the byte 0 for 256, 257 and from `NEXT`
on, where R42 leaves it undefined and no rule applies it. -/
def lzwFirstFuel (table : List LzwEntry) : (fuel c : Nat) → Byte
  | 0, _ => 0
  | fuel + 1, c =>
    if c < 256 then BitVec.ofNat 8 c
    else
      match lzwEntry table c with
      | some e => lzwFirstFuel table fuel e.pfx
      | none => 0

/-- `first(c)` (R42). -/
def lzwFirst (table : List LzwEntry) (c : Nat) : Byte := lzwFirstFuel table (table.length + 1) c

/-- `Insert(p, b)` at code `NEXT` (R195). -/
def lzwInsert (p : Nat) (b : Byte) (s : State) : State :=
  { s with lzwTable := s.lzwTable ++ [{ pfx := p, sfx := b }] }

/-! ## The encoder (R194 to R198) -/

/-- `EmitCode(c)` (R198). -/
def emitCode (w : LzwWidth) (c : Nat) (s : State) : Res := putBits c w.bits s

/-- The part of the loop of R194 that emits nothing: the buffer `CUR` grows while `extended` is in the table. -/
def lzwScanLoop : (fuel : Nat) → State → State
  | 0, s => s
  | fuel + 1, s =>
    if s.idx < s.total then
      match s.cur with
      | none => lzwScanLoop fuel { s with cur := some (s.ibufByte s.idx).toNat, idx := s.idx + 1 }
      | some p =>
        match s.lzwFind p (s.ibufByte s.idx) with
        | some k => lzwScanLoop fuel { s with cur := some k, idx := s.idx + 1 }
        | none => s
    else s

/-- Read input bytes up to the one that is not in the table with `CUR`, or to the end (R194). -/
def lzwScan (s : State) : State := lzwScanLoop (s.total - s.idx) s

/-- The code of a CLEAR record written by a COMPRESS: the table is seeded, `CLEARS` counts it (R194, R196). -/
def emitClear (w : LzwWidth) (s : State) : Res :=
  (emitCode w 256 { s with lzwTable := [] }).bind
    (fun s1 => .ok { s1 with clears := s1.clears + 1, enc := .lzwCodes })

/-- An ordinary code written by a COMPRESS, the code of `CUR`. Before the end of the input: `Insert(CUR, b)` for the byte
`b` that ended the phrase, `CUR <- b`, and a CLEAR is due when the table has reached capacity (R194, R196).
At the end of the input END follows (R197). -/
def emitOrdinary (w : LzwWidth) (c : Nat) (s : State) : Res :=
  (emitCode w c s).bind (fun s1 =>
    if s1.idx < s1.total then
      let b := s1.ibufByte s1.idx
      let s2 := lzwInsert c b s1
      .ok { s2 with cur := some b.toNat, idx := s2.idx + 1,
                    enc := if s2.next = w.cap then .lzwClear else .lzwCodes }
    else .ok { s1 with enc := .lzwEnd })

/-- The END code written by a COMPRESS; the pad follows (R194, R197). -/
def emitEnd (w : LzwWidth) (s : State) : Res :=
  (emitCode w 257 s).bind (fun s1 => .ok { s1 with enc := .pad })

/-! ## The decoder (R200 to R209) -/

/-- `EmitString(bytes)` (R209). -/
def emitString (bytes : List Byte) (s : State) : Res :=
  if s.total < s.wpos + bytes.length then .raised .malformedStream s else putBytes bytes s

/-- Insert and emit, the end of the ordinary case (R201, R208); `c` becomes `PREV`. -/
def learnAndEmit (w : LzwWidth) (c p : Nat) (fb : Byte) (bytes : List Byte) (s : State) : Res :=
  if s.next = w.cap then .raised .tableOverflow s
  else (emitString bytes (lzwInsert p fb s)).bind (fun s1 => .ok { s1 with prev := some c })

/-- An ordinary code read by a RESTORE (R200, R201, R204 to R208). -/
def readOrdinary (w : LzwWidth) (c : Nat) (s : State) : Res :=
  if s.started = false then .raised .malformedStream s
  else
    match s.prev with
    | none =>
      if 258 ≤ c then .raised .malformedStream s
      else (emitString [BitVec.ofNat 8 c] s).bind (fun s1 => .ok { s1 with prev := some c })
    | some p =>
      if c < s.next then learnAndEmit w c p (lzwFirst s.lzwTable c) (lzwStr s.lzwTable c) s
      else if c = s.next then
        learnAndEmit w c p (lzwFirst s.lzwTable p) (lzwStr s.lzwTable p ++ [lzwFirst s.lzwTable p]) s
      else .raised .malformedStream s

/-- CLEAR read by a RESTORE (R200, R202). -/
def readClear (s : State) : Res :=
  .ok { s with started := true, lzwTable := [], prev := none, clears := s.clears + 1 }

/-- END read by a RESTORE (R200, R203, R209). -/
def readEnd (s : State) : Res :=
  if s.started = false then .raised .malformedStream s
  else if s.wpos ≠ s.total then .raised .malformedStream s
  else .ok (finishRestore s)

/-! ## The meanings -/

/-- An ordinary code in either direction. -/
def lzwOrdinary (w : LzwWidth) (c : Nat) (s : State) : Res :=
  match s.dir with
  | .compress => emitOrdinary w c s
  | .restore => readOrdinary w c s

/-- CLEAR in either direction. -/
def lzwClear (w : LzwWidth) (s : State) : Res :=
  match s.dir with
  | .compress => emitClear w s
  | .restore => readClear s

/-- END in either direction. -/
def lzwEnd (w : LzwWidth) (s : State) : Res :=
  match s.dir with
  | .compress => emitEnd w s
  | .restore => readEnd s

/-- The meaning of `LZW.LIT.W12`. -/
def execLzwLit12 (v : Byte) (s : State) : Host.Outcome State Fault Refusal :=
  .next (lzwOrdinary .w12 v.toNat s).settle

/-- The meaning of `LZW.CLEAR.W12`. -/
def execLzwClear12 (s : State) : Host.Outcome State Fault Refusal := .next (lzwClear .w12 s).settle

/-- The meaning of `LZW.END.W12`. -/
def execLzwEnd12 (s : State) : Host.Outcome State Fault Refusal := .next (lzwEnd .w12 s).settle

/-- The meaning of `LZW.PHRASE.W12`. -/
def execLzwPhrase12 (c : BitVec 12) (s : State) : Host.Outcome State Fault Refusal :=
  .next (lzwOrdinary .w12 c.toNat s).settle

/-- The meaning of `LZW.LIT.W16`. -/
def execLzwLit16 (v : Byte) (s : State) : Host.Outcome State Fault Refusal :=
  .next (lzwOrdinary .w16 v.toNat s).settle

/-- The meaning of `LZW.CLEAR.W16`. -/
def execLzwClear16 (s : State) : Host.Outcome State Fault Refusal := .next (lzwClear .w16 s).settle

/-- The meaning of `LZW.END.W16`. -/
def execLzwEnd16 (s : State) : Host.Outcome State Fault Refusal := .next (lzwEnd .w16 s).settle

/-- The meaning of `LZW.PHRASE.W16`. -/
def execLzwPhrase16 (c : BitVec 16) (s : State) : Host.Outcome State Fault Refusal :=
  .next (lzwOrdinary .w16 c.toNat s).settle

/-- The meaning of `LZW.LIT.W20`. -/
def execLzwLit20 (v : Byte) (s : State) : Host.Outcome State Fault Refusal :=
  .next (lzwOrdinary .w20 v.toNat s).settle

/-- The meaning of `LZW.CLEAR.W20`. -/
def execLzwClear20 (s : State) : Host.Outcome State Fault Refusal := .next (lzwClear .w20 s).settle

/-- The meaning of `LZW.END.W20`. -/
def execLzwEnd20 (s : State) : Host.Outcome State Fault Refusal := .next (lzwEnd .w20 s).settle

/-- The meaning of `LZW.PHRASE.W20`. -/
def execLzwPhrase20 (c : BitVec 20) (s : State) : Host.Outcome State Fault Refusal :=
  .next (lzwOrdinary .w20 c.toNat s).settle

end Sys2Proof.Machine
end

