-- ==== Sys2Proof/Machine/Rle.lean ====
section
/-! DEFINITION. The RLE encoder and decoder (42_rle.md): the run finder and the meanings of `RLE.REP` and `RLE.LIT`. -/

namespace Sys2Proof.Machine

/-! ## Run finding (R171, R172) -/

/-- The loop of `SameRun(i)`, at most `fuel` more turns; `a j` is byte `j` of the channel. -/
def sameRunLoop (a : Nat → Byte) (n i : Nat) : (fuel run : Nat) → Nat
  | 0, run => run
  | fuel + 1, run =>
    if i + run < n ∧ a (i + run) = a i ∧ run < 127 then sameRunLoop a n i fuel (run + 1) else run

/-- `SameRun(i)` (R171). -/
def sameRun (a : Nat → Byte) (n i : Nat) : Nat := sameRunLoop a n i 127 1

/-- The loop of `LitRun(i)`, at most `fuel` more turns. -/
def litRunLoop (a : Nat → Byte) (n i : Nat) : (fuel run : Nat) → Nat
  | 0, run => run
  | fuel + 1, run =>
    if i + run + 1 < n ∧ a (i + run) ≠ a (i + run + 1) ∧ run < 127 then litRunLoop a n i fuel (run + 1) else run

/-- `LitRun(i)` (R172). -/
def litRun (a : Nat → Byte) (n i : Nat) : Nat := litRunLoop a n i 128 0

/-- `a[j]`, byte `j` of the channel being encoded. -/
def State.channelByte (s : State) (j : Nat) : Byte := s.ibufByte (s.rleBase + j)

/-- `S <- SameRun(I)` and, when `S` is 1, `L <- LitRun(I)`, at least 1 (R173, R176). -/
def rleScan (s : State) : State :=
  let run := sameRun s.channelByte s.n s.rleI
  if 1 < run then { s with rleS := run }
  else { s with rleS := run, rleL := max 1 (litRun s.channelByte s.n s.rleI) }

/-- The record the encoder writes at `I` (R173). -/
def State.rleNext (s : State) : Instr :=
  if 1 < s.rleS then .rleRep (BitVec.ofNat 7 s.rleS) (s.channelByte s.rleI)
  else .rleLit (s.ibufBytes (s.rleBase + s.rleI) s.rleL)

/-! ## Writing a record -/

/-- `I <- I + k`, on to the next channel or the end (R128, R173). -/
def rleAdvance (k : Nat) (s : State) : State :=
  if s.rleI + k < s.n then { s with rleI := s.rleI + k }
  else if s.rleCh + 1 < 3 then { s with rleI := 0, rleBase := s.rleBase + s.n, rleCh := s.rleCh + 1 }
  else finishCompress { s with rleI := s.rleI + k }

/-- The control byte of a repeat record, `0x80 + COUNT` (R95, R174). -/
def repControl (count : Nat) : Byte := BitVec.ofNat 8 (128 + count)

/-- The control byte of a literal record (R95, R175). -/
def litControl (count : Nat) : Byte := BitVec.ofNat 8 count

/-- `EmitRep` (R174). -/
def emitRep (count : BitVec 7) (v : Byte) (s : State) : Res :=
  (putBytes [repControl count.toNat, v] s).bind (fun s1 => .ok (rleAdvance count.toNat s1))

/-- `EmitLit` (R175). -/
def emitLit (data : List Byte) (s : State) : Res :=
  (putBytes (litControl data.length :: data) s).bind (fun s1 => .ok (rleAdvance data.length s1))

/-! ## Reading a record -/

/-- `CNT <- CNT + K`, on to the next channel when it is full, or the end (R129, R177). -/
def rleCount (k : Nat) (s : State) : State :=
  if s.rleCnt + k < s.n then { s with rleCnt := s.rleCnt + k }
  else if s.rleCh + 1 < 3 then { s with rleCnt := 0, rleCh := s.rleCh + 1 }
  else finishRestore { s with rleCnt := s.rleCnt + k }

/-- The body of the loop of R177 after the control byte: `C` is latched, `K <- C[6:0]` is tested against the bytes the
channel still lacks (R180 (a)), the record's bytes are produced. -/
def rleProduce (control : Byte) (bytes : List Byte) (s : State) : Res :=
  let s0 := { s with rleC := control, rleK := control.toNat % 128 }
  if s0.rleRoom < s0.rleK then .raised .malformedStream s0
  else (putBytes bytes s0).bind (fun s1 => .ok (rleCount s1.rleK s1))

/-- `DecodeRep(K)` (R178): `V` is latched, `K` copies of it are produced. -/
def decodeRep (count : BitVec 7) (v : Byte) (s : State) : Res :=
  let s0 := { s with rleV := v }
  rleProduce (repControl count.toNat) (List.replicate count.toNat s0.rleV) s0

/-- `DecodeLit(K)` (R179). -/
def decodeLit (data : List Byte) (s : State) : Res :=
  rleProduce (litControl data.length) data s

/-! ## The meanings -/

/-- `RLE.REP`: written by a COMPRESS (R174), interpreted by a RESTORE (R178). -/
def rleRepRecord (count : BitVec 7) (v : Byte) (s : State) : Res :=
  match s.dir with
  | .compress => emitRep count v s
  | .restore => decodeRep count v s

/-- `RLE.LIT`: written by a COMPRESS (R175), interpreted by a RESTORE (R179). -/
def rleLitRecord (data : List Byte) (s : State) : Res :=
  match s.dir with
  | .compress => emitLit data s
  | .restore => decodeLit data s

/-- The meaning of `RLE.REP`. -/
def execRleRep (count : BitVec 7) (v : Byte) (s : State) : Host.Outcome State Fault Refusal :=
  .next (rleRepRecord count v s).settle

/-- The meaning of `RLE.LIT`. -/
def execRleLit (data : List Byte) (s : State) : Host.Outcome State Fault Refusal :=
  .next (rleLitRecord data s).settle

end Sys2Proof.Machine
end

