-- ==== Sys2Proof/Machine/Header.lean ====
section
/-! DEFINITION. The header framing, the NoOp payload and the end padding (40_commands.md R124 to R127,
41_bitstream.md R153): the meanings of `HDR`, `RAW` and `PAD`. -/

namespace Sys2Proof.Machine

/-! ## From the header to the payload -/

/-- After the header of a COMPRESS (R123): the first payload record of the codec. Huffman builds its tree and codes here,
before the table is written (R221 to R228). -/
def beginEncode (s : State) : Res :=
  match s.alg with
  | .noop => .ok { s with enc := .raw, idx := 0 }
  | .rle => .ok { s with enc := .rle, rleBase := 0, rleI := 0, rleCh := 0 }
  | .lzw => .ok { s with enc := .lzwClear, idx := 0 }
  | .huf => (hufBuild s).bind (fun s1 => .ok { s1 with enc := .hufSize, idx := 0 })

/-- After the header of a RESTORE (R125): the first payload record of the codec. NoOp tests the length of the stream
before a byte is copied (R127). -/
def beginDecode (s : State) : Res :=
  match s.alg with
  | .noop => if s.inLen < 4 + s.total then .raised .truncatedStream s else .ok { s with dec := .raw }
  | .rle => .ok { s with dec := .rle, rleCh := 0, rleCnt := 0 }
  | .lzw => .ok { s with dec := .lzw }
  | .huf => .ok { s with dec := .hufSize }

/-- `WriteHeader()` (R124). -/
def emitHeader (width height : Half) (s : State) : Res :=
  (putBytes [hiByte width, loByte width, hiByte height, loByte height] s).bind beginEncode

/-- The header of a RESTORE (R125): `WIDTH` and `HEIGHT` are latched, then the area and the capacity are tested. -/
def readHeader (width height : Half) (s : State) : Res :=
  let s1 := { s with width := width, height := height }
  if s1.n = 0 then .raised .invalidInput s1
  else if s1.params.obufCap < s1.total then .raised .outputOverflow s1
  else beginDecode s1

/-! ## The NoOp payload -/

/-- One byte of the copy of R126. -/
def emitRaw (b : Byte) (s : State) : Res :=
  (putByte b s).bind (fun s1 =>
    let s2 := { s1 with idx := s1.idx + 1 }
    if s2.idx < s2.total then .ok s2 else .ok (finishCompress s2))

/-- One byte of the copy of R127. -/
def readRaw (b : Byte) (s : State) : Res :=
  (putByte b s).bind (fun s1 => if s1.wpos < s1.total then .ok s1 else .ok (finishRestore s1))

/-! ## The meanings -/

/-- `HDR` in either direction. -/
def hdrRecord (width height : Half) (s : State) : Res :=
  match s.dir with
  | .compress => emitHeader width height s
  | .restore => readHeader width height s

/-- `RAW` in either direction. -/
def rawRecord (b : Byte) (s : State) : Res :=
  match s.dir with
  | .compress => emitRaw b s
  | .restore => readRaw b s

/-- `PAD`: a COMPRESS appends the `n` zero bits and is complete (R134, R153); a RESTORE never reads or examines pad bits
(R159), so there it has no effect. -/
def padRecord (n : BitVec 3) (s : State) : Res :=
  match s.dir with
  | .compress => (putBits 0 n.toNat s).bind (fun s1 => .ok (finishCompress s1))
  | .restore => .ok s

/-- The meaning of `HDR`. -/
def execHdr (width height : Half) (s : State) : Host.Outcome State Fault Refusal :=
  .next (hdrRecord width height s).settle

/-- The meaning of `RAW`. -/
def execRaw (b : Byte) (s : State) : Host.Outcome State Fault Refusal := .next (rawRecord b s).settle

/-- The meaning of `PAD`. -/
def execPad (n : BitVec 3) (s : State) : Host.Outcome State Fault Refusal := .next (padRecord n s).settle

end Sys2Proof.Machine
end

