-- ==== Sys2Proof/Machine/Engine.lean ====
section
/-! DEFINITION. The sequencer: which record comes next, and one turn of the engine while it is `BUSY`
(40_commands.md R123, R125, R139; 10_state.md R33). -/

namespace Sys2Proof.Machine

/-! ## The next record -/

/-- What a COMPRESS does before it can write its next record: find the run (R173) or the phrase (R194). -/
def encScan (s : State) : State :=
  match s.enc with
  | .header => s
  | .raw => s
  | .rle => rleScan s
  | .lzwClear => s
  | .lzwCodes => lzwScan s
  | .lzwEnd => s
  | .hufSize => s
  | .hufTable => s
  | .hufCodes => s
  | .pad => s

/-- The Huffman table entry of byte value `b` (R229). -/
def State.henFor (s : State) (b : Nat) : Instr :=
  .hen (BitVec.ofNat 8 b) (BitVec.ofNat 8 (s.codeLen b)) (s.codeVal b)

/-- The code word of byte value `b` (R230). -/
def State.hcwFor (s : State) (b : Nat) : Instr := .hcw (BitVec.ofNat 5 (s.codeLen b)) (s.codeVal b)

/-- The record a COMPRESS writes next, after `encScan` (R102, R123). -/
def State.encNext (s : State) : Instr :=
  match s.enc with
  | .header => .hdr s.width s.height
  | .raw => .raw (s.ibufByte s.idx)
  | .rle => s.rleNext
  | .lzwClear => lzwInstr s.w 256
  | .lzwCodes => lzwInstr s.w (s.cur.getD 0)
  | .lzwEnd => lzwInstr s.w 257
  | .hufSize => .hsz (BitVec.ofNat 8 (s.hufCount - 1))
  | .hufTable => s.henFor (s.nextSymbol.getD 255)
  | .hufCodes => s.hcwFor (s.ibufByte s.idx).toNat
  | .pad => .pad (BitVec.ofNat 3 s.padWidth)

/-- The next record of the running command: chosen by a COMPRESS, read from the stream by a RESTORE. -/
def fetchRecord (s : State) : Fetched :=
  match s.dir with
  | .compress => .record (encScan s).encNext (encScan s)
  | .restore => readRecord s

/-! ## One turn -/

/-- The state an outcome leaves: the next state, or the one before where there is none. -/
def stateAfter (s : State) : Host.Outcome State Fault Refusal → State
  | .next t => t
  | .fault _ => s
  | .refused _ => s

/-- The effect of a record: the state its meaning leaves. A command word is no record of a stream. -/
def recordEffect (i : Instr) (s : State) : State :=
  match i with
  | .cnoop => s
  | .crle => s
  | .clzw => s
  | .chuf => s
  | .rnoop => s
  | .rrle => s
  | .rlzw => s
  | .rhuf => s
  | .sreset => s
  | .cmdIllegal _ => s
  | .hdr width height => stateAfter s (execHdr width height s)
  | .raw b => stateAfter s (execRaw b s)
  | .rleRep count v => stateAfter s (execRleRep count v s)
  | .rleLit data => stateAfter s (execRleLit data s)
  | .lzwLit12 v => stateAfter s (execLzwLit12 v s)
  | .lzwClear12 => stateAfter s (execLzwClear12 s)
  | .lzwEnd12 => stateAfter s (execLzwEnd12 s)
  | .lzwPhrase12 c => stateAfter s (execLzwPhrase12 c s)
  | .lzwLit16 v => stateAfter s (execLzwLit16 v s)
  | .lzwClear16 => stateAfter s (execLzwClear16 s)
  | .lzwEnd16 => stateAfter s (execLzwEnd16 s)
  | .lzwPhrase16 c => stateAfter s (execLzwPhrase16 c s)
  | .lzwLit20 v => stateAfter s (execLzwLit20 v s)
  | .lzwClear20 => stateAfter s (execLzwClear20 s)
  | .lzwEnd20 => stateAfter s (execLzwEnd20 s)
  | .lzwPhrase20 c => stateAfter s (execLzwPhrase20 c s)
  | .hsz n => stateAfter s (execHsz n s)
  | .hen sym len code => stateAfter s (execHen sym len code s)
  | .hcw len code => stateAfter s (execHcw len code s)
  | .pad n => stateAfter s (execPad n s)

/-- One turn of the engine while it is `BUSY`: fetch a record, run it. -/
def engineTurn (s : State) : State :=
  match fetchRecord s with
  | .record i s1 => recordEffect i s1
  | .raised c s1 => faultEntry c s1

/-- Turns until the engine is no longer `BUSY`, at most `fuel` of them. -/
def runRecords : (fuel : Nat) → State → State
  | 0, s => s
  | fuel + 1, s => if s.state = .busy then runRecords fuel (engineTurn s) else s

/-- More turns than any command takes (R310; log 20): a RESTORE consumes at least one bit of `8 * IN_LEN` per turn, a
COMPRESS writes at most two records per input byte besides the header, a Huffman table, END and the pad. -/
def State.turnBound (s : State) : Nat := 8 * s.inLen + 300

end Sys2Proof.Machine
end

