-- ==== Sys2Proof/Machine/Commands.lean ====
section
/-! DEFINITION. The command words (40_commands.md R120 to R135): acceptance, start, and the meanings of the nine
legal commands and of an illegal word. -/

namespace Sys2Proof.Machine

/-- `LZW_W` as a legal width (R7, R122). -/
def legalWidth (v : BitVec 5) : Option LzwWidth :=
  if v = 12#5 then some .w12
  else if v = 16#5 then some .w16
  else if v = 20#5 then some .w20
  else none

/-- The tests of `Compress` before the header is written (R123). -/
def compressChecks (s : State) : Res :=
  if s.params.ibufCap < s.inLen then .raised .invalidInput s
  else if s.n = 0 then .raised .invalidInput s
  else if s.inLen ≠ s.total then .raised .invalidInput s
  else .ok s

/-- The tests of `Restore` before the header is read (R125). -/
def restoreChecks (s : State) : Res :=
  if s.params.ibufCap < s.inLen then .raised .invalidInput s
  else if s.inLen < 4 then .raised .truncatedStream s
  else .ok s

/-- The tests of the direction. -/
def directionChecks (s : State) : Res :=
  match s.dir with
  | .compress => compressChecks s
  | .restore => restoreChecks s

/-- `StartCommand` up to the first record (R121, R122, R123, R125): `BUSY`, or the fault of a test. -/
def beginCommand (dir : Dir) (alg : Alg) (s : State) : State :=
  let s1 := { startCommand s with dir := dir, alg := alg }
  match alg with
  | .lzw =>
    match legalWidth s1.lzwW with
    | none => (Res.raised .illegalCommand s1).settle
    | some w => (directionChecks { s1 with w := w }).settle
  | .noop => (directionChecks s1).settle
  | .rle => (directionChecks s1).settle
  | .huf => (directionChecks s1).settle

/-- A command from its start to `DONE` or `FAULT` (R76, R310; log 5). -/
def runCommand (dir : Dir) (alg : Alg) (s : State) : State :=
  runRecords s.turnBound (beginCommand dir alg s)

/-- Command acceptance (R120): refused while `BUSY` (U3), ignored in `FAULT`, started in `IDLE` and `DONE`. A command word the
host writes before it has read `DONE` or `FAULT` (R304) does not get here: `hostTurn` refuses it. DESIGN CHOICE (log 29): one that is ignored in `FAULT` does not take the
host's hands off. -/
def acceptCommand (run : State → State) (s : State) : Host.Outcome State Fault Refusal :=
  match s.state with
  | .busy => .refused .busyAccess
  | .fault => .next s
  | .idle => .next (run s)
  | .done => .next (run s)

/-- A command word outside R92: `IllegalCommand` after command start (R122). -/
def beginIllegal (s : State) : State := (Res.raised .illegalCommand (startCommand s)).settle

/-! ## The meanings -/

/-- The meaning of `CNOOP` (R126). -/
def execCnoop (s : State) : Host.Outcome State Fault Refusal := acceptCommand (runCommand .compress .noop) s

/-- The meaning of `CRLE` (R128). -/
def execCrle (s : State) : Host.Outcome State Fault Refusal := acceptCommand (runCommand .compress .rle) s

/-- The meaning of `CLZW` (R130). -/
def execClzw (s : State) : Host.Outcome State Fault Refusal := acceptCommand (runCommand .compress .lzw) s

/-- The meaning of `CHUF` (R132). -/
def execChuf (s : State) : Host.Outcome State Fault Refusal := acceptCommand (runCommand .compress .huf) s

/-- The meaning of `RNOOP` (R127). -/
def execRnoop (s : State) : Host.Outcome State Fault Refusal := acceptCommand (runCommand .restore .noop) s

/-- The meaning of `RRLE` (R129). -/
def execRrle (s : State) : Host.Outcome State Fault Refusal := acceptCommand (runCommand .restore .rle) s

/-- The meaning of `RLZW` (R131). -/
def execRlzw (s : State) : Host.Outcome State Fault Refusal := acceptCommand (runCommand .restore .lzw) s

/-- The meaning of `RHUF` (R133). -/
def execRhuf (s : State) : Host.Outcome State Fault Refusal := acceptCommand (runCommand .restore .huf) s

/-- The meaning of `SRESET` (R135), the same in every state. -/
def execSreset (s : State) : Host.Outcome State Fault Refusal := .next (softReset s)

/-- The meaning of any other word (R122): every one of them raises the same fault. -/
def execCmdIllegal (_word : CmdWord) (s : State) : Host.Outcome State Fault Refusal := acceptCommand beginIllegal s

end Sys2Proof.Machine
end

