-- ==== Sys2Proof/Machine/Dispatch.lean ====
section
/-! DEFINITION. One arm per constructor of `Instr`: its meaning. -/

namespace Sys2Proof.Machine

def exec (i : Instr) (s : State) : Host.Outcome State Fault Refusal :=
  match i with
  | .cnoop => Sys2Proof.Machine.execCnoop s
  | .crle => Sys2Proof.Machine.execCrle s
  | .clzw => Sys2Proof.Machine.execClzw s
  | .chuf => Sys2Proof.Machine.execChuf s
  | .rnoop => Sys2Proof.Machine.execRnoop s
  | .rrle => Sys2Proof.Machine.execRrle s
  | .rlzw => Sys2Proof.Machine.execRlzw s
  | .rhuf => Sys2Proof.Machine.execRhuf s
  | .sreset => Sys2Proof.Machine.execSreset s
  | .cmdIllegal word => Sys2Proof.Machine.execCmdIllegal word s
  | .hdr width height => Sys2Proof.Machine.execHdr width height s
  | .raw b => Sys2Proof.Machine.execRaw b s
  | .rleRep count v => Sys2Proof.Machine.execRleRep count v s
  | .rleLit data => Sys2Proof.Machine.execRleLit data s
  | .lzwLit12 v => Sys2Proof.Machine.execLzwLit12 v s
  | .lzwClear12 => Sys2Proof.Machine.execLzwClear12 s
  | .lzwEnd12 => Sys2Proof.Machine.execLzwEnd12 s
  | .lzwPhrase12 c => Sys2Proof.Machine.execLzwPhrase12 c s
  | .lzwLit16 v => Sys2Proof.Machine.execLzwLit16 v s
  | .lzwClear16 => Sys2Proof.Machine.execLzwClear16 s
  | .lzwEnd16 => Sys2Proof.Machine.execLzwEnd16 s
  | .lzwPhrase16 c => Sys2Proof.Machine.execLzwPhrase16 c s
  | .lzwLit20 v => Sys2Proof.Machine.execLzwLit20 v s
  | .lzwClear20 => Sys2Proof.Machine.execLzwClear20 s
  | .lzwEnd20 => Sys2Proof.Machine.execLzwEnd20 s
  | .lzwPhrase20 c => Sys2Proof.Machine.execLzwPhrase20 c s
  | .hsz n => Sys2Proof.Machine.execHsz n s
  | .hen sym len code => Sys2Proof.Machine.execHen sym len code s
  | .hcw len code => Sys2Proof.Machine.execHcw len code s
  | .pad n => Sys2Proof.Machine.execPad n s

end Sys2Proof.Machine
end

