-- ==== Sys2Proof/Machine/HostPort.lean ====
section
/-! DEFINITION. The host's side of the engine: what each host action does in each state (20_memory.md R68, R74,
10_state.md R21, 70_reset_and_hazards.md R300, R304), and the engine's own turn. -/

namespace Sys2Proof.Machine

/-- The engine's turn as a step: the next record is fetched and run. -/
def engineStep (s : State) : Host.Outcome State Fault Refusal :=
  match fetchRecord s with
  | .record i s1 => exec i s1
  | .raised c s1 => .next (faultEntry c s1)

/-- The engine acts while it is `BUSY` and does nothing in the other three states (R69, R281). -/
def engineOrQuiet (s : State) : Host.Outcome State Fault Refusal :=
  match s.state with
  | .busy => engineStep s
  | .idle => .next s
  | .done => .next s
  | .fault => .next s

/-- What a command does up to its first record, for a host that acts again before the command ends (R120, R121). -/
def commandBegin (i : Instr) (s : State) : Host.Outcome State Fault Refusal :=
  match i with
  | .cnoop => acceptCommand (beginCommand .compress .noop) s
  | .crle => acceptCommand (beginCommand .compress .rle) s
  | .clzw => acceptCommand (beginCommand .compress .lzw) s
  | .chuf => acceptCommand (beginCommand .compress .huf) s
  | .rnoop => acceptCommand (beginCommand .restore .noop) s
  | .rrle => acceptCommand (beginCommand .restore .rle) s
  | .rlzw => acceptCommand (beginCommand .restore .lzw) s
  | .rhuf => acceptCommand (beginCommand .restore .huf) s
  | .sreset => .next (softReset s)
  | _ => acceptCommand beginIllegal s

/-- A register write other than to `CMD` (R68): honoured in `IDLE` and `DONE`, ignored in `FAULT`, refused while `BUSY`. -/
def hostRegWrite (n v : Nat) (s : State) : Host.Outcome State Fault Refusal :=
  match s.state with
  | .busy => .refused .busyAccess
  | .fault => .next s
  | .idle => .next (s.regWrite n v)
  | .done => .next (s.regWrite n v)

/-- A write of one `IBUF` byte (R68, R74): honoured in `IDLE` and `DONE`, ignored in `FAULT`, refused while `BUSY`
and at or beyond the capacity. -/
def hostIbufWrite (a : Nat) (b : Byte) (s : State) : Host.Outcome State Fault Refusal :=
  match s.state with
  | .busy => .refused .busyAccess
  | .fault => if s.params.ibufCap ≤ a then .refused .bufferIndex else .next s
  | .idle => if s.params.ibufCap ≤ a then .refused .bufferIndex else .next { s with ibuf := Memory.write s.ibuf a b }
  | .done => if s.params.ibufCap ≤ a then .refused .bufferIndex else .next { s with ibuf := Memory.write s.ibuf a b }

/-- A read of one `OBUF` byte (R68, R74, R75): refused while `BUSY` and at or beyond the capacity. -/
def hostObufRead (a : Nat) (s : State) : Host.Outcome State Fault Refusal :=
  if s.state = .busy then .refused .busyAccess
  else if s.params.obufCap ≤ a then .refused .bufferIndex
  else .next { s with rdata := (s.obufByte a).toNat }

/-- Whether the host's hands are still off after a read of register `n`: a `STATUS` read that returns `DONE` or `FAULT`
frees them (R304, R71). -/
def State.handsOffAfterRead (n : Nat) (s : State) : Bool :=
  if n = 1 ∧ (s.state = .done ∨ s.state = .fault) then false else s.handsOff

/-- A register read (R68): while `BUSY` only of `STATUS`. -/
def hostRegRead (n : Nat) (s : State) : Host.Outcome State Fault Refusal :=
  if s.state = .busy ∧ n ≠ 1 then .refused .busyAccess
  else .next { s with rdata := s.regRead n, handsOff := s.handsOffAfterRead n }

/-- The soft reset word written to `CMD`, or the reset input: the two actions that reset (R271, R300, R301). -/
def resetAction : HostAct → Bool
  | .regWrite n v => decide (n = 0) && decide (BitVec.ofNat 32 v = 0x80#32)
  | .cmdStart word => decide (word = 0x80#32)
  | .regRead _ => false
  | .ibufWrite _ _ => false
  | .obufRead _ => false
  | .hardReset => true
  | .engine => false
  | .wait => false

/-- What the host may do with its hands off: read `STATUS`, write the `SRESET` word, and what is no access of its
own (R304). -/
def handsOffAllows : HostAct → Bool
  | .regWrite n v => resetAction (.regWrite n v)
  | .cmdStart word => resetAction (.cmdStart word)
  | .regRead n => decide (n = 1)
  | .ibufWrite _ _ => false
  | .obufRead _ => false
  | .hardReset => true
  | .engine => true
  | .wait => true

/-- What one host action does when nothing keeps the host's hands off, in a state whose queue no longer holds it. The
last `STATUS` read of a `wait` is the one that is not `BUSY` (R105). -/
def hostEffect (a : HostAct) (s : State) : Host.Outcome State Fault Refusal :=
  match a with
  | .regWrite n v => if n = 0 then exec (decodeCmd (BitVec.ofNat 32 v)) s else hostRegWrite n v s
  | .cmdStart word => commandBegin (decodeCmd word) s
  | .regRead n => hostRegRead n s
  | .ibufWrite a b => hostIbufWrite a b s
  | .obufRead a => hostObufRead a s
  | .hardReset => .next (hardReset s)
  | .engine => engineOrQuiet s
  | .wait =>
    match s.state with
    | .busy => engineStep { s with host := .wait :: s.host }
    | .idle => hostRegRead 1 s
    | .done => hostRegRead 1 s
    | .fault => hostRegRead 1 s

/-- One host action, in a state whose queue no longer holds it: refused from the start of a command until a `STATUS` read
returns `DONE` or `FAULT`, but for what R304 allows. DESIGN CHOICE (log 29): a command word is refused so in `DONE` and
`FAULT` too, where R120 by itself would start or ignore it. -/
def hostTurn (a : HostAct) (s : State) : Host.Outcome State Fault Refusal :=
  if s.handsOff = true ∧ handsOffAllows a = false then .refused .busyAccess else hostEffect a s

/-- `ld IBUF, bytes`: fill `IBUF` from index 0 (R105). -/
def loadIbuf : (a : Nat) → List Byte → List HostAct
  | _, [] => []
  | a, b :: bs => .ibufWrite a b :: loadIbuf (a + 1) bs

/-! ## Placing one word for the next step (log 12) -/

/-- The bytes of a record's bits, the last one filled up with zeros. -/
def recordBytes (bits : List Bool) : List Byte :=
  match takeBytes (ceil8 bits.length) (bits ++ List.replicate 7 false) with
  | some (bytes, _) => bytes
  | none => []

/-- The command word is the host's next action, its hands free; a record is the next one of a RESTORE of a 127 by 1 image
that has read its header. -/
def placeWord (s : State) (ctx : Ctx) (w : Nat) : State :=
  let record := recordBytes (tableBits ctx w)
  let running := { s with
    host := .engine :: s.host, state := .busy, handsOff := true, dir := .restore, width := 127, height := 1, rpos := 32,
    inLen := 4 + record.length,
    ibuf := Memory.writeBytes s.ibuf 0 ([0x00#8, 0x7F#8, 0x00#8, 0x01#8] ++ record) }
  match ctx with
  | .lzw .w12 => { running with alg := .lzw, dec := .lzw, w := .w12, lzwW := 12 }
  | .lzw .w16 => { running with alg := .lzw, dec := .lzw, w := .w16, lzwW := 16 }
  | .lzw .w20 => { running with alg := .lzw, dec := .lzw, w := .w20, lzwW := 20 }
  | .rle => { running with alg := .rle, dec := .rle }
  | _ => { s with host := .regWrite 0 w :: s.host, handsOff := false }

end Sys2Proof.Machine
end

