-- ==== Sys2Proof/Machine/Step.lean ====
section
/-! DEFINITION. One step: the host's next action, or a turn of the engine (20_memory.md R70, R76; log 7). -/

namespace Sys2Proof.Machine

/-- With a host action pending, that action; otherwise a turn of the engine. -/
def step (s : State) : Host.Outcome State Fault Refusal :=
  match s.host with
  | [] => engineOrQuiet s
  | a :: rest => hostTurn a { s with host := rest }

/-- The state whose next step runs the instruction whose bits are `w` as spec/opcode_table.json numbers them
(logs 11, 12). A width no row has leaves the state as it is. -/
def State.withFetchWord (s : State) (nbits w : Nat) : State :=
  match tableCtx nbits w with
  | none => s
  | some ctx => placeWord s ctx w

end Sys2Proof.Machine
end

