-- ==== Sys2Proof/Machine/Reference.lean ====
section
/-! DEFINITION. The codecs as the source states them, on byte lists and without the engine's registers: what the
statements compare the engine with. A stream is a list of records (30_encoding.md R102). -/

namespace Sys2Proof.Machine

/-- The bytes of a stream: the records' bits, the last byte filled up with zeros (R63, R153). -/
def streamBytes (records : List Instr) : List Byte := recordBytes (records.flatMap encode)

/-! ## RLE (42_rle.md), over the bytes of one channel -/

/-- How many of the first `cap` bytes equal `v`, from the front on. -/
def sameLen (v : Byte) : (cap : Nat) → List Byte → Nat
  | 0, _ => 0
  | _, [] => 0
  | cap + 1, x :: xs => if x = v then 1 + sameLen v cap xs else 0

/-- How many of the first `cap` bytes differ from their successor, from the front on. -/
def litLen : (cap : Nat) → List Byte → Nat
  | 0, _ => 0
  | _, [] => 0
  | _, [_] => 0
  | cap + 1, x :: y :: ys => if x = y then 0 else 1 + litLen cap (y :: ys)

/-- The records of a channel (R173, R176), at most `fuel` of them. -/
def rleRecordsFuel : (fuel : Nat) → List Byte → List Instr
  | 0, _ => []
  | _, [] => []
  | fuel + 1, x :: xs =>
    let run := 1 + sameLen x 126 xs
    let lit := max 1 (litLen 127 (x :: xs))
    if 1 < run then .rleRep (BitVec.ofNat 7 run) x :: rleRecordsFuel fuel ((x :: xs).drop run)
    else .rleLit ((x :: xs).take lit) :: rleRecordsFuel fuel ((x :: xs).drop lit)

/-- The records of a channel: every record takes at least one byte (R173). -/
def rleRecords (channel : List Byte) : List Instr := rleRecordsFuel channel.length channel

/-- The bytes one RLE record stands for (R96). -/
def rleYield : Instr → List Byte
  | .rleRep count v => List.replicate count.toNat v
  | .rleLit data => data
  | _ => []

/-- A list of RLE records for one channel of `n` bytes that no record runs over (R177, R180): the counts of all records
sum to `n`, and the loop ends with the last one (records of count 0 come before the channel is full). -/
def RleSegment (n : Nat) (records : List Instr) : Prop :=
  (∀ r ∈ records, r.wellFormed = true ∧ ((∃ k v, r = .rleRep k v) ∨ ∃ d, r = .rleLit d)) ∧
    (records.flatMap rleYield).length = n ∧
    (∀ front r, records = front ++ [r] → rleYield r ≠ [])

/-! ## LZW (43_lzw.md), with the table as a list of strings: phrase `i` has code `258 + i` -/

/-- The string is in the table (R192, R193). -/
def phraseKnown (dict : List (List Byte)) (str : List Byte) : Bool :=
  decide (str.length = 1) || dict.contains str

/-- The code of a known string (R192). -/
def phraseCode (dict : List (List Byte)) : List Byte → Nat
  | [b] => b.toNat
  | str => 258 + dict.idxOf str

/-- The ordinary and CLEAR codes after the leading CLEAR, and the table at the end (R194, R196, R197). -/
def lzwCodesFrom (w : LzwWidth) : (dict : List (List Byte)) → (buffer : List Byte) → List Byte →
    List Nat × List (List Byte)
  | dict, buffer, [] => ([phraseCode dict buffer], dict)
  | dict, buffer, b :: bs =>
    if phraseKnown dict (buffer ++ [b]) then lzwCodesFrom w dict (buffer ++ [b]) bs
    else if 258 + dict.length + 1 = w.cap then
      let rest := lzwCodesFrom w [] [b] bs
      (phraseCode dict buffer :: 256 :: rest.1, rest.2)
    else
      let rest := lzwCodesFrom w (dict ++ [buffer ++ [b]]) [b] bs
      (phraseCode dict buffer :: rest.1, rest.2)

/-- All codes of a payload (R194). -/
def lzwCodes (w : LzwWidth) (input : List Byte) : List Nat := 256 :: (lzwCodesFrom w [] [] input).1 ++ [257]

/-- The string a decoder takes a code for: a literal, a known phrase, or the one being learned (R205, R206). -/
def lzwMeaning (dict : List (List Byte)) (prev : List Byte) (c : Nat) : Option (List Byte) :=
  if c < 256 then some [BitVec.ofNat 8 c]
  else if c < 258 then none
  else if c - 258 < dict.length then dict[c - 258]?
  else if c = 258 + dict.length then some (prev ++ prev.take 1)
  else none

/-- The bytes of the codes between the leading CLEAR and END, with the table and the number of later CLEARs; `none` where
R204, R207 or R208 raise a fault. -/
def lzwDecodeFrom (w : LzwWidth) : (dict : List (List Byte)) → (prev : Option (List Byte)) → List Nat →
    Option (List Byte × List (List Byte) × Nat)
  | dict, _, [] => some ([], dict, 0)
  | dict, prev, c :: cs =>
    if c = 256 then
      match lzwDecodeFrom w [] none cs with
      | some (bytes, dict', k) => some (bytes, dict', k + 1)
      | none => none
    else
      match prev with
      | none =>
        if c < 256 then
          match lzwDecodeFrom w dict (some [BitVec.ofNat 8 c]) cs with
          | some (bytes, rest) => some (BitVec.ofNat 8 c :: bytes, rest)
          | none => none
        else none
      | some p =>
        match lzwMeaning dict p c with
        | none => none
        | some str =>
          if 258 + dict.length = w.cap then none
          else
            match lzwDecodeFrom w (dict ++ [p ++ str.take 1]) (some str) cs with
            | some (bytes, rest) => some (str ++ bytes, rest)
            | none => none

/-! ## Huffman (44_huffman.md), with trees as trees -/

/-- A Huffman tree (R46). -/
inductive HufTree where
  | leaf (freq : Nat) (sym : Byte)
  | node (freq : Nat) (left right : HufTree)
  deriving DecidableEq, Repr

/-- The frequency of a tree's root. -/
def HufTree.weight : HufTree → Nat
  | .leaf f _ => f
  | .node f _ _ => f

/-- The leaves in ascending order of byte value (R222). -/
def hufForest (bytes : List Byte) : List HufTree :=
  (List.range 256).filterMap (fun b =>
    if 0 < bytes.count (BitVec.ofNat 8 b) then
      some (.leaf (bytes.count (BitVec.ofNat 8 b)) (BitVec.ofNat 8 b))
    else none)

/-- The first tree of smallest weight: with the trees in order of creation, the one R224 extracts. -/
def lightest : HufTree → List HufTree → HufTree
  | t, [] => t
  | t, u :: us => if u.weight < t.weight then lightest u us else lightest t us

/-- Merge until one tree is left (R223): the first tree extracted is the left child, the new one is the last created. -/
def mergeForest : (fuel : Nat) → List HufTree → List HufTree
  | 0, forest => forest
  | _, [] => []
  | _, [t] => [t]
  | fuel + 1, t :: u :: us =>
    let x := lightest t (u :: us)
    match (t :: u :: us).erase x with
    | [] => [x]
    | v :: vs =>
      let y := lightest v vs
      mergeForest fuel ((v :: vs).erase y ++ [.node (x.weight + y.weight) x y])

/-- The path of every leaf, root edge first, left `false`, right `true` (R226). -/
def HufTree.paths : HufTree → List (Byte × List Bool)
  | .leaf _ sym => [(sym, [])]
  | .node _ l r => l.paths.map (fun p => (p.1, false :: p.2)) ++ r.paths.map (fun p => (p.1, true :: p.2))

/-- The code of every byte value that occurs; the only one of a one-value input is the bit 0 (R225, R226). -/
def hufPaths (bytes : List Byte) : List (Byte × List Bool) :=
  match mergeForest bytes.length (hufForest bytes) with
  | [.leaf _ sym] => [(sym, [false])]
  | [tree] => tree.paths
  | _ => []

/-- The number a bit string is, first bit most significant (R227). -/
def bitsVal (bits : List Bool) : Nat := bits.foldl (fun acc b => 2 * acc + b.toNat) 0

/-- The code of byte `b`. -/
def pathOf (paths : List (Byte × List Bool)) (b : Byte) : List Bool :=
  match paths.find? (fun p => p.1 == b) with
  | some p => p.2
  | none => []

/-- The table entry of byte `b` (R100, R227). -/
def henOf (paths : List (Byte × List Bool)) (b : Byte) : Instr :=
  .hen b (BitVec.ofNat 8 (pathOf paths b).length) (BitVec.ofNat 16 (bitsVal (pathOf paths b)))

/-- The code word of byte `b` (R101). -/
def hcwOf (paths : List (Byte × List Bool)) (b : Byte) : Instr :=
  .hcw (BitVec.ofNat 5 (pathOf paths b).length) (BitVec.ofNat 16 (bitsVal (pathOf paths b)))

/-- The byte values that occur, ascending. -/
def occurring (bytes : List Byte) : List Byte :=
  ((List.range 256).map (fun b => BitVec.ofNat 8 b)).filter (fun b => decide (0 < bytes.count b))

/-- The records of a Huffman payload (R229, R230). -/
def hufRecords (bytes : List Byte) : List Instr :=
  let paths := hufPaths bytes
  .hsz (BitVec.ofNat 8 ((occurring bytes).length - 1)) ::
    ((occurring bytes).map (henOf paths) ++ bytes.map (hcwOf paths))

end Sys2Proof.Machine
end

