-- ==== Sys2Proof/Safety.lean ====
section
/-! DEFINITION. The terms claims use: when a command may start, what a completed and a faulted command leave, what a
record stores, and the invariant every step keeps. -/

namespace Sys2Proof

/-- The command words of the opcode table. -/
def Instr.isCommand : Instr → Bool
  | .cnoop => true
  | .crle => true
  | .clzw => true
  | .chuf => true
  | .rnoop => true
  | .rrle => true
  | .rlzw => true
  | .rhuf => true
  | .sreset => true
  | .cmdIllegal _ => true
  | _ => false

/-- The stream records of the opcode table. -/
def Instr.isRecord (i : Instr) : Bool := !i.isCommand

/-- The records that are whole bytes and start on a byte boundary (R78). -/
def Instr.wholeBytes : Instr → Bool
  | .hdr _ _ => true
  | .raw _ => true
  | .rleRep _ _ => true
  | .rleLit _ => true
  | .hsz _ => true
  | .hen _ _ _ => true
  | _ => false

/-- The two RLE record rows. -/
def Instr.isRle : Instr → Bool
  | .rleRep _ _ => true
  | .rleLit _ => true
  | _ => false

/-- The twelve LZW code rows. -/
def Instr.isLzw : Instr → Bool
  | .lzwLit12 _ => true
  | .lzwClear12 => true
  | .lzwEnd12 => true
  | .lzwPhrase12 _ => true
  | .lzwLit16 _ => true
  | .lzwClear16 => true
  | .lzwEnd16 => true
  | .lzwPhrase16 _ => true
  | .lzwLit20 _ => true
  | .lzwClear20 => true
  | .lzwEnd20 => true
  | .lzwPhrase20 _ => true
  | _ => false

/-- The three Huffman record rows. -/
def Instr.isHuf : Instr → Bool
  | .hsz _ => true
  | .hen _ _ _ => true
  | .hcw _ _ => true
  | _ => false

/-- The stream header row. -/
def Instr.isHdr : Instr → Bool
  | .hdr _ _ => true
  | _ => false

/-- The command of a direction and a codec (R92). -/
def commandOf : Dir → Alg → Instr
  | .compress, .noop => .cnoop
  | .compress, .rle => .crle
  | .compress, .lzw => .clzw
  | .compress, .huf => .chuf
  | .restore, .noop => .rnoop
  | .restore, .rle => .rrle
  | .restore, .lzw => .rlzw
  | .restore, .huf => .rhuf

namespace Machine

/-- A command may start (R120). -/
def State.Ready (s : State) : Prop := s.state = .idle ∨ s.state = .done

/-- The input a COMPRESS accepts (R123). -/
def State.CompressInput (s : State) : Prop :=
  s.inLen ≤ s.params.ibufCap ∧ s.n ≠ 0 ∧ s.inLen = s.total

/-- The bits of the whole input (R63). -/
def State.inputBits (s : State) : List Bool := s.bitsFrom 0 (8 * s.inLen)

/-- The input holds a stream for a `width` by `height` image that the header tests of a RESTORE let pass (R125);
`payload` is what follows the header. -/
def State.RestoreInput (s : State) (width height : Half) (payload : List Bool) : Prop :=
  s.inLen ≤ s.params.ibufCap ∧ s.inputBits = encode (.hdr width height) ++ payload ∧
    width.toNat * height.toNat ≠ 0 ∧ 3 * (width.toNat * height.toNat) ≤ s.params.obufCap

/-- Bytes at consecutive addresses, as a buffer holds them. -/
def Memory.listing : (a : Nat) → List Byte → Memory
  | _, [] => []
  | a, b :: bs => (a, b) :: Memory.listing (a + 1) bs

/-- What no command and no record changes: the capacities, `IBUF`, `LZW_W`, `IN_LEN` and the host's side. -/
structure SameInputs (s t : State) : Prop where
  params : t.params = s.params
  ibuf : t.ibuf = s.ibuf
  ibufEpoch : t.ibufEpoch = s.ibufEpoch
  lzwW : t.lzwW = s.lzwW
  inLen : t.inLen = s.inLen
  host : t.host = s.host
  rdata : t.rdata = s.rdata

/-- A command has completed (R134) with these output bytes, having consumed `used` input bytes. -/
structure Completed (s t : State) (bytes : List Byte) (used : Nat) : Prop where
  state : t.state = .done
  cause : t.cause = none
  obuf : t.obuf = Memory.listing 0 bytes
  outLen : t.outLen = bytes.length
  inUsed : t.inUsed = used
  inputs : SameInputs s t

/-- A command has ended in fault `c` (R270). -/
structure Faulted (c : Cause) (s t : State) : Prop where
  state : t.state = .fault
  cause : t.cause = some c
  outLen : t.outLen = 0
  inUsed : t.inUsed = 0
  statTable : t.statTable = 0
  statClears : t.statClears = 0
  obuf : t.obuf = []
  inputs : SameInputs s t

/-- `WIDTH` and `HEIGHT` are as before. -/
def SameSize (s t : State) : Prop := t.width = s.width ∧ t.height = s.height

/-- The RLE working registers are as before (R35). -/
structure SameRle (s t : State) : Prop where
  base : t.rleBase = s.rleBase
  cursor : t.rleI = s.rleI
  same : t.rleS = s.rleS
  lit : t.rleL = s.rleL
  ch : t.rleCh = s.rleCh
  cnt : t.rleCnt = s.rleCnt
  control : t.rleC = s.rleC
  count : t.rleK = s.rleK
  value : t.rleV = s.rleV

/-- The LZW table and registers are as before (R40, R41). -/
structure SameLzw (s t : State) : Prop where
  table : t.lzwTable = s.lzwTable
  cur : t.cur = s.cur
  prev : t.prev = s.prev
  started : t.started = s.started
  clears : t.clears = s.clears

/-- The Huffman tables are as before (R45 to R48). -/
structure SameHuf (s t : State) : Prop where
  freq : t.freq = s.freq
  nodes : t.nodes = s.nodes
  queue : t.queue = s.queue
  hlen : t.hlen = s.hlen
  hcode : t.hcode = s.hcode
  dn : t.dn = s.dn
  dtab : t.dtab = s.dtab
  lens : t.lens = s.lens

/-- Every private register and table is as command start makes it (R20, R121; the RLE registers and `HCODE`: log 30). -/
structure State.Fresh (s : State) : Prop where
  rpos : s.rpos = 0
  wpos : s.wpos = 0
  wacc : s.wacc = 0
  wcnt : s.wcnt = 0
  rle : s.rleBase = 0 ∧ s.rleI = 0 ∧ s.rleS = 0 ∧ s.rleL = 0 ∧ s.rleCh = 0 ∧ s.rleCnt = 0 ∧ s.rleC = 0 ∧ s.rleK = 0 ∧ s.rleV = 0
  next : s.next = 258
  cur : s.cur = none
  prev : s.prev = none
  started : s.started = false
  clears : s.clears = 0
  freq : s.freq = List.replicate 256 0
  nnodes : s.nnodes = 0
  queue : s.queue = []
  hlen : s.hlen = List.replicate 256 0
  hcode : s.hcode = List.replicate 256 0
  dn : s.dn = 0
  dtab : s.dtab = []
  lens : s.lens = []

/-- The bits hold a candidate length of the code search, and are no code of the table at it (R238, R239). -/
def NoMatchAt (entries : List HufEntry) (bits : List Bool) (l : Nat) : Prop :=
  l ≤ bits.length ∧ hufLookup entries l (bitsVal (bits.take l)) = none

/-- Exactly these bytes are stored in `OBUF`, from `WPOS` on; every byte below is as before, and so is every byte above
unless the command has completed. `WPOS` has moved past them, or, where the command has completed, `OUT_LEN` is where it
got to (R33, R134): `WPOS` itself is unspecified then. -/
structure Stores (s t : State) (bytes : List Byte) : Prop where
  wpos : t.state = s.state → t.wpos = s.wpos + bytes.length
  outLen : s.state ≠ .done → t.state = .done → t.outLen = s.wpos + bytes.length
  stored : ∀ k b, bytes[k]? = some b → Memory.lookup t.obuf (s.wpos + k) = some b
  below : ∀ a, a < s.wpos → Memory.lookup t.obuf a = Memory.lookup s.obuf a
  above : t.state = s.state → ∀ a, s.wpos + bytes.length ≤ a → Memory.lookup t.obuf a = Memory.lookup s.obuf a

/-- The writer's pending bits followed by `bits` have gone to `OBUF`, but for fewer than eight (R34, R152). -/
def Appends (s t : State) (bits : List Bool) : Prop :=
  ∃ bytes, bytesBits bytes ++ bitsOf t.wcnt t.wacc = bitsOf s.wcnt s.wacc ++ bits ∧
    t.wcnt < 8 ∧ t.wacc < 2 ^ t.wcnt ∧ Stores s t bytes

/-- `c` is the code of a string: a literal or a phrase of the table (R42). -/
def State.codeDefined (s : State) (c : Nat) : Prop := c < 256 ∨ (258 ≤ c ∧ c < s.next)

/-- A COMPRESS in one of the phases that write whole bytes, or a RESTORE (R150, R151). -/
def State.writesBytes (s : State) : Prop :=
  s.dir = .restore ∨ s.enc = .header ∨ s.enc = .raw ∨ s.enc = .rle ∨ s.enc = .hufSize ∨ s.enc = .hufTable

/-- The invariant of the engine (R23, R24, R27 to R34, R40, R42, R69, R74, R138, R151, R211 (a), (b),
R304). -/
structure State.Inv (s : State) : Prop where
  caps : s.params.legal
  ibufWf : Memory.wf s.ibuf = true
  obufWf : Memory.wf s.obuf = true
  ibufRange : ∀ c ∈ s.ibuf, c.1 < s.params.ibufCap
  obufRange : ∀ c ∈ s.obuf, c.1 < s.params.obufCap
  causeOfFault : s.state = .fault ↔ s.cause.isSome = true
  resultsOnlyDone : s.state ≠ .done → s.outLen = 0 ∧ s.inUsed = 0 ∧ s.statTable = 0 ∧ s.statClears = 0
  doneObuf : s.state = .done → s.obuf.map Prod.fst = List.range s.outLen
  doneFlushed : s.state = .done → s.wcnt = 0
  busyHandsOff : s.state = .busy → s.handsOff = true
  idleHandsFree : s.state = .idle → s.handsOff = false
  inLenBits : s.inLen < 2 ^ s.params.lenW
  outLenCap : s.outLen ≤ s.params.obufCap
  inUsedCap : s.inUsed ≤ s.params.ibufCap
  pending : s.wcnt < 8 ∧ s.wacc < 2 ^ s.wcnt
  hufSizes : s.freq.length = 256 ∧ s.hlen.length = 256 ∧ s.hcode.length = 256
  busyTableOrder : s.state = .busy → ∀ k e, s.lzwTable[k]? = some e → e.pfx < 258 + k ∧ e.pfx ≠ 256 ∧ e.pfx ≠ 257
  busyInput : s.state = .busy → s.inLen ≤ s.params.ibufCap
  busyRead : s.state = .busy → s.rpos ≤ 8 * s.inLen
  busyWrite : s.state = .busy → s.wpos ≤ s.params.obufCap
  busyWritten : s.state = .busy → ∀ a, a < s.wpos → (Memory.lookup s.obuf a).isSome = true
  busyAligned : s.state = .busy → s.writesBytes → s.wcnt = 0
  busyTable : s.state = .busy → s.next ≤ s.w.cap
  encInput : s.state = .busy → s.dir = .compress → s.n ≠ 0 ∧ s.inLen = s.total
  encCode : s.state = .busy → s.dir = .compress → ∀ c, s.cur = some c → s.codeDefined c
  encFresh : s.state = .busy → s.dir = .compress → s.enc = .header → s.cur = none
  encNoTwice : s.state = .busy → s.dir = .compress → s.lzwTable.Nodup
  encClear : s.state = .busy → s.dir = .compress → s.enc = .lzwClear → ∀ c, s.cur = some c → c < 256
  encRoom : s.state = .busy → s.dir = .compress → s.enc = .lzwCodes → s.next < s.w.cap
  decCode : s.state = .busy → s.dir = .restore → ∀ c, s.prev = some c → s.codeDefined c
  decSize : s.state = .busy → s.dir = .restore → s.dec ≠ .header → s.n ≠ 0 ∧ s.total ≤ s.params.obufCap

/-- Every host-visible register holds its reset value (R52). -/
structure State.AtReset (s : State) : Prop where
  status : s.statusBits = 0b000#3
  causeCode : s.causeBits = 0#4
  width : s.width = 0
  height : s.height = 0
  lzwW : s.lzwW = 12
  inLen : s.inLen = 0
  outLen : s.outLen = 0
  inUsed : s.inUsed = 0
  statTable : s.statTable = 0
  statClears : s.statClears = 0

/-- The next state of an outcome, if it is one. -/
def nextOf (o : Host.Outcome State Fault Refusal) : Option State :=
  match o with
  | .next t => some t
  | .fault _ => none
  | .refused _ => none

end Machine

end Sys2Proof
end

