-- ==== Sys2Proof/Certificates/Slice0/Obligations.lean ====
section
/-! DEFINITION. The statements for the provers. Each docstring names the rules of spec/ it formalises. -/

open Sys2Proof Sys2Proof.Machine

/-! ## Encodings (30_encoding.md) -/

/-- R92: the nine legal command values are the nine commands, compared on all 32 bits, and every other value is an illegal
command. With them, words of the record families written out bit by bit from the formats of R93, R95, R97, R99, R100 decode to the
records they stand for (header 300 by 2, `REP 5, 10`, `LIT 2: 41 42`, the codes 65, 256, 257 and 258 of 12 bits, `HSZ 5`,
`HEN 42, 3, 6`). -/
def Obligations.WrittenOutWordsDecode : Prop :=
  decodeCmd 0x00000000#32 = .cnoop ∧ decodeCmd 0x00000001#32 = .crle ∧ decodeCmd 0x00000002#32 = .clzw ∧
  decodeCmd 0x00000003#32 = .chuf ∧ decodeCmd 0x00000004#32 = .rnoop ∧ decodeCmd 0x00000005#32 = .rrle ∧
  decodeCmd 0x00000006#32 = .rlzw ∧ decodeCmd 0x00000007#32 = .rhuf ∧ decodeCmd 0x00000080#32 = .sreset ∧
  (∀ v : CmdWord, v ∉ legalCmdWords → decodeCmd v = .cmdIllegal v) ∧
  decode .hdr (bytesBits [0x01#8, 0x2C#8, 0x00#8, 0x02#8]) = .ok (.hdr 300#16 2#16, []) ∧
  decode .rle (bytesBits [0x85#8, 0x10#8]) = .ok (.rleRep 5#7 0x10#8, []) ∧
  decode .rle (bytesBits [0x02#8, 0x41#8, 0x42#8]) = .ok (.rleLit [0x41#8, 0x42#8], []) ∧
  decode (.lzw .w12) [false, false, false, false, false, true, false, false, false, false, false, true] =
    .ok (.lzwLit12 65#8, []) ∧
  decode (.lzw .w12) [false, false, false, true, false, false, false, false, false, false, false, false] =
    .ok (.lzwClear12, []) ∧
  decode (.lzw .w12) [false, false, false, true, false, false, false, false, false, false, false, true] =
    .ok (.lzwEnd12, []) ∧
  decode (.lzw .w12) [false, false, false, true, false, false, false, false, false, false, true, false] =
    .ok (.lzwPhrase12 258#12, []) ∧
  decode .hsz [false, false, false, false, false, true, false, false] = .ok (.hsz 4#8, []) ∧
  decode .hen (bytesBits [0x42#8, 0x03#8, 0x00#8, 0x06#8]) = .ok (.hen 0x42#8 3#8 6#16, [])

/-- R92 to R101, R104: decoding the encoding of a well-formed instruction, in a context its format is read in, gives the instruction back with every operand and leaves the bits after it. -/
def Obligations.DecodeOfEncodeIsTheInstruction : Prop :=
  ∀ (ctx : Ctx) (i : Instr) (rest : List Bool), i.wellFormed = true → ctx.admits i →
    decode ctx (encode i ++ rest) = .ok (i, rest)

/-- R92 to R101: whatever is decoded is well formed, and its encoding is exactly the bits that were consumed (pad bits, whose value is never looked at, apart). -/
def Obligations.EncodeOfDecodeIsTheBits : Prop :=
  ∀ (ctx : Ctx) (bits rest : List Bool) (i : Instr), (∀ n, ctx ≠ .pad n) →
    (∀ lens entries, ctx = .hcw lens entries → ∀ l ∈ lens, 1 ≤ l ∧ l ≤ 16) →
    decode ctx bits = .ok (i, rest) → i.wellFormed = true ∧ bits = encode i ++ rest

/-! ## Command acceptance and start (40_commands.md) -/

/-- R120, R271: in state FAULT a command other than SRESET changes nothing, an illegal word included. R120, R304: while BUSY a
command other than SRESET has no defined effect, and the model refuses it (93_implementation_defined.md U3, log 8). -/
def Obligations.CommandsInFaultAndBusy : Prop :=
  ∀ (i : Instr) (s : State), i.isCommand = true → i ≠ .sreset →
    (s.state = .fault → exec i s = .next s) ∧ (s.state = .busy → exec i s = .refused .busyAccess)

/-- R135, R52: in every state SRESET completes, every register takes its reset value and IBUF keeps its contents; OBUF keeps
its contents too unless a command is aborted. The host's queue, its last read value and the capacities are as before. -/
def Obligations.SoftResetGivesResetValues : Prop :=
  ∀ s : State, ∃ t, exec .sreset s = .next t ∧ t.AtReset ∧ t.ibuf = s.ibuf ∧ t.ibufEpoch = s.ibufEpoch ∧
    (s.state ≠ .busy → t.obuf = s.obuf ∧ t.obufEpoch = s.obufEpoch) ∧
    t.params = s.params ∧ t.host = s.host ∧ t.rdata = s.rdata

/-- R268, R122: in state IDLE or DONE a word outside R92, and CLZW or RLZW while LZW_W is not 12, 16 or 20, end in FAULT with
cause IllegalCommand (8), whatever the other registers hold; WIDTH and HEIGHT are as before. -/
def Obligations.IllegalCommandsFault : Prop :=
  ∀ s : State, s.Ready →
    (∀ word : CmdWord, ∃ t, exec (.cmdIllegal word) s = .next t ∧
      Faulted .illegalCommand s t ∧ t.causeBits = 8#4 ∧ t.statusBits = 0b100#3 ∧ SameSize s t) ∧
    (∀ dir : Dir, s.lzwW ≠ 12#5 → s.lzwW ≠ 16#5 → s.lzwW ≠ 20#5 → ∃ t, exec (commandOf dir .lzw) s = .next t ∧
      Faulted .illegalCommand s t ∧ t.causeBits = 8#4 ∧ t.statusBits = 0b100#3 ∧ SameSize s t)

/-- R123, R261 (a), (b), (c): a COMPRESS (its LZW_W legal if it is CLZW) whose IN_LEN is above IBUF_CAP, whose area is zero, or whose IN_LEN is not 3*WIDTH*HEIGHT ends in FAULT with cause InvalidInput. -/
def Obligations.CompressRejectsInvalidInput : Prop :=
  ∀ (alg : Alg) (s : State), s.Ready → (alg = .lzw → legalWidth s.lzwW ≠ none) →
    (s.params.ibufCap < s.inLen ∨ s.n = 0 ∨ s.inLen ≠ s.total) →
    ∃ t, exec (commandOf .compress alg) s = .next t ∧ Faulted .invalidInput s t ∧ SameSize s t

/-- R125, R275: the tests of a RESTORE up to the payload, in order: IN_LEN above IBUF_CAP (InvalidInput); fewer than 4 bytes (TruncatedStream), both with WIDTH and HEIGHT unchanged; then the header's size is latched and zero area (InvalidInput) and planes that do not fit OBUF (OutputOverflow) end the command. -/
def Obligations.RestoreHeaderChecksInOrder : Prop :=
  ∀ (alg : Alg) (s : State), s.Ready → (alg = .lzw → legalWidth s.lzwW ≠ none) →
    (s.params.ibufCap < s.inLen →
      ∃ t, exec (commandOf .restore alg) s = .next t ∧ Faulted .invalidInput s t ∧ SameSize s t) ∧
    (s.inLen ≤ s.params.ibufCap → s.inLen < 4 →
      ∃ t, exec (commandOf .restore alg) s = .next t ∧ Faulted .truncatedStream s t ∧ SameSize s t) ∧
    (∀ (width height : Half) (payload : List Bool), s.inLen ≤ s.params.ibufCap → 4 ≤ s.inLen →
      s.inputBits = encode (.hdr width height) ++ payload →
      (width.toNat * height.toNat = 0 →
        ∃ t, exec (commandOf .restore alg) s = .next t ∧ Faulted .invalidInput s t ∧
          t.width = width ∧ t.height = height) ∧
      (width.toNat * height.toNat ≠ 0 → s.params.obufCap < 3 * (width.toNat * height.toNat) →
        ∃ t, exec (commandOf .restore alg) s = .next t ∧ Faulted .outputOverflow s t ∧
          t.width = width ∧ t.height = height))

/-! ## The eight codec commands (40_commands.md R126 to R134) -/

/-- R126, R123, R124, R134: CNOOP on an accepted input completes with the header followed by the 3N plane bytes, OUT_LEN =
4 + 3N, IN_USED = IN_LEN and both diagnostics 0; when 4 + 3N is above OBUF_CAP it ends in OutputOverflow. -/
def Obligations.CnoopWritesHeaderAndPlanes : Prop :=
  ∀ s : State, s.Ready → Memory.wf s.obuf = true → s.CompressInput →
    (4 + s.total ≤ s.params.obufCap →
      ∃ t, exec .cnoop s = .next t ∧
        Completed s t ([hiByte s.width, loByte s.width, hiByte s.height, loByte s.height] ++ s.ibufBytes 0 s.total)
          s.inLen ∧
        t.outLen = 4 + s.total ∧ SameSize s t ∧ t.statTable = 0 ∧ t.statClears = 0) ∧
    (s.params.obufCap < 4 + s.total →
      ∃ t, exec .cnoop s = .next t ∧ Faulted .outputOverflow s t ∧ SameSize s t)

/-- R128, R171 to R176: CRLE on an accepted input completes with the header and, for each plane by itself in the order R, G, B,
the records of the run finder (here on byte lists, without the engine's cursors); when the stream is longer than OBUF_CAP it
ends in OutputOverflow. -/
def Obligations.CrleWritesThreeChannels : Prop :=
  ∀ (s : State) (stream : List Byte), s.Ready → Memory.wf s.obuf = true → s.CompressInput →
    stream = streamBytes (.hdr s.width s.height :: (rleRecords (s.ibufBytes 0 s.n) ++
      rleRecords (s.ibufBytes s.n s.n) ++ rleRecords (s.ibufBytes (2 * s.n) s.n))) →
    (stream.length ≤ s.params.obufCap →
      ∃ t, exec .crle s = .next t ∧ Completed s t stream s.inLen ∧ SameSize s t ∧ t.statTable = 0 ∧
        t.statClears = 0) ∧
    (s.params.obufCap < stream.length →
      ∃ t, exec .crle s = .next t ∧ Faulted .outputOverflow s t ∧ SameSize s t)

/-- R130, R190, R194 to R198: CLZW on an accepted input completes with the header and the codes of the adaptive dictionary over
the 3N bytes as one sequence (here with the table as a list of strings), STAT_TABLE = NEXT and STAT_CLEARS = the number of CLEAR
codes; when the stream is longer than OBUF_CAP it ends in OutputOverflow. -/
def Obligations.ClzwWritesDictionaryCodes : Prop :=
  ∀ (s : State) (w : LzwWidth) (stream : List Byte), s.Ready → Memory.wf s.obuf = true → legalWidth s.lzwW = some w →
    s.CompressInput →
    stream = streamBytes (.hdr s.width s.height :: (lzwCodes w (s.ibufBytes 0 s.total)).map (lzwInstr w)) →
    (stream.length ≤ s.params.obufCap →
      ∃ t, exec .clzw s = .next t ∧ Completed s t stream s.inLen ∧ SameSize s t ∧
        t.statTable.toNat = 258 + (lzwCodesFrom w [] [] (s.ibufBytes 0 s.total)).2.length ∧
        t.statClears = (lzwCodes w (s.ibufBytes 0 s.total)).count 256) ∧
    (s.params.obufCap < stream.length →
      ∃ t, exec .clzw s = .next t ∧ Faulted .outputOverflow s t ∧ SameSize s t)

/-- R132, R221 to R230, R232: CHUF on an accepted input whose tree is at most 16 deep completes with the header, the table in
ascending byte value and the code words of the 3N bytes (here with trees as trees), STAT_TABLE = the number k of entries and
OUT_LEN = 4 + 1 + 4k + ceil8 of the code lengths' sum; when the stream is longer than OBUF_CAP it ends in OutputOverflow. -/
def Obligations.ChufWritesTableAndCodeWords : Prop :=
  ∀ (s : State) (bytes stream : List Byte), s.Ready → Memory.wf s.obuf = true →
    s.CompressInput → bytes = s.ibufBytes 0 s.total → (∀ p ∈ hufPaths bytes, p.2.length ≤ 16) →
    stream = streamBytes (.hdr s.width s.height :: hufRecords bytes) →
    (stream.length ≤ s.params.obufCap →
      ∃ t, exec .chuf s = .next t ∧ Completed s t stream s.inLen ∧ SameSize s t ∧
        t.statTable.toNat = (occurring bytes).length ∧ t.statClears = 0 ∧
        t.outLen = 4 + 1 + 4 * (occurring bytes).length +
          ceil8 (bytes.map (fun b => (pathOf (hufPaths bytes) b).length)).sum) ∧
    (s.params.obufCap < stream.length →
      ∃ t, exec .chuf s = .next t ∧ Faulted .outputOverflow s t ∧ SameSize s t)

/-- R228, R266: CHUF on an input whose tree has a leaf more than 16 deep ends in FAULT with cause CodeTooLong (6) and produces no stream. -/
def Obligations.ChufFaultsOnDeepTrees : Prop :=
  ∀ s : State, s.Ready → 4 ≤ s.params.obufCap → s.CompressInput →
    (∃ p ∈ hufPaths (s.ibufBytes 0 s.total), 16 < p.2.length) →
    ∃ t, exec .chuf s = .next t ∧ Faulted .codeTooLong s t ∧ SameSize s t

/-- R127, R125, R134: RNOOP of a stream of at least 4 + 3N bytes completes with the 3N bytes after the header, IN_USED = 4 + 3N; of
a shorter one it ends in TruncatedStream before a byte is copied: the first turn of the command, the one that reads the header,
enters FAULT. WIDTH and HEIGHT are the header's. -/
def Obligations.RnoopCopiesPlanes : Prop :=
  ∀ (s : State) (width height : Half) (payload : List Bool), s.Ready → Memory.wf s.obuf = true →
    s.RestoreInput width height payload →
    (4 + 3 * (width.toNat * height.toNat) ≤ s.inLen →
      ∃ t, exec .rnoop s = .next t ∧
        Completed s t (s.ibufBytes 4 (3 * (width.toNat * height.toNat))) (4 + 3 * (width.toNat * height.toNat)) ∧
        t.width = width ∧ t.height = height ∧ t.statTable = 0 ∧ t.statClears = 0) ∧
    (s.inLen < 4 + 3 * (width.toNat * height.toNat) →
      (beginCommand .restore .noop s).state = .busy ∧ (beginCommand .restore .noop s).dec = .header ∧
      ∃ t, exec .rnoop s = .next t ∧ Faulted .truncatedStream s t ∧ t = engineTurn (beginCommand .restore .noop s) ∧
        t.width = width ∧ t.height = height)

/-- R129, R177 to R180: RRLE of any records whose counts sum to exactly N in each of the three channels completes with the bytes the records stand for, whatever follows; zero counts and REP 1 are accepted; IN_USED is the length of the records. -/
def Obligations.RrleProducesTheRecordsBytes : Prop :=
  ∀ (s : State) (width height : Half) (r g b : List Instr) (rest : List Bool), s.Ready → Memory.wf s.obuf = true →
    s.RestoreInput width height ((r ++ g ++ b).flatMap encode ++ rest) →
    RleSegment (width.toNat * height.toNat) r → RleSegment (width.toNat * height.toNat) g →
    RleSegment (width.toNat * height.toNat) b →
    ∃ t, exec .rrle s = .next t ∧
      Completed s t ((r ++ g ++ b).flatMap rleYield) (4 + ceil8 ((r ++ g ++ b).flatMap encode).length) ∧
      t.width = width ∧ t.height = height ∧ t.statTable = 0 ∧ t.statClears = 0

/-- R131, R200 to R209: RLZW of a CLEAR code, any codes that the string-table decoder accepts with 3N bytes of output, and END completes with those bytes, whatever follows; IN_USED is ceil8 of the bits read, STAT_TABLE = NEXT, STAT_CLEARS = the number of CLEAR codes. -/
def Obligations.RlzwProducesTheStringsOfTheCodes : Prop :=
  ∀ (s : State) (w : LzwWidth) (width height : Half) (codes : List Nat) (rest : List Bool) (bytes : List Byte)
      (dict : List (List Byte)) (clears : Nat),
    s.Ready → Memory.wf s.obuf = true → legalWidth s.lzwW = some w →
    s.RestoreInput width height ((256 :: codes ++ [257]).flatMap (lzwCodeBits w) ++ rest) →
    (∀ c ∈ codes, c < w.cap ∧ c ≠ 257) → lzwDecodeFrom w [] none codes = some (bytes, dict, clears) →
    bytes.length = 3 * (width.toNat * height.toNat) →
    ∃ t, exec .rlzw s = .next t ∧
      Completed s t bytes (ceil8 (32 + w.bits * (codes.length + 2))) ∧
      t.width = width ∧ t.height = height ∧ t.statTable.toNat = 258 + dict.length ∧ t.statClears = clears + 1

/-- R133, R235 to R241: RHUF of a table of 1 to 256 legal, distinct, prefix-free entries in any order and 3N code words completes with their symbols, whatever follows; IN_USED is ceil8 of the bits read, STAT_TABLE = DN. -/
def Obligations.RhufProducesTheSymbolsOfTheCodeWords : Prop :=
  ∀ (s : State) (width height : Half) (entries words : List HufEntry) (rest : List Bool),
    s.Ready → Memory.wf s.obuf = true → 1 ≤ entries.length → entries.length ≤ 256 →
    (∀ e ∈ entries, 1 ≤ e.len ∧ e.len ≤ 16 ∧ e.code < 2 ^ e.len) →
    entries.Pairwise (fun e f => ¬ bitsOf e.len e.code <+: bitsOf f.len f.code ∧
      ¬ bitsOf f.len f.code <+: bitsOf e.len e.code) →
    (∀ e ∈ words, e ∈ entries) → words.length = 3 * (width.toNat * height.toNat) →
    s.RestoreInput width height (encode (.hsz (BitVec.ofNat 8 (entries.length - 1))) ++
      entries.flatMap (fun e => encode (.hen e.sym (BitVec.ofNat 8 e.len) (BitVec.ofNat 16 e.code))) ++
      words.flatMap (fun e => bitsOf e.len e.code) ++ rest) →
    ∃ t, exec .rhuf s = .next t ∧
      Completed s t (words.map (fun e => e.sym))
        (ceil8 (40 + 32 * entries.length + (words.map (fun e => e.len)).sum)) ∧
      t.width = width ∧ t.height = height ∧ t.statTable.toNat = entries.length ∧ t.statClears = 0

/-- R123, R125 to R133, R177, R242, R260 to R268: the causes a command started in IDLE or DONE can end in. In particular no command raises MalformedTree, no COMPRESS raises a stream fault, no RESTORE raises CodeTooLong. -/
def Obligations.CommandsRaiseOnlyTheirCauses : Prop :=
  ∀ (dir : Dir) (alg : Alg) (s t : State) (c : Cause), s.Ready → exec (commandOf dir alg) s = .next t →
    t.state = .fault → t.cause = some c →
    match dir, alg with
    | .compress, .lzw => c = .illegalCommand ∨ c = .invalidInput ∨ c = .outputOverflow
    | .compress, .huf => c = .invalidInput ∨ c = .outputOverflow ∨ c = .codeTooLong
    | .compress, _ => c = .invalidInput ∨ c = .outputOverflow
    | .restore, .noop => c = .invalidInput ∨ c = .truncatedStream ∨ c = .outputOverflow
    | .restore, .rle => c = .invalidInput ∨ c = .truncatedStream ∨ c = .outputOverflow ∨ c = .malformedStream
    | .restore, .lzw => c = .illegalCommand ∨ c = .invalidInput ∨ c = .truncatedStream ∨ c = .outputOverflow ∨
        c = .malformedStream ∨ c = .tableOverflow
    | .restore, .huf => c = .invalidInput ∨ c = .truncatedStream ∨ c = .outputOverflow ∨ c = .malformedStream

/-- R310: every command word other than SRESET, written in state IDLE or DONE, ends in DONE or FAULT, on every input. -/
def Obligations.EveryCommandEnds : Prop :=
  ∀ (i : Instr) (s : State), i.isCommand = true → i ≠ .sreset → s.Ready →
    ∃ t, exec i s = .next t ∧ (t.state = .done ∨ t.state = .fault)

/-- R69, R123, R125, R134, R270: a codec command started in IDLE or DONE leaves the capacities, IBUF, LZW_W and IN_LEN as they
are; a COMPRESS leaves WIDTH and HEIGHT too. After DONE exactly the bytes of OBUF below OUT_LEN are kept, after FAULT none is. A
RESTORE that completes has OUT_LEN = 3*WIDTH*HEIGHT and has used at least 4 and at most IN_LEN bytes. R304: whether it completes
or faults, the host's hands are off when it ends. -/
def Obligations.CommandFrame : Prop :=
  ∀ (dir : Dir) (alg : Alg) (s t : State), s.Ready → Memory.wf s.obuf = true → exec (commandOf dir alg) s = .next t →
    SameInputs s t ∧ t.handsOff = true ∧ (dir = .compress → SameSize s t) ∧
    (t.state = .done → t.cause = none ∧ t.obuf.map Prod.fst = List.range t.outLen) ∧
    (t.state = .fault → t.cause.isSome = true ∧ t.outLen = 0 ∧ t.inUsed = 0 ∧ t.statTable = 0 ∧ t.statClears = 0 ∧
      t.obuf = []) ∧
    (dir = .restore → t.state = .done → t.outLen = t.total ∧ t.n ≠ 0 ∧ 4 ≤ t.inUsed ∧ t.inUsed ≤ t.inLen)

/-- R50, R121, R305: no state survives from one command into the next command's result except the host-writable registers and IBUF: two states that agree on these give the same result. -/
def Obligations.CommandResultsDoNotDependOnPrivateState : Prop :=
  ∀ (dir : Dir) (alg : Alg) (s1 s2 t1 t2 : State), s1.Ready → s2.Ready →
    Memory.wf s1.obuf = true → Memory.wf s2.obuf = true →
    s1.params = s2.params → s1.width = s2.width → s1.height = s2.height → s1.lzwW = s2.lzwW → s1.inLen = s2.inLen →
    s1.ibuf = s2.ibuf → s1.ibufEpoch = s2.ibufEpoch →
    exec (commandOf dir alg) s1 = .next t1 → exec (commandOf dir alg) s2 = .next t2 →
    t1.state = t2.state ∧ t1.cause = t2.cause ∧ t1.width = t2.width ∧ t1.height = t2.height ∧
      t1.outLen = t2.outLen ∧ t1.inUsed = t2.inUsed ∧ t1.statTable = t2.statTable ∧
      t1.statClears = t2.statClears ∧ t1.obuf = t2.obuf

/-! ## Round trips (40_commands.md R136, R137) -/

/-- A RESTORE started in `u` gives back what the COMPRESS of `s` that ended in `t` took: the planes, the size, and the
whole stream is used (R136, R137). -/
def RestoresFrom (alg : Alg) (s t u : State) : Prop :=
  u.Ready → Memory.wf u.obuf = true → u.lzwW = s.lzwW → u.inLen = t.outLen → t.outLen ≤ u.params.ibufCap →
    s.total ≤ u.params.obufCap → (∀ a, a < t.outLen → Memory.lookup u.ibuf a = Memory.lookup t.obuf a) →
    ∃ v, exec (commandOf .restore alg) u = .next v ∧ Completed u v (s.ibufBytes 0 s.total) t.outLen ∧
      v.width = s.width ∧ v.height = s.height

/-- R136, R137 for the NoOp codec: if the COMPRESS completes, the RESTORE of its stream completes with the original planes and size and uses the whole stream. -/
def Obligations.NoopRoundTrip : Prop :=
  ∀ s t u : State, s.Ready → Memory.wf s.obuf = true → exec (commandOf .compress .noop) s = .next t →
    t.state = .done → RestoresFrom .noop s t u

/-- R136, R137 for RLE: if the COMPRESS completes, the RESTORE of its stream completes with the original planes and size and uses the whole stream. -/
def Obligations.RleRoundTrip : Prop :=
  ∀ s t u : State, s.Ready → Memory.wf s.obuf = true → exec (commandOf .compress .rle) s = .next t →
    t.state = .done → RestoresFrom .rle s t u

/-- R136, R137 for LZW at every width, across table resets: if the COMPRESS completes, the RESTORE of its stream completes with the original planes and size and uses the whole stream. -/
def Obligations.LzwRoundTrip : Prop :=
  ∀ s t u : State, s.Ready → Memory.wf s.obuf = true → exec (commandOf .compress .lzw) s = .next t →
    t.state = .done → RestoresFrom .lzw s t u

/-- R136, R137 for Huffman: if the COMPRESS completes, the RESTORE of its stream completes with the original planes and size and uses the whole stream. -/
def Obligations.HuffmanRoundTrip : Prop :=
  ∀ s t u : State, s.Ready → Memory.wf s.obuf = true → exec (commandOf .compress .huf) s = .next t →
    t.state = .done → RestoresFrom .huf s t u

/-! ## Records written by a COMPRESS -/

/-- R124, R126, R151 to R153, R174, R175, R194, R198, R229, R230: executed by a COMPRESS, every record appends exactly the bits of its encoding to the output, most significant first, behind the bits still pending; nothing below WPOS changes. Records of whole bytes start on a byte boundary. (The header of a Huffman COMPRESS also builds the tree: HuffmanHeaderBuildsTheCodes.) -/
def Obligations.EncoderRecordsAppendTheirEncoding : Prop :=
  ∀ (i : Instr) (s : State), i.isRecord = true → i.wellFormed = true → s.dir = .compress → s.state = .busy →
    s.wcnt < 8 → s.wacc < 2 ^ s.wcnt → (i.wholeBytes = true → s.wcnt = 0) →
    ((∃ width height, i = .hdr width height) → s.alg ≠ .huf) →
    s.wpos + (s.wcnt + (encode i).length) / 8 ≤ s.params.obufCap →
    ∃ t, exec i s = .next t ∧ Appends s t (encode i) ∧ (t.state = .busy ∨ t.state = .done) ∧
      SameInputs s t ∧ SameSize s t ∧ t.cause = s.cause ∧ (t.state = .busy → t.rpos = s.rpos)

/-- R151, R267: executed by a COMPRESS, a record whose encoding does not fit OBUF ends in FAULT with cause OutputOverflow. -/
def Obligations.EncoderRecordsOverflow : Prop :=
  ∀ (i : Instr) (s : State), i.isRecord = true → i.wellFormed = true → s.dir = .compress → s.state = .busy →
    s.wcnt < 8 → (i.wholeBytes = true → s.wcnt = 0) → s.wpos ≤ s.params.obufCap →
    s.params.obufCap < s.wpos + (s.wcnt + (encode i).length) / 8 →
    ∃ t, exec i s = .next t ∧ Faulted .outputOverflow s t ∧ SameSize s t

/-- R221 to R228: the header record of a Huffman COMPRESS leaves, for every byte value that occurs, its code's length and value (the path in the tree, root edge most significant); where a path is longer than 16 it ends in CodeTooLong. -/
def Obligations.HuffmanHeaderBuildsTheCodes : Prop :=
  ∀ (s : State) (width height : Half), s.dir = .compress → s.alg = .huf → s.state = .busy → s.wcnt = 0 →
    s.wpos + 4 ≤ s.params.obufCap → s.n ≠ 0 → s.freq = List.replicate 256 0 → s.hlen = List.replicate 256 0 →
    s.hcode.length = 256 →
    ((∀ p ∈ hufPaths (s.ibufBytes 0 s.total), p.2.length ≤ 16) →
      ∃ t, exec (.hdr width height) s = .next t ∧ Stores s t [hiByte width, loByte width, hiByte height, loByte height] ∧
        t.state = .busy ∧ t.enc = .hufSize ∧ t.idx = 0 ∧ SameInputs s t ∧ SameSize s t ∧
        (∀ p ∈ hufPaths (s.ibufBytes 0 s.total),
          t.codeLen p.1.toNat = p.2.length ∧ (t.codeVal p.1.toNat).toNat = bitsVal p.2) ∧
        (∀ b : Byte, (s.ibufBytes 0 s.total).count b = 0 → t.codeLen b.toNat = 0) ∧
        (∀ b : Byte, t.freq.getD b.toNat 0 = (s.ibufBytes 0 s.total).count b)) ∧
    ((∃ p ∈ hufPaths (s.ibufBytes 0 s.total), 16 < p.2.length) →
      ∃ t, exec (.hdr width height) s = .next t ∧ Faulted .codeTooLong s t ∧ SameSize s t)

/-- R233: the codes of the tree are prefix-free, one for each byte value that occurs; for at least two values they are complete (the sum of 2^(D-HLEN) over the table is 2^D for every D that no length exceeds); for one value the code is the bit 0. -/
def Obligations.HuffmanCodesArePrefixFreeAndComplete : Prop :=
  ∀ bytes : List Byte, bytes ≠ [] →
    (∀ b, b ∈ bytes ↔ ∃ path, (b, path) ∈ hufPaths bytes) ∧
    (hufPaths bytes).Pairwise (fun p q => p.1 ≠ q.1 ∧ ¬ p.2 <+: q.2 ∧ ¬ q.2 <+: p.2) ∧
    (∀ depth, 2 ≤ (hufPaths bytes).length → (∀ p ∈ hufPaths bytes, p.2.length ≤ depth) →
      ((hufPaths bytes).map (fun p => 2 ^ (depth - p.2.length))).sum = 2 ^ depth) ∧
    ((hufPaths bytes).length = 1 → ∃ b, hufPaths bytes = [(b, [false])])

/-- R194, R195, R196, R197: an ordinary LZW code c that a COMPRESS emits before the end of the input inserts (c, b) at code NEXT for the next input byte b and restarts the buffer with b; a CLEAR is due exactly when NEXT has reached 2^W; at the end of the input nothing is inserted and END follows. For LIT and PHRASE codes at 12, 16 and 20 bits. -/
def Obligations.EncoderOrdinaryCodeLearns : Prop :=
  ∀ (w : LzwWidth) (c : Nat) (s : State), c < w.cap → c ≠ 256 → c ≠ 257 → s.dir = .compress → s.state = .busy →
    s.wcnt < 8 → s.wacc < 2 ^ s.wcnt → s.wpos + (s.wcnt + w.bits) / 8 ≤ s.params.obufCap →
    ∃ t, exec (lzwInstr w c) s = .next t ∧ Appends s t (lzwCodeBits w c) ∧ t.state = .busy ∧ t.clears = s.clears ∧
      (s.idx < s.total → t.lzwTable = s.lzwTable ++ [{ pfx := c, sfx := s.ibufByte s.idx }] ∧ t.next = s.next + 1 ∧
        t.cur = some (s.ibufByte s.idx).toNat ∧ t.idx = s.idx + 1 ∧
        (t.enc = .lzwClear ↔ s.next + 1 = w.cap) ∧ (t.enc = .lzwCodes ↔ s.next + 1 ≠ w.cap)) ∧
      (s.total ≤ s.idx → t.lzwTable = s.lzwTable ∧ t.cur = s.cur ∧ t.idx = s.idx ∧ t.enc = .lzwEnd)

/-- R181, on the records of the run finder of one channel: REP counts are 2 to 127, LIT counts 1 to 127, the bytes the records
stand for are the channel; they take at most 2n bytes; m copies of one byte are m div 127 records of 127 and one for the rest. -/
def Obligations.RleEncoderRecordsOfAChannel : Prop :=
  (∀ channel : List Byte,
    (∀ r ∈ rleRecords channel, (∃ (k : BitVec 7) (v : Byte), r = .rleRep k v ∧ 2 ≤ k.toNat) ∨
      (∃ data : List Byte, r = .rleLit data ∧ 1 ≤ data.length ∧ data.length ≤ 127)) ∧
    (rleRecords channel).flatMap rleYield = channel ∧ RleSegment channel.length (rleRecords channel) ∧
    ((rleRecords channel).flatMap encode).length ≤ 8 * (2 * channel.length)) ∧
  (∀ (m : Nat) (v : Byte), rleRecords (List.replicate m v) = List.replicate (m / 127) (.rleRep 127#7 v) ++
    (if m % 127 = 0 then [] else if m % 127 = 1 then [.rleLit [v]] else [.rleRep (BitVec.ofNat 7 (m % 127)) v]))

/-- R199: a stream CLZW completes with is the header, CLEAR, non-empty groups of ordinary codes separated by CLEAR, and END; in a
group every code is a literal or below 258 plus the number of codes before it; every group but the last has 2^W - 258 codes. -/
def Obligations.LzwEncoderCodeGroups : Prop :=
  ∀ (s t : State) (w : LzwWidth), s.Ready → Memory.wf s.obuf = true → legalWidth s.lzwW = some w →
    exec .clzw s = .next t → t.state = .done →
    ∃ groups : List (List Nat),
      t.obuf = Memory.listing 0 (streamBytes (.hdr s.width s.height ::
        (256 :: List.intercalate [256] groups ++ [257]).map (lzwInstr w))) ∧
      groups ≠ [] ∧ (∀ g ∈ groups, g ≠ []) ∧
      (∀ g ∈ groups, ∀ j c, g[j]? = some c → c < 256 ∨ (258 ≤ c ∧ c < 258 + j)) ∧
      (∀ g ∈ groups.dropLast, g.length = 2 ^ w.bits - 258)

/-! ## Records read by a RESTORE -/

/-- R93, R125, R127: executed by a RESTORE, the header record latches WIDTH and HEIGHT and goes on to the payload of the codec
(an RLE payload at its first channel); zero area, planes that do not fit and, for NoOp, a stream shorter than 4 + 3N bytes end in
their faults with the size latched. Nothing else changes. -/
def Obligations.HeaderLatchesTheSize : Prop :=
  ∀ (width height : Half) (s : State), s.dir = .restore →
    (width.toNat * height.toNat = 0 → ∃ t, exec (.hdr width height) s = .next t ∧ Faulted .invalidInput s t ∧
      t.width = width ∧ t.height = height) ∧
    (width.toNat * height.toNat ≠ 0 → s.params.obufCap < 3 * (width.toNat * height.toNat) →
      ∃ t, exec (.hdr width height) s = .next t ∧ Faulted .outputOverflow s t ∧ t.width = width ∧ t.height = height) ∧
    (width.toNat * height.toNat ≠ 0 → 3 * (width.toNat * height.toNat) ≤ s.params.obufCap →
      (s.alg = .noop → s.inLen < 4 + 3 * (width.toNat * height.toNat) →
        ∃ t, exec (.hdr width height) s = .next t ∧ Faulted .truncatedStream s t ∧ t.width = width ∧
          t.height = height) ∧
      (s.alg = .noop → 4 + 3 * (width.toNat * height.toNat) ≤ s.inLen →
        exec (.hdr width height) s = .next { s with width := width, height := height, dec := .raw }) ∧
      (s.alg = .rle → exec (.hdr width height) s =
        .next { s with width := width, height := height, dec := .rle, rleCh := 0, rleCnt := 0 }) ∧
      (s.alg = .lzw → exec (.hdr width height) s = .next { s with width := width, height := height, dec := .lzw }) ∧
      (s.alg = .huf → exec (.hdr width height) s = .next { s with width := width, height := height, dec := .hufSize }))

/-- R94, R127: executed by a RESTORE, RAW stores its byte at WPOS; when it is the last of the 3N bytes the command completes. Nothing else changes while BUSY. -/
def Obligations.RawByteIsCopied : Prop :=
  ∀ (b : Byte) (s : State), s.dir = .restore → s.state = .busy → s.wpos < s.total → s.total ≤ s.params.obufCap →
    ∃ t, exec (.raw b) s = .next t ∧ Stores s t [b] ∧ SameInputs s t ∧ SameSize s t ∧ t.cause = s.cause ∧
      (s.wpos + 1 < s.total → t = { s with obuf := t.obuf, wpos := t.wpos }) ∧
      (s.wpos + 1 = s.total → t.state = .done ∧ t.outLen = s.total ∧ t.inUsed = ceil8 s.rpos)

/-- R178, R179, R177: executed by a RESTORE in a channel that still lacks at least COUNT bytes, RLE.REP produces COUNT copies of
its value (none when COUNT is 0) and RLE.LIT its COUNT data bytes verbatim. CNT grows by COUNT, a full channel is followed by the
next, the third completes the command. The other registers and tables are as before while BUSY. -/
def Obligations.RleRecordsProduceTheirBytes : Prop :=
  ∀ (i : Instr) (s : State), i.isRle = true → i.wellFormed = true → s.dir = .restore → s.state = .busy →
    s.rleCnt < s.n → s.rleCnt + (rleYield i).length ≤ s.n → s.wpos + (rleYield i).length ≤ s.params.obufCap →
    ∃ t, exec i s = .next t ∧ Stores s t (rleYield i) ∧ SameInputs s t ∧ SameSize s t ∧ t.cause = s.cause ∧
      t.wcnt = s.wcnt ∧ t.wacc = s.wacc ∧ (t.state = .busy → SameLzw s t ∧ SameHuf s t ∧ t.rpos = s.rpos) ∧
      (s.rleCnt + (rleYield i).length < s.n →
        t.state = .busy ∧ t.rleCnt = s.rleCnt + (rleYield i).length ∧ t.rleCh = s.rleCh) ∧
      (s.rleCnt + (rleYield i).length = s.n → s.rleCh < 2 →
        t.state = .busy ∧ t.rleCnt = 0 ∧ t.rleCh = s.rleCh + 1) ∧
      (s.rleCnt + (rleYield i).length = s.n → 2 ≤ s.rleCh →
        t.state = .done ∧ t.outLen = s.wpos + (rleYield i).length ∧ t.inUsed = ceil8 s.rpos)

/-- R180 (a), (e): a RESTORE raises MalformedStream for an RLE record whose COUNT is larger than the bytes the channel still lacks; and it does so even when the record's data is cut off, while a record that fits and is cut off is TruncatedStream. -/
def Obligations.OverlongRleRecordIsMalformed : Prop :=
  (∀ (count : BitVec 7) (v : Byte) (s : State), s.dir = .restore → s.n < s.rleCnt + count.toNat → s.rleCnt ≤ s.n →
    ∃ t, exec (.rleRep count v) s = .next t ∧ Faulted .malformedStream s t ∧ SameSize s t) ∧
  (∀ (data : List Byte) (s : State), data.length ≤ 127 → s.dir = .restore → s.n < s.rleCnt + data.length →
    s.rleCnt ≤ s.n → ∃ t, exec (.rleLit data) s = .next t ∧ Faulted .malformedStream s t ∧ SameSize s t) ∧
  (∀ (s : State) (flag : Bool) (count : BitVec 7) (tail : List Bool), s.host = [] → s.state = .busy → s.dir = .restore →
    s.dec = .rle → s.rleCnt ≤ s.n →
    s.bitsFrom s.rpos (8 * s.inLen - s.rpos) = flag :: bitsOf 7 count.toNat ++ tail →
    tail.length < 8 * (if flag then 1 else count.toNat) →
    ∃ t, step s = .next t ∧ SameSize s t ∧
      (s.n < s.rleCnt + count.toNat → Faulted .malformedStream s t) ∧
      (s.rleCnt + count.toNat ≤ s.n → Faulted .truncatedStream s t))

/-- R204: executed by a RESTORE directly after a CLEAR, a literal code at 12, 16 or 20 bits emits its one byte, inserts nothing and becomes PREV; a phrase code raises MalformedStream. -/
def Obligations.FirstCodeAfterClearIsALiteral : Prop :=
  ∀ (w : LzwWidth) (c : Nat) (s : State), c < w.cap → c ≠ 256 → c ≠ 257 → s.dir = .restore → s.state = .busy →
    s.started = true → s.prev = none →
    (c < 256 → s.wpos + 1 ≤ s.total → s.total ≤ s.params.obufCap →
      ∃ t, exec (lzwInstr w c) s = .next t ∧ Stores s t [BitVec.ofNat 8 c] ∧
        t = { s with obuf := t.obuf, wpos := t.wpos, prev := some c }) ∧
    (258 ≤ c → ∃ t, exec (lzwInstr w c) s = .next t ∧ Faulted .malformedStream s t ∧ SameSize s t)

/-- R205, R195: executed by a RESTORE after an ordinary code PREV, a code that is present (a literal or below NEXT) with room in the table and in the output emits str(c), inserts (PREV, first(c)) at code NEXT and becomes PREV. At 12, 16 and 20 bits. Nothing else changes. -/
def Obligations.PresentCodeIsEmittedAndLearned : Prop :=
  ∀ (w : LzwWidth) (c p : Nat) (s : State), c < w.cap → c < s.next → c ≠ 256 → c ≠ 257 → s.dir = .restore →
    s.state = .busy → s.started = true → s.prev = some p → s.next ≠ w.cap →
    s.wpos + (lzwStr s.lzwTable c).length ≤ s.total → s.total ≤ s.params.obufCap →
    ∃ t, exec (lzwInstr w c) s = .next t ∧ Stores s t (lzwStr s.lzwTable c) ∧
      t = { s with obuf := t.obuf, wpos := t.wpos, prev := some c,
                   lzwTable := s.lzwTable ++ [{ pfx := p, sfx := lzwFirst s.lzwTable c }] }

/-- R206: executed by a RESTORE after PREV, the phrase code equal to NEXT emits str(PREV) followed by first(PREV), inserts exactly that phrase, so that afterwards str(c) is what was emitted, and becomes PREV. At 12, 16 and 20 bits. -/
def Obligations.CodeEqualToNextIsReconstructed : Prop :=
  ∀ (w : LzwWidth) (p : Nat) (s : State), s.next < w.cap → s.dir = .restore → s.state = .busy → s.started = true →
    s.prev = some p → s.codeDefined p → (∀ k e, s.lzwTable[k]? = some e → e.pfx < 258 + k ∧ e.pfx ≠ 256 ∧ e.pfx ≠ 257) →
    s.wpos + (lzwStr s.lzwTable p).length + 1 ≤ s.total → s.total ≤ s.params.obufCap →
    ∃ t, exec (lzwInstr w s.next) s = .next t ∧
      Stores s t (lzwStr s.lzwTable p ++ [lzwFirst s.lzwTable p]) ∧
      lzwStr t.lzwTable s.next = lzwStr s.lzwTable p ++ [lzwFirst s.lzwTable p] ∧
      t = { s with obuf := t.obuf, wpos := t.wpos, prev := some s.next,
                   lzwTable := s.lzwTable ++ [{ pfx := p, sfx := lzwFirst s.lzwTable p }] }

/-- R200, R207, R208, R209: executed by a RESTORE, a first code other than CLEAR is MalformedStream; a code above NEXT is MalformedStream; an insertion that is due in a full table is TableOverflow, before anything is emitted; a string that runs past TOTAL is MalformedStream, be it a present code's, the one being learned of a code equal to NEXT, or a literal's
directly after CLEAR. -/
def Obligations.LzwDecoderFaults : Prop :=
  ∀ (w : LzwWidth) (c : Nat) (s : State), c < w.cap → c ≠ 256 → s.dir = .restore → s.state = .busy →
    (s.started = false → ∃ t, exec (lzwInstr w c) s = .next t ∧ Faulted .malformedStream s t ∧ SameSize s t) ∧
    (∀ p, s.started = true → c ≠ 257 → s.prev = some p →
      (s.next < c → ∃ t, exec (lzwInstr w c) s = .next t ∧ Faulted .malformedStream s t ∧ SameSize s t) ∧
      (c < s.next → s.next = w.cap →
        ∃ t, exec (lzwInstr w c) s = .next t ∧ Faulted .tableOverflow s t ∧ SameSize s t) ∧
      (c < s.next → s.next ≠ w.cap → s.total < s.wpos + (lzwStr s.lzwTable c).length →
        ∃ t, exec (lzwInstr w c) s = .next t ∧ Faulted .malformedStream s t ∧ SameSize s t) ∧
      (c = s.next → s.codeDefined p → s.total < s.wpos + (lzwStr s.lzwTable p).length + 1 →
        ∃ t, exec (lzwInstr w c) s = .next t ∧ Faulted .malformedStream s t ∧ SameSize s t)) ∧
    (s.started = true → s.prev = none → c < 256 → s.total < s.wpos + 1 →
      ∃ t, exec (lzwInstr w c) s = .next t ∧ Faulted .malformedStream s t ∧ SameSize s t)

/-- R202, R192: executed by a RESTORE, at 12, 16 and 20 bits and anywhere in the stream, CLEAR seeds the table (NEXT = 258),
forgets PREV and is counted; it emits nothing. Executed by a COMPRESS it appends the code 256, seeds the table and is counted.
R203, R209, R131, R134: executed by a RESTORE of an LZW stream, END completes the command when exactly TOTAL bytes are out, with
OUT_LEN = TOTAL, IN_USED = ceil8(RPOS), STAT_TABLE = NEXT and STAT_CLEARS = CLEARS; with fewer it raises MalformedStream. -/
def Obligations.ClearAndEndControlTheStream : Prop :=
  ∀ (w : LzwWidth) (s : State),
    (s.dir = .restore → exec (lzwInstr w 256) s =
      .next { s with started := true, lzwTable := [], prev := none, clears := s.clears + 1 }) ∧
    (s.dir = .compress → s.state = .busy → s.wcnt < 8 → s.wacc < 2 ^ s.wcnt →
      s.wpos + (s.wcnt + w.bits) / 8 ≤ s.params.obufCap →
      ∃ t, exec (lzwInstr w 256) s = .next t ∧ Appends s t (lzwCodeBits w 256) ∧ t.next = 258 ∧
        t.clears = s.clears + 1 ∧ t.cur = s.cur ∧ t.idx = s.idx ∧ t.state = .busy ∧ t.enc = .lzwCodes) ∧
    (s.dir = .restore → s.alg = .lzw → s.state = .busy → s.started = true →
      (s.wpos = s.total → ∃ t, exec (lzwInstr w 257) s = .next t ∧ t.state = .done ∧ t.cause = s.cause ∧
        t.outLen = s.total ∧ t.inUsed = ceil8 s.rpos ∧ t.statTable = BitVec.ofNat 21 s.next ∧
        t.statClears = s.clears ∧ SameInputs s t ∧ SameSize s t ∧
        (∀ a, a < s.total → Memory.lookup t.obuf a = Memory.lookup s.obuf a)) ∧
      (s.wpos < s.total → ∃ t, exec (lzwInstr w 257) s = .next t ∧ Faulted .malformedStream s t ∧ SameSize s t))

/-- R210: an LZW stream read with another of the three widths than it was written with faults at its first code, with
MalformedStream when it holds one code of the wrong width and with TruncatedStream when it does not. -/
def Obligations.LzwWidthMismatchFaults : Prop :=
  ∀ (s : State) (written read : LzwWidth) (width height : Half) (rest : List Bool), s.Ready →
    legalWidth s.lzwW = some read → written ≠ read →
    s.RestoreInput width height (encode (lzwInstr written 256) ++ rest) →
    ∃ t, exec .rlzw s = .next t ∧ t.width = width ∧ t.height = height ∧
      (read.bits ≤ written.bits + rest.length → Faulted .malformedStream s t) ∧
      (written.bits + rest.length < read.bits → Faulted .truncatedStream s t)

/-- R235, R236, R237: executed by a RESTORE, HSZ sets DN to its value plus 1; a HEN with length 1 to 16, a code that fits and no entry of the same length and code is added to the table, and the last one gives LENS, the distinct lengths in ascending order; any other HEN raises MalformedStream. -/
def Obligations.TableSizeAndEntriesAreRead : Prop :=
  (∀ (n : Byte) (s : State), s.dir = .restore →
    exec (.hsz n) s = .next { s with dn := n.toNat + 1, dtab := [], dec := .hufTable }) ∧
  (∀ (sym len : Byte) (code : Half) (s : State), s.dir = .restore → s.dtab.length < s.dn →
    (1 ≤ len.toNat → len.toNat ≤ 16 → code.toNat < 2 ^ len.toNat →
      (∀ e ∈ s.dtab, ¬ (e.len = len.toNat ∧ e.code = code.toNat)) →
      ∃ t, exec (.hen sym len code) s = .next t ∧
        t.dtab = s.dtab ++ [{ sym := sym, len := len.toNat, code := code.toNat }] ∧
        t = { s with dtab := t.dtab, lens := t.lens, dec := t.dec } ∧
        (t.dtab.length < s.dn → t.dec = s.dec ∧ t.lens = s.lens) ∧
        (t.dtab.length = s.dn → t.dec = .hufCodes ∧ t.lens.Pairwise (· < ·) ∧
          ((∀ e ∈ s.dtab, e.len ≤ 16) → ∀ l, l ∈ t.lens ↔ ∃ e ∈ t.dtab, e.len = l))) ∧
    (len.toNat = 0 ∨ 16 < len.toNat ∨ 2 ^ len.toNat ≤ code.toNat ∨
        (∃ e ∈ s.dtab, e.len = len.toNat ∧ e.code = code.toNat) →
      ∃ t, exec (.hen sym len code) s = .next t ∧ Faulted .malformedStream s t ∧ SameSize s t))

/-- R238, R239, R241: executed by a RESTORE, a code word that is the code of a table entry stores the entry's symbol at WPOS, and the TOTAL-th completes the command; one that is in no entry raises MalformedStream (the code search itself: ShortestCodeMatchWins). -/
def Obligations.CodeWordEmitsItsSymbol : Prop :=
  ∀ (len : BitVec 5) (code : Half) (s : State), s.dir = .restore → s.state = .busy → s.wpos < s.total →
    s.total ≤ s.params.obufCap →
    (∀ b, hufLookup s.dtab len.toNat code.toNat = some b →
      ∃ t, exec (.hcw len code) s = .next t ∧ Stores s t [b] ∧ SameInputs s t ∧ SameSize s t ∧ t.cause = s.cause ∧
        (s.wpos + 1 < s.total → t = { s with obuf := t.obuf, wpos := t.wpos }) ∧
        (s.wpos + 1 = s.total → t.state = .done ∧ t.outLen = s.total ∧ t.inUsed = ceil8 s.rpos)) ∧
    (hufLookup s.dtab len.toNat code.toNat = none →
      ∃ t, exec (.hcw len code) s = .next t ∧ Faulted .malformedStream s t ∧ SameSize s t)

/-- R238, R104: the code search takes the shortest length in LENS, in ascending order, at which the bits are a code of the table; so
for a prefix-free table it finds the code word of every entry, whatever follows. R239: where no length matches there is no code, and
the step of a running RESTORE raises MalformedStream. R240: a candidate longer than the bits that are left, reached without a match, is
TruncatedStream. -/
def Obligations.ShortestCodeMatchWins : Prop :=
  (∀ (entries : List HufEntry) (lens : List Nat) (bits : List Bool), lens.Pairwise (· < ·) → (∀ l ∈ lens, 1 ≤ l ∧ l ≤ 16) →
    (∀ (len : BitVec 5) (code : Half) (rest : List Bool), decodeCode entries lens bits = .ok (.hcw len code, rest) →
      len.toNat ∈ lens ∧ (hufLookup entries len.toNat code.toNat).isSome = true ∧
        bits = bitsOf len.toNat code.toNat ++ rest ∧
        ∀ l ∈ lens, l < len.toNat → hufLookup entries l (bitsVal (bits.take l)) = none) ∧
    ((∀ l ∈ lens, NoMatchAt entries bits l) → decodeCode entries lens bits = .error .noCode) ∧
    (∀ l ∈ lens, bits.length < l → (∀ k ∈ lens, k < l → NoMatchAt entries bits k) →
      decodeCode entries lens bits = .error .truncated)) ∧
  (∀ (entries : List HufEntry) (lens : List Nat) (e : HufEntry) (rest : List Bool), lens.Pairwise (· < ·) →
    (∀ l, l ∈ lens ↔ ∃ f ∈ entries, f.len = l) → (∀ f ∈ entries, 1 ≤ f.len ∧ f.len ≤ 16 ∧ f.code < 2 ^ f.len) →
    entries.Pairwise (fun f g => ¬ bitsOf f.len f.code <+: bitsOf g.len g.code ∧
      ¬ bitsOf g.len g.code <+: bitsOf f.len f.code) → e ∈ entries →
    decodeCode entries lens (bitsOf e.len e.code ++ rest) = .ok (.hcw (BitVec.ofNat 5 e.len) (BitVec.ofNat 16 e.code), rest) ∧
      hufLookup entries e.len e.code = some e.sym) ∧
  (∀ (s : State) (bits : List Bool), s.host = [] → s.state = .busy → s.dir = .restore → s.dec = .hufCodes →
    s.lens.Pairwise (· < ·) → (∀ l ∈ s.lens, 1 ≤ l ∧ l ≤ 16) → bits = s.bitsFrom s.rpos (8 * s.inLen - s.rpos) →
    ((∀ l ∈ s.lens, NoMatchAt s.dtab bits l) →
      ∃ t, step s = .next t ∧ Faulted .malformedStream s t ∧ SameSize s t) ∧
    (∀ l ∈ s.lens, bits.length < l → (∀ k ∈ s.lens, k < l → NoMatchAt s.dtab bits k) →
      ∃ t, step s = .next t ∧ Faulted .truncatedStream s t ∧ SameSize s t))

/-- R159, R153: in a RESTORE the PAD record has no effect, and pad bits of any value decode alike. -/
def Obligations.PadIsNeverExamined : Prop :=
  (∀ (n : BitVec 3) (s : State), s.dir = .restore → exec (.pad n) s = .next s) ∧
  (∀ (n : BitVec 3) (bits rest : List Bool), bits.length = n.toNat → decode (.pad n) (bits ++ rest) = .ok (.pad n, rest))

/-! ## The framer (41_bitstream.md) -/

/-- R153: FlushBits with pending bits writes the one byte WACC * 2^(8 - WCNT) at WPOS and leaves none pending; with none
pending it writes nothing; where the byte does not fit it raises OutputOverflow. -/
def Obligations.FlushWritesPendingBitsHigh : Prop :=
  ∀ s : State, s.wcnt < 8 → s.wacc < 2 ^ s.wcnt →
    (0 < s.wcnt → s.wpos < s.params.obufCap → flushBits s = .ok
      { s with wacc := 0, wcnt := 0, wpos := s.wpos + 1,
               obuf := Memory.write s.obuf s.wpos (BitVec.ofNat 8 (s.wacc * 2 ^ (8 - s.wcnt))) }) ∧
    (0 < s.wcnt → s.params.obufCap ≤ s.wpos → ∃ u, flushBits s = .raised .outputOverflow u) ∧
    (s.wcnt = 0 → flushBits s = .ok s)

/-- R154: from a byte boundary, PutBits of any values followed by FlushBits writes exactly ceil8 of the total width in bytes: the bits of the values, high bit first, then zeros. R152 speaks of widths 1 to 20 and of values that fit; that the law holds at the
other widths and of the low bits of larger values is the model's choice (log 28). -/
def Obligations.WriterLaw : Prop :=
  ∀ (items : List (Nat × Nat)) (s : State), s.wcnt = 0 → s.wacc = 0 →
    s.wpos + ceil8 (items.map Prod.snd).sum ≤ s.params.obufCap →
    ∃ t bytes, (items.foldl (fun (r : Res) (item : Nat × Nat) => r.bind (putBits item.1 item.2)) (Res.ok s)).bind flushBits = .ok t ∧
      Stores s t bytes ∧ bytes.length = ceil8 (items.map Prod.snd).sum ∧ t.wcnt = 0 ∧ t.wacc = 0 ∧
      bytesBits bytes = items.flatMap (fun item => bitsOf item.2 item.1) ++
        List.replicate (8 * ceil8 (items.map Prod.snd).sum - (items.map Prod.snd).sum) false

/-- R160, R155 to R158: GetBits on bits that begin with the n bits of v returns v and moves RPOS by n; where fewer than n bits are left it is TruncatedStream; GetByte is GetBits(8). R156 speaks of widths 1 to 20 and R155 of byte boundaries; the rest is the model's choice (log 28). -/
def Obligations.ReaderReadsWhatWasWritten : Prop :=
  ∀ (n v : Nat) (s : State) (rest : List Bool), v < 2 ^ n →
    (s.bitsFrom s.rpos (8 * s.inLen - s.rpos) = bitsOf n v ++ rest →
      getBits n s = .ok (v, { s with rpos := s.rpos + n })) ∧
    (0 < n → 8 * s.inLen < s.rpos + n → getBits n s = .error .truncatedStream) ∧
    (n = 8 → s.bitsFrom s.rpos (8 * s.inLen - s.rpos) = bitsOf n v ++ rest →
      getByte s = .ok (BitVec.ofNat 8 v, { s with rpos := s.rpos + 8 }))

/-! ## Frames -/

/-- R69, R33, R151, R36: whatever record is executed in a BUSY engine, in either direction, the capacities, IBUF, LZW_W, IN_LEN
and the host's side, the hands of R304 included, are unchanged; WIDTH and HEIGHT are changed by the header of a RESTORE only. While
the engine stays BUSY, RPOS is unchanged, the registers of a codec are changed by the header and the records of that codec only (the
LZW registers not even by the header), a RESTORE leaves the bit accumulator as it is, every byte of OBUF outside the old and the new
WPOS is unchanged, and so are CAUSE and the result registers; at completion the bytes below the old WPOS and CAUSE are. R270, R134: a
record that ends the command leaves DONE or FAULT; the private state is unspecified then (log 15). -/
def Obligations.RecordFrame : Prop :=
  ∀ (i : Instr) (s t : State), i.isRecord = true → s.state = .busy → exec i s = .next t →
    SameInputs s t ∧ t.handsOff = s.handsOff ∧ (s.dir = .compress ∨ i.isHdr = false → SameSize s t) ∧
    (t.state = .busy → t.rpos = s.rpos ∧
      (i.isHdr = false → i.isRle = false → SameRle s t) ∧ (i.isLzw = false → SameLzw s t) ∧
      (i.isHdr = false → i.isHuf = false → SameHuf s t) ∧ s.wpos ≤ t.wpos ∧
      (∀ a, a < s.wpos ∨ t.wpos ≤ a → Memory.lookup t.obuf a = Memory.lookup s.obuf a) ∧
      t.obufEpoch = s.obufEpoch ∧ t.privateEpoch = s.privateEpoch ∧ t.cause = s.cause ∧ t.outLen = s.outLen ∧
      t.inUsed = s.inUsed ∧ t.statTable = s.statTable ∧ t.statClears = s.statClears ∧ t.dir = s.dir ∧ t.alg = s.alg ∧
      t.w = s.w) ∧
    (s.dir = .restore → t.state ≠ .fault → t.wcnt = s.wcnt ∧ t.wacc = s.wacc) ∧
    (t.state = .done → t.cause = s.cause ∧ ∀ a, a < s.wpos → Memory.lookup t.obuf a = Memory.lookup s.obuf a) ∧
    (t.state = .busy ∨ t.state = .done ∨ t.state = .fault)

/-- R69, R72: no step changes IBUF but a host write of an IBUF byte and the hardware reset. -/
def Obligations.OnlyTheHostWritesIbuf : Prop :=
  ∀ s t : State, step s = .next t → (∀ a b, s.host.head? ≠ some (.ibufWrite a b)) → s.host.head? ≠ some .hardReset →
    t.ibuf = s.ibuf ∧ t.ibufEpoch = s.ibufEpoch

/-! ## The machine as a whole -/

/-- R22, R120, R122, R304: when the host's next action is a write of CMD and its hands are free, or the word is SRESET, the step is
exec of the decoded command in the state whose queue no longer holds the action. With its hands off any other word is refused. That
it is refused in FAULT too is the model's reading of R304 beside R120 (log 29). -/
def Obligations.StepRunsTheCommandWord : Prop :=
  ∀ (s : State) (v : Nat) (rest : List HostAct), s.host = .regWrite 0 v :: rest →
    (s.handsOff = false ∨ decodeCmd (BitVec.ofNat 32 v) = .sreset →
      step s = exec (decodeCmd (BitVec.ofNat 32 v)) { s with host := rest }) ∧
    (s.handsOff = true → decodeCmd (BitVec.ofNat 32 v) ≠ .sreset → step s = .refused .busyAccess)

/-- R33, R102, R104, R123: with no host action pending, a step of a running RESTORE decodes the record at RPOS from the rest of
the stream and is exec of that record with RPOS moved past it; where no record can be decoded it is the fault the reader or the
code search raises. A step of a running COMPRESS is exec of the record its scan of the input chooses (R173, R194); the scan
moves only the encoder's own cursors. -/
def Obligations.StepRunsTheRecord : Prop :=
  ∀ s : State, s.host = [] → s.state = .busy →
    (s.dir = .restore → (∀ l ∈ s.lens, l ≤ 16) →
      match decode s.ctx (s.bitsFrom s.rpos (8 * s.inLen - s.rpos)) with
      | .ok (i, rest) => step s = exec i { s with rpos := s.rpos + ((8 * s.inLen - s.rpos) - rest.length) }
      | .error r => step s = .next (faultEntry (s.rejectCause r) s)) ∧
    (s.dir = .compress → step s = exec (encScan s).encNext (encScan s) ∧
      encScan s = { s with rleS := (encScan s).rleS, rleL := (encScan s).rleL, cur := (encScan s).cur,
                           idx := (encScan s).idx })

/-- R76, R70, R71: a command that is started and then waited for, record by record, ends in the state that its word taken as one step
and a wait give: the state of exec, the STATUS just read, and the host's hands free. That both ways leave the same unspecified
private state is the model's choice (log 15). For the word SRESET, which is admitted also with the hands off, the free hands rest on
log 29: a soft reset frees them, and the wait reads IDLE, which R304 does not name. R20, R121: the start itself makes every private register and table fresh, the
results of the last command invalid, and touches no host-written register and no buffer; the host's hands are off from then on (R304). That the RLE registers and HCODE become 0 is
the model's choice (log 30). -/
def Obligations.StartedCommandReachesTheSameState : Prop :=
  (∀ (s : State) (word : CmdWord) (t u : State), s.Ready → (s.handsOff = false ∨ decodeCmd word = .sreset) →
    exec (decodeCmd word) s = .next t → u = { t with rdata := t.regRead 1, handsOff := false } →
    Host.Core.run core 2 { s with host := .regWrite 0 word.toNat :: .wait :: s.host } = .next u ∧
      ∃ k, Host.Core.run core k { s with host := .cmdStart word :: .wait :: s.host } = .next u) ∧
  (∀ (s : State) (word : CmdWord) (dir : Dir) (alg : Alg) (rest : List HostAct), s.Ready → s.handsOff = false →
    decodeCmd word = commandOf dir alg → s.host = .cmdStart word :: rest →
    ∃ u, step s = .next u ∧ u.handsOff = true ∧ (u.state = .busy ∨ u.state = .fault) ∧
      (u.state = .busy → u.Fresh ∧ u.cause = none ∧ u.outLen = 0 ∧ u.inUsed = 0 ∧ u.statTable = 0 ∧ u.statClears = 0 ∧
        SameInputs { s with host := rest } u ∧ SameSize s u ∧ u.obuf = s.obuf ∧ u.obufEpoch = s.obufEpoch))

/-- R300, R52: the registers of the machine after reset, and after the reset input in any state; the contents of both buffers are
unspecified then, and nothing runs until the host acts. -/
def Obligations.ResetValues : Prop :=
  State.reset.AtReset ∧
  ∀ (s : State) (rest : List HostAct), s.host = .hardReset :: rest →
    ∃ t, step s = .next t ∧ t.AtReset ∧ t.params = s.params ∧ t.host = rest ∧ t.rdata = s.rdata ∧
      t.ibuf = [] ∧ t.ibufEpoch = s.ibufEpoch + 1 ∧ t.obuf = [] ∧ t.obufEpoch = s.obufEpoch + 1 ∧ (rest = [] → step t = .next t)

/-- R52 with R6, and log 1 and 2 for the values the spec leaves open: the reset state meets the invariant of the engine. -/
def Obligations.ResetMeetsTheInvariant : Prop :=
  State.reset.Inv

/-- R23, R24, R27 to R34, R69, R74, R138, R151, R211 (a), R304: every step from a state that meets the invariant gives one that meets it, whatever
the host does. That the host's hands are free in IDLE rests on log 29, and its clauses on private
registers outside BUSY (pending bits, table sizes) on the model's choice of what these hold after a
reset (log 2); after a command they are no more than the widths of R34, R45 and R47 (log 15). -/
def Obligations.EveryStepKeepsTheInvariant : Prop :=
  ∀ s t : State, s.Inv → step s = .next t → t.Inv

/-- R270, R271, R23, R139: a step that enters FAULT leaves a cause, the four result registers at 0, no byte of OBUF, and LZW_W,
IN_LEN and IBUF as they were. FAULT is sticky: a step leaves it only by a soft or hardware reset, and until then every register
and buffer keeps its value, and the host's hands are freed by a STATUS read or stay as they are (R304). Both
resets clear CAUSE and return every register to its reset value; IDLE is entered by reset only. That the resets free the host's
hands is the model's reading of R304 (log 29), and that the private registers keep their values in FAULT as well is the model's
choice (log 15). -/
def Obligations.FaultEntryAndExit : Prop :=
  ∀ s t : State, step s = .next t →
    (s.state ≠ .fault → t.state = .fault → t.cause.isSome = true ∧ t.outLen = 0 ∧ t.inUsed = 0 ∧ t.statTable = 0 ∧
      t.statClears = 0 ∧ t.obuf = [] ∧ t.lzwW = s.lzwW ∧ t.inLen = s.inLen ∧ t.ibuf = s.ibuf ∧
      t.ibufEpoch = s.ibufEpoch) ∧
    (∀ a, s.host.head? = some a → resetAction a = true → t.AtReset ∧ t.handsOff = false) ∧
    ((∀ a, s.host.head? = some a → resetAction a = false) →
      (s.state = .fault → t = { s with host := s.host.tail, rdata := t.rdata, handsOff := t.handsOff } ∧
        (t.handsOff = s.handsOff ∨ t.handsOff = false ∧ (s.host.head? = some (.regRead 1) ∨ s.host.head? = some .wait))) ∧
      (t.state = .idle → s.state = .idle))

/-- R21, R25, R26, R27, R68: in IDLE and DONE a register write keeps the low bits of the value for WIDTH (16), HEIGHT (16), LZW_W (5) and IN_LEN (LEN_W) and is ignored for read-only registers and numbers 11 and above; in FAULT it is ignored; while BUSY it is refused. A read returns the register, 0 for CMD and for
numbers 11 and above: STATUS is 000 IDLE, 001 BUSY, 010 DONE, 100 FAULT (R23), CAUSE is 0 or the code 1 to 8 of R260. While BUSY only
STATUS can be read. R304: from the start of a command on every register access but a STATUS read and the SRESET word is refused, until
a STATUS read returns DONE or FAULT. A wait ends with such a read (R105). R68 and R304 give the other accesses no defined effect; that
they are refused is the model's choice (log 8, U3). -/
def Obligations.HostRegisterAccess : Prop :=
  ∀ (s : State) (n v : Nat) (rest : List HostAct),
    (s.host = .regWrite n v :: rest → n ≠ 0 →
      (s.Ready → s.handsOff = false → step s = .next
        (if n = 3 then { s with host := rest, width := BitVec.ofNat 16 v }
         else if n = 4 then { s with host := rest, height := BitVec.ofNat 16 v }
         else if n = 5 then { s with host := rest, lzwW := BitVec.ofNat 5 v }
         else if n = 6 then { s with host := rest, inLen := v % 2 ^ s.params.lenW }
         else { s with host := rest })) ∧
      (s.state = .fault → s.handsOff = false → step s = .next { s with host := rest }) ∧
      (s.state = .busy ∨ s.handsOff = true → step s = .refused .busyAccess)) ∧
    (s.host = .wait :: rest → s.state ≠ .busy → step s = step { s with host := .regRead 1 :: rest }) ∧
    (s.host = .regRead n :: rest →
      (s.state = .busy ∨ s.handsOff = true → n ≠ 1 → step s = .refused .busyAccess) ∧
      (s.state ≠ .busy ∧ s.handsOff = false ∨ n = 1 → ∃ t, step s = .next t ∧
        t = { s with host := rest, rdata := t.rdata, handsOff := t.handsOff } ∧
        t.handsOff = (if n = 1 ∧ (s.state = .done ∨ s.state = .fault) then false else s.handsOff) ∧
        t.rdata = match n with
          | 1 => match s.state with
            | .idle => 0b000
            | .busy => 0b001
            | .done => 0b010
            | .fault => 0b100
          | 2 => match s.cause with
            | none => 0
            | some .invalidInput => 1
            | some .tableOverflow => 2
            | some .truncatedStream => 3
            | some .malformedTree => 4
            | some .malformedStream => 5
            | some .codeTooLong => 6
            | some .outputOverflow => 7
            | some .illegalCommand => 8
          | 3 => s.width.toNat
          | 4 => s.height.toNat
          | 5 => s.lzwW.toNat
          | 6 => s.inLen
          | 7 => s.outLen
          | 8 => s.inUsed
          | 9 => s.statTable.toNat
          | 10 => s.statClears
          | _ => 0))

/-- R68, R74, R75: a host write of an IBUF byte below IBUF_CAP stores exactly that byte in IDLE and DONE and is ignored in FAULT; a host read of an OBUF byte below OUT_LEN of a completed command returns the byte held there; an index at or beyond the capacity and any access while BUSY, or before a STATUS read has returned DONE or FAULT
(R304), are refused. A read of any other byte completes and changes nothing but the value read. The refusals are the model's choice:
with the hands off log 8 (U3), beyond the capacity log 9 (U17), in FAULT too. -/
def Obligations.HostBufferAccess : Prop :=
  ∀ (s : State) (a : Nat) (b : Byte) (rest : List HostAct),
    (s.host = .ibufWrite a b :: rest →
      (s.state = .busy ∨ s.handsOff = true → step s = .refused .busyAccess) ∧
      (s.state ≠ .busy → s.handsOff = false → s.params.ibufCap ≤ a → step s = .refused .bufferIndex) ∧
      (s.state = .fault → s.handsOff = false → a < s.params.ibufCap → step s = .next { s with host := rest }) ∧
      (s.Ready → s.handsOff = false → a < s.params.ibufCap → ∃ t, step s = .next t ∧ t = { s with host := rest, ibuf := t.ibuf } ∧
        t.ibufByte a = b ∧ ∀ a', a' ≠ a → t.ibufByte a' = s.ibufByte a')) ∧
    (s.host = .obufRead a :: rest →
      (s.state = .busy ∨ s.handsOff = true → step s = .refused .busyAccess) ∧
      (s.state ≠ .busy → s.handsOff = false → s.params.obufCap ≤ a → step s = .refused .bufferIndex) ∧
      (s.state ≠ .busy → s.handsOff = false → a < s.params.obufCap → ∃ t, step s = .next t ∧
        t = { s with host := rest, rdata := t.rdata }) ∧
      (s.state = .done → s.handsOff = false → a < s.outLen → a < s.params.obufCap → Memory.lookup s.obuf a = some b →
        step s = .next { s with host := rest, rdata := b.toNat }))
end

