-- ==== Sys2Proof/Laws/Bits.lean ====
section
/-! SUPPORT. The laws of bit strings: lengths, appending a bit, and that reading undoes writing. -/

namespace Sys2Proof

@[simp] theorem length_bitsOf (n v : Nat) : (bitsOf n v).length = n := by
  induction n with
  | zero => rfl
  | succ n ih => simp [bitsOf, ih]

@[simp] theorem bitsOf_zero (v : Nat) : bitsOf 0 v = [] := rfl

theorem bitsOf_succ (n v : Nat) : bitsOf (n + 1) v = v.testBit n :: bitsOf n v := rfl

/-- One more bit at the low end. -/
theorem bitsOf_snoc (n v : Nat) (b : Bool) : bitsOf (n + 1) (v * 2 + b.toNat) = bitsOf n v ++ [b] := by
  induction n with
  | zero => cases b <;> simp [bitsOf]
  | succ n ih =>
    rw [bitsOf_succ, ih, bitsOf_succ]
    have : (v * 2 + b.toNat).testBit (n + 1) = v.testBit n := by
      rw [Nat.testBit_succ]; congr 1; cases b <;> (simp; try omega)
    simp [this]

/-- Only the low `n` bits of the number count. -/
theorem bitsOf_mod (n m v : Nat) (h : n ≤ m) : bitsOf n (v % 2 ^ m) = bitsOf n v := by
  induction n with
  | zero => rfl
  | succ n ih =>
    rw [bitsOf_succ, bitsOf_succ, ih (by omega), Nat.testBit_mod_two_pow]
    simp; omega

theorem bitsOf_ofNat (n v : Nat) : bitsOf n (BitVec.ofNat n v).toNat = bitsOf n v := by
  rw [BitVec.toNat_ofNat]; exact bitsOf_mod n n v (Nat.le_refl n)

@[simp] theorem length_bytesBits (bs : List Byte) : (bytesBits bs).length = 8 * bs.length := by
  induction bs with
  | nil => rfl
  | cons b bs ih => simp only [bytesBits, List.flatMap_cons, List.length_append, length_bitsOf, List.length_cons] at *; omega

@[simp] theorem bytesBits_nil : bytesBits [] = [] := rfl

theorem bytesBits_cons (b : Byte) (bs : List Byte) : bytesBits (b :: bs) = bitsOf 8 b.toNat ++ bytesBits bs := by
  simp [bytesBits]

theorem bytesBits_append (as bs : List Byte) : bytesBits (as ++ bs) = bytesBits as ++ bytesBits bs := by
  simp [bytesBits]

/-! ## Reading -/

theorem takeBitsFrom_bitsOf (n acc v : Nat) (rest : List Bool) :
    takeBitsFrom n acc (bitsOf n v ++ rest) = some (acc * 2 ^ n + v % 2 ^ n, rest) := by
  induction n generalizing acc with
  | zero => simp [takeBitsFrom, Nat.mod_one]
  | succ n ih =>
    simp only [bitsOf_succ, List.cons_append, takeBitsFrom, ih]
    have h : v % 2 ^ (n + 1) = v % 2 ^ n + 2 ^ n * (v.testBit n).toNat := by
      rw [Nat.mod_pow_succ, Nat.testBit_eq_decide_div_mod_eq]
      congr 2
      rcases Nat.mod_two_eq_zero_or_one (v / 2 ^ n) with h | h <;> simp [h]
    rw [h]; congr 2; ring

/-- Reading `n` bits undoes writing them (R160). -/
theorem takeBits_bitsOf (n v : Nat) (rest : List Bool) :
    takeBits n (bitsOf n v ++ rest) = some (v % 2 ^ n, rest) := by
  simp [takeBits, takeBitsFrom_bitsOf]

theorem takeByte_bitsOf (b : Byte) (rest : List Bool) : takeByte (bitsOf 8 b.toNat ++ rest) = some (b, rest) := by
  rw [takeByte, takeBits_bitsOf]
  simp [Nat.mod_eq_of_lt b.isLt]

theorem takeBytes_bytesBits (bs : List Byte) (rest : List Bool) :
    takeBytes bs.length (bytesBits bs ++ rest) = some (bs, rest) := by
  induction bs with
  | nil => rfl
  | cons b bs ih => simp [takeBytes, bytesBits_cons, takeByte_bitsOf, ih]

/-- Fewer than `n` bits: nothing is read (R156). -/
theorem takeBitsFrom_short (n acc : Nat) (bs : List Bool) (h : bs.length < n) : takeBitsFrom n acc bs = none := by
  induction n generalizing acc bs with
  | zero => omega
  | succ n ih =>
    cases bs with
    | nil => rfl
    | cons b bs => exact ih _ bs (by simpa using h)

theorem takeBits_short (n : Nat) (bs : List Bool) (h : bs.length < n) : takeBits n bs = none :=
  takeBitsFrom_short n 0 bs h

/-- What was read: the bits in front, and their number is below `2 ^ n`. -/
theorem takeBitsFrom_some {n acc : Nat} {bs rest : List Bool} {v : Nat} (h : takeBitsFrom n acc bs = some (v, rest)) :
    ∃ u, u < 2 ^ n ∧ v = acc * 2 ^ n + u ∧ bs = bitsOf n u ++ rest := by
  induction n generalizing acc bs with
  | zero => simp only [takeBitsFrom, Option.some.injEq, Prod.mk.injEq] at h; exact ⟨0, by simp, by omega, by simp [h.2]⟩
  | succ n ih =>
    cases bs with
    | nil => simp [takeBitsFrom] at h
    | cons b bs =>
      obtain ⟨u, hu, hv, hb⟩ := ih h
      refine ⟨b.toNat * 2 ^ n + u, ?_, ?_, ?_⟩
      · have := Nat.pow_succ 2 n; cases b <;> simp <;> omega
      · rw [hv, Nat.pow_succ]; ring
      · rw [bitsOf_succ, List.cons_append, hb]
        have h1 : (b.toNat * 2 ^ n + u).testBit n = b := by
          rw [Nat.testBit_eq_decide_div_mod_eq, Nat.add_comm, Nat.add_mul_div_right _ _ (Nat.two_pow_pos n),
            Nat.div_eq_of_lt hu]
          cases b <;> simp
        have h2 : bitsOf n (b.toNat * 2 ^ n + u) = bitsOf n u := by
          rw [← bitsOf_mod n n _ (Nat.le_refl n)]
          congr 1; rw [Nat.add_comm, Nat.add_mul_mod_self_right, Nat.mod_eq_of_lt hu]
        rw [h1, h2]

theorem takeBits_some {n : Nat} {bs rest : List Bool} {v : Nat} (h : takeBits n bs = some (v, rest)) :
    v < 2 ^ n ∧ bs = bitsOf n v ++ rest := by
  obtain ⟨u, hu, hv, hb⟩ := takeBitsFrom_some h
  have : v = u := by omega
  subst this; exact ⟨hu, hb⟩

/-- Reading consumes exactly `n` bits. -/
theorem takeBits_length {n : Nat} {bs rest : List Bool} {v : Nat} (h : takeBits n bs = some (v, rest)) :
    bs.length = n + rest.length := by simp [(takeBits_some h).2]

theorem takeByte_some {bs rest : List Bool} {b : Byte} (h : takeByte bs = some (b, rest)) :
    bs = bitsOf 8 b.toNat ++ rest := by
  unfold takeByte at h
  split at h
  · next v r hv =>
    obtain ⟨hlt, hb⟩ := takeBits_some hv
    simp only [Option.some.injEq, Prod.mk.injEq] at h
    obtain ⟨rfl, rfl⟩ := h
    rw [hb, bitsOf_ofNat]
  · simp at h

theorem takeBytes_some {k : Nat} {bs rest : List Bool} {bytes : List Byte} (h : takeBytes k bs = some (bytes, rest)) :
    bytes.length = k ∧ bs = bytesBits bytes ++ rest := by
  induction k generalizing bs bytes with
  | zero => simp only [takeBytes, Option.some.injEq, Prod.mk.injEq] at h; obtain ⟨rfl, rfl⟩ := h; simp
  | succ k ih =>
    simp only [takeBytes] at h
    split at h
    · simp at h
    · next b r hb =>
      split at h
      · simp at h
      · next bytes' r' hr =>
        simp only [Option.some.injEq, Prod.mk.injEq] at h
        obtain ⟨rfl, rfl⟩ := h
        obtain ⟨hl, hbs⟩ := ih hr
        rw [takeByte_some hb, hbs, bytesBits_cons]; simp [hl]

end Sys2Proof
end

