-- ==== Sys2Proof/Laws/Memory.lean ====
section
/-! SUPPORT. The laws of the byte buffers: read after write, the canonical form and that every operation keeps it,
and that two buffers in the canonical form that read alike are equal. -/

namespace Sys2Proof.Machine

/-! ## Reading after writing -/

@[simp] theorem lookup_nil (x : Nat) : Memory.lookup [] x = none := rfl

theorem lookup_cons (k : Nat) (v : Byte) (m : Memory) (x : Nat) :
    Memory.lookup ((k, v) :: m) x = if x = k then some v else Memory.lookup m x := rfl

/-- A store changes the byte at its address and no other, in any buffer. -/
theorem lookup_write (m : Memory) (a : Nat) (b : Byte) (x : Nat) :
    Memory.lookup (Memory.write m a b) x = if x = a then some b else Memory.lookup m x := by
  induction m with
  | nil => rfl
  | cons c m ih =>
    obtain ⟨k, v⟩ := c
    simp only [Memory.write]
    split
    · rfl
    · split
      · next h1 h2 => subst h2; simp only [lookup_cons]; split <;> rfl
      · next h1 h2 =>
        simp only [lookup_cons, ih]
        by_cases hx : x = k <;> by_cases ha : x = a <;> simp_all

@[simp] theorem lookup_write_same (m : Memory) (a : Nat) (b : Byte) :
    Memory.lookup (Memory.write m a b) a = some b := by simp [lookup_write]

theorem lookup_write_other (m : Memory) (a : Nat) (b : Byte) (x : Nat) (h : x ≠ a) :
    Memory.lookup (Memory.write m a b) x = Memory.lookup m x := by simp [lookup_write, h]

/-- Consecutive stores change exactly the bytes they cover. -/
theorem lookup_writeBytes (m : Memory) (a : Nat) (bs : List Byte) (x : Nat) :
    Memory.lookup (Memory.writeBytes m a bs) x =
      if a ≤ x ∧ x < a + bs.length then bs[x - a]? else Memory.lookup m x := by
  induction bs generalizing m a with
  | nil => simp [Memory.writeBytes]
  | cons b bs ih =>
    simp only [Memory.writeBytes, ih, lookup_write, List.length_cons]
    by_cases h : x = a
    · subst h; simp
    · by_cases h2 : a + 1 ≤ x ∧ x < a + 1 + bs.length
      · rw [if_pos h2, if_pos (by omega)]
        obtain ⟨d, rfl⟩ : ∃ d, x = a + 1 + d := ⟨x - (a + 1), by omega⟩
        simp [show a + 1 + d - (a + 1) = d by omega, show a + 1 + d - a = d + 1 by omega]
      · rw [if_neg h2, if_neg h, if_neg (by omega)]

/-- Only the addresses below `n` are left. -/
theorem lookup_below (n : Nat) (m : Memory) (x : Nat) :
    Memory.lookup (Memory.below n m) x = if x < n then Memory.lookup m x else none := by
  induction m with
  | nil => simp [Memory.below]
  | cons c m ih =>
    obtain ⟨k, v⟩ := c
    simp only [Memory.below] at ih ⊢
    by_cases hk : k < n
    · rw [List.filter_cons_of_pos (by simpa using hk)]
      simp only [lookup_cons, ih]
      by_cases hx : x = k <;> simp_all
    · rw [List.filter_cons_of_neg (by simpa using hk)]
      simp only [lookup_cons, ih]
      by_cases hx : x = k
      · subst hx; simp [hk]
      · simp [hx]

/-! ## The canonical form -/

theorem risingFrom_mono {lo lo' : Nat} {m : Memory} (h : lo' ≤ lo) (hm : Memory.risingFrom lo m = true) :
    Memory.risingFrom lo' m = true := by
  cases m with
  | nil => rfl
  | cons c m =>
    obtain ⟨k, v⟩ := c
    simp only [Memory.risingFrom, Bool.and_eq_true, decide_eq_true_eq] at hm ⊢
    exact ⟨by omega, hm.2⟩

theorem risingFrom_write {lo : Nat} {m : Memory} (a : Nat) (b : Byte) (hm : Memory.risingFrom lo m = true)
    (ha : lo ≤ a) : Memory.risingFrom lo (Memory.write m a b) = true := by
  induction m generalizing lo with
  | nil => simp [Memory.write, Memory.risingFrom, ha]
  | cons c m ih =>
    obtain ⟨k, v⟩ := c
    simp only [Memory.risingFrom, Bool.and_eq_true, decide_eq_true_eq] at hm
    simp only [Memory.write]
    split
    · simp [Memory.risingFrom, ha, hm.2]; omega
    · split
      · next h => subst h; simp [Memory.risingFrom, ha, hm.2]
      · simp [Memory.risingFrom, hm.1]; exact ih hm.2 (by omega)

/-- A store keeps the canonical form. -/
theorem wf_write {m : Memory} (a : Nat) (b : Byte) (hm : Memory.wf m = true) :
    Memory.wf (Memory.write m a b) = true := risingFrom_write a b hm (Nat.zero_le a)

theorem wf_writeBytes {m : Memory} (a : Nat) (bs : List Byte) (hm : Memory.wf m = true) :
    Memory.wf (Memory.writeBytes m a bs) = true := by
  induction bs generalizing m a with
  | nil => exact hm
  | cons b bs ih => exact ih (a + 1) (wf_write a b hm)

theorem risingFrom_below {lo : Nat} {m : Memory} (n : Nat) (hm : Memory.risingFrom lo m = true) :
    Memory.risingFrom lo (Memory.below n m) = true := by
  induction m generalizing lo with
  | nil => rfl
  | cons c m ih =>
    obtain ⟨k, v⟩ := c
    simp only [Memory.risingFrom, Bool.and_eq_true, decide_eq_true_eq] at hm
    simp only [Memory.below] at ih ⊢
    by_cases hk : k < n
    · rw [List.filter_cons_of_pos (by simpa using hk)]
      simp [Memory.risingFrom, hm.1]; exact ih hm.2
    · rw [List.filter_cons_of_neg (by simpa using hk)]
      exact risingFrom_mono (by omega) (ih hm.2)

/-- What completion leaves of `OBUF` is in the canonical form. -/
theorem wf_below {m : Memory} (n : Nat) (hm : Memory.wf m = true) : Memory.wf (Memory.below n m) = true :=
  risingFrom_below n hm

@[simp] theorem wf_nil : Memory.wf [] = true := rfl

theorem lookup_of_risingFrom {lo : Nat} {m : Memory} (hm : Memory.risingFrom lo m = true) {x : Nat} (hx : x < lo) :
    Memory.lookup m x = none := by
  induction m generalizing lo with
  | nil => rfl
  | cons c m ih =>
    obtain ⟨k, v⟩ := c
    simp only [Memory.risingFrom, Bool.and_eq_true, decide_eq_true_eq] at hm
    rw [lookup_cons, if_neg (by omega), ih hm.2 (by omega)]

theorem risingFrom_ext {lo : Nat} {m1 m2 : Memory} (h1 : Memory.risingFrom lo m1 = true)
    (h2 : Memory.risingFrom lo m2 = true) (h : ∀ x, Memory.lookup m1 x = Memory.lookup m2 x) : m1 = m2 := by
  induction m1 generalizing lo m2 with
  | nil =>
    cases m2 with
    | nil => rfl
    | cons c m2 => obtain ⟨k, v⟩ := c; have := h k; simp [lookup_cons] at this
  | cons c m1 ih =>
    obtain ⟨k, v⟩ := c
    cases m2 with
    | nil => have := h k; simp [lookup_cons] at this
    | cons c2 m2 =>
      obtain ⟨k2, v2⟩ := c2
      simp only [Memory.risingFrom, Bool.and_eq_true, decide_eq_true_eq] at h1 h2
      have hk : k = k2 := by
        have a := h k; have b := h k2
        simp only [lookup_cons, if_true] at a b
        by_contra hne
        rcases Nat.lt_or_gt_of_ne hne with hlt | hgt
        · rw [if_neg hne, lookup_of_risingFrom h2.2 (by omega)] at a; cases a
        · rw [if_neg (Ne.symm hne), lookup_of_risingFrom h1.2 (by omega)] at b; cases b
      subst hk
      have hv := h k
      simp only [lookup_cons, if_true, Option.some.injEq] at hv
      subst hv
      have ht : m1 = m2 := by
        refine ih h1.2 h2.2 fun x => ?_
        by_cases hx : x = k
        · subst hx; rw [lookup_of_risingFrom h1.2 (by omega), lookup_of_risingFrom h2.2 (by omega)]
        · have := h x; simpa [lookup_cons, hx] using this
      rw [ht]

/-- Two buffers in the canonical form that read alike at every address are equal. -/
theorem memory_ext {m1 m2 : Memory} (h1 : Memory.wf m1 = true) (h2 : Memory.wf m2 = true)
    (h : ∀ x, Memory.lookup m1 x = Memory.lookup m2 x) : m1 = m2 := risingFrom_ext h1 h2 h

/-! ## Where the entries of a buffer are -/

theorem mem_write {m : Memory} {a : Nat} {b : Byte} {c : Host.Cell} (h : c ∈ Memory.write m a b) :
    c = (a, b) ∨ c ∈ m := by
  induction m with
  | nil => simpa [Memory.write] using h
  | cons d m ih =>
    obtain ⟨k, v⟩ := d
    simp only [Memory.write] at h
    split at h
    · simpa using h
    · split at h
      · next h2 => simp only [List.mem_cons] at h ⊢; tauto
      · simp only [List.mem_cons] at h ⊢
        rcases h with h | h
        · exact .inr (.inl h)
        · rcases ih h with h | h <;> simp [h]

theorem mem_below {n : Nat} {m : Memory} {c : Host.Cell} (h : c ∈ Memory.below n m) : c ∈ m ∧ c.1 < n := by
  simpa [Memory.below] using h

/-! ## Bytes at consecutive addresses -/

theorem lookup_listing (a : Nat) (bs : List Byte) (x : Nat) :
    Memory.lookup (Memory.listing a bs) x = if a ≤ x ∧ x < a + bs.length then bs[x - a]? else none := by
  induction bs generalizing a with
  | nil => simp [Memory.listing]
  | cons b bs ih =>
    simp only [Memory.listing, lookup_cons, ih, List.length_cons]
    by_cases h : x = a
    · subst h; simp
    · rw [if_neg h]
      by_cases h2 : a + 1 ≤ x ∧ x < a + 1 + bs.length
      · rw [if_pos h2, if_pos (by omega)]
        obtain ⟨d, rfl⟩ : ∃ d, x = a + 1 + d := ⟨x - (a + 1), by omega⟩
        simp [show a + 1 + d - (a + 1) = d by omega, show a + 1 + d - a = d + 1 by omega]
      · rw [if_neg h2, if_neg (by omega)]

theorem risingFrom_listing (a : Nat) (bs : List Byte) : Memory.risingFrom a (Memory.listing a bs) = true := by
  induction bs generalizing a with
  | nil => rfl
  | cons b bs ih => simp [Memory.listing, Memory.risingFrom, ih]

theorem wf_listing (a : Nat) (bs : List Byte) : Memory.wf (Memory.listing a bs) = true :=
  risingFrom_mono (Nat.zero_le a) (risingFrom_listing a bs)

theorem keys_listing (a : Nat) (bs : List Byte) : (Memory.listing a bs).map Prod.fst = List.range' a bs.length := by
  induction bs generalizing a with
  | nil => rfl
  | cons b bs ih => simp [Memory.listing, ih, List.range'_succ]

/-- A buffer in the canonical form of which exactly the bytes of `bs` are known is their listing. -/
theorem eq_listing {m : Memory} {bs : List Byte} (hm : Memory.wf m = true)
    (h : ∀ x, Memory.lookup m x = bs[x]?) : m = Memory.listing 0 bs := by
  refine memory_ext hm (wf_listing 0 bs) fun x => ?_
  rw [h, lookup_listing]
  by_cases hx : x < bs.length
  · rw [if_pos (by omega)]; simp
  · rw [if_neg (by omega)]; simp; omega

/-! ## The buffers of the machine -/

/-- A buffer that lists `bytes` from index `a` on reads as them. -/
theorem ibufBytes_of_lookup (s : State) : ∀ (bytes : List Byte) (a : Nat),
    (∀ k b, bytes[k]? = some b → Memory.lookup s.ibuf (a + k) = some b) → s.ibufBytes a bytes.length = bytes
  | [], _, _ => rfl
  | b :: bs, a, h => by
    have h0 := h 0 b rfl
    simp only [Nat.add_zero] at h0
    have ht := ibufBytes_of_lookup s bs (a + 1) (fun k c hk => by
      have := h (k + 1) c hk
      rwa [show a + 1 + k = a + (k + 1) by omega])
    simp only [List.length_cons, State.ibufBytes, State.ibufByte, h0, ht]

theorem reset_ibuf_wf : Memory.wf State.reset.ibuf = true := rfl
theorem reset_obuf_wf : Memory.wf State.reset.obuf = true := rfl

end Sys2Proof.Machine
end

