-- ==== Sys2Proof/Laws/State.lean ====
section
/-! SUPPORT. One lemma per field for each update of the state, all true by `rfl`: what the update gives the field,
or that the field is as before. -/

namespace Sys2Proof.Machine

/-! ## Fault entry (R270) -/

@[simp] theorem faultEntry_params (c : Cause) (s : State) : (faultEntry c s).params = s.params := rfl
@[simp] theorem faultEntry_state (c : Cause) (s : State) : (faultEntry c s).state = .fault := rfl
@[simp] theorem faultEntry_cause (c : Cause) (s : State) : (faultEntry c s).cause = some c := rfl
@[simp] theorem faultEntry_width (c : Cause) (s : State) : (faultEntry c s).width = s.width := rfl
@[simp] theorem faultEntry_height (c : Cause) (s : State) : (faultEntry c s).height = s.height := rfl
@[simp] theorem faultEntry_lzwW (c : Cause) (s : State) : (faultEntry c s).lzwW = s.lzwW := rfl
@[simp] theorem faultEntry_inLen (c : Cause) (s : State) : (faultEntry c s).inLen = s.inLen := rfl
@[simp] theorem faultEntry_outLen (c : Cause) (s : State) : (faultEntry c s).outLen = 0 := rfl
@[simp] theorem faultEntry_inUsed (c : Cause) (s : State) : (faultEntry c s).inUsed = 0 := rfl
@[simp] theorem faultEntry_statTable (c : Cause) (s : State) : (faultEntry c s).statTable = 0 := rfl
@[simp] theorem faultEntry_statClears (c : Cause) (s : State) : (faultEntry c s).statClears = 0 := rfl
@[simp] theorem faultEntry_ibuf (c : Cause) (s : State) : (faultEntry c s).ibuf = s.ibuf := rfl
@[simp] theorem faultEntry_obuf (c : Cause) (s : State) : (faultEntry c s).obuf = [] := rfl
@[simp] theorem faultEntry_ibufEpoch (c : Cause) (s : State) : (faultEntry c s).ibufEpoch = s.ibufEpoch := rfl
@[simp] theorem faultEntry_obufEpoch (c : Cause) (s : State) : (faultEntry c s).obufEpoch = s.obufEpoch + 1 := rfl
@[simp] theorem faultEntry_rpos (c : Cause) (s : State) :
    (faultEntry c s).rpos = (Config.unspecifiedPrivate s.privateEpoch).rpos := rfl
@[simp] theorem faultEntry_wpos (c : Cause) (s : State) :
    (faultEntry c s).wpos = (Config.unspecifiedPrivate s.privateEpoch).wpos := rfl
@[simp] theorem faultEntry_wacc (c : Cause) (s : State) :
    (faultEntry c s).wacc = (Config.unspecifiedPrivate s.privateEpoch).wacc.toNat % 2 ^ (Config.unspecifiedPrivate s.privateEpoch).wcnt.toNat := rfl
@[simp] theorem faultEntry_wcnt (c : Cause) (s : State) :
    (faultEntry c s).wcnt = (Config.unspecifiedPrivate s.privateEpoch).wcnt.toNat := rfl
@[simp] theorem faultEntry_dir (c : Cause) (s : State) :
    (faultEntry c s).dir = (Config.unspecifiedPrivate s.privateEpoch).dir := rfl
@[simp] theorem faultEntry_alg (c : Cause) (s : State) :
    (faultEntry c s).alg = (Config.unspecifiedPrivate s.privateEpoch).alg := rfl
@[simp] theorem faultEntry_w (c : Cause) (s : State) :
    (faultEntry c s).w = (Config.unspecifiedPrivate s.privateEpoch).w := rfl
@[simp] theorem faultEntry_enc (c : Cause) (s : State) :
    (faultEntry c s).enc = (Config.unspecifiedPrivate s.privateEpoch).enc := rfl
@[simp] theorem faultEntry_dec (c : Cause) (s : State) :
    (faultEntry c s).dec = (Config.unspecifiedPrivate s.privateEpoch).dec := rfl
@[simp] theorem faultEntry_idx (c : Cause) (s : State) :
    (faultEntry c s).idx = (Config.unspecifiedPrivate s.privateEpoch).idx := rfl
@[simp] theorem faultEntry_rleBase (c : Cause) (s : State) :
    (faultEntry c s).rleBase = (Config.unspecifiedPrivate s.privateEpoch).rleBase := rfl
@[simp] theorem faultEntry_rleI (c : Cause) (s : State) :
    (faultEntry c s).rleI = (Config.unspecifiedPrivate s.privateEpoch).rleI := rfl
@[simp] theorem faultEntry_rleS (c : Cause) (s : State) :
    (faultEntry c s).rleS = (Config.unspecifiedPrivate s.privateEpoch).rleS.toNat := rfl
@[simp] theorem faultEntry_rleL (c : Cause) (s : State) :
    (faultEntry c s).rleL = (Config.unspecifiedPrivate s.privateEpoch).rleL.toNat := rfl
@[simp] theorem faultEntry_rleCh (c : Cause) (s : State) :
    (faultEntry c s).rleCh = (Config.unspecifiedPrivate s.privateEpoch).rleCh.val := rfl
@[simp] theorem faultEntry_rleCnt (c : Cause) (s : State) :
    (faultEntry c s).rleCnt = (Config.unspecifiedPrivate s.privateEpoch).rleCnt := rfl
@[simp] theorem faultEntry_rleC (c : Cause) (s : State) :
    (faultEntry c s).rleC = (Config.unspecifiedPrivate s.privateEpoch).rleC := rfl
@[simp] theorem faultEntry_rleK (c : Cause) (s : State) :
    (faultEntry c s).rleK = (Config.unspecifiedPrivate s.privateEpoch).rleK.toNat := rfl
@[simp] theorem faultEntry_rleV (c : Cause) (s : State) :
    (faultEntry c s).rleV = (Config.unspecifiedPrivate s.privateEpoch).rleV := rfl
@[simp] theorem faultEntry_lzwTable (c : Cause) (s : State) :
    (faultEntry c s).lzwTable = (Config.unspecifiedPrivate s.privateEpoch).lzwTable := rfl
@[simp] theorem faultEntry_cur (c : Cause) (s : State) :
    (faultEntry c s).cur = (Config.unspecifiedPrivate s.privateEpoch).cur := rfl
@[simp] theorem faultEntry_prev (c : Cause) (s : State) :
    (faultEntry c s).prev = (Config.unspecifiedPrivate s.privateEpoch).prev := rfl
@[simp] theorem faultEntry_started (c : Cause) (s : State) :
    (faultEntry c s).started = (Config.unspecifiedPrivate s.privateEpoch).started := rfl
@[simp] theorem faultEntry_clears (c : Cause) (s : State) :
    (faultEntry c s).clears = (Config.unspecifiedPrivate s.privateEpoch).clears := rfl
@[simp] theorem faultEntry_freq (c : Cause) (s : State) :
    (faultEntry c s).freq = (Config.unspecifiedPrivate s.privateEpoch).freq.toList := rfl
@[simp] theorem faultEntry_nodes (c : Cause) (s : State) :
    (faultEntry c s).nodes = (Config.unspecifiedPrivate s.privateEpoch).nodes := rfl
@[simp] theorem faultEntry_queue (c : Cause) (s : State) :
    (faultEntry c s).queue = (Config.unspecifiedPrivate s.privateEpoch).queue := rfl
@[simp] theorem faultEntry_hlen (c : Cause) (s : State) :
    (faultEntry c s).hlen = (Config.unspecifiedPrivate s.privateEpoch).hlen.toList.map Fin.val := rfl
@[simp] theorem faultEntry_hcode (c : Cause) (s : State) :
    (faultEntry c s).hcode = (Config.unspecifiedPrivate s.privateEpoch).hcode.toList := rfl
@[simp] theorem faultEntry_dn (c : Cause) (s : State) :
    (faultEntry c s).dn = (Config.unspecifiedPrivate s.privateEpoch).dn.val := rfl
@[simp] theorem faultEntry_dtab (c : Cause) (s : State) :
    (faultEntry c s).dtab = (Config.unspecifiedPrivate s.privateEpoch).dtab := rfl
@[simp] theorem faultEntry_lens (c : Cause) (s : State) :
    (faultEntry c s).lens = (Config.unspecifiedPrivate s.privateEpoch).lens := rfl
@[simp] theorem faultEntry_host (c : Cause) (s : State) : (faultEntry c s).host = s.host := rfl
@[simp] theorem faultEntry_rdata (c : Cause) (s : State) : (faultEntry c s).rdata = s.rdata := rfl
@[simp] theorem faultEntry_privateEpoch (c : Cause) (s : State) : (faultEntry c s).privateEpoch = s.privateEpoch + 1 := rfl
@[simp] theorem faultEntry_handsOff (c : Cause) (s : State) : (faultEntry c s).handsOff = s.handsOff := rfl

/-! ## Command start (R121) -/

@[simp] theorem startCommand_params (s : State) : (startCommand s).params = s.params := rfl
@[simp] theorem startCommand_state (s : State) : (startCommand s).state = .busy := rfl
@[simp] theorem startCommand_cause (s : State) : (startCommand s).cause = none := rfl
@[simp] theorem startCommand_width (s : State) : (startCommand s).width = s.width := rfl
@[simp] theorem startCommand_height (s : State) : (startCommand s).height = s.height := rfl
@[simp] theorem startCommand_lzwW (s : State) : (startCommand s).lzwW = s.lzwW := rfl
@[simp] theorem startCommand_inLen (s : State) : (startCommand s).inLen = s.inLen := rfl
@[simp] theorem startCommand_outLen (s : State) : (startCommand s).outLen = 0 := rfl
@[simp] theorem startCommand_inUsed (s : State) : (startCommand s).inUsed = 0 := rfl
@[simp] theorem startCommand_statTable (s : State) : (startCommand s).statTable = 0 := rfl
@[simp] theorem startCommand_statClears (s : State) : (startCommand s).statClears = 0 := rfl
@[simp] theorem startCommand_ibuf (s : State) : (startCommand s).ibuf = s.ibuf := rfl
@[simp] theorem startCommand_obuf (s : State) : (startCommand s).obuf = s.obuf := rfl
@[simp] theorem startCommand_ibufEpoch (s : State) : (startCommand s).ibufEpoch = s.ibufEpoch := rfl
@[simp] theorem startCommand_obufEpoch (s : State) : (startCommand s).obufEpoch = s.obufEpoch := rfl
@[simp] theorem startCommand_rpos (s : State) : (startCommand s).rpos = 0 := rfl
@[simp] theorem startCommand_wpos (s : State) : (startCommand s).wpos = 0 := rfl
@[simp] theorem startCommand_wacc (s : State) : (startCommand s).wacc = 0 := rfl
@[simp] theorem startCommand_wcnt (s : State) : (startCommand s).wcnt = 0 := rfl
@[simp] theorem startCommand_dir (s : State) : (startCommand s).dir = s.dir := rfl
@[simp] theorem startCommand_alg (s : State) : (startCommand s).alg = s.alg := rfl
@[simp] theorem startCommand_w (s : State) : (startCommand s).w = s.w := rfl
@[simp] theorem startCommand_enc (s : State) : (startCommand s).enc = .header := rfl
@[simp] theorem startCommand_dec (s : State) : (startCommand s).dec = .header := rfl
@[simp] theorem startCommand_idx (s : State) : (startCommand s).idx = 0 := rfl
@[simp] theorem startCommand_rleBase (s : State) : (startCommand s).rleBase = 0 := rfl
@[simp] theorem startCommand_rleI (s : State) : (startCommand s).rleI = 0 := rfl
@[simp] theorem startCommand_rleS (s : State) : (startCommand s).rleS = 0 := rfl
@[simp] theorem startCommand_rleL (s : State) : (startCommand s).rleL = 0 := rfl
@[simp] theorem startCommand_rleCh (s : State) : (startCommand s).rleCh = 0 := rfl
@[simp] theorem startCommand_rleCnt (s : State) : (startCommand s).rleCnt = 0 := rfl
@[simp] theorem startCommand_rleC (s : State) : (startCommand s).rleC = 0 := rfl
@[simp] theorem startCommand_rleK (s : State) : (startCommand s).rleK = 0 := rfl
@[simp] theorem startCommand_rleV (s : State) : (startCommand s).rleV = 0 := rfl
@[simp] theorem startCommand_lzwTable (s : State) : (startCommand s).lzwTable = [] := rfl
@[simp] theorem startCommand_cur (s : State) : (startCommand s).cur = none := rfl
@[simp] theorem startCommand_prev (s : State) : (startCommand s).prev = none := rfl
@[simp] theorem startCommand_started (s : State) : (startCommand s).started = false := rfl
@[simp] theorem startCommand_clears (s : State) : (startCommand s).clears = 0 := rfl
@[simp] theorem startCommand_freq (s : State) : (startCommand s).freq = List.replicate 256 0 := rfl
@[simp] theorem startCommand_nodes (s : State) : (startCommand s).nodes = [] := rfl
@[simp] theorem startCommand_queue (s : State) : (startCommand s).queue = [] := rfl
@[simp] theorem startCommand_hlen (s : State) : (startCommand s).hlen = List.replicate 256 0 := rfl
@[simp] theorem startCommand_hcode (s : State) : (startCommand s).hcode = List.replicate 256 0 := rfl
@[simp] theorem startCommand_dn (s : State) : (startCommand s).dn = 0 := rfl
@[simp] theorem startCommand_dtab (s : State) : (startCommand s).dtab = [] := rfl
@[simp] theorem startCommand_lens (s : State) : (startCommand s).lens = [] := rfl
@[simp] theorem startCommand_host (s : State) : (startCommand s).host = s.host := rfl
@[simp] theorem startCommand_rdata (s : State) : (startCommand s).rdata = s.rdata := rfl
@[simp] theorem startCommand_privateEpoch (s : State) : (startCommand s).privateEpoch = s.privateEpoch := rfl
@[simp] theorem startCommand_handsOff (s : State) : (startCommand s).handsOff = true := rfl

/-! ## Completion (R134) -/

@[simp] theorem complete_params (used : Nat) (s : State) : (complete used s).params = s.params := rfl
@[simp] theorem complete_state (used : Nat) (s : State) : (complete used s).state = .done := rfl
@[simp] theorem complete_cause (used : Nat) (s : State) : (complete used s).cause = s.cause := rfl
@[simp] theorem complete_width (used : Nat) (s : State) : (complete used s).width = s.width := rfl
@[simp] theorem complete_height (used : Nat) (s : State) : (complete used s).height = s.height := rfl
@[simp] theorem complete_lzwW (used : Nat) (s : State) : (complete used s).lzwW = s.lzwW := rfl
@[simp] theorem complete_inLen (used : Nat) (s : State) : (complete used s).inLen = s.inLen := rfl
@[simp] theorem complete_outLen (used : Nat) (s : State) : (complete used s).outLen = s.wpos := rfl
@[simp] theorem complete_inUsed (used : Nat) (s : State) : (complete used s).inUsed = used := rfl
@[simp] theorem complete_statTable (used : Nat) (s : State) : (complete used s).statTable = s.finalStatTable := rfl
@[simp] theorem complete_statClears (used : Nat) (s : State) : (complete used s).statClears = s.finalStatClears := rfl
@[simp] theorem complete_ibuf (used : Nat) (s : State) : (complete used s).ibuf = s.ibuf := rfl
@[simp] theorem complete_obuf (used : Nat) (s : State) : (complete used s).obuf = Memory.below s.wpos s.obuf := rfl
@[simp] theorem complete_ibufEpoch (used : Nat) (s : State) : (complete used s).ibufEpoch = s.ibufEpoch := rfl
@[simp] theorem complete_obufEpoch (used : Nat) (s : State) : (complete used s).obufEpoch = s.obufEpoch + 1 := rfl
@[simp] theorem complete_rpos (used : Nat) (s : State) :
    (complete used s).rpos = (Config.unspecifiedPrivate s.privateEpoch).rpos := rfl
@[simp] theorem complete_wpos (used : Nat) (s : State) :
    (complete used s).wpos = (Config.unspecifiedPrivate s.privateEpoch).wpos := rfl
@[simp] theorem complete_wacc (used : Nat) (s : State) : (complete used s).wacc = s.wacc := rfl
@[simp] theorem complete_wcnt (used : Nat) (s : State) : (complete used s).wcnt = s.wcnt := rfl
@[simp] theorem complete_dir (used : Nat) (s : State) :
    (complete used s).dir = (Config.unspecifiedPrivate s.privateEpoch).dir := rfl
@[simp] theorem complete_alg (used : Nat) (s : State) :
    (complete used s).alg = (Config.unspecifiedPrivate s.privateEpoch).alg := rfl
@[simp] theorem complete_w (used : Nat) (s : State) :
    (complete used s).w = (Config.unspecifiedPrivate s.privateEpoch).w := rfl
@[simp] theorem complete_enc (used : Nat) (s : State) :
    (complete used s).enc = (Config.unspecifiedPrivate s.privateEpoch).enc := rfl
@[simp] theorem complete_dec (used : Nat) (s : State) :
    (complete used s).dec = (Config.unspecifiedPrivate s.privateEpoch).dec := rfl
@[simp] theorem complete_idx (used : Nat) (s : State) :
    (complete used s).idx = (Config.unspecifiedPrivate s.privateEpoch).idx := rfl
@[simp] theorem complete_rleBase (used : Nat) (s : State) :
    (complete used s).rleBase = (Config.unspecifiedPrivate s.privateEpoch).rleBase := rfl
@[simp] theorem complete_rleI (used : Nat) (s : State) :
    (complete used s).rleI = (Config.unspecifiedPrivate s.privateEpoch).rleI := rfl
@[simp] theorem complete_rleS (used : Nat) (s : State) :
    (complete used s).rleS = (Config.unspecifiedPrivate s.privateEpoch).rleS.toNat := rfl
@[simp] theorem complete_rleL (used : Nat) (s : State) :
    (complete used s).rleL = (Config.unspecifiedPrivate s.privateEpoch).rleL.toNat := rfl
@[simp] theorem complete_rleCh (used : Nat) (s : State) :
    (complete used s).rleCh = (Config.unspecifiedPrivate s.privateEpoch).rleCh.val := rfl
@[simp] theorem complete_rleCnt (used : Nat) (s : State) :
    (complete used s).rleCnt = (Config.unspecifiedPrivate s.privateEpoch).rleCnt := rfl
@[simp] theorem complete_rleC (used : Nat) (s : State) :
    (complete used s).rleC = (Config.unspecifiedPrivate s.privateEpoch).rleC := rfl
@[simp] theorem complete_rleK (used : Nat) (s : State) :
    (complete used s).rleK = (Config.unspecifiedPrivate s.privateEpoch).rleK.toNat := rfl
@[simp] theorem complete_rleV (used : Nat) (s : State) :
    (complete used s).rleV = (Config.unspecifiedPrivate s.privateEpoch).rleV := rfl
@[simp] theorem complete_lzwTable (used : Nat) (s : State) :
    (complete used s).lzwTable = (Config.unspecifiedPrivate s.privateEpoch).lzwTable := rfl
@[simp] theorem complete_cur (used : Nat) (s : State) :
    (complete used s).cur = (Config.unspecifiedPrivate s.privateEpoch).cur := rfl
@[simp] theorem complete_prev (used : Nat) (s : State) :
    (complete used s).prev = (Config.unspecifiedPrivate s.privateEpoch).prev := rfl
@[simp] theorem complete_started (used : Nat) (s : State) :
    (complete used s).started = (Config.unspecifiedPrivate s.privateEpoch).started := rfl
@[simp] theorem complete_clears (used : Nat) (s : State) :
    (complete used s).clears = (Config.unspecifiedPrivate s.privateEpoch).clears := rfl
@[simp] theorem complete_freq (used : Nat) (s : State) :
    (complete used s).freq = (Config.unspecifiedPrivate s.privateEpoch).freq.toList := rfl
@[simp] theorem complete_nodes (used : Nat) (s : State) :
    (complete used s).nodes = (Config.unspecifiedPrivate s.privateEpoch).nodes := rfl
@[simp] theorem complete_queue (used : Nat) (s : State) :
    (complete used s).queue = (Config.unspecifiedPrivate s.privateEpoch).queue := rfl
@[simp] theorem complete_hlen (used : Nat) (s : State) :
    (complete used s).hlen = (Config.unspecifiedPrivate s.privateEpoch).hlen.toList.map Fin.val := rfl
@[simp] theorem complete_hcode (used : Nat) (s : State) :
    (complete used s).hcode = (Config.unspecifiedPrivate s.privateEpoch).hcode.toList := rfl
@[simp] theorem complete_dn (used : Nat) (s : State) :
    (complete used s).dn = (Config.unspecifiedPrivate s.privateEpoch).dn.val := rfl
@[simp] theorem complete_dtab (used : Nat) (s : State) :
    (complete used s).dtab = (Config.unspecifiedPrivate s.privateEpoch).dtab := rfl
@[simp] theorem complete_lens (used : Nat) (s : State) :
    (complete used s).lens = (Config.unspecifiedPrivate s.privateEpoch).lens := rfl
@[simp] theorem complete_host (used : Nat) (s : State) : (complete used s).host = s.host := rfl
@[simp] theorem complete_rdata (used : Nat) (s : State) : (complete used s).rdata = s.rdata := rfl
@[simp] theorem complete_privateEpoch (used : Nat) (s : State) : (complete used s).privateEpoch = s.privateEpoch + 1 := rfl
@[simp] theorem complete_handsOff (used : Nat) (s : State) : (complete used s).handsOff = s.handsOff := rfl

/-! ## `SkipBits` (R158) -/

@[simp] theorem skipBits_params (n : Nat) (s : State) : (skipBits n s).params = s.params := rfl
@[simp] theorem skipBits_state (n : Nat) (s : State) : (skipBits n s).state = s.state := rfl
@[simp] theorem skipBits_cause (n : Nat) (s : State) : (skipBits n s).cause = s.cause := rfl
@[simp] theorem skipBits_width (n : Nat) (s : State) : (skipBits n s).width = s.width := rfl
@[simp] theorem skipBits_height (n : Nat) (s : State) : (skipBits n s).height = s.height := rfl
@[simp] theorem skipBits_lzwW (n : Nat) (s : State) : (skipBits n s).lzwW = s.lzwW := rfl
@[simp] theorem skipBits_inLen (n : Nat) (s : State) : (skipBits n s).inLen = s.inLen := rfl
@[simp] theorem skipBits_outLen (n : Nat) (s : State) : (skipBits n s).outLen = s.outLen := rfl
@[simp] theorem skipBits_inUsed (n : Nat) (s : State) : (skipBits n s).inUsed = s.inUsed := rfl
@[simp] theorem skipBits_statTable (n : Nat) (s : State) : (skipBits n s).statTable = s.statTable := rfl
@[simp] theorem skipBits_statClears (n : Nat) (s : State) : (skipBits n s).statClears = s.statClears := rfl
@[simp] theorem skipBits_ibuf (n : Nat) (s : State) : (skipBits n s).ibuf = s.ibuf := rfl
@[simp] theorem skipBits_obuf (n : Nat) (s : State) : (skipBits n s).obuf = s.obuf := rfl
@[simp] theorem skipBits_ibufEpoch (n : Nat) (s : State) : (skipBits n s).ibufEpoch = s.ibufEpoch := rfl
@[simp] theorem skipBits_obufEpoch (n : Nat) (s : State) : (skipBits n s).obufEpoch = s.obufEpoch := rfl
@[simp] theorem skipBits_rpos (n : Nat) (s : State) : (skipBits n s).rpos = s.rpos + n := rfl
@[simp] theorem skipBits_wpos (n : Nat) (s : State) : (skipBits n s).wpos = s.wpos := rfl
@[simp] theorem skipBits_wacc (n : Nat) (s : State) : (skipBits n s).wacc = s.wacc := rfl
@[simp] theorem skipBits_wcnt (n : Nat) (s : State) : (skipBits n s).wcnt = s.wcnt := rfl
@[simp] theorem skipBits_dir (n : Nat) (s : State) : (skipBits n s).dir = s.dir := rfl
@[simp] theorem skipBits_alg (n : Nat) (s : State) : (skipBits n s).alg = s.alg := rfl
@[simp] theorem skipBits_w (n : Nat) (s : State) : (skipBits n s).w = s.w := rfl
@[simp] theorem skipBits_enc (n : Nat) (s : State) : (skipBits n s).enc = s.enc := rfl
@[simp] theorem skipBits_dec (n : Nat) (s : State) : (skipBits n s).dec = s.dec := rfl
@[simp] theorem skipBits_idx (n : Nat) (s : State) : (skipBits n s).idx = s.idx := rfl
@[simp] theorem skipBits_rleBase (n : Nat) (s : State) : (skipBits n s).rleBase = s.rleBase := rfl
@[simp] theorem skipBits_rleI (n : Nat) (s : State) : (skipBits n s).rleI = s.rleI := rfl
@[simp] theorem skipBits_rleS (n : Nat) (s : State) : (skipBits n s).rleS = s.rleS := rfl
@[simp] theorem skipBits_rleL (n : Nat) (s : State) : (skipBits n s).rleL = s.rleL := rfl
@[simp] theorem skipBits_rleCh (n : Nat) (s : State) : (skipBits n s).rleCh = s.rleCh := rfl
@[simp] theorem skipBits_rleCnt (n : Nat) (s : State) : (skipBits n s).rleCnt = s.rleCnt := rfl
@[simp] theorem skipBits_rleC (n : Nat) (s : State) : (skipBits n s).rleC = s.rleC := rfl
@[simp] theorem skipBits_rleK (n : Nat) (s : State) : (skipBits n s).rleK = s.rleK := rfl
@[simp] theorem skipBits_rleV (n : Nat) (s : State) : (skipBits n s).rleV = s.rleV := rfl
@[simp] theorem skipBits_lzwTable (n : Nat) (s : State) : (skipBits n s).lzwTable = s.lzwTable := rfl
@[simp] theorem skipBits_cur (n : Nat) (s : State) : (skipBits n s).cur = s.cur := rfl
@[simp] theorem skipBits_prev (n : Nat) (s : State) : (skipBits n s).prev = s.prev := rfl
@[simp] theorem skipBits_started (n : Nat) (s : State) : (skipBits n s).started = s.started := rfl
@[simp] theorem skipBits_clears (n : Nat) (s : State) : (skipBits n s).clears = s.clears := rfl
@[simp] theorem skipBits_freq (n : Nat) (s : State) : (skipBits n s).freq = s.freq := rfl
@[simp] theorem skipBits_nodes (n : Nat) (s : State) : (skipBits n s).nodes = s.nodes := rfl
@[simp] theorem skipBits_queue (n : Nat) (s : State) : (skipBits n s).queue = s.queue := rfl
@[simp] theorem skipBits_hlen (n : Nat) (s : State) : (skipBits n s).hlen = s.hlen := rfl
@[simp] theorem skipBits_hcode (n : Nat) (s : State) : (skipBits n s).hcode = s.hcode := rfl
@[simp] theorem skipBits_dn (n : Nat) (s : State) : (skipBits n s).dn = s.dn := rfl
@[simp] theorem skipBits_dtab (n : Nat) (s : State) : (skipBits n s).dtab = s.dtab := rfl
@[simp] theorem skipBits_lens (n : Nat) (s : State) : (skipBits n s).lens = s.lens := rfl
@[simp] theorem skipBits_host (n : Nat) (s : State) : (skipBits n s).host = s.host := rfl
@[simp] theorem skipBits_rdata (n : Nat) (s : State) : (skipBits n s).rdata = s.rdata := rfl
@[simp] theorem skipBits_privateEpoch (n : Nat) (s : State) : (skipBits n s).privateEpoch = s.privateEpoch := rfl
@[simp] theorem skipBits_handsOff (n : Nat) (s : State) : (skipBits n s).handsOff = s.handsOff := rfl

/-! ## `Insert` (R195) -/

@[simp] theorem lzwInsert_params (p : Nat) (b : Byte) (s : State) : (lzwInsert p b s).params = s.params := rfl
@[simp] theorem lzwInsert_state (p : Nat) (b : Byte) (s : State) : (lzwInsert p b s).state = s.state := rfl
@[simp] theorem lzwInsert_cause (p : Nat) (b : Byte) (s : State) : (lzwInsert p b s).cause = s.cause := rfl
@[simp] theorem lzwInsert_width (p : Nat) (b : Byte) (s : State) : (lzwInsert p b s).width = s.width := rfl
@[simp] theorem lzwInsert_height (p : Nat) (b : Byte) (s : State) : (lzwInsert p b s).height = s.height := rfl
@[simp] theorem lzwInsert_lzwW (p : Nat) (b : Byte) (s : State) : (lzwInsert p b s).lzwW = s.lzwW := rfl
@[simp] theorem lzwInsert_inLen (p : Nat) (b : Byte) (s : State) : (lzwInsert p b s).inLen = s.inLen := rfl
@[simp] theorem lzwInsert_outLen (p : Nat) (b : Byte) (s : State) : (lzwInsert p b s).outLen = s.outLen := rfl
@[simp] theorem lzwInsert_inUsed (p : Nat) (b : Byte) (s : State) : (lzwInsert p b s).inUsed = s.inUsed := rfl
@[simp] theorem lzwInsert_statTable (p : Nat) (b : Byte) (s : State) : (lzwInsert p b s).statTable = s.statTable := rfl
@[simp] theorem lzwInsert_statClears (p : Nat) (b : Byte) (s : State) : (lzwInsert p b s).statClears = s.statClears := rfl
@[simp] theorem lzwInsert_ibuf (p : Nat) (b : Byte) (s : State) : (lzwInsert p b s).ibuf = s.ibuf := rfl
@[simp] theorem lzwInsert_obuf (p : Nat) (b : Byte) (s : State) : (lzwInsert p b s).obuf = s.obuf := rfl
@[simp] theorem lzwInsert_ibufEpoch (p : Nat) (b : Byte) (s : State) : (lzwInsert p b s).ibufEpoch = s.ibufEpoch := rfl
@[simp] theorem lzwInsert_obufEpoch (p : Nat) (b : Byte) (s : State) : (lzwInsert p b s).obufEpoch = s.obufEpoch := rfl
@[simp] theorem lzwInsert_rpos (p : Nat) (b : Byte) (s : State) : (lzwInsert p b s).rpos = s.rpos := rfl
@[simp] theorem lzwInsert_wpos (p : Nat) (b : Byte) (s : State) : (lzwInsert p b s).wpos = s.wpos := rfl
@[simp] theorem lzwInsert_wacc (p : Nat) (b : Byte) (s : State) : (lzwInsert p b s).wacc = s.wacc := rfl
@[simp] theorem lzwInsert_wcnt (p : Nat) (b : Byte) (s : State) : (lzwInsert p b s).wcnt = s.wcnt := rfl
@[simp] theorem lzwInsert_dir (p : Nat) (b : Byte) (s : State) : (lzwInsert p b s).dir = s.dir := rfl
@[simp] theorem lzwInsert_alg (p : Nat) (b : Byte) (s : State) : (lzwInsert p b s).alg = s.alg := rfl
@[simp] theorem lzwInsert_w (p : Nat) (b : Byte) (s : State) : (lzwInsert p b s).w = s.w := rfl
@[simp] theorem lzwInsert_enc (p : Nat) (b : Byte) (s : State) : (lzwInsert p b s).enc = s.enc := rfl
@[simp] theorem lzwInsert_dec (p : Nat) (b : Byte) (s : State) : (lzwInsert p b s).dec = s.dec := rfl
@[simp] theorem lzwInsert_idx (p : Nat) (b : Byte) (s : State) : (lzwInsert p b s).idx = s.idx := rfl
@[simp] theorem lzwInsert_rleBase (p : Nat) (b : Byte) (s : State) : (lzwInsert p b s).rleBase = s.rleBase := rfl
@[simp] theorem lzwInsert_rleI (p : Nat) (b : Byte) (s : State) : (lzwInsert p b s).rleI = s.rleI := rfl
@[simp] theorem lzwInsert_rleS (p : Nat) (b : Byte) (s : State) : (lzwInsert p b s).rleS = s.rleS := rfl
@[simp] theorem lzwInsert_rleL (p : Nat) (b : Byte) (s : State) : (lzwInsert p b s).rleL = s.rleL := rfl
@[simp] theorem lzwInsert_rleCh (p : Nat) (b : Byte) (s : State) : (lzwInsert p b s).rleCh = s.rleCh := rfl
@[simp] theorem lzwInsert_rleCnt (p : Nat) (b : Byte) (s : State) : (lzwInsert p b s).rleCnt = s.rleCnt := rfl
@[simp] theorem lzwInsert_rleC (p : Nat) (b : Byte) (s : State) : (lzwInsert p b s).rleC = s.rleC := rfl
@[simp] theorem lzwInsert_rleK (p : Nat) (b : Byte) (s : State) : (lzwInsert p b s).rleK = s.rleK := rfl
@[simp] theorem lzwInsert_rleV (p : Nat) (b : Byte) (s : State) : (lzwInsert p b s).rleV = s.rleV := rfl
@[simp] theorem lzwInsert_lzwTable (p : Nat) (b : Byte) (s : State) : (lzwInsert p b s).lzwTable = s.lzwTable ++ [{ pfx := p, sfx := b }] := rfl
@[simp] theorem lzwInsert_cur (p : Nat) (b : Byte) (s : State) : (lzwInsert p b s).cur = s.cur := rfl
@[simp] theorem lzwInsert_prev (p : Nat) (b : Byte) (s : State) : (lzwInsert p b s).prev = s.prev := rfl
@[simp] theorem lzwInsert_started (p : Nat) (b : Byte) (s : State) : (lzwInsert p b s).started = s.started := rfl
@[simp] theorem lzwInsert_clears (p : Nat) (b : Byte) (s : State) : (lzwInsert p b s).clears = s.clears := rfl
@[simp] theorem lzwInsert_freq (p : Nat) (b : Byte) (s : State) : (lzwInsert p b s).freq = s.freq := rfl
@[simp] theorem lzwInsert_nodes (p : Nat) (b : Byte) (s : State) : (lzwInsert p b s).nodes = s.nodes := rfl
@[simp] theorem lzwInsert_queue (p : Nat) (b : Byte) (s : State) : (lzwInsert p b s).queue = s.queue := rfl
@[simp] theorem lzwInsert_hlen (p : Nat) (b : Byte) (s : State) : (lzwInsert p b s).hlen = s.hlen := rfl
@[simp] theorem lzwInsert_hcode (p : Nat) (b : Byte) (s : State) : (lzwInsert p b s).hcode = s.hcode := rfl
@[simp] theorem lzwInsert_dn (p : Nat) (b : Byte) (s : State) : (lzwInsert p b s).dn = s.dn := rfl
@[simp] theorem lzwInsert_dtab (p : Nat) (b : Byte) (s : State) : (lzwInsert p b s).dtab = s.dtab := rfl
@[simp] theorem lzwInsert_lens (p : Nat) (b : Byte) (s : State) : (lzwInsert p b s).lens = s.lens := rfl
@[simp] theorem lzwInsert_host (p : Nat) (b : Byte) (s : State) : (lzwInsert p b s).host = s.host := rfl
@[simp] theorem lzwInsert_rdata (p : Nat) (b : Byte) (s : State) : (lzwInsert p b s).rdata = s.rdata := rfl
@[simp] theorem lzwInsert_privateEpoch (p : Nat) (b : Byte) (s : State) : (lzwInsert p b s).privateEpoch = s.privateEpoch := rfl
@[simp] theorem lzwInsert_handsOff (p : Nat) (b : Byte) (s : State) : (lzwInsert p b s).handsOff = s.handsOff := rfl

/-! ## Soft reset (R135, R301) and hardware reset (R300), the registers of R21 and what is kept -/

@[simp] theorem softReset_state (s : State) : (softReset s).state = .idle := rfl
@[simp] theorem softReset_cause (s : State) : (softReset s).cause = none := rfl
@[simp] theorem softReset_width (s : State) : (softReset s).width = 0 := rfl
@[simp] theorem softReset_height (s : State) : (softReset s).height = 0 := rfl
@[simp] theorem softReset_lzwW (s : State) : (softReset s).lzwW = 12 := rfl
@[simp] theorem softReset_inLen (s : State) : (softReset s).inLen = 0 := rfl
@[simp] theorem softReset_outLen (s : State) : (softReset s).outLen = 0 := rfl
@[simp] theorem softReset_inUsed (s : State) : (softReset s).inUsed = 0 := rfl
@[simp] theorem softReset_statTable (s : State) : (softReset s).statTable = 0 := rfl
@[simp] theorem softReset_statClears (s : State) : (softReset s).statClears = 0 := rfl
@[simp] theorem softReset_params (s : State) : (softReset s).params = s.params := rfl
@[simp] theorem softReset_ibuf (s : State) : (softReset s).ibuf = s.ibuf := rfl
@[simp] theorem softReset_ibufEpoch (s : State) : (softReset s).ibufEpoch = s.ibufEpoch := rfl
@[simp] theorem softReset_host (s : State) : (softReset s).host = s.host := rfl
@[simp] theorem softReset_rdata (s : State) : (softReset s).rdata = s.rdata := rfl
@[simp] theorem softReset_privateEpoch (s : State) : (softReset s).privateEpoch = s.privateEpoch := rfl
@[simp] theorem softReset_handsOff (s : State) : (softReset s).handsOff = false := rfl
@[simp] theorem hardReset_state (s : State) : (hardReset s).state = .idle := rfl
@[simp] theorem hardReset_cause (s : State) : (hardReset s).cause = none := rfl
@[simp] theorem hardReset_width (s : State) : (hardReset s).width = 0 := rfl
@[simp] theorem hardReset_height (s : State) : (hardReset s).height = 0 := rfl
@[simp] theorem hardReset_lzwW (s : State) : (hardReset s).lzwW = 12 := rfl
@[simp] theorem hardReset_inLen (s : State) : (hardReset s).inLen = 0 := rfl
@[simp] theorem hardReset_outLen (s : State) : (hardReset s).outLen = 0 := rfl
@[simp] theorem hardReset_inUsed (s : State) : (hardReset s).inUsed = 0 := rfl
@[simp] theorem hardReset_statTable (s : State) : (hardReset s).statTable = 0 := rfl
@[simp] theorem hardReset_statClears (s : State) : (hardReset s).statClears = 0 := rfl
@[simp] theorem hardReset_params (s : State) : (hardReset s).params = s.params := rfl
@[simp] theorem hardReset_host (s : State) : (hardReset s).host = s.host := rfl
@[simp] theorem hardReset_rdata (s : State) : (hardReset s).rdata = s.rdata := rfl
@[simp] theorem hardReset_privateEpoch (s : State) : (hardReset s).privateEpoch = s.privateEpoch := rfl
@[simp] theorem hardReset_handsOff (s : State) : (hardReset s).handsOff = false := rfl
@[simp] theorem hardReset_ibuf (s : State) : (hardReset s).ibuf = [] := rfl
@[simp] theorem hardReset_obuf (s : State) : (hardReset s).obuf = [] := rfl

/-! ## The computed registers -/

theorem next_eq (s : State) : s.next = 258 + s.lzwTable.length := rfl
theorem total_eq (s : State) : s.total = 3 * s.n := rfl
theorem n_eq (s : State) : s.n = s.width.toNat * s.height.toNat := rfl
@[simp] theorem lzwInsert_next (p : Nat) (b : Byte) (s : State) : (lzwInsert p b s).next = s.next + 1 := by
  simp [State.next, Nat.add_assoc]

end Sys2Proof.Machine
end

