-- ==== Sys2Proof/Laws/Ops.lean ====
section
/-! SUPPORT. What each shared operation can do, said once: the run of pseudocode, the byte writer, the bit writer,
command acceptance. -/

namespace Sys2Proof.Machine

/-! ## Runs of pseudocode (R15, R270) -/

@[simp] theorem bind_ok (s : State) (f : State → Res) : (Res.ok s).bind f = f s := rfl
@[simp] theorem bind_raised (c : Cause) (s : State) (f : State → Res) : (Res.raised c s).bind f = .raised c s := rfl
@[simp] theorem settle_ok (s : State) : (Res.ok s).settle = s := rfl
@[simp] theorem settle_raised (c : Cause) (s : State) : (Res.raised c s).settle = faultEntry c s := rfl

theorem bind_assoc (r : Res) (f g : State → Res) : (r.bind f).bind g = r.bind (fun s => (f s).bind g) := by
  cases r <;> rfl

/-- A run that goes on after a bind went on before it. -/
theorem bind_eq_ok {r : Res} {f : State → Res} {t : State} : r.bind f = .ok t ↔ ∃ s, r = .ok s ∧ f s = .ok t := by
  cases r <;> simp

theorem bind_eq_raised {r : Res} {f : State → Res} {c : Cause} {t : State} :
    r.bind f = .raised c t ↔ r = .raised c t ∨ ∃ s, r = .ok s ∧ f s = .raised c t := by
  cases r <;> simp

/-- Fault entry as a whole: `Faulted` of the state it is entered from (R270). -/
theorem faulted_faultEntry (c : Cause) (s : State) : Faulted c s (faultEntry c s) :=
  ⟨rfl, rfl, rfl, rfl, rfl, rfl, rfl, ⟨rfl, rfl, rfl, rfl, rfl, rfl, rfl⟩⟩

/-! ## The byte writer (R151) -/

theorem putByte_ok (b : Byte) (s : State) (h : s.wpos < s.params.obufCap) :
    putByte b s = .ok { s with obuf := Memory.write s.obuf s.wpos b, wpos := s.wpos + 1 } := by
  simp [putByte, Nat.not_le.mpr h]

theorem putByte_full (b : Byte) (s : State) (h : s.params.obufCap ≤ s.wpos) :
    putByte b s = .raised .outputOverflow s := by simp [putByte, h]

/-- Bytes that fit are stored from `WPOS` on; nothing else changes. -/
theorem putBytes_ok (bs : List Byte) (s : State) (h : s.wpos + bs.length ≤ s.params.obufCap) :
    putBytes bs s = .ok { s with obuf := Memory.writeBytes s.obuf s.wpos bs, wpos := s.wpos + bs.length } := by
  induction bs generalizing s with
  | nil => rfl
  | cons b bs ih =>
    simp only [List.length_cons] at h
    rw [putBytes, putByte_ok b s (by omega), bind_ok, ih _ (by simp; omega)]
    simp [Memory.writeBytes, Nat.add_comm, Nat.add_assoc]

/-- Bytes that do not fit end in `OutputOverflow`; only `OBUF` and `WPOS` have changed. -/
theorem putBytes_full (bs : List Byte) (s : State) (h0 : s.wpos ≤ s.params.obufCap)
    (h : s.params.obufCap < s.wpos + bs.length) :
    ∃ m p, putBytes bs s = .raised .outputOverflow { s with obuf := m, wpos := p } := by
  induction bs generalizing s with
  | nil => simp only [List.length_nil] at h; omega
  | cons b bs ih =>
    simp only [List.length_cons] at h
    rw [putBytes]
    by_cases hc : s.params.obufCap ≤ s.wpos
    · exact ⟨s.obuf, s.wpos, by rw [putByte_full b s hc]; rfl⟩
    · rw [putByte_ok b s (by omega), bind_ok]
      obtain ⟨m, p, hmp⟩ := ih { s with obuf := Memory.write s.obuf s.wpos b, wpos := s.wpos + 1 }
        (by simp only; omega) (by simp only; omega)
      exact ⟨m, p, hmp⟩

/-- Everything `putBytes` can do. -/
theorem putBytes_cases (bs : List Byte) (s : State) :
    ((s.wpos ≤ s.params.obufCap → s.wpos + bs.length ≤ s.params.obufCap) ∧ putBytes bs s =
      .ok { s with obuf := Memory.writeBytes s.obuf s.wpos bs, wpos := s.wpos + bs.length }) ∨
    ∃ m p, putBytes bs s = .raised .outputOverflow { s with obuf := m, wpos := p } := by
  by_cases h : s.wpos + bs.length ≤ s.params.obufCap
  · exact .inl ⟨fun _ => h, putBytes_ok bs s h⟩
  · by_cases h0 : s.wpos ≤ s.params.obufCap
    · exact .inr (putBytes_full bs s h0 (by omega))
    · cases bs with
      | nil => exact .inl ⟨fun h1 => absurd h1 h0, rfl⟩
      | cons b bs => exact .inr ⟨s.obuf, s.wpos, by rw [putBytes, putByte_full b s (by omega)]; rfl⟩

/-- The bytes of `writeBytes` from `WPOS` on, as `Stores` says it. -/
theorem stores_writeBytes (s t : State) (bs : List Byte) (hs : t.state = s.state) (hp : t.wpos = s.wpos + bs.length)
    (hm : t.obuf = Memory.writeBytes s.obuf s.wpos bs) : Stores s t bs := by
  refine ⟨fun _ => hp, fun hn hd => absurd (hs.symm.trans hd) hn, fun k b hk => ?_, fun a ha => ?_, fun _ a ha => ?_⟩
  · have hlt : k < bs.length := by
      by_contra hge; rw [List.getElem?_eq_none (by omega)] at hk; cases hk
    rw [hm, lookup_writeBytes, if_pos (by omega), Nat.add_sub_cancel_left, hk]
  · rw [hm, lookup_writeBytes, if_neg (by omega)]
  · rw [hm, lookup_writeBytes, if_neg (by omega)]

/-- The same where the command then completes: `OUT_LEN` is where `WPOS` got to, and nothing below it is lost. -/
theorem stores_complete (s t : State) (bs : List Byte) (used : Nat) (hs : s.state ≠ .done)
    (hp : t.wpos = s.wpos + bs.length) (hm : t.obuf = Memory.writeBytes s.obuf s.wpos bs) :
    Stores s (complete used t) bs := by
  refine ⟨fun h => absurd h.symm hs, fun _ _ => hp, fun k b hk => ?_, fun a ha => ?_, fun h => absurd h.symm hs⟩
  · have hlt : k < bs.length := by
      by_contra hge; rw [List.getElem?_eq_none (by omega)] at hk; cases hk
    rw [complete_obuf, lookup_below, if_pos (by omega), hm, lookup_writeBytes, if_pos (by omega),
      Nat.add_sub_cancel_left, hk]
  · rw [complete_obuf, lookup_below, if_pos (by omega), hm, lookup_writeBytes, if_neg (by omega)]

/-! ## Private state after a command (R270, U5; log 15) -/

/-- All that is known of the private state a fault leaves: the writer holds fewer than eight bits, and the three arrays of
256 entries have 256 entries. -/
theorem faultEntry_private (c : Cause) (s : State) :
    ((faultEntry c s).wcnt < 8 ∧ (faultEntry c s).wacc < 2 ^ (faultEntry c s).wcnt) ∧
      (faultEntry c s).freq.length = 256 ∧ (faultEntry c s).hlen.length = 256 ∧ (faultEntry c s).hcode.length = 256 :=
  ⟨⟨(Config.unspecifiedPrivate s.privateEpoch).wcnt.isLt, Nat.mod_lt _ (Nat.two_pow_pos _)⟩,
    by simp, by simp, by simp⟩

/-- All that is known of the private state a completed command leaves: the writer is as the command left it, and the
three arrays have 256 entries. -/
theorem complete_private (used : Nat) (s : State) :
    (complete used s).wcnt = s.wcnt ∧ (complete used s).wacc = s.wacc ∧ (complete used s).freq.length = 256 ∧
      (complete used s).hlen.length = 256 ∧ (complete used s).hcode.length = 256 :=
  ⟨rfl, rfl, by simp, by simp, by simp⟩

/-! ## The bit writer (R152, R153) -/

/-- The state of the writer after `bytes` have gone out and `cnt` bits of value `acc` are pending. -/
def State.wrote (s : State) (bytes : List Byte) (cnt acc : Nat) : State :=
  { s with obuf := Memory.writeBytes s.obuf s.wpos bytes, wpos := s.wpos + bytes.length, wcnt := cnt, wacc := acc }

/-- Bits that fit: whole bytes go out, fewer than eight bits stay pending, and together they are the old pending bits
followed by the new ones. Nothing else changes. -/
theorem putBitList_ok (bits : List Bool) (s : State) (hc : s.wcnt < 8) (ha : s.wacc < 2 ^ s.wcnt)
    (h : s.wpos + (s.wcnt + bits.length) / 8 ≤ s.params.obufCap) :
    ∃ bytes acc, putBitList bits s = .ok (s.wrote bytes ((s.wcnt + bits.length) % 8) acc) ∧
      bytes.length = (s.wcnt + bits.length) / 8 ∧ acc < 2 ^ ((s.wcnt + bits.length) % 8) ∧
      bytesBits bytes ++ bitsOf ((s.wcnt + bits.length) % 8) acc = bitsOf s.wcnt s.wacc ++ bits := by
  induction bits generalizing s with
  | nil =>
    refine ⟨[], s.wacc, ?_, ?_, ?_, ?_⟩
    · simp [putBitList, State.wrote, Memory.writeBytes, Nat.mod_eq_of_lt hc]
    · simp; omega
    · simpa [Nat.mod_eq_of_lt hc] using ha
    · simp [Nat.mod_eq_of_lt hc]
  | cons b bits ih =>
    simp only [List.length_cons] at h ⊢
    by_cases h8 : s.wcnt + 1 = 8
    · obtain ⟨bytes, acc, h1, h2, h3, h4⟩ := ih
        { s with wacc := 0, wcnt := 0, wpos := s.wpos + 1,
                 obuf := Memory.write s.obuf s.wpos (BitVec.ofNat 8 (s.wacc * 2 + b.toNat)) }
        (by simp) (by simp) (by simp; omega)
      simp only [Nat.zero_add] at h1 h2 h3 h4
      have e1 : (s.wcnt + (bits.length + 1)) / 8 = bits.length / 8 + 1 := by omega
      have e2 : (s.wcnt + (bits.length + 1)) % 8 = bits.length % 8 := by omega
      rw [e1, e2]
      refine ⟨BitVec.ofNat 8 (s.wacc * 2 + b.toNat) :: bytes, acc, ?_, by simp [h2], h3, ?_⟩
      · rw [putBitList, putBit, if_pos h8, putByte_ok _ _ (by simp; omega), bind_ok]
        rw [h1]
        simp [State.wrote, Memory.writeBytes, Nat.add_comm, Nat.add_assoc]
      · rw [bytesBits_cons, List.append_assoc, h4, bitsOf_zero, bitsOf_ofNat, ← h8, bitsOf_snoc]
        simp
    · have hb : b.toNat < 2 := by cases b <;> decide
      obtain ⟨bytes, acc, h1, h2, h3, h4⟩ := ih
        { s with wacc := s.wacc * 2 + b.toNat, wcnt := s.wcnt + 1 } (by simp; omega)
        (by simp [Nat.pow_succ]; omega) (by simp; omega)
      simp only [show s.wcnt + 1 + bits.length = s.wcnt + (bits.length + 1) by omega] at h1 h2 h3 h4
      refine ⟨bytes, acc, ?_, h2, h3, ?_⟩
      · rw [putBitList, putBit, if_neg h8, bind_ok, h1]; rfl
      · rw [h4, bitsOf_snoc]; simp

/-- Bits that do not fit end in `OutputOverflow`; only `OBUF` and the writer have changed, and nothing is pending. -/
theorem putBitList_full (bits : List Bool) (s : State) (hc : s.wcnt < 8) (h0 : s.wpos ≤ s.params.obufCap)
    (h : s.params.obufCap < s.wpos + (s.wcnt + bits.length) / 8) :
    ∃ m p, putBitList bits s = .raised .outputOverflow { s with obuf := m, wpos := p, wcnt := 0, wacc := 0 } := by
  induction bits generalizing s with
  | nil => simp only [List.length_nil, Nat.add_zero] at h; omega
  | cons b bits ih =>
    simp only [List.length_cons] at h
    by_cases h8 : s.wcnt + 1 = 8
    · by_cases hf : s.params.obufCap ≤ s.wpos
      · exact ⟨s.obuf, s.wpos, by
          rw [putBitList, putBit, if_pos h8, putByte_full _ _ (by simpa using hf)]; rfl⟩
      · obtain ⟨m, p, h2⟩ := ih
          { s with wacc := 0, wcnt := 0, wpos := s.wpos + 1,
                   obuf := Memory.write s.obuf s.wpos (BitVec.ofNat 8 (s.wacc * 2 + b.toNat)) }
          (by simp) (by simp; omega) (by simp; omega)
        exact ⟨m, p, by
          rw [putBitList, putBit, if_pos h8, putByte_ok _ _ (by simp; omega), bind_ok]; exact h2⟩
    · obtain ⟨m, p, h2⟩ := ih
        { s with wacc := s.wacc * 2 + b.toNat, wcnt := s.wcnt + 1 } (by simp; omega) h0 (by simp; omega)
      exact ⟨m, p, by rw [putBitList, putBit, if_neg h8, bind_ok]; exact h2⟩

/-- Without any premise: a bit write goes on or raises `OutputOverflow`, and touches only the writer and `OBUF`. -/
theorem putBitList_cases (bits : List Bool) (s : State) :
    (∃ m p cnt acc, putBitList bits s = .ok { s with obuf := m, wpos := p, wcnt := cnt, wacc := acc }) ∨
    ∃ m p, putBitList bits s = .raised .outputOverflow { s with obuf := m, wpos := p, wcnt := 0, wacc := 0 } := by
  induction bits generalizing s with
  | nil => exact .inl ⟨s.obuf, s.wpos, s.wcnt, s.wacc, rfl⟩
  | cons b bits ih =>
    rw [putBitList, putBit]
    split
    · by_cases hf : s.params.obufCap ≤ s.wpos
      · exact .inr ⟨s.obuf, s.wpos, by rw [putByte_full _ _ (by simpa using hf)]; rfl⟩
      · rw [putByte_ok _ _ (by simp; omega), bind_ok]
        rcases ih { s with wacc := 0, wcnt := 0, wpos := s.wpos + 1,
                           obuf := Memory.write s.obuf s.wpos (BitVec.ofNat 8 (s.wacc * 2 + b.toNat)) } with
          ⟨m, p, cnt, acc, h⟩ | ⟨m, p, h⟩
        · exact .inl ⟨m, p, cnt, acc, h⟩
        · exact .inr ⟨m, p, h⟩
    · rw [bind_ok]
      rcases ih { s with wacc := s.wacc * 2 + b.toNat, wcnt := s.wcnt + 1 } with
        ⟨m, p, cnt, acc, h⟩ | ⟨m, p, h⟩
      · exact .inl ⟨m, p, cnt, acc, h⟩
      · exact .inr ⟨m, p, h⟩

theorem padWidth_lt (s : State) : s.padWidth < 8 := Nat.mod_lt _ (by omega)

/-- The pad brings the writer to a byte boundary. -/
theorem padWidth_spec (s : State) (h : s.wcnt < 8) : (s.wcnt + s.padWidth) % 8 = 0 := by
  unfold State.padWidth; omega

/-! ## Command acceptance (R120) -/

theorem acceptCommand_ready (run : State → State) (s : State) (h : s.Ready) : acceptCommand run s = .next (run s) := by
  rcases h with h | h <;> simp [acceptCommand, h]

theorem acceptCommand_fault (run : State → State) (s : State) (h : s.state = .fault) :
    acceptCommand run s = .next s := by simp [acceptCommand, h]

theorem acceptCommand_busy (run : State → State) (s : State) (h : s.state = .busy) :
    acceptCommand run s = .refused .busyAccess := by simp [acceptCommand, h]

/-- Everything command acceptance can do when it gives a next state. -/
theorem acceptCommand_next {run : State → State} {s t : State} (h : acceptCommand run s = .next t) :
    (s.Ready ∧ t = run s) ∨ (s.state = .fault ∧ t = s) := by
  unfold acceptCommand at h
  split at h <;> simp_all [State.Ready]

end Sys2Proof.Machine
end

