-- ==== Sys2Proof/Laws/Engine.lean ====
section
/-! SUPPORT. The sequencer: what `exec` does with a record, what a turn and a run of turns keep, and every way a step
can give a next state. -/

namespace Sys2Proof.Machine

/-! ## The start of a command -/

/-- Command start makes every private register and table fresh. -/
theorem startCommand_fresh (s : State) : (startCommand s).Fresh :=
  ⟨rfl, rfl, rfl, rfl, ⟨rfl, rfl, rfl, rfl, rfl, rfl, rfl, rfl, rfl⟩, rfl, rfl, rfl, rfl, rfl, rfl, rfl, rfl, rfl, rfl,
    rfl, rfl, rfl⟩

/-- The tests of the direction change nothing, and end in a fault or let the command go on. -/
theorem directionChecks_cases (s : State) :
    (directionChecks s).settle = s ∨ ∃ c, (directionChecks s).settle = faultEntry c s := by
  unfold directionChecks
  cases s.dir <;> dsimp only [compressChecks, restoreChecks]
  · split
    · exact .inr ⟨_, rfl⟩
    split
    · exact .inr ⟨_, rfl⟩
    split
    · exact .inr ⟨_, rfl⟩
    exact .inl rfl
  · split
    · exact .inr ⟨_, rfl⟩
    split
    · exact .inr ⟨_, rfl⟩
    exact .inl rfl

/-- Everything the start of a codec command can give: the fresh state with `DIR`, `ALG` and `W` set, or a fault entered from it. -/
theorem beginCommand_cases (dir : Dir) (alg : Alg) (s : State) : ∃ w,
    beginCommand dir alg s = { startCommand s with dir := dir, alg := alg, w := w } ∨
      ∃ c, beginCommand dir alg s = faultEntry c { startCommand s with dir := dir, alg := alg, w := w } := by
  unfold beginCommand
  dsimp only
  split
  · split
    · exact ⟨s.w, .inr ⟨_, rfl⟩⟩
    · next w _ => exact ⟨w, directionChecks_cases _⟩
  all_goals exact ⟨s.w, directionChecks_cases _⟩

/-- Reading as many bits as there are gives the number they are, and the rest. -/
theorem takeBits_of_le {n : Nat} {bits : List Bool} (h : n ≤ bits.length) :
    takeBits n bits = some (bitsVal (bits.take n), bits.drop n) := by
  have key : ∀ (n acc : Nat) (bs : List Bool), n ≤ bs.length →
      takeBitsFrom n acc bs = some ((bs.take n).foldl (fun acc b => 2 * acc + b.toNat) acc, bs.drop n) := by
    intro n
    induction n with
    | zero => intro acc bs _; cases bs <;> rfl
    | succ n ih =>
      intro acc bs h
      cases bs with
      | nil => simp at h
      | cons b bs => exact ih _ _ (by simpa using h)
  exact key n 0 bits h

/-! ## Records -/

/-- A record's meaning always gives a next state: it neither faults nor refuses. -/
theorem exec_record {i : Instr} (h : i.isRecord = true) (s : State) : exec i s = .next (recordEffect i s) := by
  cases i <;> first | rfl | cases h

theorem exec_hdr (width height : Half) (s : State) :
    exec (.hdr width height) s = .next (hdrRecord width height s).settle := rfl
theorem exec_raw (b : Byte) (s : State) : exec (.raw b) s = .next (rawRecord b s).settle := rfl
theorem exec_rleRep (count : BitVec 7) (v : Byte) (s : State) :
    exec (.rleRep count v) s = .next (rleRepRecord count v s).settle := rfl
theorem exec_rleLit (data : List Byte) (s : State) : exec (.rleLit data) s = .next (rleLitRecord data s).settle := rfl
theorem exec_hsz (n : Byte) (s : State) : exec (.hsz n) s = .next (hszRecord n s).settle := rfl
theorem exec_hen (sym len : Byte) (code : Half) (s : State) :
    exec (.hen sym len code) s = .next (henRecord sym len code s).settle := rfl
theorem exec_hcw (len : BitVec 5) (code : Half) (s : State) :
    exec (.hcw len code) s = .next (hcwRecord len code s).settle := rfl
theorem exec_pad (n : BitVec 3) (s : State) : exec (.pad n) s = .next (padRecord n s).settle := rfl

theorem LzwWidth.cap_pos (w : LzwWidth) : 258 < w.cap := by cases w <;> decide

/-- An ordinary code at any width. -/
theorem exec_lzwOrdinary (w : LzwWidth) (c : Nat) (s : State) (hc : c < w.cap) (h1 : c ≠ 256) (h2 : c ≠ 257) :
    exec (lzwInstr w c) s = .next (lzwOrdinary w c s).settle := by
  cases w <;> simp only [LzwWidth.cap, LzwWidth.bits] at hc <;>
    by_cases hl : c < 256 <;> simp only [lzwInstr, hl, h1, h2, if_true, if_false]
  · show Host.Outcome.next (lzwOrdinary .w12 (BitVec.ofNat 8 c).toNat s).settle = _
    rw [BitVec.toNat_ofNat, Nat.mod_eq_of_lt hl]
  · show Host.Outcome.next (lzwOrdinary .w12 (BitVec.ofNat 12 c).toNat s).settle = _
    rw [BitVec.toNat_ofNat, Nat.mod_eq_of_lt hc]
  · show Host.Outcome.next (lzwOrdinary .w16 (BitVec.ofNat 8 c).toNat s).settle = _
    rw [BitVec.toNat_ofNat, Nat.mod_eq_of_lt hl]
  · show Host.Outcome.next (lzwOrdinary .w16 (BitVec.ofNat 16 c).toNat s).settle = _
    rw [BitVec.toNat_ofNat, Nat.mod_eq_of_lt hc]
  · show Host.Outcome.next (lzwOrdinary .w20 (BitVec.ofNat 8 c).toNat s).settle = _
    rw [BitVec.toNat_ofNat, Nat.mod_eq_of_lt hl]
  · show Host.Outcome.next (lzwOrdinary .w20 (BitVec.ofNat 20 c).toNat s).settle = _
    rw [BitVec.toNat_ofNat, Nat.mod_eq_of_lt hc]

theorem exec_lzwClear (w : LzwWidth) (s : State) : exec (lzwInstr w 256) s = .next (lzwClear w s).settle := by
  cases w <;> rfl

theorem exec_lzwEnd (w : LzwWidth) (s : State) : exec (lzwInstr w 257) s = .next (lzwEnd w s).settle := by
  cases w <;> rfl

theorem isRecord_lzwInstr (w : LzwWidth) (c : Nat) : (lzwInstr w c).isRecord = true := by
  cases w <;> simp only [lzwInstr] <;> split <;> try rfl
  all_goals split <;> try rfl
  all_goals split <;> rfl

/-! ## What the decoder can give in the context of a stream -/

/-- A command word is never decoded from a stream. -/
theorem decode_isRecord {ctx : Ctx} {bs rest : List Bool} {i : Instr} (hc : ctx ≠ .cmd)
    (h : decode ctx bs = .ok (i, rest)) : i.isRecord = true := by
  cases ctx with
  | cmd => exact absurd rfl hc
  | lzw w =>
    simp only [decode] at h
    split at h
    · cases h
    · cases h; exact isRecord_lzwInstr w _
  | hcw lens entries =>
    simp only [decode] at h
    induction lens generalizing bs with
    | nil => simp [decodeCode] at h
    | cons l ls ih =>
      simp only [decodeCode] at h
      split at h
      · cases h
      · split at h
        · cases h; rfl
        · exact ih (by simp) h
  | rle =>
    simp only [decode, decodeRle] at h
    repeat' (first | (cases h; rfl) | cases h | split at h)
  | hdr => simp only [decode] at h; repeat' (first | (cases h; rfl) | cases h | split at h)
  | raw => simp only [decode] at h; repeat' (first | (cases h; rfl) | cases h | split at h)
  | hsz => simp only [decode] at h; repeat' (first | (cases h; rfl) | cases h | split at h)
  | hen => simp only [decode] at h; repeat' (first | (cases h; rfl) | cases h | split at h)
  | pad n => simp only [decode] at h; repeat' (first | (cases h; rfl) | cases h | split at h)

theorem ctx_ne_cmd (s : State) : s.ctx ≠ .cmd := by
  unfold State.ctx; split <;> simp

theorem isRecord_encNext (s : State) : s.encNext.isRecord = true := by
  unfold State.encNext
  split <;> try rfl
  · unfold State.rleNext; split <;> rfl
  all_goals exact isRecord_lzwInstr _ _

/-- Whatever the sequencer fetches is a record. -/
theorem fetchRecord_isRecord {s s1 : State} {i : Instr} (h : fetchRecord s = .record i s1) : i.isRecord = true := by
  unfold fetchRecord at h
  split at h
  · cases h; exact isRecord_encNext _
  · unfold readRecord at h
    split at h
    · next hd => cases h; exact decode_isRecord (ctx_ne_cmd s) hd
    · cases h

/-! ## Turns -/

/-- The engine's turn as a step is its turn as a function. -/
theorem engineStep_eq (s : State) : engineStep s = .next (engineTurn s) := by
  unfold engineStep engineTurn
  cases hf : fetchRecord s with
  | record i s1 => exact exec_record (fetchRecord_isRecord hf) s1
  | raised c s1 => rfl

theorem runRecords_busy (fuel : Nat) (s : State) (h : s.state = .busy) :
    runRecords (fuel + 1) s = runRecords fuel (engineTurn s) := by simp [runRecords, h]

theorem runRecords_quiet (fuel : Nat) (s : State) (h : s.state ≠ .busy) : runRecords fuel s = s := by
  cases fuel <;> simp [runRecords, h]

/-- What every turn of a BUSY engine keeps holds after any number of turns. -/
theorem runRecords_invariant {P : State → Prop} (hP : ∀ s, P s → s.state = .busy → P (engineTurn s)) (fuel : Nat)
    {s : State} (h : P s) : P (runRecords fuel s) := by
  induction fuel generalizing s with
  | zero => exact h
  | succ fuel ih =>
    simp only [runRecords]
    split
    · next hb => exact ih (hP s h hb)
    · exact h

/-! ## Steps -/

/-- The effect of a command word on the state, run to the end, in IDLE or DONE. -/
theorem exec_commandOf (dir : Dir) (alg : Alg) (s : State) :
    exec (commandOf dir alg) s = acceptCommand (runCommand dir alg) s := by
  cases dir <;> cases alg <;> rfl

/-- The effect of a command word up to its first record, in IDLE or DONE. -/
theorem commandBegin_commandOf (dir : Dir) (alg : Alg) (s : State) :
    commandBegin (commandOf dir alg) s = acceptCommand (beginCommand dir alg) s := by
  cases dir <;> cases alg <;> rfl

/-- A command word is one of the eight commands, the soft reset or an illegal word. -/
theorem decodeCmd_cases (v : CmdWord) :
    (∃ dir alg, decodeCmd v = commandOf dir alg) ∨ (v = 0x80#32 ∧ decodeCmd v = .sreset) ∨
      (v ≠ 0x80#32 ∧ decodeCmd v = .cmdIllegal v) := by
  unfold decodeCmd
  split; · exact .inl ⟨.compress, .noop, rfl⟩
  split; · exact .inl ⟨.compress, .rle, rfl⟩
  split; · exact .inl ⟨.compress, .lzw, rfl⟩
  split; · exact .inl ⟨.compress, .huf, rfl⟩
  split; · exact .inl ⟨.restore, .noop, rfl⟩
  split; · exact .inl ⟨.restore, .rle, rfl⟩
  split; · exact .inl ⟨.restore, .lzw, rfl⟩
  split; · exact .inl ⟨.restore, .huf, rfl⟩
  split
  · next h => exact .inr (.inl ⟨h, rfl⟩)
  · next h => exact .inr (.inr ⟨h, rfl⟩)

theorem resetAction_cmd (v : Nat) (hv : BitVec.ofNat 32 v = 0x80#32) : resetAction (.regWrite 0 v) = true := by
  simp [resetAction, hv]

/-- The state whose queue no longer holds the host's next action. -/
def State.popped (s : State) : State := { s with host := s.host.tail }

/-- Everything one step can be, when it gives a next state. -/
inductive StepGives (s : State) : State → Prop where
  | turn (hb : s.state = .busy) : StepGives s (engineTurn s.popped)
  | waitTurn (hb : s.state = .busy) : StepGives s (engineTurn { s with host := .wait :: s.host.tail })
  | quiet (r : Nat) (off : Bool) (ho : off = s.handsOff ∨ off = false ∧ (s.state = .done ∨ s.state = .fault)) :
      StepGives s { s.popped with rdata := r, handsOff := off }
  | command (hr : s.Ready) (dir : Dir) (alg : Alg) : StepGives s (runCommand dir alg s.popped)
  | begun (hr : s.Ready) (dir : Dir) (alg : Alg) : StepGives s (beginCommand dir alg s.popped)
  | illegal (hr : s.Ready) : StepGives s (beginIllegal s.popped)
  | regWrite (hr : s.Ready) (n v : Nat) (hn : n ≠ 0) : StepGives s (s.popped.regWrite n v)
  | ibufWrite (hr : s.Ready) (a : Nat) (b : Byte) (ha : a < s.params.ibufCap)
      (hh : s.host.head? = some (.ibufWrite a b)) : StepGives s { s.popped with ibuf := Memory.write s.ibuf a b }
  | soft (a : HostAct) (hh : s.host.head? = some a) (ha : resetAction a = true) : StepGives s (softReset s.popped)
  | hard (hh : s.host.head? = some .hardReset) : StepGives s (hardReset s.popped)

theorem accepted_gives {run : State → State} {s t : State} (h : acceptCommand run s.popped = .next t)
    (hr : s.Ready → StepGives s (run s.popped)) : StepGives s t := by
  rcases acceptCommand_next h with ⟨h1, h2⟩ | ⟨_, h2⟩
  · rw [h2]; exact hr h1
  · rw [h2]; exact .quiet s.rdata s.handsOff (.inl rfl)

theorem engine_gives {s t : State} (h : engineOrQuiet s.popped = .next t) : StepGives s t := by
  unfold engineOrQuiet at h
  split at h
  · next hb => rw [engineStep_eq] at h; cases h; exact .turn hb
  all_goals cases h; exact .quiet s.rdata s.handsOff (.inl rfl)

theorem hostRegRead_gives {n : Nat} {s t : State} (h : hostRegRead n s.popped = .next t) : StepGives s t := by
  unfold hostRegRead at h
  split at h
  · cases h
  · rw [← Host.Outcome.next.inj h]
    refine .quiet _ _ ?_
    unfold State.handsOffAfterRead
    split
    · next hn => exact .inr ⟨rfl, hn.2⟩
    · exact .inl rfl

/-- What R304 refuses with the host's hands off is refused, whatever the engine does. -/
theorem step_handsOff {s : State} {a : HostAct} {rest : List HostAct} (h : s.host = a :: rest) (ho : s.handsOff = true)
    (ha : handsOffAllows a = false) : step s = .refused .busyAccess := by
  unfold step; rw [h]; exact if_pos ⟨ho, ha⟩

/-- Every other action of the host has its effect. -/
theorem step_hostEffect {s : State} {a : HostAct} {rest : List HostAct} (h : s.host = a :: rest)
    (hf : s.handsOff = false ∨ handsOffAllows a = true) : step s = hostEffect a { s with host := rest } := by
  unfold step; rw [h]
  exact if_neg fun hx => by rcases hf with hf | hf <;> simp_all

/-- Everything one step can be, when it gives a next state. -/
theorem step_gives {s t : State} (h : step s = .next t) : StepGives s t := by
  unfold step at h
  split at h
  · next hh =>
    have hu : s.popped = s := by
      have : s.host.tail = s.host := by rw [hh]; rfl
      unfold State.popped; rw [this]
    rw [← hu] at h
    exact engine_gives h
  · next a rest hh =>
    have hu : { s with host := rest } = s.popped := by unfold State.popped; rw [hh]; rfl
    have hh' : s.host.head? = some a := by rw [hh]; rfl
    rw [hu] at h
    unfold hostTurn at h
    split at h
    · cases h
    cases a with
    | regWrite n v =>
      simp only [hostEffect] at h
      split at h
      · next hn =>
        subst hn
        rcases decodeCmd_cases (BitVec.ofNat 32 v) with ⟨dir, alg, hd⟩ | ⟨hv, hd⟩ | ⟨_, hd⟩ <;> rw [hd] at h
        · rw [exec_commandOf] at h; exact accepted_gives (run := runCommand dir alg) h fun hr => StepGives.command (s := s) hr dir alg
        · change Host.Outcome.next (softReset s.popped) = _ at h
          rw [← Host.Outcome.next.inj h]; exact .soft _ hh' (resetAction_cmd v hv)
        · exact accepted_gives (run := beginIllegal) h fun hr => .illegal hr
      · next hn =>
        unfold hostRegWrite at h
        split at h
        · cases h
        · cases h; exact .quiet s.rdata s.handsOff (.inl rfl)
        · next hs => rw [← Host.Outcome.next.inj h]; exact .regWrite (s := s) (.inl hs) n v hn
        · next hs => rw [← Host.Outcome.next.inj h]; exact .regWrite (s := s) (.inr hs) n v hn
    | cmdStart word =>
      simp only [hostEffect] at h
      rcases decodeCmd_cases word with ⟨dir, alg, hd⟩ | ⟨hv, hd⟩ | ⟨_, hd⟩ <;> rw [hd] at h
      · rw [commandBegin_commandOf] at h; exact accepted_gives (run := beginCommand dir alg) h fun hr => StepGives.begun (s := s) hr dir alg
      · change Host.Outcome.next (softReset s.popped) = _ at h
        rw [← Host.Outcome.next.inj h]; exact .soft _ hh' (decide_eq_true hv)
      · exact accepted_gives (run := beginIllegal) h fun hr => .illegal hr
    | regRead n =>
      exact hostRegRead_gives h
    | ibufWrite a b =>
      simp only [hostEffect, hostIbufWrite] at h
      split at h
      · cases h
      · split at h
        · cases h
        · simp only [Host.Outcome.next.injEq] at h; rw [← h]; exact .quiet s.rdata s.handsOff (.inl rfl)
      · next hs =>
        split at h
        · cases h
        · next hc =>
          simp only [Host.Outcome.next.injEq] at h; rw [← h]
          exact .ibufWrite (s := s) (.inl hs) a b (by simpa [State.popped] using hc) hh'
      · next hs =>
        split at h
        · cases h
        · next hc =>
          simp only [Host.Outcome.next.injEq] at h; rw [← h]
          exact .ibufWrite (s := s) (.inr hs) a b (by simpa [State.popped] using hc) hh'
    | obufRead a =>
      simp only [hostEffect, hostObufRead] at h
      split at h
      · cases h
      · split at h
        · cases h
        · simp only [Host.Outcome.next.injEq] at h; rw [← h]; exact .quiet _ s.handsOff (.inl rfl)
    | hardReset =>
      simp only [hostEffect, Host.Outcome.next.injEq] at h; rw [← h]; exact .hard hh'
    | engine => exact engine_gives h
    | wait =>
      simp only [hostEffect] at h
      split at h
      · next hb =>
        rw [engineStep_eq] at h
        simp only [Host.Outcome.next.injEq] at h; rw [← h]; exact .waitTurn hb
      all_goals exact hostRegRead_gives h

end Sys2Proof.Machine
end

