-- ==== Sys2Proof/Laws/PerInstr.lean ====
section
/-! SUPPORT. One statement per instruction: how many bits its encoding has. -/

namespace Sys2Proof.Laws.EncodeWidth

/-- The width of an encoding (R91, R93 to R101, R153; `width_bits` of spec/opcode_table.json). -/
def bitWidth (i : Instr) : Nat :=
  match i with
  | .cnoop => 32
  | .crle => 32
  | .clzw => 32
  | .chuf => 32
  | .rnoop => 32
  | .rrle => 32
  | .rlzw => 32
  | .rhuf => 32
  | .sreset => 32
  | .cmdIllegal _ => 32
  | .hdr _ _ => 32
  | .raw _ => 8
  | .rleRep _ _ => 16
  | .rleLit data => 8 + 8 * data.length
  | .lzwLit12 _ => 12
  | .lzwClear12 => 12
  | .lzwEnd12 => 12
  | .lzwPhrase12 _ => 12
  | .lzwLit16 _ => 16
  | .lzwClear16 => 16
  | .lzwEnd16 => 16
  | .lzwPhrase16 _ => 16
  | .lzwLit20 _ => 20
  | .lzwClear20 => 20
  | .lzwEnd20 => 20
  | .lzwPhrase20 _ => 20
  | .hsz _ => 8
  | .hen _ _ _ => 32
  | .hcw len _ => len.toNat
  | .pad n => n.toNat

/-- The encoding has as many bits as the table gives the row. -/
def Statement (i : Instr) : Prop := (encode i).length = bitWidth i

theorem cnoop : Statement (.cnoop) := by
  exact length_bitsOf _ _

theorem crle : Statement (.crle) := by
  exact length_bitsOf _ _

theorem clzw : Statement (.clzw) := by
  exact length_bitsOf _ _

theorem chuf : Statement (.chuf) := by
  exact length_bitsOf _ _

theorem rnoop : Statement (.rnoop) := by
  exact length_bitsOf _ _

theorem rrle : Statement (.rrle) := by
  exact length_bitsOf _ _

theorem rlzw : Statement (.rlzw) := by
  exact length_bitsOf _ _

theorem rhuf : Statement (.rhuf) := by
  exact length_bitsOf _ _

theorem sreset : Statement (.sreset) := by
  exact length_bitsOf _ _

theorem cmdIllegal (word : CmdWord) : Statement (.cmdIllegal word) := by
  exact length_bitsOf _ _

theorem hdr (width height : Half) : Statement (.hdr width height) := by
  simp [Statement, encode, bitWidth]

theorem raw (b : Byte) : Statement (.raw b) := by
  exact length_bitsOf _ _

theorem rleRep (count : BitVec 7) (v : Byte) : Statement (.rleRep count v) := by
  simp [Statement, encode, bitWidth]

theorem rleLit (data : List Byte) : Statement (.rleLit data) := by
  simp [Statement, encode, bitWidth]; omega

theorem lzwLit12 (v : Byte) : Statement (.lzwLit12 v) := by
  exact length_bitsOf _ _

theorem lzwClear12 : Statement (.lzwClear12) := by
  exact length_bitsOf _ _

theorem lzwEnd12 : Statement (.lzwEnd12) := by
  exact length_bitsOf _ _

theorem lzwPhrase12 (c : BitVec 12) : Statement (.lzwPhrase12 c) := by
  exact length_bitsOf _ _

theorem lzwLit16 (v : Byte) : Statement (.lzwLit16 v) := by
  exact length_bitsOf _ _

theorem lzwClear16 : Statement (.lzwClear16) := by
  exact length_bitsOf _ _

theorem lzwEnd16 : Statement (.lzwEnd16) := by
  exact length_bitsOf _ _

theorem lzwPhrase16 (c : BitVec 16) : Statement (.lzwPhrase16 c) := by
  exact length_bitsOf _ _

theorem lzwLit20 (v : Byte) : Statement (.lzwLit20 v) := by
  exact length_bitsOf _ _

theorem lzwClear20 : Statement (.lzwClear20) := by
  exact length_bitsOf _ _

theorem lzwEnd20 : Statement (.lzwEnd20) := by
  exact length_bitsOf _ _

theorem lzwPhrase20 (c : BitVec 20) : Statement (.lzwPhrase20 c) := by
  exact length_bitsOf _ _

theorem hsz (n : Byte) : Statement (.hsz n) := by
  exact length_bitsOf _ _

theorem hen (sym len : Byte) (code : Half) : Statement (.hen sym len code) := by
  simp [Statement, encode, bitWidth]

theorem hcw (len : BitVec 5) (code : Half) : Statement (.hcw len code) := by
  exact length_bitsOf _ _

theorem pad (n : BitVec 3) : Statement (.pad n) := by
  exact length_bitsOf _ _

end Sys2Proof.Laws.EncodeWidth
end

