-- ==== Sys2Proof/Tests/Slice0.lean ====
section
/-! SUPPORT. Tests: the well-formedness smoke, a written-out word per constructor, one-step tests with values from
spec/95_test_vectors.md, and a witness for the hypotheses of every statement. -/

open Sys2Proof Sys2Proof.Machine

namespace Sys2Proof.Tests

-- One theorem after another: a thread each would exceed the memory limit of the check.
set_option Elab.async false

/-! ## Ill-formed terms are refused -/

/-- A legal command word is no `CMD.ILLEGAL` (R92, R103). -/
theorem test_wf_refuses_legal_word : (Instr.cmdIllegal 0x80#32).wellFormed = false := by decide
/-- `COUNT` has seven bits (R95). -/
theorem test_wf_refuses_long_literal : (Instr.rleLit (List.replicate 128 0#8)).wellFormed = false := by decide +kernel
/-- Codes below 258 are other rows (R97). -/
theorem test_wf_refuses_phrase12 : (Instr.lzwPhrase12 257#12).wellFormed = false := by decide
theorem test_wf_refuses_phrase16 : (Instr.lzwPhrase16 256#16).wellFormed = false := by decide
theorem test_wf_refuses_phrase20 : (Instr.lzwPhrase20 255#20).wellFormed = false := by decide
/-- A code word has 1 to 16 bits and its code fits (R101). -/
theorem test_wf_refuses_empty_code : (Instr.hcw 0#5 0#16).wellFormed = false := by decide
theorem test_wf_refuses_long_code : (Instr.hcw 17#5 0#16).wellFormed = false := by decide
theorem test_wf_refuses_wide_code : (Instr.hcw 3#5 8#16).wellFormed = false := by decide

/-! ## Decoding of written-out words -/

/-- The instruction a decoder reads, if any. -/
def read (ctx : Ctx) (bits : List Bool) : Option (Instr × List Bool) :=
  match decode ctx bits with
  | .ok r => some r
  | .error _ => none

/-- Twenty-four zero bits, then the eight bits of the command value (R91, R92). -/
def commandBits (low : List Bool) : List Bool := List.replicate 24 false ++ low

theorem test_decode_commands :
    read .cmd (commandBits [false, false, false, false, false, false, false, false]) = some (.cnoop, []) ∧
    read .cmd (commandBits [false, false, false, false, false, false, false, true]) = some (.crle, []) ∧
    read .cmd (commandBits [false, false, false, false, false, false, true, false]) = some (.clzw, []) ∧
    read .cmd (commandBits [false, false, false, false, false, false, true, true]) = some (.chuf, []) ∧
    read .cmd (commandBits [false, false, false, false, false, true, false, false]) = some (.rnoop, []) ∧
    read .cmd (commandBits [false, false, false, false, false, true, false, true]) = some (.rrle, []) ∧
    read .cmd (commandBits [false, false, false, false, false, true, true, false]) = some (.rlzw, []) ∧
    read .cmd (commandBits [false, false, false, false, false, true, true, true]) = some (.rhuf, []) ∧
    read .cmd (commandBits [true, false, false, false, false, false, false, false]) = some (.sreset, []) := by
  decide +kernel

/-- R103 (a): bits 31:8 count as well; `0x100` and `0x88` are illegal words. -/
theorem test_decode_illegal :
    read .cmd (List.replicate 23 false ++ [true] ++ List.replicate 8 false) = some (.cmdIllegal 0x100#32, []) ∧
    read .cmd (commandBits [true, false, false, false, true, false, false, false]) = some (.cmdIllegal 0x88#32, []) := by
  decide +kernel

/-- R93: width 300 = `01 2C`, height 2 = `00 02`. -/
theorem test_decode_hdr : read .hdr
    ([false, false, false, false, false, false, false, true] ++ [false, false, true, false, true, true, false, false] ++
      [false, false, false, false, false, false, false, false] ++ [false, false, false, false, false, false, true, false]) =
    some (.hdr 300#16 2#16, []) := by decide +kernel

/-- R94. -/
theorem test_decode_raw : read .raw [true, false, true, false, false, true, false, true, true] =
    some (.raw 0xA5#8, [true]) := by decide +kernel

/-- R95: `85 10` is `REP 5, 10`. -/
theorem test_decode_rep : read .rle
    ([true, false, false, false, false, true, false, true] ++ [false, false, false, true, false, false, false, false]) =
    some (.rleRep 5#7 0x10#8, []) := by decide +kernel

/-- R95: `02 41 42` is `LIT 2: 41 42`; `00` is `LIT 0`. -/
theorem test_decode_lit :
    read .rle ([false, false, false, false, false, false, true, false] ++
      [false, true, false, false, false, false, false, true] ++ [false, true, false, false, false, false, true, false]) =
      some (.rleLit [0x41#8, 0x42#8], []) ∧
    read .rle [false, false, false, false, false, false, false, false] = some (.rleLit [], []) := by decide +kernel

/-- Zero bits, then the low ten bits of a code. -/
def codeBits (w : LzwWidth) (low : List Bool) : List Bool := List.replicate (w.bits - 10) false ++ low

/-- R97 at 12 bits: codes 65, 256, 257 and 260. -/
theorem test_decode_lzw12 :
    read (.lzw .w12) (codeBits .w12 [false, false, false, true, false, false, false, false, false, true]) =
      some (.lzwLit12 65#8, []) ∧
    read (.lzw .w12) (codeBits .w12 [false, true, false, false, false, false, false, false, false, false]) =
      some (.lzwClear12, []) ∧
    read (.lzw .w12) (codeBits .w12 [false, true, false, false, false, false, false, false, false, true]) =
      some (.lzwEnd12, []) ∧
    read (.lzw .w12) (codeBits .w12 [false, true, false, false, false, false, false, true, false, false]) =
      some (.lzwPhrase12 260#12, []) := by decide +kernel

/-- R97 at 16 bits. -/
theorem test_decode_lzw16 :
    read (.lzw .w16) (codeBits .w16 [false, false, false, true, false, false, false, false, false, true]) =
      some (.lzwLit16 65#8, []) ∧
    read (.lzw .w16) (codeBits .w16 [false, true, false, false, false, false, false, false, false, false]) =
      some (.lzwClear16, []) ∧
    read (.lzw .w16) (codeBits .w16 [false, true, false, false, false, false, false, false, false, true]) =
      some (.lzwEnd16, []) ∧
    read (.lzw .w16) (codeBits .w16 [false, true, false, false, false, false, false, true, false, false]) =
      some (.lzwPhrase16 260#16, []) := by decide +kernel

/-- R97 at 20 bits. -/
theorem test_decode_lzw20 :
    read (.lzw .w20) (codeBits .w20 [false, false, false, true, false, false, false, false, false, true]) =
      some (.lzwLit20 65#8, []) ∧
    read (.lzw .w20) (codeBits .w20 [false, true, false, false, false, false, false, false, false, false]) =
      some (.lzwClear20, []) ∧
    read (.lzw .w20) (codeBits .w20 [false, true, false, false, false, false, false, false, false, true]) =
      some (.lzwEnd20, []) ∧
    read (.lzw .w20) (codeBits .w20 [false, true, false, false, false, false, false, true, false, false]) =
      some (.lzwPhrase20 260#20, []) := by decide +kernel

/-- R99. -/
theorem test_decode_hsz : read .hsz [false, false, false, false, false, false, true, true] = some (.hsz 3#8, []) := by
  decide +kernel

/-- R100: `44 03 00 03` (vector P3). -/
theorem test_decode_hen : read .hen
    ([false, true, false, false, false, true, false, false] ++ [false, false, false, false, false, false, true, true] ++
      [false, false, false, false, false, false, false, false] ++ [false, false, false, false, false, false, true, true]) =
    some (.hen 0x44#8 3#8 3#16, []) := by decide +kernel

/-- The table of vector P3: B = `00`, C = `010`, D = `011`, A = `1`. -/
def tableP3 : List HufEntry := [⟨0x41#8, 1, 1⟩, ⟨0x42#8, 2, 0⟩, ⟨0x43#8, 3, 2⟩, ⟨0x44#8, 3, 3⟩]

/-- R101, R238 (vector P3): the bits `010` are the code word of C. -/
theorem test_decode_hcw : read (.hcw [1, 2, 3] tableP3) [false, true, false, true] = some (.hcw 3#5 2#16, [true]) := by
  decide +kernel

/-- R159: pad bits of any value. -/
theorem test_decode_pad : read (.pad 3#3) [true, false, true] = some (.pad 3#3, []) := by decide +kernel

/-- R156: the decoder never invents bits. -/
theorem test_decode_truncated : decode .hdr (List.replicate 31 false) = .error .truncated ∧
    decode (.lzw .w20) (List.replicate 19 false) = .error .truncated ∧
    decode .rle [true, false, false, false, false, true, false, true] = .error (.truncatedData 5) := by decide +kernel

/-- The words as spec/opcode_table.json numbers them: a command, an RLE record, a code (log 11). -/
theorem test_decode_table_words :
    decodeTableWord 32 0x80 = some .sreset ∧ decodeTableWord 16 0x0085 = some (.rleRep 5#7 0#8) ∧
    decodeTableWord 8 0x02 = some (.rleLit [0#8, 0#8]) ∧ decodeTableWord 12 0x101 = some .lzwEnd12 ∧
    decodeTableWord 16 0x0100 = some .lzwClear16 ∧ decodeTableWord 20 0x102 = some (.lzwPhrase20 258#20) := by
  decide +kernel

/-! ## Small states -/

/-- A machine with 64-byte buffers in state `IDLE`, its input loaded and its size set. -/
def loaded (width height : Half) (bytes : List Byte) : State :=
  { State.reset with params := ⟨64, 64⟩, width := width, height := height, inLen := bytes.length,
                     ibuf := Memory.listing 0 bytes }

/-- A COMPRESS of 12-bit codes that has reached a phase. -/
def writing (alg : Alg) (phase : EncPhase) (width height : Half) (bytes : List Byte) : State :=
  { loaded width height bytes with state := .busy, handsOff := true, dir := .compress, alg := alg, enc := phase }

/-- A RESTORE of 12-bit codes that has reached a phase. -/
def reading (alg : Alg) (phase : DecPhase) (width height : Half) (stream : List Byte) : State :=
  { loaded width height stream with
    state := .busy, handsOff := true, dir := .restore, alg := alg, dec := phase, rpos := 32 }

/-- The results the host reads: `STATUS`, `CAUSE`, `OUT_LEN`, `IN_USED`, `STAT_TABLE`, `STAT_CLEARS`, and `OBUF`. -/
def results (i : Instr) (s : State) : Option (List Nat × Memory) :=
  (nextOf (exec i s)).map (fun t => ([t.statusBits.toNat, t.causeBits.toNat, t.outLen, t.inUsed, t.statTable.toNat,
    t.statClears], t.obuf))

/-- What a record stores, the new `WPOS`, the pending bits, and whether the engine is still `BUSY`. -/
def stored (i : Instr) (s : State) : Option (Memory × Nat × List Bool × Bool) :=
  (nextOf (exec i s)).map (fun t => (t.obuf, t.wpos, bitsOf t.wcnt t.wacc, decide (t.state = .busy)))

/-! ## Commands: vectors of 95_test_vectors.md -/

/-- The planes and the stream of vector P2. -/
def planesP2 : List Byte := [0x41#8, 0x42#8, 0x41#8, 0x42#8, 0x41#8, 0x42#8, 0x41#8, 0x42#8, 0x41#8]
def streamP2 : List Byte := [0x00#8, 0x03#8, 0x00#8, 0x01#8, 0x10#8, 0x00#8, 0x41#8, 0x04#8, 0x21#8, 0x02#8, 0x10#8,
  0x41#8, 0x03#8, 0x10#8, 0x10#8]

/-- The planes and the stream of vector P3. -/
def planesP3 : List Byte := [0x41#8, 0x41#8, 0x41#8, 0x41#8, 0x41#8, 0x42#8, 0x41#8, 0x42#8, 0x41#8, 0x43#8, 0x41#8, 0x44#8]
def streamP3 : List Byte := [0x00#8, 0x02#8, 0x00#8, 0x02#8, 0x03#8, 0x41#8, 0x01#8, 0x00#8, 0x01#8, 0x42#8, 0x02#8,
  0x00#8, 0x00#8, 0x43#8, 0x03#8, 0x00#8, 0x02#8, 0x44#8, 0x03#8, 0x00#8, 0x03#8, 0xF9#8, 0x2A#8, 0xC0#8]

/-- The hand-written stream of vector P5. -/
def streamP5 : List Byte := [0x00#8, 0x02#8, 0x00#8, 0x01#8, 0x80#8, 0x09#8, 0x00#8, 0x81#8, 0x07#8, 0x01#8, 0x08#8,
  0x82#8, 0x01#8, 0x82#8, 0x02#8]

/-- The cut-off stream of vector P4. -/
def streamP4 : List Byte := [0x00#8, 0x02#8, 0x00#8, 0x01#8, 0x82#8, 0x07#8, 0x82#8, 0x08#8, 0x81#8, 0x09#8, 0x81#8]

/-- Vector P3, last paragraph. -/
theorem test_cnoop : results .cnoop (loaded 2 2 planesP3) =
    some ([2, 0, 16, 12, 0, 0], Memory.listing 0 ([0x00#8, 0x02#8, 0x00#8, 0x02#8] ++ planesP3)) := by decide +kernel

/-- Vector P3, last paragraph. -/
theorem test_crle : results .crle (loaded 2 2 planesP3) =
    some ([2, 0, 18, 12, 0, 0], Memory.listing 0 [0x00#8, 0x02#8, 0x00#8, 0x02#8, 0x84#8, 0x41#8, 0x03#8, 0x41#8,
      0x42#8, 0x41#8, 0x01#8, 0x42#8, 0x03#8, 0x41#8, 0x43#8, 0x41#8, 0x01#8, 0x44#8]) := by decide +kernel

/-- Vector P2 at 12 and at 20 bits. -/
theorem test_clzw : results .clzw (loaded 3 1 planesP2) = some ([2, 0, 15, 9, 262, 1], Memory.listing 0 streamP2) := by
  decide +kernel
theorem test_clzw20 : results .clzw { loaded 3 1 planesP2 with lzwW := 20#5 } =
    some ([2, 0, 22, 9, 262, 1], Memory.listing 0 [0x00#8, 0x03#8, 0x00#8, 0x01#8, 0x00#8, 0x10#8, 0x00#8, 0x00#8,
      0x41#8, 0x00#8, 0x04#8, 0x20#8, 0x01#8, 0x02#8, 0x00#8, 0x10#8, 0x40#8, 0x01#8, 0x03#8, 0x00#8, 0x10#8,
      0x10#8]) := by decide +kernel

/-- Vector P3. -/
theorem test_chuf : results .chuf (loaded 2 2 planesP3) = some ([2, 0, 24, 12, 4, 0], Memory.listing 0 streamP3) := by
  decide +kernel

/-- Vector P6, step 3. -/
theorem test_rnoop : results .rnoop (loaded 0 0 [0x00#8, 0x01#8, 0x00#8, 0x01#8, 0x01#8, 0x00#8, 0x00#8, 0x41#8, 0x01#8,
    0x02#8, 0x01#8, 0x01#8]) = some ([2, 0, 3, 7, 0, 0], Memory.listing 0 [0x01#8, 0x00#8, 0x00#8]) := by decide +kernel

/-- Vector P5, step 1, and vector P4, step 1. -/
theorem test_rrle : results .rrle (loaded 0 0 streamP5) =
    some ([2, 0, 6, 15, 0, 0], Memory.listing 0 [0x07#8, 0x08#8, 0x01#8, 0x01#8, 0x02#8, 0x02#8]) := by decide +kernel
theorem test_rrle_truncated : results .rrle (loaded 0 0 streamP4) = some ([4, 3, 0, 0, 0, 0], []) := by decide +kernel

/-- Vector P2. -/
theorem test_rlzw : results .rlzw (loaded 0 0 streamP2) = some ([2, 0, 9, 15, 262, 1], Memory.listing 0 planesP2) := by
  decide +kernel

/-- Vector P6, step 2: a stream of 16-bit codes read with 12-bit codes. -/
theorem test_rlzw_width : results .rlzw (loaded 0 0 [0x00#8, 0x01#8, 0x00#8, 0x01#8, 0x01#8, 0x00#8, 0x00#8, 0x41#8,
    0x01#8, 0x02#8, 0x01#8, 0x01#8]) = some ([4, 5, 0, 0, 0, 0], []) := by decide +kernel

/-- Vector P3. -/
theorem test_rhuf : results .rhuf (loaded 0 0 streamP3) = some ([2, 0, 12, 24, 4, 0], Memory.listing 0 planesP3) := by
  decide +kernel

/-- Vector P4, step 3: the soft reset leaves `FAULT`, and `IBUF` is kept (R135). -/
theorem test_sreset : (nextOf (exec .sreset { loaded 2 1 streamP4 with state := .fault, cause := some .truncatedStream })).map
    (fun t => (t.statusBits, t.causeBits, t.width, t.inLen, t.lzwW, decide (t.ibuf = Memory.listing 0 streamP4))) =
    some (0b000#3, 0#4, 0#16, 0, 12#5, true) := by decide +kernel

/-- R122, R268: the word 0x08 in state `DONE`. -/
theorem test_illegal : results (.cmdIllegal 8#32) { loaded 2 2 planesP3 with state := .done, outLen := 5 } =
    some ([4, 8, 0, 0, 0, 0], []) := by decide +kernel

/-- Vector P4, step 2: a command in `FAULT` is ignored. -/
theorem test_command_in_fault : results .rrle { loaded 2 1 streamP4 with state := .fault, cause := some .truncatedStream } =
    some ([4, 3, 0, 0, 0, 0], []) := by decide +kernel

/-! ## Records: one step each -/

/-- R124: width 300 and height 2 are `01 2C 00 02`. -/
theorem test_hdr_compress : stored (.hdr 300#16 2#16) (writing .noop .header 300 2 []) =
    some (Memory.listing 0 [0x01#8, 0x2C#8, 0x00#8, 0x02#8], 4, [], true) := by decide +kernel

/-- R125. -/
theorem test_hdr_restore : (nextOf (exec (.hdr 4#16 2#16) (reading .rle .header 0 0 []))).map
    (fun t => (t.width, t.height, t.dec)) = some (4#16, 2#16, .rle) := by decide +kernel

/-- R126: the last of three bytes completes the command with 7 bytes. -/
theorem test_raw_compress : results (.raw 0x33#8) { writing .noop .raw 1 1 [0x11#8, 0x22#8, 0x33#8] with
    idx := 2, wpos := 6, obuf := Memory.listing 0 [0x00#8, 0x01#8, 0x00#8, 0x01#8, 0x11#8, 0x22#8] } =
    some ([2, 0, 7, 3, 0, 0], Memory.listing 0 [0x00#8, 0x01#8, 0x00#8, 0x01#8, 0x11#8, 0x22#8, 0x33#8]) := by
  decide +kernel

/-- R127. -/
theorem test_raw_restore : stored (.raw 0x33#8) { reading .noop .raw 1 1 [] with wpos := 1, obuf := [(0, 0x11#8)] } =
    some ([(0, 0x11#8), (1, 0x33#8)], 2, [], true) := by decide +kernel

/-- R174: `EmitRep` of 4 times 41 is `84 41` (vector P3). -/
theorem test_rep_compress : stored (.rleRep 4#7 0x41#8) (writing .rle .rle 2 2 planesP3) =
    some ([(0, 0x84#8), (1, 0x41#8)], 2, [], true) := by decide +kernel

/-- R180 (a): three copies do not fit a channel of two bytes (vector E42). -/
theorem test_rep_restore : results (.rleRep 3#7 0x07#8) (reading .rle .rle 2 1 []) = some ([4, 5, 0, 0, 0, 0], []) := by
  decide +kernel

/-- R175: `03 41 42 41` (vector P3). -/
theorem test_lit_compress : stored (.rleLit [0x41#8, 0x42#8, 0x41#8]) (writing .rle .rle 2 2 planesP3) =
    some (Memory.listing 0 [0x03#8, 0x41#8, 0x42#8, 0x41#8], 4, [], true) := by decide +kernel

/-- R179, R177: the last byte of the third channel completes the command. -/
theorem test_lit_restore : results (.rleLit [0x02#8]) { reading .rle .rle 1 1 [] with
    rleCh := 2, wpos := 2, rpos := 80, obuf := [(0, 0x07#8), (1, 0x08#8)] } =
    some ([2, 0, 3, 10, 0, 0], [(0, 0x07#8), (1, 0x08#8), (2, 0x02#8)]) := by decide +kernel

/-- An LZW decoder that has read the codes of vector P2 up to 258: 258 is "AB", 259 is "BA". -/
def readingP2 : State :=
  { reading .lzw .lzw 3 1 [] with
    started := true, prev := some 258, wpos := 4, lzwTable := [⟨65, 0x42#8⟩, ⟨66, 0x41#8⟩],
    obuf := Memory.listing 0 [0x41#8, 0x42#8, 0x41#8, 0x42#8] }

/-- What an LZW record of a RESTORE leaves: the bytes above `WPOS = 4`, the last table entry, `PREV`, `CAUSE`. -/
def learned (i : Instr) (s : State) : Option (Memory × Option LzwEntry × Option Nat × BitVec 4) :=
  (nextOf (exec i s)).map (fun t => (t.obuf.drop 4, t.lzwTable.getLast?, t.prev, t.causeBits))

/-- Vector P2: the code 260 is not yet in the table: "ABA" is emitted and learned. -/
theorem test_phrase12_restore : learned (.lzwPhrase12 260#12) readingP2 =
    some ([(4, 0x41#8), (5, 0x42#8), (6, 0x41#8)], some ⟨258, 0x41#8⟩, some 260, 0#4) := by decide +kernel
/-- R205: "BA" is present; ("AB", B) is learned. -/
theorem test_phrase16_restore : learned (.lzwPhrase16 259#16) readingP2 =
    some ([(4, 0x42#8), (5, 0x41#8)], some ⟨258, 0x42#8⟩, some 259, 0#4) := by decide +kernel
/-- R207: 261 is above `NEXT = 260`. -/
theorem test_phrase20_restore : results (.lzwPhrase20 261#20) readingP2 = some ([4, 5, 0, 0, 0, 0], []) := by decide +kernel
/-- R205: a literal after "AB" learns ("AB", C). -/
theorem test_lit12_restore : learned (.lzwLit12 0x43#8) readingP2 =
    some ([(4, 0x43#8)], some ⟨258, 0x43#8⟩, some 67, 0#4) := by decide +kernel
/-- R200: the first code of a payload is CLEAR. -/
theorem test_lit16_restore : results (.lzwLit16 0x43#8) { readingP2 with started := false } =
    some ([4, 5, 0, 0, 0, 0], []) := by decide +kernel
/-- R204: nothing is learned directly after CLEAR. -/
theorem test_lit20_restore : learned (.lzwLit20 0x43#8) { readingP2 with prev := none } =
    some ([(4, 0x43#8)], some ⟨66, 0x41#8⟩, some 67, 0#4) := by decide +kernel
/-- R202. -/
theorem test_clear_restore :
    learned .lzwClear12 readingP2 = some ([], none, none, 0#4) ∧
    learned .lzwClear16 readingP2 = some ([], none, none, 0#4) ∧
    learned .lzwClear20 { readingP2 with started := false } = some ([], none, none, 0#4) := by
  refine ⟨?_, ?_, ?_⟩ <;> decide +kernel
/-- R203, R209: END with 4 of 9 bytes out is malformed; with all it completes: `NEXT` is 260, one CLEAR was read. -/
theorem test_end_restore :
    results .lzwEnd12 readingP2 = some ([4, 5, 0, 0, 0, 0], []) ∧
    results .lzwEnd16 { readingP2 with width := 1, wpos := 3, rpos := 84, clears := 1 } =
      some ([2, 0, 3, 11, 260, 1], Memory.listing 0 [0x41#8, 0x42#8, 0x41#8]) ∧
    results .lzwEnd20 { readingP2 with started := false } = some ([4, 5, 0, 0, 0, 0], []) := by
  refine ⟨?_, ?_, ?_⟩ <;> decide +kernel

/-- Vector P2: CLEAR at 12 bits is `10` and four pending zeros. R198 at 16 and 20 bits. -/
theorem test_clear_compress :
    stored .lzwClear12 (writing .lzw .lzwClear 3 1 planesP2) = some ([(0, 0x10#8)], 1, [false, false, false, false], true) ∧
    stored .lzwClear16 (writing .lzw .lzwClear 3 1 planesP2) = some ([(0, 0x01#8), (1, 0x00#8)], 2, [], true) ∧
    stored .lzwClear20 (writing .lzw .lzwClear 3 1 planesP2) =
      some ([(0, 0x00#8), (1, 0x10#8)], 2, [false, false, false, false], true) := by
  refine ⟨?_, ?_, ?_⟩ <;> decide +kernel

/-- Behind four pending bits `1010`. -/
def writingCodes : State := { writing .lzw .lzwCodes 3 1 planesP2 with cur := some 65, idx := 1, wcnt := 4, wacc := 10 }

/-- R152, R198: the code 65 behind four pending bits, high bit first. -/
theorem test_lit_codes_compress :
    stored (.lzwLit12 65#8) writingCodes = some ([(0, 0xA0#8), (1, 0x41#8)], 2, [], true) ∧
    stored (.lzwLit16 65#8) writingCodes = some ([(0, 0xA0#8), (1, 0x04#8)], 2, [false, false, false, true], true) ∧
    stored (.lzwLit20 65#8) writingCodes = some ([(0, 0xA0#8), (1, 0x00#8), (2, 0x41#8)], 3, [], true) := by
  refine ⟨?_, ?_, ?_⟩ <;> decide +kernel
/-- The same for the codes 258 of a phrase and 257 of END. -/
theorem test_phrase_codes_compress :
    stored (.lzwPhrase12 258#12) writingCodes = some ([(0, 0xA1#8), (1, 0x02#8)], 2, [], true) ∧
    stored (.lzwPhrase16 258#16) writingCodes = some ([(0, 0xA0#8), (1, 0x10#8)], 2, [false, false, true, false], true) ∧
    stored (.lzwPhrase20 258#20) writingCodes = some ([(0, 0xA0#8), (1, 0x01#8), (2, 0x02#8)], 3, [], true) := by
  refine ⟨?_, ?_, ?_⟩ <;> decide +kernel
theorem test_end_codes_compress :
    stored .lzwEnd12 writingCodes = some ([(0, 0xA1#8), (1, 0x01#8)], 2, [], true) ∧
    stored .lzwEnd16 writingCodes = some ([(0, 0xA0#8), (1, 0x10#8)], 2, [false, false, false, true], true) ∧
    stored .lzwEnd20 writingCodes = some ([(0, 0xA0#8), (1, 0x01#8), (2, 0x01#8)], 3, [], true) := by
  refine ⟨?_, ?_, ?_⟩ <;> decide +kernel

/-- Vector P2: after 65 the phrase "AB" is in the table and the buffer is "B". -/
theorem test_code_learns : (nextOf (exec (.lzwLit12 65#8) writingCodes)).map (fun t => (t.lzwTable, t.cur, t.idx)) =
    some ([⟨65, 0x42#8⟩], some 66, 2) := by decide +kernel

/-- R229 and R235: the size byte 03 of vector P3. -/
theorem test_hsz_compress : stored (.hsz 3#8) (writing .huf .hufSize 2 2 planesP3) = some ([(0, 0x03#8)], 1, [], true) := by
  decide +kernel
theorem test_hsz_restore : (nextOf (exec (.hsz 3#8) (reading .huf .hufSize 2 2 []))).map (fun t => (t.dn, t.dec)) =
    some (4, .hufTable) := by decide +kernel

/-- R229 and R236: the entry `44 03 00 03` of vector P3. -/
theorem test_hen_compress : stored (.hen 0x44#8 3#8 3#16) (writing .huf .hufTable 2 2 planesP3) =
    some (Memory.listing 0 [0x44#8, 0x03#8, 0x00#8, 0x03#8], 4, [], true) := by decide +kernel
theorem test_hen_restore : (nextOf (exec (.hen 0x44#8 3#8 3#16)
    { reading .huf .hufTable 2 2 [] with dn := 4, dtab := tableP3.take 3 })).map (fun t => (t.dtab, t.lens, t.dec)) =
    some (tableP3, [1, 2, 3], .hufCodes) := by decide +kernel

/-- R230: the code word `010` behind the pending bits `11111`; R238: it is a C. -/
theorem test_hcw_compress : stored (.hcw 3#5 2#16) { writing .huf .hufCodes 2 2 planesP3 with wcnt := 5, wacc := 31 } =
    some ([(0, 0xFA#8)], 1, [], true) := by decide +kernel
theorem test_hcw_restore : stored (.hcw 3#5 2#16) { reading .huf .hufCodes 2 2 [] with dtab := tableP3, lens := [1, 2, 3] } =
    some ([(0, 0x43#8)], 1, [], true) := by decide +kernel

/-- R153, R134: six pad bits complete the last byte `C0` of vector P3; R159: a RESTORE does not look at them. -/
theorem test_pad_compress : results (.pad 6#3) { writing .huf .pad 2 2 planesP3 with
    wcnt := 2, wacc := 3, wpos := 1, obuf := [(0, 0x2A#8)] } =
    some ([2, 0, 2, 12, 0, 0], [(0, 0x2A#8), (1, 0xC0#8)]) := by decide +kernel
theorem test_pad_restore : nextOf (exec (.pad 6#3) readingP2) = some readingP2 := by decide +kernel

/-! ## The host's side and one step -/

/-- R68, R27: `IN_LEN` keeps `LEN_W = 7` bits of 130 with 64-byte buffers. -/
theorem test_step_regWrite : (nextOf (step { loaded 2 1 [] with host := [.regWrite 6 130] })).map (fun t => t.inLen) =
    some 2 := by decide +kernel
/-- R304, U3. -/
theorem test_step_busy : nextOf (step { readingP2 with host := [.regWrite 3 1] }) = none ∧
    (nextOf (step { readingP2 with host := [.regRead 1] })).map (fun t => t.rdata) = some 1 := by decide +kernel
/-- The word placed for the next step runs as the first instruction after reset (log 12). -/
theorem test_step_placed_command : (nextOf (step (State.reset.withFetchWord 32 0x80))).map (fun t => t.statusBits) =
    some 0b000#3 ∧ (nextOf (step (State.reset.withFetchWord 32 0x08))).map (fun t => t.causeBits) = some 8#4 := by
  decide +kernel
theorem test_step_placed_record : (nextOf (step (State.reset.withFetchWord 16 0x4185))).map (fun t => t.obuf) =
    some (Memory.listing 0 (List.replicate 5 0x41#8)) ∧
    (nextOf (step (State.reset.withFetchWord 12 0x100))).map (fun t => t.started) = some true ∧
    (nextOf (step (State.reset.withFetchWord 20 0x100))).map (fun t => t.started) = some true := by decide +kernel

/-! ## The hypotheses of the statements can be met -/

/-- A 2 by 1 image: the planes `07 08`, `01 01`, `02 02` of vector P5. -/
def imageP5 : State := loaded 2 1 [0x07#8, 0x08#8, 0x01#8, 0x01#8, 0x02#8, 0x02#8]

/-- The same with a given output capacity. -/
def capped (s : State) (cap : Nat) : State := { s with params := ⟨64, cap⟩ }

/-- What follows the header in the input. -/
def payloadOf (s : State) : List Bool := s.inputBits.drop 32

theorem test_hyp_DecodeOfEncode :
    (Instr.rleLit []).wellFormed = true ∧ Ctx.rle.admits (.rleLit []) ∧
    (Instr.rleLit (List.replicate 127 0#8)).wellFormed = true ∧ Ctx.rle.admits (.rleLit (List.replicate 127 0#8)) ∧
    (Instr.lzwPhrase20 258#20).wellFormed = true ∧ (Ctx.lzw .w20).admits (.lzwPhrase20 258#20) :=
  ⟨by decide, rfl, by decide +kernel, rfl, by decide, rfl⟩
/-- The third of the candidate lengths of vector P3. -/
theorem test_hyp_DecodeOfEncode_hcw :
    (Instr.hcw 3#5 2#16).wellFormed = true ∧ (Ctx.hcw [1, 2, 3] tableP3).admits (.hcw 3#5 2#16) :=
  ⟨by decide, [1, 2, 3], tableP3, rfl, by decide, by decide, by decide, by decide⟩

theorem test_hyp_EncodeOfDecode :
    (∀ n, Ctx.rle ≠ .pad n) ∧ (∀ lens entries, Ctx.rle = .hcw lens entries → ∀ l ∈ lens, 1 ≤ l ∧ l ≤ 16) ∧
    decode .rle ([true, false, false, false, false, true, false, true] ++ bitsOf 8 0x10 ++ [true]) =
      .ok (.rleRep 5#7 0x10#8, [true]) := ⟨by simp, by simp, by decide +kernel⟩
theorem test_hyp_EncodeOfDecode_hcw :
    (∀ n, Ctx.hcw [1, 2, 3] tableP3 ≠ .pad n) ∧
    (∀ lens entries, Ctx.hcw [1, 2, 3] tableP3 = .hcw lens entries → ∀ l ∈ lens, 1 ≤ l ∧ l ≤ 16) ∧
    decode (.hcw [1, 2, 3] tableP3) [false, true, false, true] = .ok (.hcw 3#5 2#16, [true]) := by
  refine ⟨by simp, ?_, by decide +kernel⟩
  intro lens entries h
  cases h
  decide

theorem test_hyp_CommandsInFaultAndBusy :
    Instr.crle.isCommand = true ∧ Instr.crle ≠ .sreset ∧ (Instr.cmdIllegal 8#32).isCommand = true ∧
    ({ imageP5 with state := .fault } : State).state = .fault ∧ readingP2.state = .busy := by and_intros <;> decide

theorem test_hyp_IllegalCommandsFault :
    ({ imageP5 with lzwW := 13#5 } : State).Ready ∧ (13#5 : BitVec 5) ≠ 12#5 ∧ (13#5 : BitVec 5) ≠ 16#5 ∧
    (13#5 : BitVec 5) ≠ 20#5 := ⟨.inl rfl, by decide, by decide, by decide⟩

/-- One clause each: the length above the capacity by one, an empty area, a length off by one. -/
theorem test_hyp_CompressRejectsInvalidInput :
    legalWidth imageP5.lzwW ≠ none ∧
    (({ imageP5 with params := ⟨5, 64⟩ } : State).Ready ∧ ({ imageP5 with params := ⟨5, 64⟩ } : State).params.ibufCap < 6) ∧
    (({ imageP5 with height := 0 } : State).Ready ∧ ({ imageP5 with height := 0 } : State).n = 0) ∧
    (({ imageP5 with inLen := 5 } : State).Ready ∧ (5 : Nat) ≠ imageP5.total) :=
  ⟨by decide, ⟨.inl rfl, by decide⟩, ⟨.inl rfl, by decide⟩, ⟨.inl rfl, by decide⟩⟩

/-- One clause each: 16 bytes for a capacity of 15; three bytes; an empty area; planes of 6 bytes for 5. -/
theorem test_hyp_RestoreHeaderChecks_length :
    ({ loaded 0 0 streamP5 with params := ⟨14, 64⟩ } : State).params.ibufCap < (loaded 0 0 streamP5).inLen ∧
    (loaded 0 0 (streamP5.take 3)).inLen < 4 ∧ (loaded 0 0 streamP5).Ready := ⟨by decide, by decide, .inl rfl⟩
theorem test_hyp_RestoreHeaderChecks_area :
    (loaded 9 9 [0#8, 0#8, 0#8, 5#8]).inputBits = encode (.hdr 0#16 5#16) ++ payloadOf (loaded 9 9 [0#8, 0#8, 0#8, 5#8]) ∧
    (loaded 9 9 [0#8, 0#8, 0#8, 5#8]).inLen = 4 := by and_intros <;> decide +kernel
theorem test_hyp_RestoreHeaderChecks_capacity :
    (capped (loaded 0 0 streamP5) 5).inputBits = encode (.hdr 2#16 1#16) ++ payloadOf (capped (loaded 0 0 streamP5) 5) ∧
    (capped (loaded 0 0 streamP5) 5).params.obufCap < 3 * ((2#16).toNat * (1#16).toNat) := by and_intros <;> decide +kernel

/-- The output fits exactly, and is one byte too long. -/
theorem test_hyp_Cnoop : (capped imageP5 10).Ready ∧ (capped imageP5 10).CompressInput ∧
    4 + (capped imageP5 10).total = (capped imageP5 10).params.obufCap ∧
    (capped imageP5 9).params.obufCap < 4 + (capped imageP5 9).total :=
  ⟨.inl rfl, by unfold State.CompressInput; decide, by decide, by decide⟩

/-- The stream of vector P5, step 2, has 12 bytes. -/
theorem test_hyp_Crle : (capped imageP5 12).Ready ∧ (capped imageP5 12).CompressInput ∧
    (streamBytes (.hdr imageP5.width imageP5.height :: (rleRecords (imageP5.ibufBytes 0 2) ++
      rleRecords (imageP5.ibufBytes 2 2) ++ rleRecords (imageP5.ibufBytes 4 2)))).length = 12 ∧
    (capped imageP5 11).params.obufCap < 12 :=
  ⟨.inl rfl, by unfold State.CompressInput; decide, by decide +kernel, by decide⟩

/-- The stream of vector P2 has 15 bytes. -/
theorem test_hyp_Clzw : (capped (loaded 3 1 planesP2) 15).Ready ∧ (capped (loaded 3 1 planesP2) 15).CompressInput ∧
    legalWidth (loaded 3 1 planesP2).lzwW = some .w12 ∧
    streamBytes (.hdr 3 1 :: (lzwCodes .w12 ((loaded 3 1 planesP2).ibufBytes 0 9)).map (lzwInstr .w12)) = streamP2 ∧
    streamP2.length = 15 ∧ (capped (loaded 3 1 planesP2) 14).params.obufCap < 15 :=
  ⟨.inl rfl, by unfold State.CompressInput; decide +kernel, by decide, by decide +kernel, by decide, by decide⟩

/-- The stream of vector P3 has 24 bytes. -/
theorem test_hyp_Chuf : (capped (loaded 2 2 planesP3) 24).Ready ∧ (capped (loaded 2 2 planesP3) 24).CompressInput ∧
    (∀ p ∈ hufPaths ((loaded 2 2 planesP3).ibufBytes 0 12), p.2.length ≤ 16) ∧
    streamBytes (.hdr 2 2 :: hufRecords planesP3) = streamP3 ∧ streamP3.length = 24 ∧
    (capped (loaded 2 2 planesP3) 23).params.obufCap < 24 :=
  ⟨.inl rfl, by unfold State.CompressInput; decide +kernel, by decide +kernel, by decide +kernel, by decide, by decide⟩

/-- The 6765 bytes of vector H11i: 18 byte values with Fibonacci frequencies and one more `11`. -/
def deepBytes : List Byte :=
  List.replicate 1 0#8 ++ List.replicate 1 1#8 ++ List.replicate 2 2#8 ++ List.replicate 3 3#8 ++ List.replicate 5 4#8 ++
  List.replicate 8 5#8 ++ List.replicate 13 6#8 ++ List.replicate 21 7#8 ++ List.replicate 34 8#8 ++
  List.replicate 55 9#8 ++ List.replicate 89 10#8 ++ List.replicate 144 11#8 ++ List.replicate 233 12#8 ++
  List.replicate 377 13#8 ++ List.replicate 610 14#8 ++ List.replicate 987 15#8 ++ List.replicate 1597 16#8 ++
  List.replicate 2585 17#8

theorem length_deepBytes : deepBytes.length = 6765 := by
  simp only [deepBytes, List.length_append, List.length_replicate]

/-- How often each byte value occurs in them. -/
def deepCount (b : Byte) : Nat :=
  ([1, 1, 2, 3, 5, 8, 13, 21, 34, 55, 89, 144, 233, 377, 610, 987, 1597, 2585] : List Nat).getD b.toNat 0

theorem count_deepBytes : ∀ b : Byte, deepBytes.count b = deepCount b := by
  simp only [deepBytes, List.count_append, List.count_replicate]
  decide +kernel

theorem forest_deepBytes : hufForest deepBytes = (List.range 256).filterMap (fun b =>
    if 0 < deepCount (BitVec.ofNat 8 b) then some (.leaf (deepCount (BitVec.ofNat 8 b)) (BitVec.ofNat 8 b)) else none) := by
  simp only [hufForest, count_deepBytes]

/-- Vector H11i: the values 00 and 01 are 17 edges below the root. -/
theorem deepBytes_deep : ∃ p ∈ hufPaths deepBytes, 16 < p.2.length := by
  have h : ((hufPaths deepBytes).any (fun p => decide (16 < p.2.length))) = true := by
    rw [hufPaths, length_deepBytes, forest_deepBytes]
    decide +kernel
  obtain ⟨p, hp, h⟩ := List.any_eq_true.mp h
  exact ⟨p, hp, of_decide_eq_true h⟩

/-- The 2255 by 1 image of vector H11i. -/
def deepImage : State := { loaded 2255 1 deepBytes with params := ⟨8192, 8192⟩ }

theorem deepImage_input : deepImage.total = 6765 ∧ deepImage.ibufBytes 0 deepImage.total = deepBytes := by
  have ht : deepImage.total = 6765 := by decide
  refine ⟨ht, ?_⟩
  rw [ht, ← length_deepBytes]
  refine ibufBytes_of_lookup _ _ _ fun k b hk => ?_
  have hl := (List.getElem?_eq_some_iff.mp hk).1
  show Memory.lookup (Memory.listing 0 deepBytes) (0 + k) = some b
  rw [lookup_listing, if_pos (by omega)]
  simpa using hk

theorem test_hyp_ChufFaultsOnDeepTrees : deepImage.Ready ∧ 4 ≤ deepImage.params.obufCap ∧
    deepImage.CompressInput ∧ ∃ p ∈ hufPaths (deepImage.ibufBytes 0 deepImage.total), 16 < p.2.length := by
  refine ⟨.inl rfl, by decide, ⟨?_, by decide, ?_⟩, ?_⟩
  · show deepBytes.length ≤ 8192; rw [length_deepBytes]; decide
  · show deepBytes.length = deepImage.total; rw [length_deepBytes, deepImage_input.1]
  · rw [deepImage_input.2]; exact deepBytes_deep

/-- The stream has exactly 4 + 3N bytes, and one less. -/
theorem test_hyp_Rnoop :
    (loaded 0 0 [0#8, 1#8, 0#8, 1#8, 7#8, 8#8, 9#8]).RestoreInput 1 1 (payloadOf (loaded 0 0 [0#8, 1#8, 0#8, 1#8, 7#8, 8#8, 9#8])) ∧
    (loaded 0 0 [0#8, 1#8, 0#8, 1#8, 7#8, 8#8, 9#8]).inLen = 4 + 3 * 1 ∧
    (loaded 0 0 [0#8, 1#8, 0#8, 1#8, 7#8, 8#8]).RestoreInput 1 1 (payloadOf (loaded 0 0 [0#8, 1#8, 0#8, 1#8, 7#8, 8#8])) ∧
    (loaded 0 0 [0#8, 1#8, 0#8, 1#8, 7#8, 8#8]).inLen < 4 + 3 * 1 ∧
    (engineTurn (beginCommand .restore .noop (loaded 0 0 [0#8, 1#8, 0#8, 1#8, 7#8, 8#8]))).state = .fault := by
  unfold State.RestoreInput
  and_intros <;> decide +kernel

/-- The three channels of vector P5. -/
def segmentR : List Instr := [.rleRep 0#7 0x09#8, .rleLit [], .rleRep 1#7 0x07#8, .rleLit [0x08#8]]
def segmentG : List Instr := [.rleRep 2#7 0x01#8]
def segmentB : List Instr := [.rleRep 2#7 0x02#8]

theorem segmentR_is : RleSegment 2 segmentR := by
  refine ⟨fun r hr => ?_, by decide, fun front r h => ?_⟩
  · simp only [segmentR, List.mem_cons, List.not_mem_nil, or_false] at hr
    rcases hr with rfl | rfl | rfl | rfl
    · exact ⟨rfl, .inl ⟨_, _, rfl⟩⟩
    · exact ⟨rfl, .inr ⟨_, rfl⟩⟩
    · exact ⟨rfl, .inl ⟨_, _, rfl⟩⟩
    · exact ⟨rfl, .inr ⟨_, rfl⟩⟩
  · have := congrArg List.getLast? h
    simp [segmentR] at this
    subst this
    decide

theorem repSegment_is (v : Byte) : RleSegment 2 [.rleRep 2#7 v] := by
  refine ⟨fun r hr => ?_, by simp [rleYield], fun front r h => ?_⟩
  · simp only [List.mem_cons, List.not_mem_nil, or_false] at hr
    subst hr
    exact ⟨rfl, .inl ⟨_, _, rfl⟩⟩
  · have := congrArg List.getLast? h
    simp at this
    subst this
    simp [rleYield]

theorem test_hyp_Rrle : (loaded 0 0 streamP5).Ready ∧
    (loaded 0 0 streamP5).RestoreInput 2 1 ((segmentR ++ segmentG ++ segmentB).flatMap encode ++ []) ∧
    RleSegment 2 segmentR ∧ RleSegment 2 segmentG ∧ RleSegment 2 segmentB := by
  refine ⟨.inl rfl, ?_, segmentR_is, repSegment_is _, repSegment_is _⟩
  unfold State.RestoreInput
  and_intros <;> decide +kernel

/-- Vector P2: the codes between CLEAR and END, and the table they build. -/
theorem test_hyp_Rlzw : (loaded 0 0 streamP2).Ready ∧ legalWidth (loaded 0 0 streamP2).lzwW = some .w12 ∧
    (loaded 0 0 streamP2).RestoreInput 3 1
      (([256, 65, 66, 258, 260, 259, 257] : List Nat).flatMap (lzwCodeBits .w12) ++ [false, false, false, false]) ∧
    (∀ c ∈ ([65, 66, 258, 260, 259] : List Nat), c < LzwWidth.w12.cap ∧ c ≠ 257) ∧
    lzwDecodeFrom .w12 [] none [65, 66, 258, 260, 259] = some (planesP2,
      [[0x41#8, 0x42#8], [0x42#8, 0x41#8], [0x41#8, 0x42#8, 0x41#8], [0x41#8, 0x42#8, 0x41#8, 0x42#8]], 0) := by
  unfold State.RestoreInput
  refine ⟨.inl rfl, ?_⟩
  and_intros <;> decide +kernel

/-- Vector P3: the words of A A A A A B A B A C A D. -/
theorem test_hyp_Rhuf : (loaded 0 0 streamP3).Ready ∧
    (∀ e ∈ tableP3, 1 ≤ e.len ∧ e.len ≤ 16 ∧ e.code < 2 ^ e.len) ∧
    tableP3.Pairwise (fun e f => ¬ bitsOf e.len e.code <+: bitsOf f.len f.code ∧
      ¬ bitsOf f.len f.code <+: bitsOf e.len e.code) ∧
    (loaded 0 0 streamP3).RestoreInput 2 2 (encode (.hsz 3#8) ++
      tableP3.flatMap (fun e => encode (.hen e.sym (BitVec.ofNat 8 e.len) (BitVec.ofNat 16 e.code))) ++
      (([0, 0, 0, 0, 0, 1, 0, 1, 0, 2, 0, 3] : List Nat).filterMap (fun k => tableP3[k]?)).flatMap
        (fun e => bitsOf e.len e.code) ++ List.replicate 6 false) ∧
    ((([0, 0, 0, 0, 0, 1, 0, 1, 0, 2, 0, 3] : List Nat).filterMap (fun k => tableP3[k]?)).length = 3 * (2 * 2)) := by
  unfold State.RestoreInput
  refine ⟨.inl rfl, ?_⟩
  and_intros <;> decide +kernel

/-- A command started in `IDLE` answers the state its run ends in. -/
theorem ran (dir : Dir) (alg : Alg) (s : State) (h : s.state = .idle) : exec (commandOf dir alg) s = .next (runCommand dir alg s) := by
  rw [exec_commandOf, acceptCommand_ready _ s (.inl h)]

/-- Commands that end in `FAULT` (vectors P4, P6) and in `DONE` (P2, P3, P5). -/
theorem test_hyp_commands_that_fault :
    exec (commandOf .restore .rle) (loaded 0 0 streamP4) = .next (runCommand .restore .rle (loaded 0 0 streamP4)) ∧
    (runCommand .restore .rle (loaded 0 0 streamP4)).state = .fault ∧
    (runCommand .restore .rle (loaded 0 0 streamP4)).cause = some .truncatedStream :=
  ⟨ran .restore .rle _ rfl, by decide +kernel, by decide +kernel⟩
theorem test_hyp_commands_that_complete :
    exec (commandOf .restore .lzw) (loaded 0 0 streamP2) = .next (runCommand .restore .lzw (loaded 0 0 streamP2)) ∧
    (runCommand .restore .lzw (loaded 0 0 streamP2)).state = .done :=
  ⟨ran .restore .lzw _ rfl, by decide +kernel⟩
theorem test_hyp_EveryCommandEnds : Instr.clzw.isCommand = true ∧ Instr.clzw ≠ .sreset ∧ imageP5.Ready :=
  ⟨by decide, by decide, .inl rfl⟩

/-- Two states that differ in private registers only. -/
theorem test_hyp_CommandResultsDoNotDependOnPrivateState :
    ({ imageP5 with rleI := 77, prev := some 3, hcode := List.replicate 256 9#16 } : State).Ready ∧
    ({ imageP5 with rleI := 77, prev := some 3, hcode := List.replicate 256 9#16 } : State).ibuf = imageP5.ibuf ∧
    exec (commandOf .compress .rle) imageP5 = .next (runCommand .compress .rle imageP5) ∧
    exec (commandOf .compress .rle) { imageP5 with rleI := 77, prev := some 3, hcode := List.replicate 256 9#16 } =
      .next (runCommand .compress .rle { imageP5 with rleI := 77, prev := some 3, hcode := List.replicate 256 9#16 }) :=
  ⟨.inl rfl, rfl, ran _ _ _ rfl, ran _ _ _ rfl⟩

/-- What a round trip needs of the state the RESTORE starts in. -/
def carriesOver (alg : Alg) (s u : State) : Prop :=
  (runCommand .compress alg s).state = .done ∧ u.lzwW = s.lzwW ∧ u.inLen = (runCommand .compress alg s).outLen ∧
    u.inLen ≤ u.params.ibufCap ∧ s.total ≤ u.params.obufCap ∧ u.ibuf = (runCommand .compress alg s).obuf

theorem test_hyp_NoopRoundTrip : exec (commandOf .compress .noop) (loaded 1 1 [7#8, 8#8, 9#8]) =
      .next (runCommand .compress .noop (loaded 1 1 [7#8, 8#8, 9#8])) ∧
    carriesOver .noop (loaded 1 1 [7#8, 8#8, 9#8]) (loaded 0 0 [0#8, 1#8, 0#8, 1#8, 7#8, 8#8, 9#8]) := by
  unfold carriesOver
  refine ⟨ran _ _ _ rfl, ?_⟩
  and_intros <;> decide +kernel
theorem test_hyp_RleRoundTrip : exec (commandOf .compress .rle) imageP5 = .next (runCommand .compress .rle imageP5) ∧
    carriesOver .rle imageP5 (loaded 0 0 [0x00#8, 0x02#8, 0x00#8, 0x01#8, 0x01#8, 0x07#8, 0x01#8, 0x08#8, 0x82#8, 0x01#8,
      0x82#8, 0x02#8]) := by
  unfold carriesOver
  refine ⟨ran _ _ _ rfl, ?_⟩
  and_intros <;> decide +kernel
theorem test_hyp_LzwRoundTrip : exec (commandOf .compress .lzw) (loaded 3 1 planesP2) =
      .next (runCommand .compress .lzw (loaded 3 1 planesP2)) ∧
    carriesOver .lzw (loaded 3 1 planesP2) (loaded 0 0 streamP2) := by
  unfold carriesOver
  refine ⟨ran _ _ _ rfl, ?_⟩
  and_intros <;> decide +kernel
theorem test_hyp_HuffmanRoundTrip : exec (commandOf .compress .huf) (loaded 2 2 planesP3) =
      .next (runCommand .compress .huf (loaded 2 2 planesP3)) ∧
    carriesOver .huf (loaded 2 2 planesP3) (loaded 0 0 streamP3) := by
  unfold carriesOver
  refine ⟨ran _ _ _ rfl, ?_⟩
  and_intros <;> decide +kernel

/-- A code word behind seven pending bits that fits exactly, and a record of whole bytes. -/
theorem test_hyp_EncoderRecordsAppend :
    (Instr.hcw 9#5 5#16).isRecord = true ∧ (Instr.hcw 9#5 5#16).wellFormed = true ∧
    (Instr.hcw 9#5 5#16).wholeBytes = false ∧ (Instr.hdr 2#16 2#16).wholeBytes = true ∧
    62 + (7 + (encode (.hcw 9#5 5#16)).length) / 8 = (writing .huf .hufCodes 2 2 planesP3).params.obufCap ∧
    (writing .noop .header 2 2 planesP3).alg ≠ .huf ∧ (writing .noop .header 2 2 planesP3).wcnt = 0 ∧
    60 + (0 + (encode (.hdr 2#16 2#16)).length) / 8 = (writing .noop .header 2 2 planesP3).params.obufCap := by
  and_intros <;> decide
theorem test_hyp_EncoderRecordsOverflow :
    (Instr.raw 1#8).isRecord = true ∧ (64 : Nat) ≤ (writing .noop .raw 2 2 planesP3).params.obufCap ∧
    (writing .noop .raw 2 2 planesP3).params.obufCap < 64 + (0 + (encode (.raw 1#8)).length) / 8 ∧
    (writing .huf .hufCodes 2 2 planesP3).params.obufCap < 63 + (7 + (encode (.hcw 9#5 5#16)).length) / 8 := by
  and_intros <;> decide

theorem test_hyp_HuffmanHeaderBuildsTheCodes :
    (writing .huf .header 2 2 planesP3).n ≠ 0 ∧ (writing .huf .header 2 2 planesP3).wpos + 4 ≤ 64 ∧
    (writing .huf .header 2 2 planesP3).freq = List.replicate 256 0 ∧
    (∀ p ∈ hufPaths ((writing .huf .header 2 2 planesP3).ibufBytes 0 12), p.2.length ≤ 16) ∧
    (∃ p ∈ hufPaths (({ deepImage with state := .busy, alg := .huf } : State).ibufBytes 0 deepImage.total), 16 < p.2.length) := by
  refine ⟨by decide, by decide, rfl, by decide +kernel, ?_⟩
  have h : ({ deepImage with state := .busy, alg := .huf } : State).ibufBytes 0 deepImage.total = deepBytes := by
    rw [deepImage_input.1, ← length_deepBytes]
    refine ibufBytes_of_lookup _ _ _ fun k b hk => ?_
    have hl := (List.getElem?_eq_some_iff.mp hk).1
    show Memory.lookup (Memory.listing 0 deepBytes) (0 + k) = some b
    rw [lookup_listing, if_pos (by omega)]
    simpa using hk
  rw [h]
  exact deepBytes_deep

theorem test_hyp_HuffmanCodes : planesP3 ≠ [] ∧ 2 ≤ (hufPaths planesP3).length ∧
    (∀ p ∈ hufPaths planesP3, p.2.length ≤ 3) ∧ (hufPaths [7#8, 7#8, 7#8]).length = 1 := by
  and_intros <;> decide +kernel

theorem next_replicate (s : State) (n : Nat) : ({ s with lzwTable := List.replicate n ⟨0, 0#8⟩ } : State).next = 258 + n := by
  simp [State.next]

/-- Before the end with room, before the end with the last entry, and at the end. -/
theorem test_hyp_EncoderOrdinaryCodeLearns :
    (65 < LzwWidth.w12.cap ∧ writingCodes.wpos + (writingCodes.wcnt + 12) / 8 ≤ writingCodes.params.obufCap ∧
      writingCodes.idx < writingCodes.total ∧ writingCodes.next + 1 ≠ LzwWidth.w12.cap) ∧
    ({ writingCodes with lzwTable := List.replicate 3837 ⟨0, 0#8⟩ } : State).next + 1 = LzwWidth.w12.cap ∧
    ({ writingCodes with idx := 9 } : State).total ≤ 9 := by
  refine ⟨by and_intros <;> decide, ?_, by decide⟩
  rw [next_replicate]
  rfl

theorem test_hyp_LzwEncoderCodeGroups : (loaded 3 1 planesP2).Ready ∧ legalWidth (loaded 3 1 planesP2).lzwW = some .w12 ∧
    exec .clzw (loaded 3 1 planesP2) = .next (runCommand .compress .lzw (loaded 3 1 planesP2)) ∧
    (runCommand .compress .lzw (loaded 3 1 planesP2)).state = .done :=
  ⟨.inl rfl, by decide, ran .compress .lzw _ rfl, by decide +kernel⟩

/-- Area zero; planes of 66 bytes for 64; a NoOp stream of 9 and of 10 bytes for a 2 by 1 image. -/
theorem test_hyp_HeaderLatchesTheSize :
    (reading .noop .header 0 0 []).dir = .restore ∧ (0#16).toNat * (5#16).toNat = 0 ∧
    ((22#16).toNat * (1#16).toNat ≠ 0 ∧ (reading .rle .header 0 0 []).params.obufCap < 3 * ((22#16).toNat * (1#16).toNat)) ∧
    3 * ((21#16).toNat * (1#16).toNat) ≤ (reading .lzw .header 0 0 []).params.obufCap ∧
    (reading .noop .header 0 0 (List.replicate 9 0#8)).inLen < 4 + 3 * ((2#16).toNat * (1#16).toNat) ∧
    4 + 3 * ((2#16).toNat * (1#16).toNat) ≤ (reading .noop .header 0 0 (List.replicate 10 0#8)).inLen ∧
    (reading .huf .header 0 0 []).alg = .huf := by and_intros <;> decide

/-- The second to last and the last byte of a 1 by 1 image. -/
theorem test_hyp_RawByteIsCopied :
    (reading .noop .raw 1 1 []).dir = .restore ∧ (reading .noop .raw 1 1 []).state = .busy ∧
    (reading .noop .raw 1 1 []).total ≤ (reading .noop .raw 1 1 []).params.obufCap ∧
    1 + 1 < (reading .noop .raw 1 1 []).total ∧ 2 + 1 = (reading .noop .raw 1 1 []).total := by and_intros <;> decide

/-- A record that fills no channel, one of count 0, and one that fills the first and the last channel of a 2 by 1 image. -/
theorem test_hyp_RleRecordsProduceTheirBytes :
    (Instr.rleRep 2#7 7#8).isRle = true ∧ (Instr.rleLit []).isRle = true ∧
    (0 < (reading .rle .rle 2 1 []).n ∧ 0 + (rleYield (.rleLit [])).length < (reading .rle .rle 2 1 []).n) ∧
    0 + (rleYield (.rleRep 2#7 7#8)).length = (reading .rle .rle 2 1 []).n ∧
    ({ reading .rle .rle 2 1 [] with rleCh := 1 } : State).rleCh < 2 ∧
    2 ≤ ({ reading .rle .rle 2 1 [] with rleCh := 2 } : State).rleCh := by and_intros <;> decide

/-- A count one above what the channel lacks; and a control byte at the end of the stream (`81`, vector P4; `83`). -/
theorem test_hyp_OverlongRleRecord :
    (reading .rle .rle 2 1 []).n < 1 + (2#7).toNat ∧ (reading .rle .rle 2 1 []).n < 1 + ([1#8, 2#8] : List Byte).length ∧
    (let s : State := { reading .rle .rle 2 1 (streamP4.take 4 ++ [0x83#8]) with rleCnt := 0 };
      s.bitsFrom s.rpos (8 * s.inLen - s.rpos) = true :: bitsOf 7 (3#7).toNat ++ [] ∧ s.n < s.rleCnt + (3#7).toNat) ∧
    (let s : State := { reading .rle .rle 2 1 (streamP4.take 4 ++ [0x02#8, 0x07#8]) with rleCnt := 0 };
      s.bitsFrom s.rpos (8 * s.inLen - s.rpos) = false :: bitsOf 7 (2#7).toNat ++ bitsOf 8 7 ∧
        s.rleCnt + (2#7).toNat ≤ s.n) := by
  and_intros <;> decide +kernel

/-- A decoder directly after CLEAR. -/
theorem test_hyp_FirstCodeAfterClear :
    ({ readingP2 with prev := none } : State).started = true ∧ (255 < LzwWidth.w12.cap ∧ (255 : Nat) < 256) ∧
    readingP2.wpos + 1 ≤ readingP2.total ∧ readingP2.total ≤ readingP2.params.obufCap ∧
    (258 ≤ (258 : Nat) ∧ 258 < LzwWidth.w12.cap) := by and_intros <;> decide

/-- The present codes 259 and 67 of vector P2's table. -/
theorem test_hyp_PresentCode :
    259 < readingP2.next ∧ readingP2.started = true ∧ readingP2.prev = some 258 ∧ readingP2.next ≠ LzwWidth.w12.cap ∧
    readingP2.wpos + (lzwStr readingP2.lzwTable 259).length ≤ readingP2.total ∧
    readingP2.wpos + (lzwStr readingP2.lzwTable 67).length ≤ readingP2.total := by and_intros <;> decide

/-- The code 260 of vector P2. -/
theorem test_hyp_CodeEqualToNext :
    readingP2.next < LzwWidth.w12.cap ∧ readingP2.codeDefined 258 ∧
    (∀ k e, readingP2.lzwTable[k]? = some e → e.pfx < 258 + k ∧ e.pfx ≠ 256 ∧ e.pfx ≠ 257) ∧
    readingP2.wpos + (lzwStr readingP2.lzwTable 258).length + 1 ≤ readingP2.total := by
  refine ⟨by decide, .inr (by decide), fun k e h => ?_, by decide⟩
  match k with
  | 0 => cases h; decide
  | 1 => cases h; decide
  | _ + 2 => simp [readingP2] at h

/-- A first code that is not CLEAR; 261 above `NEXT = 260`; a full table; strings that run one byte past `TOTAL`: of a present code, of
the code 260 = `NEXT`, of a literal after CLEAR. -/
theorem test_hyp_LzwDecoderFaults :
    ({ readingP2 with started := false } : State).started = false ∧ (readingP2.next < 261 ∧ 261 < LzwWidth.w12.cap) ∧
    ({ readingP2 with lzwTable := List.replicate 3838 ⟨0, 0#8⟩ } : State).next = LzwWidth.w12.cap ∧
    (259 < readingP2.next ∧ ({ readingP2 with wpos := 8 } : State).total < 8 + (lzwStr readingP2.lzwTable 259).length) ∧
    (260 = readingP2.next ∧ readingP2.codeDefined 258 ∧
      ({ readingP2 with wpos := 7 } : State).total < 7 + (lzwStr readingP2.lzwTable 258).length + 1) ∧
    ({ readingP2 with wpos := 9, prev := none } : State).total < 9 + 1 := by
  refine ⟨rfl, by decide, ?_, by decide, ⟨by decide, .inr (by decide), by decide⟩, by decide⟩
  rw [next_replicate]
  rfl

theorem test_hyp_ClearAndEnd :
    (writing .lzw .lzwClear 3 1 planesP2).dir = .compress ∧
    (writing .lzw .lzwClear 3 1 planesP2).wpos + ((writing .lzw .lzwClear 3 1 planesP2).wcnt + 20) / 8 ≤ 64 ∧
    readingP2.started = true ∧ readingP2.wpos < readingP2.total ∧
    ({ readingP2 with wpos := 9 } : State).wpos = ({ readingP2 with wpos := 9 } : State).total := by and_intros <;> decide

/-- Vector P6, step 2, and a stream of 12-bit codes of which only the first is there, read with 20-bit codes. -/
theorem test_hyp_LzwWidthMismatch :
    (let s : State := loaded 0 0 [0#8, 1#8, 0#8, 1#8, 1#8, 0#8, 0#8, 0x41#8];
      legalWidth s.lzwW = some .w12 ∧ s.RestoreInput 1 1 (encode (lzwInstr .w16 256) ++ (payloadOf s).drop 16) ∧
        LzwWidth.w12.bits ≤ LzwWidth.w16.bits + ((payloadOf s).drop 16).length) ∧
    (let s : State := { loaded 0 0 [0#8, 1#8, 0#8, 1#8, 0x10#8, 0#8] with lzwW := 20#5 };
      legalWidth s.lzwW = some .w20 ∧ s.RestoreInput 1 1 (encode (lzwInstr .w12 256) ++ (payloadOf s).drop 12) ∧
        LzwWidth.w12.bits + ((payloadOf s).drop 12).length < LzwWidth.w20.bits) := by
  unfold State.RestoreInput
  and_intros <;> decide +kernel

/-- An entry that is not the last, the last, and one entry for each check of R236. -/
theorem test_hyp_TableSizeAndEntries :
    (tableP3.take 2).length + 1 < 4 ∧ (tableP3.take 3).length + 1 = 4 ∧
    (1 ≤ (3#8).toNat ∧ (3#8).toNat ≤ 16 ∧ (3#16).toNat < 2 ^ (3#8).toNat) ∧
    (∀ e ∈ tableP3.take 3, ¬ (e.len = (3#8).toNat ∧ e.code = (3#16).toNat)) ∧
    (0#8).toNat = 0 ∧ 16 < (17#8).toNat ∧ 2 ^ (3#8).toNat ≤ (8#16).toNat ∧
    (∃ e ∈ tableP3.take 3, e.len = (3#8).toNat ∧ e.code = (2#16).toNat) := by
  refine ⟨by decide, by decide, by decide, by decide, rfl, by decide, by decide, ⟨0x43#8, 3, 2⟩, by decide, rfl, rfl⟩

/-- The code of C is an entry, the code 0 of three bits is none. -/
theorem test_hyp_CodeWord :
    hufLookup tableP3 (3#5).toNat (2#16).toNat = some 0x43#8 ∧ hufLookup tableP3 (3#5).toNat (0#16).toNat = none ∧
    10 + 1 < (reading .huf .hufCodes 2 2 []).total ∧ 11 + 1 = (reading .huf .hufCodes 2 2 []).total := by
  and_intros <;> decide

theorem test_hyp_ShortestCodeMatch :
    ([1, 2, 3] : List Nat).Pairwise (· < ·) ∧ (∀ l ∈ ([1, 2, 3] : List Nat), 1 ≤ l ∧ l ≤ 16) ∧
    decodeCode tableP3 [1, 2, 3] [false, true, false, true] = .ok (.hcw 3#5 2#16, [true]) := by
  and_intros <;> decide +kernel
/-- The one-symbol table of R239 at a bit 1; the bit `0` alone, and no bit at all, with the table of vector P3. -/
theorem test_hyp_ShortestCodeMatch_none :
    (∀ l ∈ ([1] : List Nat), NoMatchAt [⟨0x41#8, 1, 0⟩] [true] l) ∧
    (2 ∈ ([1, 2, 3] : List Nat) ∧ [false].length < 2 ∧ ∀ k ∈ ([1, 2, 3] : List Nat), k < 2 → NoMatchAt tableP3 [false] k) ∧
    (1 ∈ ([1, 2, 3] : List Nat) ∧ ([] : List Bool).length < 1 ∧
      ∀ k ∈ ([1, 2, 3] : List Nat), k < 1 → NoMatchAt tableP3 [] k) := by
  unfold NoMatchAt
  and_intros <;> decide +kernel
/-- The table of vector P3 is prefix-free and `LENS` is its lengths. -/
theorem test_hyp_ShortestCodeMatch_prefixFree :
    (∀ l, l ∈ ([1, 2, 3] : List Nat) ↔ ∃ f ∈ tableP3, f.len = l) ∧
    (∀ f ∈ tableP3, 1 ≤ f.len ∧ f.len ≤ 16 ∧ f.code < 2 ^ f.len) ∧
    tableP3.Pairwise (fun f g => ¬ bitsOf f.len f.code <+: bitsOf g.len g.code ∧
      ¬ bitsOf g.len g.code <+: bitsOf f.len f.code) ∧ (⟨0x44#8, 3, 3⟩ : HufEntry) ∈ tableP3 := by
  refine ⟨fun l => ?_, by decide +kernel, by decide +kernel, by decide +kernel⟩
  simp [tableP3, eq_comm]
/-- R239, R240 on the engine's path: the last byte of the stream is `FF`, and there is none. -/
theorem test_hyp_ShortestCodeMatch_step :
    (let s : State := { reading .huf .hufCodes 2 2 [0#8, 2#8, 0#8, 2#8, 0xFF#8] with
        dtab := [⟨0x41#8, 1, 0⟩], lens := [1] };
      s.host = [] ∧ (∀ l ∈ s.lens, NoMatchAt s.dtab (s.bitsFrom s.rpos (8 * s.inLen - s.rpos)) l) ∧
        (nextOf (step s)).map (fun t => t.causeBits) = some 5#4) ∧
    (let s : State := { reading .huf .hufCodes 2 2 [0#8, 2#8, 0#8, 2#8] with dtab := [⟨0x41#8, 1, 0⟩], lens := [1] };
      1 ∈ s.lens ∧ (s.bitsFrom s.rpos (8 * s.inLen - s.rpos)).length < 1 ∧
        (nextOf (step s)).map (fun t => t.causeBits) = some 3#4) := by
  unfold NoMatchAt
  and_intros <;> decide +kernel

theorem test_hyp_Pad : (reading .huf .hufCodes 2 2 []).dir = .restore ∧ [true, false].length = (2#3).toNat := by
  and_intros <;> decide

/-- One pending bit that fits and that does not, and none. -/
theorem test_hyp_Flush :
    (let s : State := { writing .huf .pad 2 2 planesP3 with wcnt := 1, wacc := 1, wpos := 63 };
      s.wcnt < 8 ∧ s.wacc < 2 ^ s.wcnt ∧ 0 < s.wcnt ∧ s.wpos < s.params.obufCap) ∧
    (let s : State := { writing .huf .pad 2 2 planesP3 with wcnt := 7, wacc := 127, wpos := 64 };
      s.wcnt < 8 ∧ s.wacc < 2 ^ s.wcnt ∧ s.params.obufCap ≤ s.wpos) ∧
    (writing .huf .pad 2 2 planesP3).wcnt = 0 := by and_intros <;> decide

/-- A 3-bit and a 16-bit value: three bytes that fit exactly. -/
theorem test_hyp_WriterLaw :
    (writing .huf .hufCodes 2 2 []).wcnt = 0 ∧ (writing .huf .hufCodes 2 2 []).wacc = 0 ∧
    61 + ceil8 (([(5, 3), (9, 16)] : List (Nat × Nat)).map Prod.snd).sum =
      (writing .huf .hufCodes 2 2 []).params.obufCap := by and_intros <;> decide

/-- The byte 41 read as a byte; nine bits that are not there. -/
theorem test_hyp_Reader :
    (let s := reading .noop .raw 1 1 [0#8, 1#8, 0#8, 1#8, 0x41#8];
      0x41 < 2 ^ 8 ∧ s.bitsFrom s.rpos (8 * s.inLen - s.rpos) = bitsOf 8 0x41 ++ [] ∧ 8 * s.inLen < s.rpos + 9) := by
  and_intros <;> decide +kernel

/-- A record of a COMPRESS and of a RESTORE that go on, one that completes (vector P3's pad) and one that faults. -/
theorem test_hyp_RecordFrame :
    (nextOf (exec (.lzwLit12 65#8) writingCodes)).map (fun t => t.state) = some .busy ∧
    (nextOf (exec (.lzwPhrase12 260#12) readingP2)).map (fun t => t.state) = some .busy ∧
    (nextOf (exec (.pad 6#3) { writing .huf .pad 2 2 planesP3 with wcnt := 2, wacc := 3 })).map (fun t => t.state) = some .done ∧
    (nextOf (exec .lzwEnd12 readingP2)).map (fun t => t.state) = some .fault := by
  and_intros <;> decide +kernel

theorem test_hyp_OnlyTheHostWritesIbuf :
    (nextOf (step { readingP2 with host := [.regRead 1] })).isSome = true ∧
    (∀ a b, ([.regRead 1] : List HostAct).head? ≠ some (.ibufWrite a b)) ∧
    ([.regRead 1] : List HostAct).head? ≠ some .hardReset := by
  refine ⟨by decide +kernel, ?_, by decide⟩
  intro a b h
  cases h

/-- Free hands; hands off with the `SRESET` word; hands off with another word. -/
theorem test_hyp_StepRunsTheCommandWord :
    ({ imageP5 with host := [.regWrite 0 1, .wait] } : State).host = .regWrite 0 1 :: [.wait] ∧ imageP5.handsOff = false ∧
    readingP2.handsOff = true ∧ decodeCmd (BitVec.ofNat 32 0x80) = .sreset ∧ decodeCmd (BitVec.ofNat 32 1) ≠ .sreset := by
  and_intros <;> decide

/-- A running RESTORE with a record to read, one with none, and a running COMPRESS. -/
theorem test_hyp_StepRunsTheRecord :
    (let s := reading .rle .rle 2 1 streamP5;
      s.host = [] ∧ s.state = .busy ∧ s.dir = .restore ∧ (∀ l ∈ s.lens, l ≤ 16) ∧
        (read s.ctx (s.bitsFrom s.rpos (8 * s.inLen - s.rpos))).isSome = true) ∧
    (let s := reading .rle .rle 2 1 (streamP5.take 4);
      read s.ctx (s.bitsFrom s.rpos (8 * s.inLen - s.rpos)) = none) ∧
    (writingCodes.host = [] ∧ writingCodes.state = .busy ∧ writingCodes.dir = .compress) := by
  and_intros <;> decide +kernel

theorem test_hyp_StartedCommand : imageP5.Ready ∧ imageP5.handsOff = false ∧
    exec (decodeCmd 1#32) imageP5 = .next (runCommand .compress .rle imageP5) ∧
    decodeCmd 1#32 = commandOf .compress .rle ∧
    ({ imageP5 with host := [.cmdStart 1#32, .wait] } : State).host = .cmdStart 1#32 :: [.wait] ∧
    (nextOf (step { imageP5 with host := [.cmdStart 1#32, .wait] })).map (fun t => t.state) = some .busy :=
  ⟨.inl rfl, rfl, ran .compress .rle _ rfl, rfl, rfl, by decide +kernel⟩
/-- R20: a command that is started has fresh RLE registers, whatever the last command left. -/
theorem test_start_is_fresh : (nextOf (step { imageP5 with host := [.cmdStart 0#32], rleI := 77, rleC := 3, hcode := [] })).map
    (fun t => (t.rleI, t.rleC, t.hcode.length)) = some (0, 0#8, 256) := by decide +kernel

theorem test_hyp_ResetValues : ({ readingP2 with host := [.hardReset] } : State).host = .hardReset :: [] := rfl

/-- A running COMPRESS meets the invariant, and steps. -/
theorem test_hyp_EveryStepKeepsTheInvariant :
    (writing .rle .rle 2 1 [0x07#8, 0x08#8, 0x01#8, 0x01#8, 0x02#8, 0x02#8]).Inv ∧
    (nextOf (step (writing .rle .rle 2 1 [0x07#8, 0x08#8, 0x01#8, 0x01#8, 0x02#8, 0x02#8]))).isSome = true := by
  refine ⟨?_, by decide +kernel⟩
  constructor
  case caps => exact ⟨by decide, by decide⟩
  case busyTableOrder => intro _ k e h; cases h
  case busyWritten => intro _ a h; cases h
  case encCode => intro _ _ c h; cases h
  case encClear => intro _ _ h; cases h
  case encRoom => intro _ _ h; cases h
  case decCode => intro _ h; cases h
  case decSize => intro _ h; cases h
  case busyHandsOff => intro _; rfl
  case idleHandsFree => intro h; cases h
  case busyTable => intro _; decide
  case busyAligned => intro _ _; rfl
  all_goals decide +kernel

/-- A step that enters `FAULT`, one in `FAULT`, one that leaves it, and one in `IDLE`. -/
theorem test_hyp_FaultEntryAndExit :
    (nextOf (step (reading .rle .rle 2 1 (streamP5.take 4)))).map (fun t => t.state) = some .fault ∧
    (nextOf (step { imageP5 with state := .fault, cause := some .invalidInput, host := [.regWrite 0 1] })).map
      (fun t => t.state) = some .fault ∧
    (resetAction (.regWrite 0 0x80) = true ∧ resetAction (.regWrite 0 1) = false ∧ resetAction .hardReset = true) ∧
    (nextOf (step { imageP5 with state := .fault, cause := some .invalidInput, host := [.regWrite 0 0x80] })).map
      (fun t => t.state) = some .idle ∧
    (nextOf (step imageP5)).map (fun t => t.state) = some .idle := by
  and_intros <;> decide +kernel

/-- `imageP5` with results to read. -/
def withResults : State := { imageP5 with state := .done, outLen := 5, inUsed := 4, statTable := 300, statClears := 3 }

/-- What a read of each of these registers returns. -/
def readsOf (s : State) (ns : List Nat) : List (Option Nat) :=
  ns.map (fun n => (nextOf (step { s with host := [.regRead n] })).map (fun t => t.rdata))

/-- Every state of the engine. -/
theorem test_hyp_HostRegisterAccess : imageP5.Ready ∧ withResults.Ready ∧ imageP5.handsOff = false ∧ readingP2.handsOff = true ∧
    ({ imageP5 with state := .fault } : State).state = .fault ∧ readingP2.state = .busy ∧ (2 : Nat) ≠ 0 ∧ (2 : Nat) ≠ 1 :=
  ⟨.inl rfl, .inr rfl, rfl, rfl, rfl, rfl, by decide, by decide⟩
/-- R21, R23: every register, the first number that is none, and what is refused while BUSY. -/
theorem test_hyp_HostRegisterAccess_reads :
    readsOf withResults [0, 1, 2, 3, 4, 5, 6, 7, 8, 9, 10, 11] =
      [some 0, some 2, some 0, some 2, some 1, some 12, some 6, some 5, some 4, some 300, some 3, some 0] ∧
    readsOf readingP2 [0, 1, 2, 3] = [none, some 1, none, none] ∧
    readsOf { imageP5 with state := .fault, cause := some .truncatedStream } [1, 2] = [some 4, some 3] := by
  and_intros <;> decide +kernel
/-- R21: writes of the registers 2 to 7 and 10 to 11; only 3 to 6 keep the value. -/
theorem test_hyp_HostRegisterAccess_writes :
    ([2, 3, 4, 5, 6, 7, 10, 11].map (fun n => (nextOf (step { withResults with host := [.regWrite n 9] })).map (fun t =>
      [t.width.toNat, t.height.toNat, t.lzwW.toNat, t.inLen, t.outLen, t.statClears]))) =
      [some [2, 1, 12, 6, 5, 3], some [9, 1, 12, 6, 5, 3], some [2, 9, 12, 6, 5, 3], some [2, 1, 9, 6, 5, 3],
       some [2, 1, 12, 9, 5, 3], some [2, 1, 12, 6, 5, 3], some [2, 1, 12, 6, 5, 3], some [2, 1, 12, 6, 5, 3]] := by
  decide +kernel

/-- The last and the first index that is too large; a completed command with a byte below `OUT_LEN`. -/
theorem test_hyp_HostBufferAccess :
    imageP5.handsOff = false ∧ readingP2.handsOff = true ∧ 63 < imageP5.params.ibufCap ∧ imageP5.params.ibufCap ≤ 64 ∧
    (let s := runCommand .compress .rle imageP5;
      s.state = .done ∧ 11 < s.outLen ∧ 11 < s.params.obufCap ∧ Memory.lookup s.obuf 11 = some 0x02#8) := by
  and_intros <;> decide +kernel

/-- R304: after a command word has run its command to the end, an `OBUF` read, a read of `OUT_LEN`, an `IBUF` write and another
command are refused until a `STATUS` read returns `DONE`; then the `OBUF` read is answered. -/
theorem test_hands_off_until_status_read :
    (let s := runCommand .compress .rle imageP5;
      ([.obufRead 11, .regRead 7, .ibufWrite 0 1#8, .regWrite 0 1, .regWrite 3 1].map
        (fun a => (nextOf (step { s with host := [a] })).isSome)) = [false, false, false, false, false] ∧
      (nextOf (step { s with host := [.regWrite 0 0x80] })).map (fun t => t.handsOff) = some false ∧
      ((nextOf (step { s with host := [.regRead 1, .obufRead 11] })).bind (fun t => nextOf (step t))).map
        (fun t => t.rdata) = some 2) := by
  decide +kernel

end Sys2Proof.Tests
end

section
/-! The three small statements of 10_state.md: the reset state, a step at a `CMD` write, a step of a running command. -/

namespace Sys2Proof.Machine

/-! ## The reset state -/

/-- Settles O56: every clause is a fact about the literal reset state. -/
theorem resetMeetsTheInvariant : Obligations.ResetMeetsTheInvariant where
  caps := ⟨by decide, by decide⟩
  ibufWf := reset_ibuf_wf
  obufWf := reset_obuf_wf
  ibufRange := fun _ h => absurd h List.not_mem_nil
  obufRange := fun _ h => absurd h List.not_mem_nil
  causeOfFault := by decide
  resultsOnlyDone := fun _ => ⟨rfl, rfl, rfl, rfl⟩
  doneObuf := fun h => nomatch h
  doneFlushed := fun _ => rfl
  busyHandsOff := fun h => nomatch h
  idleHandsFree := fun _ => rfl
  inLenBits := Nat.two_pow_pos _
  outLenCap := Nat.zero_le _
  inUsedCap := Nat.zero_le _
  pending := by decide
  hufSizes := ⟨List.length_replicate, List.length_replicate, List.length_replicate⟩
  busyTableOrder := fun h => nomatch h
  busyInput := fun h => nomatch h
  busyRead := fun h => nomatch h
  busyWrite := fun h => nomatch h
  busyWritten := fun h => nomatch h
  busyAligned := fun h => nomatch h
  busyTable := fun h => nomatch h
  encInput := fun h => nomatch h
  encCode := fun h => nomatch h
  encFresh := fun h => nomatch h
  encNoTwice := fun h => nomatch h
  encClear := fun h => nomatch h
  encRoom := fun h => nomatch h
  decCode := fun h => nomatch h
  decSize := fun h => nomatch h

/-! ## A step at a `CMD` write -/

/-- The word `SRESET` is the only one decoded as the soft reset (R92). -/
theorem decodeCmd_eq_sreset {v : CmdWord} : decodeCmd v = .sreset ↔ v = 0x80#32 := by
  constructor
  · intro h
    rcases decodeCmd_cases v with ⟨dir, alg, hd⟩ | ⟨hv, _⟩ | ⟨_, hd⟩
    · rw [hd] at h; cases dir <;> cases alg <;> cases h
    · exact hv
    · rw [hd] at h; cases h
  · rintro rfl; rfl

/-- With the host's hands off a `CMD` write is let through for the soft reset alone (R304). -/
theorem handsOffAllows_cmd (v : Nat) :
    handsOffAllows (.regWrite 0 v) = true ↔ decodeCmd (BitVec.ofNat 32 v) = .sreset := by
  simp [handsOffAllows, resetAction, decodeCmd_eq_sreset]

/-- Settles O52: the host's turn lets the write through to `exec`, or R304 refuses it. -/
theorem stepRunsTheCommandWord : Obligations.StepRunsTheCommandWord := by
  intro s v rest hh
  refine ⟨fun hfree => ?_, fun hoff hcmd => ?_⟩
  · exact step_hostEffect hh (hfree.imp_right (handsOffAllows_cmd v).mpr)
  · exact step_handsOff hh hoff (Bool.eq_false_iff.mpr (mt (handsOffAllows_cmd v).mp hcmd))

/-! ## Decoding looks at no more than `maxBits` bits -/

/-- Bits behind those a read takes stay behind. -/
theorem takeBits_append {n v : Nat} {bs rest : List Bool} (tail : List Bool) (h : takeBits n bs = some (v, rest)) :
    takeBits n (bs ++ tail) = some (v, rest ++ tail) := by
  obtain ⟨hv, rfl⟩ := takeBits_some h
  rw [List.append_assoc, takeBits_bitsOf, Nat.mod_eq_of_lt hv]

theorem takeByte_append {b : Byte} {bs rest : List Bool} (tail : List Bool) (h : takeByte bs = some (b, rest)) :
    takeByte (bs ++ tail) = some (b, rest ++ tail) := by
  rw [takeByte_some h, List.append_assoc, takeByte_bitsOf]

theorem takeBytes_append {k : Nat} {bytes : List Byte} {bs rest : List Bool} (tail : List Bool)
    (h : takeBytes k bs = some (bytes, rest)) : takeBytes k (bs ++ tail) = some (bytes, rest ++ tail) := by
  obtain ⟨rfl, rfl⟩ := takeBytes_some h
  rw [List.append_assoc, takeBytes_bytesBits]

/-- A read succeeds where there are enough bits. -/
theorem takeBits_enough {n : Nat} {bs : List Bool} (h : n ≤ bs.length) :
    ∃ v rest, takeBits n bs = some (v, rest) ∧ bs.length = n + rest.length :=
  ⟨_, _, takeBits_of_le h, takeBits_length (takeBits_of_le h)⟩

theorem takeByte_enough {bs : List Bool} (h : 8 ≤ bs.length) :
    ∃ b rest, takeByte bs = some (b, rest) ∧ bs.length = 8 + rest.length := by
  obtain ⟨v, rest, hv, hl⟩ := takeBits_enough h
  exact ⟨_, rest, by rw [takeByte, hv], hl⟩

theorem takeBytes_enough {k : Nat} {bs : List Bool} (h : 8 * k ≤ bs.length) :
    ∃ bytes rest, takeBytes k bs = some (bytes, rest) := by
  induction k generalizing bs with
  | zero => exact ⟨[], bs, rfl⟩
  | succ k ih =>
    obtain ⟨b, r, hb, hl⟩ := takeByte_enough (bs := bs) (by omega)
    obtain ⟨bytes, rest, hr⟩ := ih (bs := r) (by omega)
    exact ⟨b :: bytes, rest, by simp only [takeBytes, hb, hr]⟩

/-- What a decoder answers when `tail` follows the bits it looks at. -/
def behind (tail : List Bool) (r : Except Reject (Instr × List Bool)) : Except Reject (Instr × List Bool) :=
  r.map fun p => (p.1, p.2 ++ tail)

theorem decodeCode_append (entries : List HufEntry) {lens : List Nat} {bs : List Bool} (tail : List Bool)
    (h : ∀ l ∈ lens, l ≤ bs.length) :
    decodeCode entries lens (bs ++ tail) = behind tail (decodeCode entries lens bs) := by
  induction lens with
  | nil => rfl
  | cons l ls ih =>
    obtain ⟨v, rest, hv, _⟩ := takeBits_enough (h l List.mem_cons_self)
    simp only [decodeCode, hv, takeBits_append tail hv]
    split
    · rfl
    · exact ih fun l' hl' => h l' (List.mem_cons_of_mem _ hl')

theorem decodeRle_append {bs : List Bool} (tail : List Bool) (h : 1024 ≤ bs.length) :
    decodeRle (bs ++ tail) = behind tail (decodeRle bs) := by
  obtain ⟨f, bs1, h1, l1⟩ := takeBits_enough (n := 1) (bs := bs) (by omega)
  obtain ⟨count, bs2, h2, l2⟩ := takeBits_enough (n := 7) (bs := bs1) (by omega)
  have hc := (takeBits_some h2).1
  obtain ⟨v, r, hv, _⟩ := takeByte_enough (bs := bs2) (by omega)
  obtain ⟨data, r', hd⟩ := takeBytes_enough (k := count) (bs := bs2) (by omega)
  simp only [decodeRle, h1, h2, hv, hd, takeBits_append tail h1, takeBits_append tail h2, takeByte_append tail hv,
    takeBytes_append tail hd]
  split <;> rfl

/-- With `maxBits` bits in front, what follows them stays behind: the decoder does not look at it. -/
theorem decode_append {ctx : Ctx} {bs : List Bool} (tail : List Bool) (h : ctx.maxBits ≤ bs.length)
    (hl : ∀ lens entries, ctx = .hcw lens entries → ∀ l ∈ lens, l ≤ 16) :
    decode ctx (bs ++ tail) = behind tail (decode ctx bs) := by
  cases ctx with
  | cmd =>
    obtain ⟨v, r, hv, _⟩ := takeBits_enough (n := 32) h
    simp only [decode, hv, takeBits_append tail hv]; rfl
  | hdr =>
    change 32 ≤ bs.length at h
    obtain ⟨v, r, hv, l1⟩ := takeBits_enough (n := 16) (bs := bs) (by omega)
    obtain ⟨v', r', hv', _⟩ := takeBits_enough (n := 16) (bs := r) (by omega)
    simp only [decode, hv, hv', takeBits_append tail hv, takeBits_append tail hv']; rfl
  | raw =>
    obtain ⟨b, r, hb, _⟩ := takeByte_enough (bs := bs) h
    simp only [decode, hb, takeByte_append tail hb]; rfl
  | rle => exact decodeRle_append tail h
  | lzw w =>
    obtain ⟨v, r, hv, _⟩ := takeBits_enough (n := w.bits) h
    simp only [decode, hv, takeBits_append tail hv]; rfl
  | hsz =>
    obtain ⟨b, r, hb, _⟩ := takeByte_enough (bs := bs) h
    simp only [decode, hb, takeByte_append tail hb]; rfl
  | hen =>
    change 32 ≤ bs.length at h
    obtain ⟨b, r, hb, l1⟩ := takeByte_enough (bs := bs) (by omega)
    obtain ⟨b', r', hb', l2⟩ := takeByte_enough (bs := r) (by omega)
    obtain ⟨v, r'', hv, _⟩ := takeBits_enough (n := 16) (bs := r') (by omega)
    simp only [decode, hb, hb', hv, takeByte_append tail hb, takeByte_append tail hb', takeBits_append tail hv]; rfl
  | hcw lens entries => exact decodeCode_append entries tail fun l hm => (hl lens entries rfl l hm).trans h
  | pad n =>
    obtain ⟨v, r, hv, _⟩ := takeBits_enough (n := n.toNat) h
    simp only [decode, hv, takeBits_append tail hv]; rfl

/-! ## A step of a running command -/

@[simp] theorem length_bitsFrom (s : State) (q k : Nat) : (s.bitsFrom q k).length = k := by
  induction k generalizing q with
  | zero => rfl
  | succ k ih => simp [State.bitsFrom, ih]

theorem bitsFrom_add (s : State) (q j k : Nat) : s.bitsFrom q (j + k) = s.bitsFrom q j ++ s.bitsFrom (q + j) k := by
  induction j generalizing q with
  | zero => simp [State.bitsFrom]
  | succ j ih => rw [Nat.succ_add, State.bitsFrom, ih, State.bitsFrom, Nat.add_right_comm q 1 j]; rfl

/-- The reader's window is the front of the rest of the stream; when something is left out it is `n` bits long. -/
theorem window_append_rest (s : State) (n : Nat) : ∃ tail,
    s.bitsFrom s.rpos (8 * s.inLen - s.rpos) = s.window n ++ tail ∧ (n ≤ (s.window n).length ∨ tail = []) := by
  set left := 8 * s.inLen - s.rpos with hleft
  refine ⟨s.bitsFrom (s.rpos + min n left) (left - min n left), ?_, ?_⟩
  · rw [State.window, ← bitsFrom_add, Nat.add_sub_cancel' (Nat.min_le_right n left)]
  · by_cases h : n ≤ left
    · left; rw [State.window, length_bitsFrom, ← hleft, Nat.min_eq_left h]
    · right; rw [Nat.min_eq_right (by omega), Nat.sub_self, State.bitsFrom]

/-- The record at `RPOS` decoded from the rest of the stream is the one decoded from the window (R33, R104). -/
theorem decode_rest_of_stream (s : State) (hl : ∀ l ∈ s.lens, l ≤ 16) : ∃ tail,
    s.bitsFrom s.rpos (8 * s.inLen - s.rpos) = s.window s.ctx.maxBits ++ tail ∧
      decode s.ctx (s.bitsFrom s.rpos (8 * s.inLen - s.rpos)) = behind tail (decode s.ctx (s.window s.ctx.maxBits)) := by
  obtain ⟨tail, htail, hlong | rfl⟩ := window_append_rest s s.ctx.maxBits
  · refine ⟨tail, htail, ?_⟩
    rw [htail]
    refine decode_append tail hlong fun lens entries hc => ?_
    unfold State.ctx at hc
    split at hc <;> cases hc
    exact hl
  · refine ⟨[], htail, ?_⟩
    rw [htail, List.append_nil]
    cases decode s.ctx (s.window s.ctx.maxBits) <;> simp [behind, Except.map]

/-- With no host action pending a step of a BUSY engine is its turn. -/
theorem step_busy {s : State} (hh : s.host = []) (hb : s.state = .busy) : step s = engineStep s := by
  simp only [step, hh, engineOrQuiet, hb]

/-! The four cases of the scan for the next phrase (R194). -/

theorem lzwScanLoop_end (fuel : Nat) {s : State} (hi : ¬s.idx < s.total) : lzwScanLoop (fuel + 1) s = s := by
  simp only [lzwScanLoop, if_neg hi]

theorem lzwScanLoop_first (fuel : Nat) {s : State} (hi : s.idx < s.total) (hc : s.cur = none) :
    lzwScanLoop (fuel + 1) s = lzwScanLoop fuel { s with cur := some (s.ibufByte s.idx).toNat, idx := s.idx + 1 } := by
  simp only [lzwScanLoop, if_pos hi, hc]

theorem lzwScanLoop_found (fuel : Nat) {s : State} {p k : Nat} (hi : s.idx < s.total) (hc : s.cur = some p)
    (hf : s.lzwFind p (s.ibufByte s.idx) = some k) :
    lzwScanLoop (fuel + 1) s = lzwScanLoop fuel { s with cur := some k, idx := s.idx + 1 } := by
  simp only [lzwScanLoop, if_pos hi, hc, hf]

theorem lzwScanLoop_stop (fuel : Nat) {s : State} {p : Nat} (hi : s.idx < s.total) (hc : s.cur = some p)
    (hf : s.lzwFind p (s.ibufByte s.idx) = none) : lzwScanLoop (fuel + 1) s = s := by
  simp only [lzwScanLoop, if_pos hi, hc, hf]

/-- The scan for the next phrase moves `CUR` and the loop index only (R194). -/
theorem lzwScanLoop_eq (fuel : Nat) (s : State) :
    lzwScanLoop fuel s = { s with cur := (lzwScanLoop fuel s).cur, idx := (lzwScanLoop fuel s).idx } := by
  induction fuel generalizing s with
  | zero => rfl
  | succ fuel ih =>
    by_cases hi : s.idx < s.total
    · cases hc : s.cur with
      | none => rw [lzwScanLoop_first fuel hi hc]; exact ih _
      | some p =>
        cases hf : s.lzwFind p (s.ibufByte s.idx) with
        | none => rw [lzwScanLoop_stop fuel hi hc hf]
        | some k => rw [lzwScanLoop_found fuel hi hc hf]; exact ih _
    · rw [lzwScanLoop_end fuel hi]

theorem lzwScan_eq (s : State) : lzwScan s = { s with cur := (lzwScan s).cur, idx := (lzwScan s).idx } :=
  lzwScanLoop_eq _ s

/-! The two cases of the run finder (R173). -/

theorem rleScan_repeat {s : State} (hr : 1 < sameRun s.channelByte s.n s.rleI) :
    rleScan s = { s with rleS := sameRun s.channelByte s.n s.rleI } := if_pos hr

theorem rleScan_literal {s : State} (hr : ¬1 < sameRun s.channelByte s.n s.rleI) :
    rleScan s = { s with rleS := sameRun s.channelByte s.n s.rleI,
                         rleL := max 1 (litRun s.channelByte s.n s.rleI) } := if_neg hr

/-- The run finder moves `S` and `L` only (R173). -/
theorem rleScan_eq (s : State) : rleScan s = { s with rleS := (rleScan s).rleS, rleL := (rleScan s).rleL } := by
  by_cases hr : 1 < sameRun s.channelByte s.n s.rleI
  · rw [rleScan_repeat hr]
  · rw [rleScan_literal hr]

/-- The scan of a COMPRESS moves its own cursors only (R173, R194). -/
theorem encScan_eq (s : State) : encScan s =
    { s with rleS := (encScan s).rleS, rleL := (encScan s).rleL, cur := (encScan s).cur, idx := (encScan s).idx } := by
  unfold encScan
  split <;> try rfl
  · rw [rleScan_eq s]
  · rw [lzwScan_eq s]

theorem fetchRecord_restore {s : State} (hd : s.dir = .restore) : fetchRecord s = readRecord s := by
  simp only [fetchRecord, hd]

theorem fetchRecord_compress {s : State} (hd : s.dir = .compress) :
    fetchRecord s = .record (encScan s).encNext (encScan s) := by
  simp only [fetchRecord, hd]

/-- The turn of a RESTORE: the record the decoder finds in the rest of the stream, or the fault of its absence. -/
theorem engineStep_restore (s : State) (hd : s.dir = .restore) (hl : ∀ l ∈ s.lens, l ≤ 16) :
    match decode s.ctx (s.bitsFrom s.rpos (8 * s.inLen - s.rpos)) with
    | .ok (i, rest) => engineStep s = exec i { s with rpos := s.rpos + ((8 * s.inLen - s.rpos) - rest.length) }
    | .error r => engineStep s = .next (faultEntry (s.rejectCause r) s) := by
  obtain ⟨tail, htail, hdec⟩ := decode_rest_of_stream s hl
  have hlen := congrArg List.length htail
  rw [List.length_append, length_bitsFrom] at hlen
  rw [hdec]
  unfold engineStep
  rw [fetchRecord_restore hd, readRecord]
  cases decode s.ctx (s.window s.ctx.maxBits) with
  | error r => rfl
  | ok p =>
    have hskip : (s.window s.ctx.maxBits).length - p.2.length = (8 * s.inLen - s.rpos) - (p.2 ++ tail).length := by
      rw [List.length_append]; omega
    dsimp only [behind, Except.map]
    rw [hskip]; rfl

/-- The turn of a COMPRESS: the record chosen after the scan. -/
theorem engineStep_compress (s : State) (hd : s.dir = .compress) :
    engineStep s = exec (encScan s).encNext (encScan s) := by
  rw [engineStep, fetchRecord_compress hd]

/-- Settles O53: the step is the engine's turn, and the decoder's window never cuts a record off. -/
theorem stepRunsTheRecord : Obligations.StepRunsTheRecord := by
  intro s hh hb
  rw [step_busy hh hb]
  exact ⟨engineStep_restore s, fun hd => ⟨engineStep_compress s hd, encScan_eq s⟩⟩

end Sys2Proof.Machine
end

section
/-! Every command ends within its bound of turns (R310). A record's meaning as a run of pseudocode, one induction
principle over the records, and a count of turns that each turn of a BUSY engine makes smaller. -/

namespace Sys2Proof.Machine

/-! ## A record's meaning as a run -/

/-- The run of pseudocode behind a record's meaning; a command word is no record. -/
def recordRun : Instr → State → Res
  | .hdr width height => hdrRecord width height
  | .raw b => rawRecord b
  | .rleRep count v => rleRepRecord count v
  | .rleLit data => rleLitRecord data
  | .lzwLit12 v => lzwOrdinary .w12 v.toNat
  | .lzwClear12 => lzwClear .w12
  | .lzwEnd12 => lzwEnd .w12
  | .lzwPhrase12 c => lzwOrdinary .w12 c.toNat
  | .lzwLit16 v => lzwOrdinary .w16 v.toNat
  | .lzwClear16 => lzwClear .w16
  | .lzwEnd16 => lzwEnd .w16
  | .lzwPhrase16 c => lzwOrdinary .w16 c.toNat
  | .lzwLit20 v => lzwOrdinary .w20 v.toNat
  | .lzwClear20 => lzwClear .w20
  | .lzwEnd20 => lzwEnd .w20
  | .lzwPhrase20 c => lzwOrdinary .w20 c.toNat
  | .hsz n => hszRecord n
  | .hen sym len code => henRecord sym len code
  | .hcw len code => hcwRecord len code
  | .pad n => padRecord n
  | .cnoop | .crle | .clzw | .chuf | .rnoop | .rrle | .rlzw | .rhuf | .sreset | .cmdIllegal _ => .ok

theorem recordEffect_eq_settle (i : Instr) (s : State) : recordEffect i s = (recordRun i s).settle := by
  cases i <;> rfl

/-- What holds of the eleven kinds of record runs holds of every record's. -/
theorem recordRun_induct {P : (State → Res) → Prop} (hdr : ∀ width height, P (hdrRecord width height))
    (raw : ∀ b, P (rawRecord b)) (rep : ∀ count v, P (rleRepRecord count v)) (lit : ∀ data, P (rleLitRecord data))
    (ordinary : ∀ w c, P (lzwOrdinary w c)) (clear : ∀ w, P (lzwClear w)) (fin : ∀ w, P (lzwEnd w))
    (hsz : ∀ n, P (hszRecord n)) (hen : ∀ sym len code, P (henRecord sym len code))
    (hcw : ∀ len code, P (hcwRecord len code)) (pad : ∀ n, P (padRecord n)) {i : Instr} (hi : i.isRecord = true) :
    P (recordRun i) := by
  cases i with
  | hdr width height => exact hdr width height
  | raw b => exact raw b
  | rleRep count v => exact rep count v
  | rleLit data => exact lit data
  | lzwLit12 _ | lzwPhrase12 _ | lzwLit16 _ | lzwPhrase16 _ | lzwLit20 _ | lzwPhrase20 _ => exact ordinary _ _
  | lzwClear12 | lzwClear16 | lzwClear20 => exact clear _
  | lzwEnd12 | lzwEnd16 | lzwEnd20 => exact fin _
  | hsz n => exact hsz n
  | hen sym len code => exact hen sym len code
  | hcw len code => exact hcw len code
  | pad n => exact pad n
  | cnoop | crle | clzw | chuf | rnoop | rrle | rlzw | rhuf | sreset | cmdIllegal _ => cases hi

theorem recordRun_lzwClear (w : LzwWidth) : recordRun (lzwInstr w 256) = lzwClear w := by cases w <;> rfl

theorem recordRun_lzwEnd (w : LzwWidth) : recordRun (lzwInstr w 257) = lzwEnd w := by cases w <;> rfl

/-- A code other than CLEAR and END is an ordinary one, cut to the width it is written in. -/
theorem recordRun_lzwOrdinary (w : LzwWidth) {c : Nat} (h1 : c ≠ 256) (h2 : c ≠ 257) :
    ∃ c', recordRun (lzwInstr w c) = lzwOrdinary w c' := by
  by_cases hc : c < 256 <;> cases w <;> simp only [lzwInstr, hc, h1, h2, if_true, if_false] <;> exact ⟨_, rfl⟩

/-- The turn is the run of the record fetched. -/
theorem engineTurn_record {s s1 : State} {i : Instr} (h : fetchRecord s = .record i s1) :
    engineTurn s = (recordRun i s1).settle := by
  rw [engineTurn, h]; exact recordEffect_eq_settle i s1

theorem engineTurn_raised {s s1 : State} {c : Cause} (h : fetchRecord s = .raised c s1) :
    engineTurn s = faultEntry c s1 := by
  rw [engineTurn, h]

/-! ## What a run that goes on ends in -/

/-- Where the run goes on, it is in a state with `P`. -/
def Res.Lands (r : Res) (P : State → Prop) : Prop := ∀ t, r = .ok t → P t

theorem lands_ok {P : State → Prop} {s : State} (h : P s) : (Res.ok s).Lands P := by
  rintro _ ⟨⟩; exact h

theorem lands_raised {P : State → Prop} (c : Cause) (s : State) : (Res.raised c s).Lands P := by
  rintro _ ⟨⟩

theorem lands_ite {P : State → Prop} {p : Prop} [Decidable p] {r r' : Res} (h : p → r.Lands P)
    (h' : ¬p → r'.Lands P) : (if p then r else r').Lands P := by
  split
  · next hp => exact h hp
  · next hp => exact h' hp

/-- The run touches `OBUF` and the writer only, where it goes on. -/
def Res.Writes (s : State) (r : Res) : Prop :=
  r.Lands fun t => ∃ m p cnt acc, t = { s with obuf := m, wpos := p, wcnt := cnt, wacc := acc }

theorem putBytes_writes (bs : List Byte) (s : State) : (putBytes bs s).Writes s := by
  intro t ht
  rcases putBytes_cases bs s with ⟨_, h⟩ | ⟨_, _, h⟩ <;> rw [h] at ht <;> cases ht
  exact ⟨_, _, s.wcnt, s.wacc, rfl⟩

theorem putByte_writes (b : Byte) (s : State) : (putByte b s).Writes s :=
  lands_ite (fun _ => lands_raised _ _) fun _ => lands_ok ⟨_, _, s.wcnt, s.wacc, rfl⟩

theorem putBits_writes (v n : Nat) (s : State) : (putBits v n s).Writes s := by
  intro t ht
  rcases putBitList_cases (bitsOf n v) s with ⟨_, _, _, _, h⟩ | ⟨_, _, h⟩ <;> rw [putBits, h] at ht <;> cases ht
  exact ⟨_, _, _, _, rfl⟩

theorem emitString_writes (bytes : List Byte) (s : State) : (emitString bytes s).Writes s :=
  lands_ite (fun _ => lands_raised _ _) fun _ => putBytes_writes bytes s

/-- After the writer has run, the rest of the run decides. -/
theorem lands_bind {P : State → Prop} {s : State} {r : Res} {f : State → Res} (hr : r.Writes s)
    (hf : ∀ m p cnt acc, (f { s with obuf := m, wpos := p, wcnt := cnt, wacc := acc }).Lands P) :
    (r.bind f).Lands P := by
  intro t ht
  obtain ⟨s1, h1, h2⟩ := bind_eq_ok.mp ht
  obtain ⟨m, p, cnt, acc, rfl⟩ := hr s1 h1
  exact hf m p cnt acc t h2

/-! ## What a running command keeps, and how many turns it has left -/

/-- The encoder's phases of LZW. -/
def EncPhase.isLzw : EncPhase → Bool
  | .lzwClear | .lzwCodes | .lzwEnd => true
  | .header | .raw | .rle | .hufSize | .hufTable | .hufCodes | .pad => false

/-- What every turn of a running command keeps and its progress rests on: `CUR` is no control code, the code table has an
entry per byte value, no Huffman code is empty, and LZW's phases belong to the LZW codec. -/
structure State.Going (s : State) : Prop where
  cur : ∀ c, s.cur = some c → c ≠ 256 ∧ c ≠ 257
  hlen : s.hlen.length = 256
  dtab : ∀ e ∈ s.dtab, 1 ≤ e.len
  lens : ∀ l ∈ s.lens, 1 ≤ l
  encLzw : s.enc.isLzw = true → s.alg = .lzw
  decLzw : s.dec = .lzw → s.alg = .lzw

/-- A bound on the turns left: for a RESTORE the bits left, for a COMPRESS the records left (R310; log 20). -/
def State.turnsLeft (s : State) : Nat :=
  match s.dir with
  | .restore => 8 * s.inLen - s.rpos
  | .compress =>
    match s.enc with
    | .header => 2 * s.total + 270
    | .raw => s.total - s.idx + 1
    | .rle => (2 - s.rleCh) * (s.n + 1) + (s.n - s.rleI) + 1
    | .lzwClear => 2 * (s.total - s.idx) + 4
    | .lzwCodes => 2 * (s.total - s.idx) + 3
    | .lzwEnd => 2
    | .hufSize => s.total + 260
    | .hufTable => s.total + (256 - s.idx) + 3
    | .hufCodes => s.total - s.idx + 2
    | .pad => 1

theorem turnsLeft_restore {s : State} (h : s.dir = .restore) : s.turnsLeft = 8 * s.inLen - s.rpos := by
  simp only [State.turnsLeft, h]

/-- If the command still runs in `t`, it can go on there with fewer than `k` turns left. -/
def State.Advanced (k : Nat) (t : State) : Prop := t.state = .busy → t.Going ∧ t.turnsLeft < k

theorem advanced_complete (k used : Nat) (s : State) : State.Advanced k (complete used s) := nofun

theorem advanced_settle {k : Nat} {r : Res} (h : r.Lands (State.Advanced k)) : State.Advanced k r.settle := by
  cases r with
  | ok s => exact h s rfl
  | raised c s => exact nofun

/-! ## Records of a RESTORE -/

section Restore

variable {s : State} (hd : s.dir = .restore)
include hd

/-- A record of a RESTORE leaves the reader where the fetch has moved it. -/
theorem advanced_restore {t : State} (hg : t.Going) (ht : t.dir = s.dir) (hp : t.rpos = s.rpos)
    (hl : t.inLen = s.inLen) : State.Advanced (s.turnsLeft + 1) t := by
  intro _
  rw [turnsLeft_restore hd, turnsLeft_restore (ht.trans hd), hp, hl]
  exact ⟨hg, Nat.lt_succ_self _⟩

variable (hg : s.Going)
include hg

theorem beginDecode_advances : (beginDecode s).Lands (State.Advanced (s.turnsLeft + 1)) := by
  unfold beginDecode
  split
  · refine lands_ite (fun _ => lands_raised _ _) fun _ => lands_ok (advanced_restore hd ?_ rfl rfl rfl)
    exact { hg with decLzw := nofun }
  · exact lands_ok (advanced_restore hd { hg with decLzw := nofun } rfl rfl rfl)
  · next ha => exact lands_ok (advanced_restore hd { hg with decLzw := fun _ => ha } rfl rfl rfl)
  · exact lands_ok (advanced_restore hd { hg with decLzw := nofun } rfl rfl rfl)

theorem readHeader_advances (width height : Half) :
    (readHeader width height s).Lands (State.Advanced (s.turnsLeft + 1)) := by
  refine lands_ite (fun _ => lands_raised _ _) fun _ => lands_ite (fun _ => lands_raised _ _) fun _ => ?_
  have h := beginDecode_advances (s := { s with width := width, height := height }) hd { hg with }
  rwa [turnsLeft_restore hd, ← turnsLeft_restore (s := { s with width := width, height := height }) hd]

theorem readRaw_advances (b : Byte) : (readRaw b s).Lands (State.Advanced (s.turnsLeft + 1)) := by
  refine lands_bind (putByte_writes b s) fun m p cnt acc => lands_ite (fun _ => lands_ok ?_) fun _ => lands_ok ?_
  · exact advanced_restore hd { hg with } rfl rfl rfl
  · exact advanced_complete _ _ _

theorem rleCount_advanced (k : Nat) : State.Advanced (s.turnsLeft + 1) (rleCount k s) := by
  unfold rleCount
  split
  · exact advanced_restore hd { hg with } rfl rfl rfl
  · split
    · exact advanced_restore hd { hg with } rfl rfl rfl
    · exact advanced_complete _ _ _

theorem rleProduce_advances (control : Byte) (bytes : List Byte) :
    (rleProduce control bytes s).Lands (State.Advanced (s.turnsLeft + 1)) := by
  refine lands_ite (fun _ => lands_raised _ _) fun _ =>
    lands_bind (putBytes_writes _ _) fun m p cnt acc => lands_ok ?_
  have h := rleCount_advanced (s := { s with rleC := control, rleK := control.toNat % 128, obuf := m, wpos := p,
                                             wcnt := cnt, wacc := acc }) hd { hg with } (control.toNat % 128)
  rw [turnsLeft_restore hd]
  rwa [turnsLeft_restore (by exact hd)] at h

theorem decodeRep_advances (count : BitVec 7) (v : Byte) :
    (decodeRep count v s).Lands (State.Advanced (s.turnsLeft + 1)) := by
  have h := rleProduce_advances (s := { s with rleV := v }) hd { hg with } (repControl count.toNat)
    (List.replicate count.toNat v)
  rw [turnsLeft_restore hd]
  rwa [turnsLeft_restore (by exact hd)] at h

theorem learnAndEmit_advances (w : LzwWidth) (c p : Nat) (fb : Byte) (bytes : List Byte) :
    (learnAndEmit w c p fb bytes s).Lands (State.Advanced (s.turnsLeft + 1)) :=
  lands_ite (fun _ => lands_raised _ _) fun _ => lands_bind (emitString_writes _ _) fun _ _ _ _ =>
    lands_ok (advanced_restore hd { hg with } rfl rfl rfl)

theorem readOrdinary_advances (w : LzwWidth) (c : Nat) :
    (readOrdinary w c s).Lands (State.Advanced (s.turnsLeft + 1)) := by
  refine lands_ite (fun _ => lands_raised _ _) fun _ => ?_
  split
  · exact lands_ite (fun _ => lands_raised _ _) fun _ => lands_bind (emitString_writes _ _) fun _ _ _ _ =>
      lands_ok (advanced_restore hd { hg with } rfl rfl rfl)
  · exact lands_ite (fun _ => learnAndEmit_advances hd hg w c _ _ _) fun _ =>
      lands_ite (fun _ => learnAndEmit_advances hd hg w c _ _ _) fun _ => lands_raised _ _

theorem readClear_advances : (readClear s).Lands (State.Advanced (s.turnsLeft + 1)) :=
  lands_ok (advanced_restore hd { hg with } rfl rfl rfl)

omit hd hg in
theorem readEnd_advances : (readEnd s).Lands (State.Advanced (s.turnsLeft + 1)) :=
  lands_ite (fun _ => lands_raised _ _) fun _ => lands_ite (fun _ => lands_raised _ _) fun _ =>
    lands_ok (advanced_complete _ _ _)

theorem readHsz_advances (n : Byte) : (readHsz n s).Lands (State.Advanced (s.turnsLeft + 1)) :=
  lands_ok (advanced_restore hd { hg with dtab := nofun, decLzw := nofun } rfl rfl rfl)

omit hd hg in
theorem mem_lensOf {entries : List HufEntry} {l : Nat} (h : l ∈ lensOf entries) : ∃ e ∈ entries, e.len = l := by
  simpa using (List.mem_filter.mp h).2

/-- An entry that passes the tests of R236 has a code of at least one bit. -/
theorem readHen_advances (sym len : Byte) (code : Half) :
    (readHen sym len code s).Lands (State.Advanced (s.turnsLeft + 1)) := by
  refine lands_ite (fun _ => lands_raised _ _) fun hlen => lands_ite (fun _ => lands_raised _ _) fun _ =>
    lands_ite (fun _ => lands_raised _ _) fun _ => ?_
  have htab : ∀ e ∈ s.dtab ++ [{ sym := sym, len := len.toNat, code := code.toNat }], 1 ≤ e.len := by
    intro e he
    rcases List.mem_append.mp he with he | he
    · exact hg.dtab e he
    · rw [List.mem_singleton.mp he]; change 1 ≤ len.toNat; omega
  refine lands_ite (fun _ => lands_ok ?_) fun _ => lands_ok ?_
  · exact advanced_restore hd { hg with dtab := htab } rfl rfl rfl
  · refine advanced_restore hd { hg with dtab := htab, lens := fun l hl => ?_, decLzw := nofun } rfl rfl rfl
    obtain ⟨e, he, rfl⟩ := mem_lensOf hl
    exact htab e he

theorem readHcw_advances (len : BitVec 5) (code : Half) :
    (readHcw len code s).Lands (State.Advanced (s.turnsLeft + 1)) := by
  unfold readHcw
  split
  · exact lands_raised _ _
  · refine lands_bind (putByte_writes _ _) fun _ _ _ _ => lands_ite (fun _ => lands_ok ?_) fun _ => lands_ok ?_
    · exact advanced_restore hd { hg with } rfl rfl rfl
    · exact advanced_complete _ _ _

/-- Every record of a RESTORE. -/
theorem restoreRecord_advances {i : Instr} (hi : i.isRecord = true) :
    (recordRun i s).Lands (State.Advanced (s.turnsLeft + 1)) := by
  refine recordRun_induct (P := fun f => (f s).Lands (State.Advanced (s.turnsLeft + 1)))
    ?_ ?_ ?_ ?_ ?_ ?_ ?_ ?_ ?_ ?_ ?_ hi
  · intro width height; rw [hdrRecord, hd]; exact readHeader_advances hd hg width height
  · intro b; rw [rawRecord, hd]; exact readRaw_advances hd hg b
  · intro count v; rw [rleRepRecord, hd]; exact decodeRep_advances hd hg count v
  · intro data; rw [rleLitRecord, hd]; exact rleProduce_advances hd hg _ data
  · intro w c; rw [lzwOrdinary, hd]; exact readOrdinary_advances hd hg w c
  · intro w; rw [lzwClear, hd]; exact readClear_advances hd hg
  · intro w; rw [lzwEnd, hd]; exact readEnd_advances
  · intro n; rw [hszRecord, hd]; exact readHsz_advances hd hg n
  · intro sym len code; rw [henRecord, hd]; exact readHen_advances hd hg sym len code
  · intro len code; rw [hcwRecord, hd]; exact readHcw_advances hd hg len code
  · intro n; rw [padRecord, hd]; exact lands_ok (advanced_restore hd hg rfl rfl rfl)

end Restore


/-! ## The tree builder (R221 to R228) -/

/-- Code assignment keeps the length of the table of code lengths. -/
theorem hufAssign_length {nodes : List HufNode} {fuel j v d : Nat} {t t' : List Nat × List Half}
    (h : hufAssign nodes fuel j v d t = .ok t') : t'.1.length = t.1.length := by
  induction fuel generalizing j v d t t' with
  | zero => cases h
  | succ fuel ih =>
    simp only [hufAssign] at h
    split at h
    · cases h
    · split at h
      · cases h
      · cases h; exact List.length_set
    · split at h
      · cases h
      · next h1 => exact (ih h).trans (ih h1)

/-- The frequencies after the pass over the input (R221). -/
def State.inputFreq (s : State) : List Nat := freqCount s.freq (s.ibufBytes 0 s.total)

/-- One distinct byte value (R225). -/
theorem hufBuild_single {s : State} {f : Nat} {sym : Byte} (h : hufLeaves 0 s.inputFreq = [.leaf f sym]) :
    hufBuild s = .ok { s with freq := s.inputFreq, nodes := [.leaf f sym], queue := [0],
                              hlen := s.hlen.set sym.toNat 1, hcode := s.hcode.set sym.toNat 0 } := by
  unfold State.inputFreq at h
  simp only [hufBuild, h]; rfl

/-- The tree of the merge loop, when there is not just one byte value (R223, R226). -/
def hufTree (s : State) : Res :=
  let leaves := hufLeaves 0 s.inputFreq
  let merged := hufMerge leaves.length leaves (List.range leaves.length)
  let s1 := { s with freq := s.inputFreq, nodes := merged.1, queue := merged.2 }
  match merged.2 with
  | [root] =>
    match hufAssign merged.1 merged.1.length root 0 0 (s.hlen, s.hcode) with
    | .ok t => .ok { s1 with hlen := t.1, hcode := t.2 }
    | .error c => .raised c s1
  | _ => .raised .malformedTree s1

theorem hufBuild_tree {s : State} (h : ∀ f sym, hufLeaves 0 s.inputFreq ≠ [.leaf f sym]) : hufBuild s = hufTree s := by
  unfold hufBuild
  dsimp only
  split
  · next f sym hl => exact absurd hl (h f sym)
  · rfl

/-- Where the tree can be built only the Huffman tables have changed, and `HLEN` still has an entry per byte value. -/
theorem hufBuild_lands (s : State) : (hufBuild s).Lands fun t => ∃ freq nodes queue hlen hcode,
    t = { s with freq := freq, nodes := nodes, queue := queue, hlen := hlen, hcode := hcode } ∧
      hlen.length = s.hlen.length := by
  by_cases h : ∃ f sym, hufLeaves 0 s.inputFreq = [.leaf f sym]
  · obtain ⟨f, sym, h⟩ := h
    rw [hufBuild_single h]
    exact lands_ok ⟨_, _, _, _, _, rfl, List.length_set⟩
  · rw [hufBuild_tree fun f sym hl => h ⟨f, sym, hl⟩]
    unfold hufTree
    dsimp only
    split
    · split
      · next t ht => exact lands_ok ⟨_, _, _, _, _, rfl, hufAssign_length ht⟩
      · exact lands_raised _ _
    · exact lands_raised _ _

/-! ## Records of a COMPRESS -/

/-- A byte is no control code. -/
theorem byte_ne_control (b : Byte) : b.toNat ≠ 256 ∧ b.toNat ≠ 257 := by
  have := b.isLt; omega

section Compress

variable {s : State} (hd : s.dir = .compress) (hg : s.Going)
include hd hg

theorem beginEncode_advances (he : s.enc = .header) : (beginEncode s).Lands (State.Advanced s.turnsLeft) := by
  have hk : s.turnsLeft = 2 * s.total + 270 := by simp only [State.turnsLeft, hd, he]
  rw [hk]
  unfold beginEncode
  split
  · refine lands_ok fun _ => ⟨{ hg with encLzw := nofun }, ?_⟩
    simp only [State.turnsLeft, hd, State.total, State.n]; omega
  · refine lands_ok fun _ => ⟨{ hg with encLzw := nofun }, ?_⟩
    simp only [State.turnsLeft, hd, State.total, State.n]; omega
  · next ha =>
    refine lands_ok fun _ => ⟨{ hg with encLzw := fun _ => ha }, ?_⟩
    simp only [State.turnsLeft, hd, State.total, State.n]; omega
  · intro t ht
    obtain ⟨s1, h1, h2⟩ := bind_eq_ok.mp ht
    obtain ⟨freq, nodes, queue, hlen, hcode, rfl, hl⟩ := hufBuild_lands s s1 h1
    cases h2
    refine fun _ => ⟨{ hg with hlen := hl.trans hg.hlen, encLzw := nofun }, ?_⟩
    simp only [State.turnsLeft, hd, State.total, State.n]; omega

theorem emitHeader_advances (width height : Half) (he : s.enc = .header) :
    (emitHeader width height s).Lands (State.Advanced s.turnsLeft) := by
  refine lands_bind (putBytes_writes _ s) fun m p cnt acc => ?_
  exact beginEncode_advances (s := { s with obuf := m, wpos := p, wcnt := cnt, wacc := acc }) hd { hg with } he

theorem emitRaw_advances (b : Byte) (he : s.enc = .raw) : (emitRaw b s).Lands (State.Advanced s.turnsLeft) := by
  refine lands_bind (putByte_writes b s) fun m p cnt acc => lands_ite (fun h => lands_ok ?_) fun _ => lands_ok ?_
  · refine fun _ => ⟨{ hg with }, ?_⟩
    simp only [State.turnsLeft, hd, he, State.total, State.n] at h ⊢; omega
  · exact advanced_complete _ _ _

theorem rleAdvance_advanced {k : Nat} (hk : 1 ≤ k) (he : s.enc = .rle) : State.Advanced s.turnsLeft (rleAdvance k s) := by
  unfold rleAdvance
  split
  · next h =>
    refine fun _ => ⟨{ hg with }, ?_⟩
    simp only [State.turnsLeft, hd, he, State.n] at h ⊢; omega
  · split
    · next hch =>
      refine fun _ => ⟨{ hg with }, ?_⟩
      have hc : 2 - s.rleCh = 2 - (s.rleCh + 1) + 1 := by omega
      simp only [State.turnsLeft, hd, he, State.n, hc, Nat.succ_mul]; omega
    · exact advanced_complete _ _ _

theorem emitRep_advances {count : BitVec 7} (v : Byte) (hk : 1 ≤ count.toNat) (he : s.enc = .rle) :
    (emitRep count v s).Lands (State.Advanced s.turnsLeft) := by
  refine lands_bind (putBytes_writes _ s) fun m p cnt acc => lands_ok ?_
  exact rleAdvance_advanced (s := { s with obuf := m, wpos := p, wcnt := cnt, wacc := acc }) hd { hg with } hk he

theorem emitLit_advances {data : List Byte} (hk : 1 ≤ data.length) (he : s.enc = .rle) :
    (emitLit data s).Lands (State.Advanced s.turnsLeft) := by
  refine lands_bind (putBytes_writes _ s) fun m p cnt acc => lands_ok ?_
  exact rleAdvance_advanced (s := { s with obuf := m, wpos := p, wcnt := cnt, wacc := acc }) hd { hg with } hk he

theorem emitClear_advances (w : LzwWidth) (he : s.enc = .lzwClear) :
    (emitClear w s).Lands (State.Advanced s.turnsLeft) := by
  have ha : s.alg = .lzw := hg.encLzw (by rw [he]; rfl)
  refine lands_bind (putBits_writes _ _ _) fun m p cnt acc => lands_ok fun _ => ⟨{ hg with encLzw := fun _ => ha }, ?_⟩
  simp only [State.turnsLeft, hd, he, State.total, State.n]; omega

omit hd hg in
/-- Before the next code, CLEAR or not. -/
theorem turnsLeft_code_le {t : State} (ht : t.dir = .compress) (he : t.enc = .lzwClear ∨ t.enc = .lzwCodes) :
    t.turnsLeft ≤ 2 * (t.total - t.idx) + 4 := by
  rcases he with he | he <;> simp only [State.turnsLeft, ht, he] <;> omega

theorem emitOrdinary_advances (w : LzwWidth) (c : Nat) (he : s.enc = .lzwCodes) :
    (emitOrdinary w c s).Lands (State.Advanced s.turnsLeft) := by
  have ha : s.alg = .lzw := hg.encLzw (by rw [he]; rfl)
  refine lands_bind (putBits_writes _ _ _) fun m p cnt acc => lands_ite (fun h => lands_ok ?_) fun _ => lands_ok ?_
  · refine fun _ => ⟨{ hg with cur := ?_, encLzw := fun _ => ha }, ?_⟩
    · rintro _ ⟨⟩; exact byte_ne_control _
    · have h : s.idx < s.total := h
      refine Nat.lt_of_le_of_lt (turnsLeft_code_le hd (ite_eq_or_eq _ _ _)) ?_
      change 2 * (s.total - (s.idx + 1)) + 4 < s.turnsLeft
      simp only [State.turnsLeft, hd, he]; omega
  · refine fun _ => ⟨{ hg with encLzw := fun _ => ha }, ?_⟩
    simp only [State.turnsLeft, hd, he]; omega

theorem emitEnd_advances (w : LzwWidth) (he : s.enc = .lzwEnd) : (emitEnd w s).Lands (State.Advanced s.turnsLeft) := by
  refine lands_bind (putBits_writes _ _ _) fun m p cnt acc => lands_ok fun _ => ⟨{ hg with encLzw := nofun }, ?_⟩
  simp only [State.turnsLeft, hd, he]; omega

theorem emitHsz_advances (n : Byte) (he : s.enc = .hufSize) : (emitHsz n s).Lands (State.Advanced s.turnsLeft) := by
  refine lands_bind (putByte_writes _ _) fun m p cnt acc => lands_ok fun _ => ⟨{ hg with encLzw := nofun }, ?_⟩
  simp only [State.turnsLeft, hd, he, State.total, State.n]; omega

omit hd hg in
theorem symbolFrom_bounds {b j : Nat} {hlen : List Nat} (h : symbolFrom b hlen = some j) :
    b ≤ j ∧ j < b + hlen.length := by
  induction hlen generalizing b with
  | nil => cases h
  | cons l ls ih =>
    simp only [symbolFrom] at h
    rw [List.length_cons]
    split at h
    · cases h; omega
    · have := ih h; omega

omit hd in
/-- The next byte value with a code is at or behind the loop index. -/
theorem nextSymbol_bounds {b : Nat} (h : s.nextSymbol = some b) : s.idx ≤ b ∧ b < 256 := by
  obtain ⟨h1, h2⟩ := symbolFrom_bounds h
  rw [List.length_drop, hg.hlen] at h2
  omega

/-- The entry written is the one of the next byte value; when another follows, the loop index has moved on. -/
theorem emitHen_advances (len : Byte) (code : Half) (he : s.enc = .hufTable) :
    (emitHen (BitVec.ofNat 8 (s.nextSymbol.getD 255)) len code s).Lands (State.Advanced s.turnsLeft) := by
  generalize hsym : BitVec.ofNat 8 (s.nextSymbol.getD 255) = sym
  refine lands_bind (putBytes_writes _ s) fun m p cnt acc => lands_ite (fun h => lands_ok ?_) fun _ => lands_ok ?_
  · refine fun _ => ⟨{ hg with }, ?_⟩
    obtain ⟨b', hb'⟩ := Option.isSome_iff_exists.mp h
    obtain ⟨h1, h2⟩ : sym.toNat + 1 ≤ b' ∧ b' < 256 := nextSymbol_bounds
      (s := { s with obuf := m, wpos := p, wcnt := cnt, wacc := acc, idx := sym.toNat + 1 }) { hg with } hb'
    have hidx : s.idx ≤ sym.toNat := by
      cases hn : s.nextSymbol with
      | none => rw [← hsym, hn] at h1; change 255 + 1 ≤ b' at h1; omega
      | some b =>
        obtain ⟨h3, h4⟩ := nextSymbol_bounds hg hn
        rw [← hsym, hn, Option.getD_some, BitVec.toNat_ofNat, Nat.mod_eq_of_lt h4]; exact h3
    simp only [State.turnsLeft, hd, he, State.total, State.n]; omega
  · refine fun _ => ⟨{ hg with encLzw := nofun }, ?_⟩
    simp only [State.turnsLeft, hd, he, State.total, State.n]; omega

theorem emitHcw_advances (len : BitVec 5) (code : Half) (he : s.enc = .hufCodes) :
    (emitHcw len code s).Lands (State.Advanced s.turnsLeft) := by
  refine lands_bind (putBits_writes _ _ _) fun m p cnt acc => lands_ite (fun h => lands_ok ?_) fun _ => lands_ok ?_
  · refine fun _ => ⟨{ hg with }, ?_⟩
    simp only [State.turnsLeft, hd, he, State.total, State.n] at h ⊢; omega
  · refine fun _ => ⟨{ hg with encLzw := nofun }, ?_⟩
    simp only [State.turnsLeft, hd, he, State.total, State.n]; omega

end Compress

/-! ## The scan of a COMPRESS -/

@[simp] theorem length_ibufBytes (s : State) (base len : Nat) : (s.ibufBytes base len).length = len := by
  induction len generalizing base with
  | zero => rfl
  | succ len ih => simp [State.ibufBytes, ih]

theorem sameRunLoop_le (a : Nat → Byte) (n i : Nat) {fuel run : Nat} (h : run ≤ 127) :
    sameRunLoop a n i fuel run ≤ 127 := by
  induction fuel generalizing run with
  | zero => exact h
  | succ fuel ih =>
    simp only [sameRunLoop]
    split
    · exact ih (by omega)
    · exact h

/-- A record that stands for at least one byte of its channel. -/
def Instr.takesBytes : Instr → Prop
  | .rleRep count _ => 1 ≤ count.toNat
  | .rleLit data => 1 ≤ data.length
  | _ => False

/-- The record chosen after the scan takes at least one byte (R173, R176). -/
theorem rleNext_takesBytes (s : State) : Instr.takesBytes (rleScan s).rleNext := by
  have hle : sameRun s.channelByte s.n s.rleI ≤ 127 := sameRunLoop_le _ _ _ (by omega)
  by_cases hr : 1 < sameRun s.channelByte s.n s.rleI
  · rw [rleScan_repeat hr, State.rleNext, if_pos hr]
    change 1 ≤ (BitVec.ofNat 7 (sameRun s.channelByte s.n s.rleI)).toNat
    rw [BitVec.toNat_ofNat]; omega
  · rw [rleScan_literal hr, State.rleNext, if_neg hr]
    change 1 ≤ (State.ibufBytes _ _ _).length
    rw [length_ibufBytes]; exact Nat.le_max_left _ _

/-- `Find` gives a code of the table. -/
theorem findFrom_ge {p j k : Nat} {b : Byte} {es : List LzwEntry} (h : findFrom p b es k = some j) : k ≤ j := by
  induction es generalizing k with
  | nil => cases h
  | cons e es ih =>
    simp only [findFrom] at h
    split at h
    · cases h; exact Nat.le_refl _
    · exact Nat.le_of_succ_le (ih h)

theorem lzwScanLoop_going (fuel : Nat) {s : State} (hg : s.Going) :
    (lzwScanLoop fuel s).Going ∧ s.idx ≤ (lzwScanLoop fuel s).idx := by
  induction fuel generalizing s with
  | zero => exact ⟨hg, Nat.le_refl _⟩
  | succ fuel ih =>
    by_cases hi : s.idx < s.total
    · cases hc : s.cur with
      | none =>
        rw [lzwScanLoop_first fuel hi hc]
        exact (ih (s := { s with cur := some (s.ibufByte s.idx).toNat, idx := s.idx + 1 })
          { hg with cur := by rintro _ ⟨⟩; exact byte_ne_control _ }).imp_right Nat.le_of_succ_le
      | some p =>
        cases hf : s.lzwFind p (s.ibufByte s.idx) with
        | none => rw [lzwScanLoop_stop fuel hi hc hf]; exact ⟨hg, Nat.le_refl _⟩
        | some k =>
          rw [lzwScanLoop_found fuel hi hc hf]
          have hk : 258 ≤ k := findFrom_ge hf
          exact (ih (s := { s with cur := some k, idx := s.idx + 1 })
            { hg with cur := by rintro _ ⟨⟩; omega }).imp_right Nat.le_of_succ_le
    · rw [lzwScanLoop_end fuel hi]; exact ⟨hg, Nat.le_refl _⟩

/-- The scan costs no turn. -/
theorem encScan_going {s : State} (hd : s.dir = .compress) (hg : s.Going) :
    (encScan s).Going ∧ (encScan s).turnsLeft ≤ s.turnsLeft := by
  cases he : s.enc <;> simp only [encScan, he]
  case rle =>
    rw [rleScan_eq s]
    exact ⟨{ hg with }, by simp only [State.turnsLeft, State.n, State.total, Nat.le_refl]⟩
  case lzwCodes =>
    obtain ⟨h1, h2⟩ : (lzwScan s).Going ∧ s.idx ≤ (lzwScan s).idx := lzwScanLoop_going _ hg
    refine ⟨h1, ?_⟩
    rw [lzwScan_eq s]
    simp only [State.turnsLeft, hd, he, State.total, State.n]; omega
  all_goals exact ⟨hg, Nat.le_refl _⟩

/-- Every record of a COMPRESS, in the phase that writes it. -/
theorem compressRecord_advances {s : State} (hd : s.dir = .compress) (hg : s.Going)
    (hrle : s.enc = .rle → Instr.takesBytes s.rleNext) :
    (recordRun s.encNext s).Lands (State.Advanced s.turnsLeft) := by
  cases he : s.enc <;> simp only [State.encNext, he]
  case header =>
    change (hdrRecord s.width s.height s).Lands _
    rw [hdrRecord, hd]; exact emitHeader_advances hd hg _ _ he
  case raw =>
    change (rawRecord (s.ibufByte s.idx) s).Lands _
    rw [rawRecord, hd]; exact emitRaw_advances hd hg _ he
  case rle =>
    have h := hrle he
    unfold State.rleNext at h ⊢
    split at h
    · next hs =>
      rw [if_pos hs]
      change (rleRepRecord _ _ s).Lands _
      rw [rleRepRecord, hd]; exact emitRep_advances hd hg _ h he
    · next hs =>
      rw [if_neg hs]
      change (rleLitRecord _ s).Lands _
      rw [rleLitRecord, hd]; exact emitLit_advances hd hg h he
  case lzwClear => rw [recordRun_lzwClear, lzwClear, hd]; exact emitClear_advances hd hg _ he
  case lzwCodes =>
    have hc : s.cur.getD 0 ≠ 256 ∧ s.cur.getD 0 ≠ 257 := by
      cases hcur : s.cur with
      | none => decide
      | some c => exact hg.cur c hcur
    obtain ⟨c', h'⟩ := recordRun_lzwOrdinary s.w hc.1 hc.2
    rw [h', lzwOrdinary, hd]; exact emitOrdinary_advances hd hg _ _ he
  case lzwEnd => rw [recordRun_lzwEnd, lzwEnd, hd]; exact emitEnd_advances hd hg _ he
  case hufSize =>
    change (hszRecord _ s).Lands _
    rw [hszRecord, hd]; exact emitHsz_advances hd hg _ he
  case hufTable =>
    change (henRecord _ _ _ s).Lands _
    rw [henRecord, hd]; exact emitHen_advances hd hg _ _ he
  case hufCodes =>
    change (hcwRecord _ _ s).Lands _
    rw [hcwRecord, hd]; exact emitHcw_advances hd hg _ _ he
  case pad =>
    change (padRecord _ s).Lands _
    rw [padRecord, hd]
    exact lands_bind (putBits_writes _ _ _) fun _ _ _ _ => lands_ok (advanced_complete _ _ _)

/-! ## Turns -/

theorem takeByte_length {b : Byte} {bs rest : List Bool} (h : takeByte bs = some (b, rest)) :
    bs.length = 8 + rest.length := by
  rw [takeByte_some h, List.length_append, length_bitsOf]

theorem takeBytes_length {k : Nat} {bytes : List Byte} {bs rest : List Bool}
    (h : takeBytes k bs = some (bytes, rest)) : rest.length ≤ bs.length := by
  rw [(takeBytes_some h).2, List.length_append]; omega

theorem decodeCode_length {entries : List HufEntry} {lens : List Nat} {bs rest : List Bool} {i : Instr}
    (hl : ∀ l ∈ lens, 1 ≤ l) (h : decodeCode entries lens bs = .ok (i, rest)) : rest.length < bs.length := by
  induction lens with
  | nil => cases h
  | cons l ls ih =>
    simp only [decodeCode] at h
    split at h
    · cases h
    · next ht =>
      split at h
      · cases h
        have := takeBits_length ht
        have := hl l List.mem_cons_self
        omega
      · exact ih (fun l' hl' => hl l' (List.mem_cons_of_mem _ hl')) h

theorem decodeRle_length {bs rest : List Bool} {i : Instr} (h : decodeRle bs = .ok (i, rest)) :
    rest.length < bs.length := by
  simp only [decodeRle] at h
  split at h
  · cases h
  next h1 =>
  split at h
  · cases h
  next h2 =>
  have l1 := takeBits_length h1
  have l2 := takeBits_length h2
  split at h <;> split at h <;> cases h
  · next h3 => have := takeByte_length h3; omega
  · next h3 => have := takeBytes_length h3; omega

theorem LzwWidth.bits_pos (w : LzwWidth) : 0 < w.bits := by cases w <;> decide

/-- The decoder of a RESTORE takes at least one bit per record. -/
theorem decode_ctx_length {s : State} (hg : s.Going) {bs rest : List Bool} {i : Instr}
    (h : decode s.ctx bs = .ok (i, rest)) : rest.length < bs.length := by
  cases hd : s.dec <;> simp only [State.ctx, hd, decode] at h
  case header =>
    split at h
    · cases h
    next h1 =>
    split at h <;> cases h
    next h2 =>
    have := takeBits_length h1
    have := takeBits_length h2
    omega
  case raw | hufSize =>
    split at h <;> cases h
    next h1 => have := takeByte_length h1; omega
  case rle => exact decodeRle_length h
  case lzw =>
    split at h <;> cases h
    next h1 =>
    have := takeBits_length h1
    have := LzwWidth.bits_pos s.w
    omega
  case hufTable =>
    split at h
    · cases h
    next h1 =>
    split at h
    · cases h
    next h2 =>
    split at h <;> cases h
    next h3 =>
    have := takeByte_length h1
    have := takeByte_length h2
    have := takeBits_length h3
    omega
  case hufCodes => exact decodeCode_length hg.lens h

/-- Every turn of a running command keeps what its progress rests on and leaves fewer turns. -/
theorem engineTurn_advances {s : State} (hg : s.Going) : State.Advanced s.turnsLeft (engineTurn s) := by
  cases hd : s.dir with
  | compress =>
    obtain ⟨hg', hk⟩ := encScan_going hd hg
    have hd' : (encScan s).dir = .compress := by rw [encScan_eq]; exact hd
    rw [engineTurn_record (fetchRecord_compress hd)]
    have h := advanced_settle (compressRecord_advances hd' hg' fun he => ?_)
    · exact fun hb => ⟨(h hb).1, Nat.lt_of_lt_of_le (h hb).2 hk⟩
    · have he : s.enc = .rle := by rw [encScan_eq] at he; exact he
      simp only [encScan, he]; exact rleNext_takesBytes s
  | restore =>
    have hf := fetchRecord_restore hd
    unfold readRecord at hf
    split at hf
    · next i rest hdec =>
      rw [engineTurn_record hf]
      have hlt := decode_ctx_length hg hdec
      have hle : (s.window s.ctx.maxBits).length ≤ 8 * s.inLen - s.rpos := by
        rw [State.window, length_bitsFrom]; exact Nat.min_le_right _ _
      set s1 := skipBits ((s.window s.ctx.maxBits).length - rest.length) s with hs1
      have h := advanced_settle (restoreRecord_advances (s := s1) hd { hg with } (fetchRecord_isRecord hf))
      refine fun hb => ⟨(h hb).1, Nat.lt_of_lt_of_le (h hb).2 ?_⟩
      rw [turnsLeft_restore hd, turnsLeft_restore (s := s1) hd, hs1, skipBits_inLen, skipBits_rpos]
      omega
    · rw [engineTurn_raised hf]; exact nofun

/-- With as many turns as are left, the command ends. -/
theorem runRecords_ends (fuel : Nat) {s : State} (h : State.Advanced fuel s) : (runRecords fuel s).state ≠ .busy := by
  induction fuel generalizing s with
  | zero => exact fun hb => absurd (h hb).2 (Nat.not_lt_zero _)
  | succ fuel ih =>
    by_cases hb : s.state = .busy
    · rw [runRecords_busy fuel s hb]
      obtain ⟨hg, hk⟩ := h hb
      exact ih fun hb' => (engineTurn_advances hg hb').imp_right fun hlt => by omega
    · rwa [runRecords_quiet _ s hb]

/-! ## Commands -/

/-- The tests of a COMPRESS let only an input of `TOTAL` bytes pass (R123). -/
theorem directionChecks_busy {s : State} (h : (directionChecks s).settle.state = .busy) (hd : s.dir = .compress) :
    s.inLen = s.total := by
  rw [directionChecks, hd] at h
  by_contra hne
  simp only [compressChecks] at h
  split at h
  · cases h
  split at h
  · cases h
  cases h

/-- A command that runs after its start has the fresh state of R121, and a COMPRESS an input of `TOTAL` bytes. -/
theorem beginCommand_busy {dir : Dir} {alg : Alg} {s : State} (h : (beginCommand dir alg s).state = .busy) :
    (∃ w, beginCommand dir alg s = { startCommand s with dir := dir, alg := alg, w := w }) ∧
      (dir = .compress → s.inLen = s.total) := by
  refine ⟨?_, ?_⟩
  · obtain ⟨w, hw | ⟨c, hc⟩⟩ := beginCommand_cases dir alg s
    · exact ⟨w, hw⟩
    · rw [hc] at h; cases h
  · rintro rfl
    unfold beginCommand at h
    dsimp only at h
    split at h
    · split at h
      · cases h
      · have hin := directionChecks_busy h rfl; exact hin
    all_goals have hin := directionChecks_busy h rfl; exact hin

/-- A started command needs no more turns than its bound (R310; log 20). -/
theorem beginCommand_advanced (dir : Dir) (alg : Alg) (s : State) :
    State.Advanced s.turnBound (beginCommand dir alg s) := by
  intro hb
  obtain ⟨⟨w, hw⟩, hin⟩ := beginCommand_busy hb
  rw [hw]
  refine ⟨⟨nofun, List.length_replicate, nofun, nofun, nofun, nofun⟩, ?_⟩
  cases dir with
  | compress =>
    have hin := hin rfl
    simp only [State.turnsLeft, State.turnBound, startCommand_enc, State.total, State.n, startCommand_width,
      startCommand_height] at hin ⊢
    omega
  | restore =>
    simp only [State.turnsLeft, State.turnBound, startCommand_inLen]
    omega

/-- A codec command run to its end is not BUSY any more (R76, R310). -/
theorem runCommand_ends (dir : Dir) (alg : Alg) (s : State) : (runCommand dir alg s).state ≠ .busy :=
  runRecords_ends _ (beginCommand_advanced dir alg s)

end Sys2Proof.Machine
end

section
/-! Two runs of one command side by side (R50, R121): what a command never reads, the relation between two running states that
differ in nothing else, and that every run of pseudocode keeps it until the two end with the same result. -/

namespace Sys2Proof.Machine

/-! ## What a running command does not read -/

/-- What a command reads no part of: bytes of `OBUF` it has not written, the model's counters, the host's side, and `W`
where the codec is not LZW. -/
structure Hidden where
  obuf : Memory
  obufEpoch : Nat
  privateEpoch : Nat
  w : LzwWidth
  host : List HostAct
  rdata : Nat
  handsOff : Bool

/-- The state with its hidden part replaced. -/
def State.withHidden (s : State) (h : Hidden) : State :=
  { s with obuf := h.obuf, obufEpoch := h.obufEpoch, privateEpoch := h.privateEpoch, w := h.w, host := h.host,
           rdata := h.rdata, handsOff := h.handsOff }

@[simp] theorem withHidden_dir (s : State) (h : Hidden) : (s.withHidden h).dir = s.dir := rfl
@[simp] theorem withHidden_alg (s : State) (h : Hidden) : (s.withHidden h).alg = s.alg := rfl
@[simp] theorem withHidden_enc (s : State) (h : Hidden) : (s.withHidden h).enc = s.enc := rfl
@[simp] theorem withHidden_dec (s : State) (h : Hidden) : (s.withHidden h).dec = s.dec := rfl
@[simp] theorem withHidden_prev (s : State) (h : Hidden) : (s.withHidden h).prev = s.prev := rfl

/-- A running command may go on with `h` in place of its hidden part: the bytes of `OBUF` below `WPOS` are the same, and so
is `W` for LZW. -/
structure Covers (s : State) (h : Hidden) : Prop where
  busy : s.state = .busy
  wf : Memory.wf s.obuf = true
  hiddenWf : Memory.wf h.obuf = true
  written : ∀ a, a < s.wpos → Memory.lookup h.obuf a = Memory.lookup s.obuf a
  width : s.alg = .lzw → h.w = s.w

/-- Two running states of one command that differ in hidden parts only. -/
inductive Twin : State → State → Prop where
  | intro (s : State) (h : Hidden) (c : Covers s h) : Twin s (s.withHidden h)

theorem Twin.busy {s t : State} (h : Twin s t) : s.state = .busy := by
  cases h with | intro h c => exact c.busy

/-- An assignment to registers that are not hidden keeps the twins, if it leaves `STATE`, `WPOS` and `ALG` alone. -/
theorem Covers.keep {s : State} {h : Hidden} (c : Covers s h) (s' : State) (hs : s'.state = s.state := by rfl)
    (ho : s'.obuf = s.obuf := by rfl) (hp : s'.wpos = s.wpos := by rfl) (ha : s'.alg = s.alg := by rfl)
    (hw : s'.w = s.w := by rfl) : Covers s' h where
  busy := hs.trans c.busy
  wf := by rw [ho]; exact c.wf
  hiddenWf := c.hiddenWf
  written := by rw [ho, hp]; exact c.written
  width := by rw [ha, hw]; exact c.width

/-! ## The result of a command -/

/-- The two commands have ended, with the same result (R50). -/
structure SameResult (s t : State) : Prop where
  ended : s.state ≠ .busy
  state : s.state = t.state
  cause : s.cause = t.cause
  width : s.width = t.width
  height : s.height = t.height
  outLen : s.outLen = t.outLen
  inUsed : s.inUsed = t.inUsed
  statTable : s.statTable = t.statTable
  statClears : s.statClears = t.statClears
  obuf : s.obuf = t.obuf

/-- The two commands still run alike, or have ended with the same result. -/
def Alike (s t : State) : Prop := Twin s t ∨ SameResult s t

theorem sameResult_faultEntry (c : Cause) {s t : State} (hw : s.width = t.width) (hh : s.height = t.height) :
    SameResult (faultEntry c s) (faultEntry c t) where
  ended := nofun
  state := rfl
  cause := rfl
  width := hw
  height := hh
  outLen := rfl
  inUsed := rfl
  statTable := rfl
  statClears := rfl
  obuf := rfl

/-- Completion keeps the bytes below `WPOS`, and in these twins agree. -/
theorem sameResult_complete (used : Nat) {s : State} {h : Hidden} (c : Covers s h) :
    SameResult (complete used s) (complete used (s.withHidden h)) where
  ended := nofun
  state := rfl
  cause := rfl
  width := rfl
  height := rfl
  outLen := rfl
  inUsed := rfl
  statTable := rfl
  statClears := rfl
  obuf := by
    refine memory_ext (wf_below _ c.wf) (wf_below _ c.hiddenWf) fun a => ?_
    change Memory.lookup (Memory.below s.wpos s.obuf) a = Memory.lookup (Memory.below s.wpos h.obuf) a
    rw [lookup_below, lookup_below]
    exact if_ctx_congr Iff.rfl (fun ha => (c.written a ha).symm) fun _ => rfl

/-! ## Runs of pseudocode side by side -/

/-- The two runs go on in related states, or raise the same cause with the same size latched. -/
inductive Parallel (R : State → State → Prop) : Res → Res → Prop where
  | ok {s t : State} (h : R s t) : Parallel R (.ok s) (.ok t)
  | raised (c : Cause) {s t : State} (hw : s.width = t.width) (hh : s.height = t.height) :
      Parallel R (.raised c s) (.raised c t)

/-- From twins the run gives parallel runs. -/
def Respects (R : State → State → Prop) (f : State → Res) : Prop :=
  ∀ (s : State) (h : Hidden), Covers s h → Parallel R (f s) (f (s.withHidden h))

theorem parallel_raised {R : State → State → Prop} (c : Cause) (s : State) (h : Hidden) :
    Parallel R (.raised c s) (.raised c (s.withHidden h)) := .raised c rfl rfl

/-- Twins that go on. -/
theorem parallel_twin {s : State} {h : Hidden} (c : Covers s h) : Parallel Alike (.ok s) (.ok (s.withHidden h)) :=
  .ok (.inl (.intro s h c))

/-- Twins that complete. -/
theorem parallel_complete (used : Nat) {s : State} {h : Hidden} (c : Covers s h) :
    Parallel Alike (.ok (complete used s)) (.ok (complete used (s.withHidden h))) :=
  .ok (.inr (sameResult_complete used c))

theorem parallel_ite {R : State → State → Prop} {p : Prop} [Decidable p] {a a' b b' : Res}
    (h : p → Parallel R a a') (h' : ¬p → Parallel R b b') :
    Parallel R (if p then a else b) (if p then a' else b') := by
  split
  · next hp => exact h hp
  · next hp => exact h' hp

theorem parallel_bind {R : State → State → Prop} {r r' : Res} {f : State → Res} (hr : Parallel Twin r r')
    (hf : Respects R f) : Parallel R (r.bind f) (r'.bind f) := by
  cases hr with
  | ok h => cases h with | intro h c => exact hf _ h c
  | raised c hw hh => exact .raised c hw hh

theorem parallel_settle {r r' : Res} (h : Parallel Alike r r') : Alike r.settle r'.settle := by
  cases h with
  | ok h => exact h
  | raised c hw hh => exact .inr (sameResult_faultEntry c hw hh)

/-! ## The writer -/

theorem putByte_respects (b : Byte) : Respects Twin (putByte b) := by
  intro s h c
  refine parallel_ite (fun _ => parallel_raised _ s h) fun _ => .ok ?_
  refine .intro { s with obuf := Memory.write s.obuf s.wpos b, wpos := s.wpos + 1 }
    { h with obuf := Memory.write h.obuf s.wpos b } ?_
  refine ⟨c.busy, wf_write _ _ c.wf, wf_write _ _ c.hiddenWf, fun a ha => ?_, c.width⟩
  change a < s.wpos + 1 at ha
  rw [lookup_write, lookup_write]
  exact if_ctx_congr Iff.rfl (fun _ => rfl) fun hne => c.written a (by omega)

theorem putBytes_respects (bs : List Byte) : Respects Twin (putBytes bs) := by
  induction bs with
  | nil => exact fun s h c => .ok (.intro s h c)
  | cons b bs ih => exact fun s h c => parallel_bind (putByte_respects b s h c) ih

theorem putBit_respects (b : Bool) : Respects Twin (putBit b) := by
  intro s h c
  refine parallel_ite (fun _ => ?_) fun _ => .ok ?_
  · exact putByte_respects _ _ h (c.keep { s with wacc := 0, wcnt := 0 })
  · exact .intro _ h (c.keep { s with wacc := s.wacc * 2 + b.toNat, wcnt := s.wcnt + 1 })

theorem putBitList_respects (bits : List Bool) : Respects Twin (putBitList bits) := by
  induction bits with
  | nil => exact fun s h c => .ok (.intro s h c)
  | cons b bits ih => exact fun s h c => parallel_bind (putBit_respects b s h c) ih

theorem putBits_respects (v n : Nat) : Respects Twin (putBits v n) := putBitList_respects _

theorem emitString_respects (bytes : List Byte) : Respects Twin (emitString bytes) := fun s h c =>
  parallel_ite (fun _ => parallel_raised _ s h) fun _ => putBytes_respects bytes s h c

/-! ## What twins read alike -/

theorem ibufBytes_withHidden (s : State) (h : Hidden) (base len : Nat) :
    (s.withHidden h).ibufBytes base len = s.ibufBytes base len := by
  induction len generalizing base with
  | zero => rfl
  | succ len ih => simp only [State.ibufBytes, ih]; rfl

theorem bitsFrom_withHidden (s : State) (h : Hidden) (q k : Nat) :
    (s.withHidden h).bitsFrom q k = s.bitsFrom q k := by
  induction k generalizing q with
  | zero => rfl
  | succ k ih => simp only [State.bitsFrom, ih]; rfl

theorem window_withHidden (s : State) (h : Hidden) (n : Nat) : (s.withHidden h).window n = s.window n :=
  bitsFrom_withHidden s h _ _

theorem inputFreq_withHidden (s : State) (h : Hidden) : (s.withHidden h).inputFreq = s.inputFreq := by
  unfold State.inputFreq; rw [ibufBytes_withHidden]; rfl

/-! ## Records -/

theorem hufTree_respects : Respects Twin hufTree := by
  intro s h c
  unfold hufTree
  rw [inputFreq_withHidden]
  dsimp only
  split
  · change Parallel Twin (match hufAssign _ _ _ 0 0 (s.hlen, s.hcode) with | .ok t => _ | .error c => _)
      (match hufAssign _ _ _ 0 0 (s.hlen, s.hcode) with | .ok t => _ | .error c => _)
    split
    · exact .ok (.intro _ h (c.keep _))
    · exact .raised _ rfl rfl
  · exact .raised _ rfl rfl

theorem hufBuild_respects : Respects Twin hufBuild := by
  intro s h c
  by_cases hl : ∃ f sym, hufLeaves 0 s.inputFreq = [.leaf f sym]
  · obtain ⟨f, sym, hl⟩ := hl
    rw [hufBuild_single hl, hufBuild_single (s := s.withHidden h) (by rw [inputFreq_withHidden]; exact hl),
      inputFreq_withHidden]
    exact .ok (.intro _ h (c.keep { s with freq := s.inputFreq, nodes := [.leaf f sym], queue := [0],
                                           hlen := s.hlen.set sym.toNat 1, hcode := s.hcode.set sym.toNat 0 }))
  · rw [hufBuild_tree fun f sym hl' => hl ⟨f, sym, hl'⟩,
      hufBuild_tree (s := s.withHidden h) fun f sym hl' => hl ⟨f, sym, by rw [← hl', inputFreq_withHidden]⟩]
    exact hufTree_respects s h c

theorem beginEncode_respects : Respects Alike beginEncode := by
  intro s h c
  unfold beginEncode
  rw [withHidden_alg]
  split
  · exact parallel_twin (c.keep { s with enc := .raw, idx := 0 })
  · exact parallel_twin (c.keep { s with enc := .rle, rleBase := 0, rleI := 0, rleCh := 0 })
  · exact parallel_twin (c.keep { s with enc := .lzwClear, idx := 0 })
  · exact parallel_bind (hufBuild_respects s h c) fun s h c => parallel_twin (c.keep { s with enc := .hufSize, idx := 0 })

theorem beginDecode_respects : Respects Alike beginDecode := by
  intro s h c
  unfold beginDecode
  rw [withHidden_alg]
  split
  · exact parallel_ite (fun _ => parallel_raised _ s h) fun _ => parallel_twin (c.keep { s with dec := .raw })
  · exact parallel_twin (c.keep { s with dec := .rle, rleCh := 0, rleCnt := 0 })
  · exact parallel_twin (c.keep { s with dec := .lzw })
  · exact parallel_twin (c.keep { s with dec := .hufSize })

theorem hdrRecord_respects (width height : Half) : Respects Alike (hdrRecord width height) := by
  intro s h c
  rw [hdrRecord, hdrRecord, withHidden_dir]
  split
  · exact parallel_bind (putBytes_respects _ s h c) beginEncode_respects
  · refine parallel_ite (fun _ => .raised _ rfl rfl) fun _ => parallel_ite (fun _ => .raised _ rfl rfl) fun _ => ?_
    exact beginDecode_respects _ h (c.keep { s with width := width, height := height })

theorem rawRecord_respects (b : Byte) : Respects Alike (rawRecord b) := by
  intro s h c
  rw [rawRecord, rawRecord, withHidden_dir]
  split
  · refine parallel_bind (putByte_respects b s h c) fun s h c => ?_
    have c' := c.keep { s with idx := s.idx + 1 }
    exact parallel_ite (fun _ => parallel_twin c') fun _ => parallel_complete _ c'
  · exact parallel_bind (putByte_respects b s h c) fun s h c =>
      parallel_ite (fun _ => parallel_twin c) fun _ => parallel_complete _ c

theorem rleAdvance_alike (k : Nat) {s : State} {h : Hidden} (c : Covers s h) :
    Parallel Alike (.ok (rleAdvance k s)) (.ok (rleAdvance k (s.withHidden h))) := by
  unfold rleAdvance
  change Parallel Alike (.ok (if s.rleI + k < s.n then _ else if s.rleCh + 1 < 3 then _ else _))
    (.ok (if s.rleI + k < s.n then _ else if s.rleCh + 1 < 3 then _ else _))
  split
  · exact parallel_twin (c.keep { s with rleI := s.rleI + k })
  · split
    · exact parallel_twin (c.keep { s with rleI := 0, rleBase := s.rleBase + s.n, rleCh := s.rleCh + 1 })
    · exact parallel_complete _ (c.keep { s with rleI := s.rleI + k })

theorem rleCount_alike (k : Nat) {s : State} {h : Hidden} (c : Covers s h) :
    Parallel Alike (.ok (rleCount k s)) (.ok (rleCount k (s.withHidden h))) := by
  unfold rleCount
  change Parallel Alike (.ok (if s.rleCnt + k < s.n then _ else if s.rleCh + 1 < 3 then _ else _))
    (.ok (if s.rleCnt + k < s.n then _ else if s.rleCh + 1 < 3 then _ else _))
  split
  · exact parallel_twin (c.keep { s with rleCnt := s.rleCnt + k })
  · split
    · exact parallel_twin (c.keep { s with rleCnt := 0, rleCh := s.rleCh + 1 })
    · exact parallel_complete _ (c.keep { s with rleCnt := s.rleCnt + k })

theorem rleProduce_respects (control : Byte) (bytes : List Byte) : Respects Alike (rleProduce control bytes) := by
  intro s h c
  refine parallel_ite (fun _ => .raised _ rfl rfl) fun _ => ?_
  refine parallel_bind (putBytes_respects bytes _ h (c.keep { s with rleC := control, rleK := control.toNat % 128 })) ?_
  exact fun s h c => rleCount_alike s.rleK c

theorem rleRepRecord_respects (count : BitVec 7) (v : Byte) : Respects Alike (rleRepRecord count v) := by
  intro s h c
  rw [rleRepRecord, rleRepRecord, withHidden_dir]
  split
  · exact parallel_bind (putBytes_respects _ s h c) fun s h c => rleAdvance_alike _ c
  · exact rleProduce_respects _ _ _ h (c.keep { s with rleV := v })

theorem rleLitRecord_respects (data : List Byte) : Respects Alike (rleLitRecord data) := by
  intro s h c
  rw [rleLitRecord, rleLitRecord, withHidden_dir]
  split
  · exact parallel_bind (putBytes_respects _ s h c) fun s h c => rleAdvance_alike _ c
  · exact rleProduce_respects _ _ s h c

theorem emitOrdinary_respects (w : LzwWidth) (code : Nat) : Respects Alike (emitOrdinary w code) := by
  refine fun s h c => parallel_bind (putBits_respects _ _ s h c) fun s h c => parallel_ite (fun _ => ?_) fun _ => ?_
  · exact parallel_twin (c.keep { lzwInsert code (s.ibufByte s.idx) s with
      cur := some (s.ibufByte s.idx).toNat, idx := s.idx + 1,
      enc := if (lzwInsert code (s.ibufByte s.idx) s).next = w.cap then .lzwClear else .lzwCodes })
  · exact parallel_twin (c.keep { s with enc := .lzwEnd })

theorem learnAndEmit_respects (w : LzwWidth) (code p : Nat) (fb : Byte) (bytes : List Byte) :
    Respects Alike (learnAndEmit w code p fb bytes) := fun s h c =>
  parallel_ite (fun _ => parallel_raised _ s h) fun _ =>
    parallel_bind (emitString_respects bytes _ h (c.keep (lzwInsert p fb s))) fun s _ c =>
      parallel_twin (c.keep { s with prev := some code })

theorem readOrdinary_respects (w : LzwWidth) (code : Nat) : Respects Alike (readOrdinary w code) := by
  intro s h c
  refine parallel_ite (fun _ => parallel_raised _ s h) fun _ => ?_
  rw [withHidden_prev]
  split
  · exact parallel_ite (fun _ => parallel_raised _ s h) fun _ => parallel_bind (emitString_respects _ s h c) fun s _ c =>
      parallel_twin (c.keep { s with prev := some code })
  · exact parallel_ite (fun _ => learnAndEmit_respects w code _ _ _ s h c) fun _ =>
      parallel_ite (fun _ => learnAndEmit_respects w code _ _ _ s h c) fun _ => parallel_raised _ s h

theorem lzwOrdinary_respects (w : LzwWidth) (code : Nat) : Respects Alike (lzwOrdinary w code) := by
  intro s h c
  rw [lzwOrdinary, lzwOrdinary, withHidden_dir]
  split
  · exact emitOrdinary_respects w code s h c
  · exact readOrdinary_respects w code s h c

theorem lzwClear_respects (w : LzwWidth) : Respects Alike (lzwClear w) := by
  intro s h c
  rw [lzwClear, lzwClear, withHidden_dir]
  split
  · exact parallel_bind (putBits_respects _ _ _ h (c.keep { s with lzwTable := [] })) fun s _ c =>
      parallel_twin (c.keep { s with clears := s.clears + 1, enc := .lzwCodes })
  · exact parallel_twin (c.keep { s with started := true, lzwTable := [], prev := none, clears := s.clears + 1 })

theorem lzwEnd_respects (w : LzwWidth) : Respects Alike (lzwEnd w) := by
  intro s h c
  rw [lzwEnd, lzwEnd, withHidden_dir]
  split
  · exact parallel_bind (putBits_respects _ _ s h c) fun s _ c => parallel_twin (c.keep { s with enc := .pad })
  · exact parallel_ite (fun _ => parallel_raised _ s h) fun _ => parallel_ite (fun _ => parallel_raised _ s h) fun _ =>
      parallel_complete _ c

theorem hszRecord_respects (n : Byte) : Respects Alike (hszRecord n) := by
  intro s h c
  rw [hszRecord, hszRecord, withHidden_dir]
  split
  · exact parallel_bind (putByte_respects n s h c) fun s _ c =>
      parallel_twin (c.keep { s with enc := .hufTable, idx := 0 })
  · exact parallel_twin (c.keep { s with dn := n.toNat + 1, dtab := [], dec := .hufTable })

theorem henRecord_respects (sym len : Byte) (code : Half) : Respects Alike (henRecord sym len code) := by
  intro s h c
  rw [henRecord, henRecord, withHidden_dir]
  split
  · refine parallel_bind (putBytes_respects _ s h c) fun s _ c => parallel_ite (fun _ => ?_) fun _ => ?_
    · exact parallel_twin (c.keep { s with idx := sym.toNat + 1 })
    · exact parallel_twin (c.keep { s with enc := .hufCodes, idx := 0 })
  · refine parallel_ite (fun _ => parallel_raised _ s h) fun _ => parallel_ite (fun _ => parallel_raised _ s h) fun _ =>
      parallel_ite (fun _ => parallel_raised _ s h) fun _ => parallel_ite (fun _ => ?_) fun _ => ?_
    · exact parallel_twin (c.keep { s with dtab := s.dtab ++ [{ sym := sym, len := len.toNat, code := code.toNat }] })
    · exact parallel_twin (c.keep { s with
        dtab := s.dtab ++ [{ sym := sym, len := len.toNat, code := code.toNat }],
        lens := lensOf (s.dtab ++ [{ sym := sym, len := len.toNat, code := code.toNat }]), dec := .hufCodes })

theorem readHcw_respects (len : BitVec 5) (code : Half) : Respects Alike (readHcw len code) := by
  intro s h c
  unfold readHcw
  change Parallel Alike (match hufLookup s.dtab _ _ with | none => _ | some b => _)
    (match hufLookup s.dtab _ _ with | none => _ | some b => _)
  split
  · exact parallel_raised _ s h
  · exact parallel_bind (putByte_respects _ s h c) fun s _ c =>
      parallel_ite (fun _ => parallel_twin c) fun _ => parallel_complete _ c

theorem hcwRecord_respects (len : BitVec 5) (code : Half) : Respects Alike (hcwRecord len code) := by
  intro s h c
  rw [hcwRecord, hcwRecord, withHidden_dir]
  split
  · refine parallel_bind (putBits_respects _ _ s h c) fun s _ c => parallel_ite (fun _ => ?_) fun _ => ?_
    · exact parallel_twin (c.keep { s with idx := s.idx + 1 })
    · exact parallel_twin (c.keep { s with idx := s.idx + 1, enc := .pad })
  · exact readHcw_respects len code s h c

theorem padRecord_respects (n : BitVec 3) : Respects Alike (padRecord n) := by
  intro s h c
  rw [padRecord, padRecord, withHidden_dir]
  split
  · exact parallel_bind (putBits_respects _ _ s h c) fun s _ c => parallel_complete _ c
  · exact parallel_twin c

/-- From twins every record's run gives twins or commands that have ended alike. -/
theorem recordRun_respects {i : Instr} (hi : i.isRecord = true) : Respects Alike (recordRun i) :=
  recordRun_induct hdrRecord_respects rawRecord_respects rleRepRecord_respects rleLitRecord_respects
    lzwOrdinary_respects lzwClear_respects lzwEnd_respects hszRecord_respects henRecord_respects hcwRecord_respects
    padRecord_respects hi


/-! ## Fetching a record -/

theorem lzwScanLoop_withHidden (fuel : Nat) (s : State) (h : Hidden) :
    lzwScanLoop fuel (s.withHidden h) = (lzwScanLoop fuel s).withHidden h := by
  induction fuel generalizing s with
  | zero => rfl
  | succ fuel ih =>
    by_cases hi : s.idx < s.total
    · cases hc : s.cur with
      | none =>
        rw [lzwScanLoop_first fuel hi hc, lzwScanLoop_first (s := s.withHidden h) fuel hi hc]
        exact ih { s with cur := some (s.ibufByte s.idx).toNat, idx := s.idx + 1 }
      | some p =>
        cases hf : s.lzwFind p (s.ibufByte s.idx) with
        | none => rw [lzwScanLoop_stop fuel hi hc hf, lzwScanLoop_stop (s := s.withHidden h) fuel hi hc hf]
        | some k =>
          rw [lzwScanLoop_found fuel hi hc hf, lzwScanLoop_found (s := s.withHidden h) fuel hi hc hf]
          exact ih { s with cur := some k, idx := s.idx + 1 }
    · rw [lzwScanLoop_end fuel hi, lzwScanLoop_end (s := s.withHidden h) fuel hi]

theorem rleScan_withHidden (s : State) (h : Hidden) : rleScan (s.withHidden h) = (rleScan s).withHidden h := by
  by_cases hr : 1 < sameRun s.channelByte s.n s.rleI
  · rw [rleScan_repeat hr, rleScan_repeat (s := s.withHidden h) hr]; rfl
  · rw [rleScan_literal hr, rleScan_literal (s := s.withHidden h) hr]; rfl

theorem encScan_withHidden (s : State) (h : Hidden) : encScan (s.withHidden h) = (encScan s).withHidden h := by
  unfold encScan
  rw [withHidden_enc]
  split <;> try rfl
  · exact rleScan_withHidden s h
  · exact lzwScanLoop_withHidden _ s h

theorem encNext_withHidden {s : State} {h : Hidden} (hw : s.enc.isLzw = true → h.w = s.w) :
    (s.withHidden h).encNext = s.encNext := by
  unfold State.encNext
  rw [withHidden_enc]
  split <;> try rfl
  · unfold State.rleNext; rw [ibufBytes_withHidden]; rfl
  all_goals next he => rw [he] at hw; exact congrArg (lzwInstr · _) (hw rfl)

theorem ctx_withHidden {s : State} {h : Hidden} (hw : s.dec = .lzw → h.w = s.w) : (s.withHidden h).ctx = s.ctx := by
  unfold State.ctx
  rw [withHidden_dec]
  split <;> try rfl
  next hd => exact congrArg Ctx.lzw (hw hd)

/-- Twins fetch the same record, or raise the same cause. -/
inductive FetchAlike (s : State) (h : Hidden) : Fetched → Fetched → Prop where
  | record (i : Instr) (s' : State) (c : Covers s' h) : FetchAlike s h (.record i s') (.record i (s'.withHidden h))
  | raised (c : Cause) : FetchAlike s h (.raised c s) (.raised c (s.withHidden h))

theorem fetchRecord_alike {s : State} {h : Hidden} (hg : s.Going) (c : Covers s h) :
    FetchAlike s h (fetchRecord s) (fetchRecord (s.withHidden h)) := by
  cases hd : s.dir with
  | compress =>
    rw [fetchRecord_compress hd, fetchRecord_compress (s := s.withHidden h) hd, encScan_withHidden]
    have c' : Covers (encScan s) h := by rw [encScan_eq]; exact c.keep _
    have hw : (encScan s).enc.isLzw = true → h.w = (encScan s).w := by
      rw [encScan_eq]; exact fun he => c.width (hg.encLzw he)
    rw [encNext_withHidden hw]
    exact .record _ _ c'
  | restore =>
    rw [fetchRecord_restore hd, fetchRecord_restore (s := s.withHidden h) hd, readRecord, readRecord,
      ctx_withHidden fun he => c.width (hg.decLzw he), window_withHidden]
    split
    · exact .record _ _ (c.keep (skipBits _ s))
    · next r _ =>
      have hr : (s.withHidden h).rejectCause r = s.rejectCause r := by cases r <;> rfl
      rw [hr]; exact .raised _

/-! ## Whole commands -/

/-- One turn of twins. -/
theorem engineTurn_alike {s : State} {h : Hidden} (hg : s.Going) (c : Covers s h) :
    Alike (engineTurn s) (engineTurn (s.withHidden h)) := by
  have hf := fetchRecord_alike hg c
  generalize h1 : fetchRecord s = f1 at hf
  generalize h2 : fetchRecord (s.withHidden h) = f2 at hf
  cases hf with
  | record i s' c' =>
    rw [engineTurn_record h1, engineTurn_record h2]
    exact parallel_settle (recordRun_respects (fetchRecord_isRecord h1) s' h c')
  | raised cause =>
    rw [engineTurn_raised h1, engineTurn_raised h2]
    exact .inr (sameResult_faultEntry cause rfl rfl)

/-- Any number of turns of two commands that run alike. -/
theorem runRecords_alike (fuel : Nat) {s t : State} (hg : s.state = .busy → s.Going) (hst : Alike s t) :
    Alike (runRecords fuel s) (runRecords fuel t) := by
  induction fuel generalizing s t with
  | zero => exact hst
  | succ fuel ih =>
    rcases hst with hst | hst
    · cases hst with
      | intro h c =>
        rw [runRecords_busy fuel s c.busy, runRecords_busy fuel (s.withHidden h) c.busy]
        exact ih (fun hb => (engineTurn_advances (hg c.busy) hb).1) (engineTurn_alike (hg c.busy) c)
    · rw [runRecords_quiet _ s hst.ended, runRecords_quiet _ t (hst.state ▸ hst.ended)]
      exact .inr hst

/-- The two states agree on what the host has written for a command: the size, the width, the input and the capacities. -/
structure SameOrder (s t : State) : Prop where
  params : s.params = t.params
  width : s.width = t.width
  height : s.height = t.height
  lzwW : s.lzwW = t.lzwW
  inLen : s.inLen = t.inLen
  ibuf : s.ibuf = t.ibuf
  ibufEpoch : s.ibufEpoch = t.ibufEpoch

/-- The hidden part of a command started in `t`. -/
def startHidden (t : State) : Hidden where
  obuf := t.obuf
  obufEpoch := t.obufEpoch
  privateEpoch := t.privateEpoch
  w := t.w
  host := t.host
  rdata := t.rdata
  handsOff := true

/-- Command start makes everything fresh that is neither ordered by the host nor hidden (R20, R121). -/
theorem startCommand_withHidden {s t : State} (ho : SameOrder s t) (dir : Dir) (alg : Alg) :
    { startCommand t with dir := dir, alg := alg } =
      State.withHidden { startCommand s with dir := dir, alg := alg } (startHidden t) := by
  simp only [startCommand, State.withHidden, startHidden, ho.params, ho.width, ho.height, ho.lzwW, ho.inLen, ho.ibuf,
    ho.ibufEpoch]

/-- A command just started has written nothing: any hidden part will do, with the same `W` for LZW. -/
theorem covers_startCommand {s : State} {h : Hidden} (dir : Dir) (alg : Alg) (w : LzwWidth)
    (hs : Memory.wf s.obuf = true) (hh : Memory.wf h.obuf = true) (hw : alg = .lzw → h.w = w) :
    Covers { startCommand s with dir := dir, alg := alg, w := w } h where
  busy := rfl
  wf := hs
  hiddenWf := hh
  written := fun _ ha => absurd ha (Nat.not_lt_zero _)
  width := hw

theorem directionChecks_respects : Respects Alike directionChecks := by
  intro s h c
  unfold directionChecks
  rw [withHidden_dir]
  split
  · exact parallel_ite (fun _ => parallel_raised _ s h) fun _ => parallel_ite (fun _ => parallel_raised _ s h) fun _ =>
      parallel_ite (fun _ => parallel_raised _ s h) fun _ => parallel_twin c
  · exact parallel_ite (fun _ => parallel_raised _ s h) fun _ => parallel_ite (fun _ => parallel_raised _ s h) fun _ =>
      parallel_twin c

/-- Commands started from the same order run alike. -/
theorem beginCommand_alike (dir : Dir) (alg : Alg) {s t : State} (ho : SameOrder s t) (hs : Memory.wf s.obuf = true)
    (ht : Memory.wf t.obuf = true) : Alike (beginCommand dir alg s) (beginCommand dir alg t) := by
  unfold beginCommand
  rw [startCommand_withHidden ho]
  dsimp only
  have hplain (ha : alg ≠ .lzw) : Covers { startCommand s with dir := dir, alg := alg } (startHidden t) :=
    covers_startCommand dir alg s.w hs ht fun h => absurd h ha
  split
  · change Alike (match legalWidth s.lzwW with | none => _ | some w => _)
      (match legalWidth s.lzwW with | none => _ | some w => _)
    split
    · exact .inr (sameResult_faultEntry _ rfl rfl)
    · next w _ =>
      exact parallel_settle (directionChecks_respects _ { startHidden t with w := w }
        (covers_startCommand dir .lzw w hs ht fun _ => rfl))
  all_goals exact parallel_settle (directionChecks_respects _ _ (hplain (by decide)))

/-- Commands run to their end from the same order have the same result: they have ended, so they are no twins any more. -/
theorem runCommand_sameResult (dir : Dir) (alg : Alg) {s t : State} (ho : SameOrder s t)
    (hs : Memory.wf s.obuf = true) (ht : Memory.wf t.obuf = true) :
    SameResult (runCommand dir alg s) (runCommand dir alg t) := by
  have hbound : t.turnBound = s.turnBound := by rw [State.turnBound, State.turnBound, ho.inLen]
  have halike : Alike (runCommand dir alg s) (runCommand dir alg t) := by
    rw [runCommand, runCommand, hbound]
    exact runRecords_alike _ (fun hb => (beginCommand_advanced dir alg s hb).1) (beginCommand_alike dir alg ho hs ht)
  exact halike.resolve_left fun htwin => runCommand_ends dir alg s htwin.busy

/-- Settles O21: the two runs stay alike up to their end, and every command ends within its turns. -/
theorem commandResultsDoNotDependOnPrivateState : Obligations.CommandResultsDoNotDependOnPrivateState := by
  intro dir alg s1 s2 t1 t2 hr1 hr2 hwf1 hwf2 hparams hwidth hheight hlzwW hinLen hibuf hepoch h1 h2
  rw [exec_commandOf, acceptCommand_ready _ _ hr1] at h1
  rw [exec_commandOf, acceptCommand_ready _ _ hr2] at h2
  cases h1
  cases h2
  have h := runCommand_sameResult dir alg ⟨hparams, hwidth, hheight, hlzwW, hinLen, hibuf, hepoch⟩ hwf1 hwf2
  exact ⟨h.state, h.cause, h.width, h.height, h.outLen, h.inUsed, h.statTable, h.statClears, h.obuf⟩

end Sys2Proof.Machine
end

section
/-! What a command keeps, and what it does with another host queue (R69, R76): every record's run goes on, completes or
raises from a state that keeps the same inputs, and the host's queue is carried along unread. -/

namespace Sys2Proof.Machine

/-! ## What a running command keeps -/

/-- The buffer is in the canonical form and every byte below `WPOS` is held. -/
structure State.Stored (s : State) : Prop where
  wf : Memory.wf s.obuf = true
  written : ∀ a, a < s.wpos → (Memory.lookup s.obuf a).isSome = true

/-- What a running command keeps from `s` to `t` as long as it goes on. An assignment to other registers keeps it all. -/
structure Keeps (s t : State) : Prop where
  inputs : SameInputs s t := by exact ⟨rfl, rfl, rfl, rfl, rfl, rfl, rfl⟩
  size : s.dir = .compress → SameSize s t := by exact fun _ => ⟨rfl, rfl⟩
  state : t.state = s.state := by rfl
  cause : t.cause = s.cause := by rfl
  dir : t.dir = s.dir := by rfl
  handsOff : t.handsOff = s.handsOff := by rfl
  stored : s.Stored → t.Stored := by exact fun h => ⟨h.wf, h.written⟩

theorem SameInputs.trans {s t u : State} (h : SameInputs s t) (h' : SameInputs t u) : SameInputs s u where
  params := h'.params.trans h.params
  ibuf := h'.ibuf.trans h.ibuf
  ibufEpoch := h'.ibufEpoch.trans h.ibufEpoch
  lzwW := h'.lzwW.trans h.lzwW
  inLen := h'.inLen.trans h.inLen
  host := h'.host.trans h.host
  rdata := h'.rdata.trans h.rdata

theorem Keeps.trans {s t u : State} (k : Keeps s t) (k' : Keeps t u) : Keeps s u where
  inputs := k.inputs.trans k'.inputs
  size := fun hd =>
    have ⟨hw, hh⟩ := k.size hd
    have ⟨hw', hh'⟩ := k'.size (k.dir.trans hd)
    ⟨hw'.trans hw, hh'.trans hh⟩
  state := k'.state.trans k.state
  cause := k'.cause.trans k.cause
  dir := k'.dir.trans k.dir
  handsOff := k'.handsOff.trans k.handsOff
  stored := k'.stored ∘ k.stored

/-- A byte stored at `WPOS` extends what is held. -/
theorem stored_write {s : State} (b : Byte) (h : s.Stored) :
    State.Stored { s with obuf := Memory.write s.obuf s.wpos b, wpos := s.wpos + 1 } where
  wf := wf_write _ _ h.wf
  written := fun a ha => by
    change a < s.wpos + 1 at ha
    rw [lookup_write]
    split
    · rfl
    · exact h.written a (by omega)

/-- The bytes completion leaves are exactly those below `WPOS`. -/
theorem keys_below {s : State} (h : s.Stored) : (Memory.below s.wpos s.obuf).map Prod.fst = List.range s.wpos := by
  have hlist : Memory.below s.wpos s.obuf =
      Memory.listing 0 ((List.range s.wpos).map fun a => (Memory.lookup s.obuf a).getD 0) := by
    refine eq_listing (wf_below _ h.wf) fun a => ?_
    rw [lookup_below]
    split
    · next ha =>
      obtain ⟨b, hb⟩ := Option.isSome_iff_exists.mp (h.written a ha)
      simp [ha, hb]
    · next ha => simp [ha]
  rw [hlist, keys_listing, List.length_map, List.length_range, List.range_eq_range']

/-- Where a command that is running in `s` can get to: it still runs, or it has completed or faulted from where it ran. -/
inductive Reached (s : State) : State → Prop where
  | running {t : State} (k : Keeps s t) : Reached s t
  | completed (used : Nat) {t : State} (k : Keeps s t) : Reached s (complete used t)
  | faulted (c : Cause) {t : State} (k : Keeps s t) : Reached s (faultEntry c t)

theorem Reached.inputs {s t : State} (h : Reached s t) : SameInputs s t := by
  cases h with
  | running k => exact k.inputs
  | completed used k => exact k.inputs.trans ⟨rfl, rfl, rfl, rfl, rfl, rfl, rfl⟩
  | faulted c k => exact k.inputs.trans ⟨rfl, rfl, rfl, rfl, rfl, rfl, rfl⟩

theorem Reached.handsOff {s t : State} (h : Reached s t) : t.handsOff = s.handsOff := by
  cases h with
  | running k => exact k.handsOff
  | completed used k => exact k.handsOff
  | faulted c k => exact k.handsOff

theorem Reached.size {s t : State} (h : Reached s t) : s.dir = .compress → SameSize s t := by
  cases h with
  | running k => exact k.size
  | completed used k => exact k.size
  | faulted c k => exact k.size

theorem Reached.of_keeps {s t u : State} (k : Keeps s t) (h : Reached t u) : Reached s u := by
  cases h with
  | running k' => exact .running (k.trans k')
  | completed used k' => exact .completed used (k.trans k')
  | faulted c k' => exact .faulted c (k.trans k')

/-! ## The host's queue -/

/-- The state with another queue of host actions. -/
def State.withHost (q : List HostAct) (s : State) : State := { s with host := q }

/-- The hidden part of the state with the queue `q`. -/
def State.hiddenWith (q : List HostAct) (s : State) : Hidden where
  obuf := s.obuf
  obufEpoch := s.obufEpoch
  privateEpoch := s.privateEpoch
  w := s.w
  host := q
  rdata := s.rdata
  handsOff := s.handsOff

/-- The queue is part of what a command does not read. -/
theorem withHost_eq (s : State) (q : List HostAct) : s.withHost q = s.withHidden (s.hiddenWith q) := rfl

@[simp] theorem withHost_dir (s : State) (q : List HostAct) : (s.withHost q).dir = s.dir := rfl
@[simp] theorem withHost_alg (s : State) (q : List HostAct) : (s.withHost q).alg = s.alg := rfl
@[simp] theorem withHost_prev (s : State) (q : List HostAct) : (s.withHost q).prev = s.prev := rfl

/-- The run `r` from `s` goes on, completes (where `ends` allows it) or raises from a state that keeps what a command keeps,
and `r'` is the same run with the queue `q`. -/
inductive Tied (s : State) (q : List HostAct) : (ends : Bool) → Res → Res → Prop where
  | ok {ends : Bool} {t : State} (k : Keeps s t) : Tied s q ends (.ok t) (.ok (t.withHost q))
  | complete (used : Nat) {t : State} (k : Keeps s t) :
      Tied s q true (.ok (complete used t)) (.ok (complete used (t.withHost q)))
  | raised {ends : Bool} (c : Cause) {t : State} (k : Keeps s t) :
      Tied s q ends (.raised c t) (.raised c (t.withHost q))

/-- The run keeps what a command keeps, whatever the host's queue is. -/
def KeepsRun (ends : Bool) (f : State → Res) : Prop := ∀ s q, Tied s q ends (f s) (f (s.withHost q))

theorem Tied.of_keeps {s t : State} {q : List HostAct} {ends : Bool} {r r' : Res} (k : Keeps s t)
    (h : Tied t q ends r r') : Tied s q ends r r' := by
  cases h with
  | ok k' => exact .ok (k.trans k')
  | complete used k' => exact .complete used (k.trans k')
  | raised c k' => exact .raised c (k.trans k')

theorem tied_ite {s : State} {q : List HostAct} {ends : Bool} {p : Prop} [Decidable p] {a a' b b' : Res}
    (h : p → Tied s q ends a a') (h' : ¬p → Tied s q ends b b') :
    Tied s q ends (if p then a else b) (if p then a' else b') := by
  split
  · next hp => exact h hp
  · next hp => exact h' hp

/-- A run that cannot complete, followed by one that can. -/
theorem tied_bind {s : State} {q : List HostAct} {ends : Bool} {r r' : Res} {f : State → Res}
    (hr : Tied s q false r r') (hf : KeepsRun ends f) : Tied s q ends (r.bind f) (r'.bind f) := by
  cases hr with
  | ok k => exact (hf _ q).of_keeps k
  | raised c k => exact .raised c k

theorem tied_settle {s : State} {q : List HostAct} {ends : Bool} {r r' : Res} (h : Tied s q ends r r') :
    Reached s r.settle ∧ r'.settle = r.settle.withHost q := by
  cases h with
  | ok k => exact ⟨.running k, rfl⟩
  | complete used k => exact ⟨.completed used k, rfl⟩
  | raised c k => exact ⟨.faulted c k, rfl⟩

/-! ## The writer -/

theorem putByte_keepsRun (b : Byte) : KeepsRun false (putByte b) := fun _ _ =>
  tied_ite (fun _ => .raised _ {}) fun _ => .ok { stored := stored_write b }

theorem putBytes_keepsRun (bs : List Byte) : KeepsRun false (putBytes bs) := by
  induction bs with
  | nil => exact fun _ _ => .ok {}
  | cons b bs ih => exact fun s q => tied_bind (putByte_keepsRun b s q) ih

theorem putBit_keepsRun (b : Bool) : KeepsRun false (putBit b) := fun s q =>
  tied_ite (fun _ => (putByte_keepsRun _ { s with wacc := 0, wcnt := 0 } q).of_keeps {}) fun _ => .ok {}

theorem putBitList_keepsRun (bits : List Bool) : KeepsRun false (putBitList bits) := by
  induction bits with
  | nil => exact fun _ _ => .ok {}
  | cons b bits ih => exact fun s q => tied_bind (putBit_keepsRun b s q) ih

theorem putBits_keepsRun (v n : Nat) : KeepsRun false (putBits v n) := putBitList_keepsRun _

theorem emitString_keepsRun (bytes : List Byte) : KeepsRun false (emitString bytes) := fun s q =>
  tied_ite (fun _ => .raised _ {}) fun _ => putBytes_keepsRun bytes s q

/-! ## Records -/

theorem inputFreq_withHost (s : State) (q : List HostAct) : (s.withHost q).inputFreq = s.inputFreq :=
  inputFreq_withHidden s (s.hiddenWith q)

theorem hufTree_keepsRun : KeepsRun false hufTree := by
  intro s q
  unfold hufTree
  rw [inputFreq_withHost]
  dsimp only
  split
  · change Tied s q false (match hufAssign _ _ _ 0 0 (s.hlen, s.hcode) with | .ok t => _ | .error c => _)
      (match hufAssign _ _ _ 0 0 (s.hlen, s.hcode) with | .ok t => _ | .error c => _)
    split
    · exact .ok {}
    · exact .raised _ {}
  · exact .raised _ {}

theorem hufBuild_keepsRun : KeepsRun false hufBuild := by
  intro s q
  by_cases hl : ∃ f sym, hufLeaves 0 s.inputFreq = [.leaf f sym]
  · obtain ⟨f, sym, hl⟩ := hl
    rw [hufBuild_single hl, hufBuild_single (s := s.withHost q) (by rw [inputFreq_withHost]; exact hl),
      inputFreq_withHost]
    exact .ok {}
  · rw [hufBuild_tree fun f sym hl' => hl ⟨f, sym, hl'⟩,
      hufBuild_tree (s := s.withHost q) fun f sym hl' => hl ⟨f, sym, by rw [← hl', inputFreq_withHost]⟩]
    exact hufTree_keepsRun s q

theorem beginEncode_keepsRun : KeepsRun true beginEncode := by
  intro s q
  unfold beginEncode
  rw [withHost_alg]
  split
  · exact .ok {}
  · exact .ok {}
  · exact .ok {}
  · exact tied_bind (hufBuild_keepsRun s q) fun _ _ => .ok {}

theorem beginDecode_keepsRun : KeepsRun true beginDecode := by
  intro s q
  unfold beginDecode
  rw [withHost_alg]
  split
  · exact tied_ite (fun _ => .raised _ {}) fun _ => .ok {}
  · exact .ok {}
  · exact .ok {}
  · exact .ok {}

/-- The header of a RESTORE is the one record that latches a size (R125). -/
theorem hdrRecord_keepsRun (width height : Half) : KeepsRun true (hdrRecord width height) := by
  intro s q
  rw [hdrRecord, hdrRecord, withHost_dir]
  split
  · exact tied_bind (putBytes_keepsRun _ s q) beginEncode_keepsRun
  · next hd =>
    have k : Keeps s { s with width := width, height := height } := { size := fun h => nomatch hd.symm.trans h }
    exact tied_ite (fun _ => .raised _ k) fun _ => tied_ite (fun _ => .raised _ k) fun _ =>
      (beginDecode_keepsRun _ q).of_keeps k

theorem rawRecord_keepsRun (b : Byte) : KeepsRun true (rawRecord b) := by
  intro s q
  rw [rawRecord, rawRecord, withHost_dir]
  split
  · exact tied_bind (putByte_keepsRun b s q) fun s _ =>
      tied_ite (fun _ => .ok {}) fun _ => .complete _ (t := { s with idx := s.idx + 1 }) {}
  · exact tied_bind (putByte_keepsRun b s q) fun _ _ => tied_ite (fun _ => .ok {}) fun _ => .complete _ {}

theorem rleAdvance_tied (k : Nat) (s : State) (q : List HostAct) :
    Tied s q true (.ok (rleAdvance k s)) (.ok (rleAdvance k (s.withHost q))) := by
  unfold rleAdvance
  change Tied s q true (.ok (if s.rleI + k < s.n then _ else if s.rleCh + 1 < 3 then _ else _))
    (.ok (if s.rleI + k < s.n then _ else if s.rleCh + 1 < 3 then _ else _))
  split
  · exact .ok {}
  · split
    · exact .ok {}
    · exact .complete _ (t := { s with rleI := s.rleI + k }) {}

theorem rleCount_tied (k : Nat) (s : State) (q : List HostAct) :
    Tied s q true (.ok (rleCount k s)) (.ok (rleCount k (s.withHost q))) := by
  unfold rleCount
  change Tied s q true (.ok (if s.rleCnt + k < s.n then _ else if s.rleCh + 1 < 3 then _ else _))
    (.ok (if s.rleCnt + k < s.n then _ else if s.rleCh + 1 < 3 then _ else _))
  split
  · exact .ok {}
  · split
    · exact .ok {}
    · exact .complete _ (t := { s with rleCnt := s.rleCnt + k }) {}

theorem rleProduce_keepsRun (control : Byte) (bytes : List Byte) : KeepsRun true (rleProduce control bytes) := by
  intro s q
  refine tied_ite (fun _ => .raised _ {}) fun _ => ?_
  exact (tied_bind (putBytes_keepsRun bytes { s with rleC := control, rleK := control.toNat % 128 } q)
    fun s q => rleCount_tied s.rleK s q).of_keeps {}

theorem rleRepRecord_keepsRun (count : BitVec 7) (v : Byte) : KeepsRun true (rleRepRecord count v) := by
  intro s q
  rw [rleRepRecord, rleRepRecord, withHost_dir]
  split
  · exact tied_bind (putBytes_keepsRun _ s q) fun s q => rleAdvance_tied _ s q
  · exact (rleProduce_keepsRun _ _ { s with rleV := v } q).of_keeps {}

theorem rleLitRecord_keepsRun (data : List Byte) : KeepsRun true (rleLitRecord data) := by
  intro s q
  rw [rleLitRecord, rleLitRecord, withHost_dir]
  split
  · exact tied_bind (putBytes_keepsRun _ s q) fun s q => rleAdvance_tied _ s q
  · exact rleProduce_keepsRun _ _ s q

theorem emitOrdinary_keepsRun (w : LzwWidth) (code : Nat) : KeepsRun true (emitOrdinary w code) := fun s q =>
  tied_bind (putBits_keepsRun _ _ s q) fun _ _ => tied_ite (fun _ => .ok {}) fun _ => .ok {}

theorem learnAndEmit_keepsRun (w : LzwWidth) (code p : Nat) (fb : Byte) (bytes : List Byte) :
    KeepsRun true (learnAndEmit w code p fb bytes) := fun s q =>
  tied_ite (fun _ => .raised _ {}) fun _ =>
    (tied_bind (emitString_keepsRun bytes (lzwInsert p fb s) q) fun _ _ => .ok {}).of_keeps {}

theorem readOrdinary_keepsRun (w : LzwWidth) (code : Nat) : KeepsRun true (readOrdinary w code) := by
  intro s q
  refine tied_ite (fun _ => .raised _ {}) fun _ => ?_
  rw [withHost_prev]
  split
  · exact tied_ite (fun _ => .raised _ {}) fun _ => tied_bind (emitString_keepsRun _ s q) fun _ _ => .ok {}
  · exact tied_ite (fun _ => learnAndEmit_keepsRun w code _ _ _ s q) fun _ =>
      tied_ite (fun _ => learnAndEmit_keepsRun w code _ _ _ s q) fun _ => .raised _ {}

theorem lzwOrdinary_keepsRun (w : LzwWidth) (code : Nat) : KeepsRun true (lzwOrdinary w code) := by
  intro s q
  rw [lzwOrdinary, lzwOrdinary, withHost_dir]
  split
  · exact emitOrdinary_keepsRun w code s q
  · exact readOrdinary_keepsRun w code s q

theorem lzwClear_keepsRun (w : LzwWidth) : KeepsRun true (lzwClear w) := by
  intro s q
  rw [lzwClear, lzwClear, withHost_dir]
  split
  · exact (tied_bind (putBits_keepsRun _ _ { s with lzwTable := [] } q) fun _ _ => .ok {}).of_keeps {}
  · exact .ok {}

theorem lzwEnd_keepsRun (w : LzwWidth) : KeepsRun true (lzwEnd w) := by
  intro s q
  rw [lzwEnd, lzwEnd, withHost_dir]
  split
  · exact tied_bind (putBits_keepsRun _ _ s q) fun _ _ => .ok {}
  · exact tied_ite (fun _ => .raised _ {}) fun _ => tied_ite (fun _ => .raised _ {}) fun _ => .complete _ {}

theorem hszRecord_keepsRun (n : Byte) : KeepsRun true (hszRecord n) := by
  intro s q
  rw [hszRecord, hszRecord, withHost_dir]
  split
  · exact tied_bind (putByte_keepsRun n s q) fun _ _ => .ok {}
  · exact .ok {}

theorem henRecord_keepsRun (sym len : Byte) (code : Half) : KeepsRun true (henRecord sym len code) := by
  intro s q
  rw [henRecord, henRecord, withHost_dir]
  split
  · exact tied_bind (putBytes_keepsRun _ s q) fun _ _ => tied_ite (fun _ => .ok {}) fun _ => .ok {}
  · exact tied_ite (fun _ => .raised _ {}) fun _ => tied_ite (fun _ => .raised _ {}) fun _ =>
      tied_ite (fun _ => .raised _ {}) fun _ => tied_ite (fun _ => .ok {}) fun _ => .ok {}

theorem readHcw_keepsRun (len : BitVec 5) (code : Half) : KeepsRun true (readHcw len code) := by
  intro s q
  unfold readHcw
  change Tied s q true (match hufLookup s.dtab _ _ with | none => _ | some b => _)
    (match hufLookup s.dtab _ _ with | none => _ | some b => _)
  split
  · exact .raised _ {}
  · exact tied_bind (putByte_keepsRun _ s q) fun _ _ => tied_ite (fun _ => .ok {}) fun _ => .complete _ {}

theorem hcwRecord_keepsRun (len : BitVec 5) (code : Half) : KeepsRun true (hcwRecord len code) := by
  intro s q
  rw [hcwRecord, hcwRecord, withHost_dir]
  split
  · exact tied_bind (putBits_keepsRun _ _ s q) fun _ _ => tied_ite (fun _ => .ok {}) fun _ => .ok {}
  · exact readHcw_keepsRun len code s q

theorem padRecord_keepsRun (n : BitVec 3) : KeepsRun true (padRecord n) := by
  intro s q
  rw [padRecord, padRecord, withHost_dir]
  split
  · exact tied_bind (putBits_keepsRun _ _ s q) fun _ _ => .complete _ {}
  · exact .ok {}

theorem recordRun_keepsRun {i : Instr} (hi : i.isRecord = true) : KeepsRun true (recordRun i) :=
  recordRun_induct hdrRecord_keepsRun rawRecord_keepsRun rleRepRecord_keepsRun rleLitRecord_keepsRun
    lzwOrdinary_keepsRun lzwClear_keepsRun lzwEnd_keepsRun hszRecord_keepsRun henRecord_keepsRun hcwRecord_keepsRun
    padRecord_keepsRun hi

/-! ## Turns -/

theorem encScan_keeps (s : State) : Keeps s (encScan s) := by rw [encScan_eq]; exact {}

theorem encScan_withHost (s : State) (q : List HostAct) : encScan (s.withHost q) = (encScan s).withHost q := by
  rw [withHost_eq, encScan_withHidden, encScan_eq]; rfl

theorem encNext_withHost (s : State) (q : List HostAct) : (s.withHost q).encNext = s.encNext :=
  encNext_withHidden (h := s.hiddenWith q) fun _ => rfl

theorem ctx_withHost (s : State) (q : List HostAct) : (s.withHost q).ctx = s.ctx :=
  ctx_withHidden (h := s.hiddenWith q) fun _ => rfl

theorem window_withHost (s : State) (q : List HostAct) (n : Nat) : (s.withHost q).window n = s.window n :=
  window_withHidden s (s.hiddenWith q) n

theorem rejectCause_withHost (s : State) (q : List HostAct) (r : Reject) :
    (s.withHost q).rejectCause r = s.rejectCause r := by cases r <;> rfl

/-- A turn keeps what a command keeps and carries the host's queue along. -/
theorem engineTurn_tied (s : State) (q : List HostAct) :
    Reached s (engineTurn s) ∧ engineTurn (s.withHost q) = (engineTurn s).withHost q := by
  cases hd : s.dir with
  | compress =>
    have hf := fetchRecord_compress hd
    have hq := fetchRecord_compress (s := s.withHost q) hd
    rw [encScan_withHost, encNext_withHost] at hq
    rw [engineTurn_record hf, engineTurn_record hq]
    exact tied_settle ((recordRun_keepsRun (fetchRecord_isRecord hf) _ q).of_keeps (encScan_keeps s))
  | restore =>
    have hf := fetchRecord_restore hd
    have hq := fetchRecord_restore (s := s.withHost q) hd
    rw [readRecord] at hf
    rw [readRecord, ctx_withHost, window_withHost] at hq
    cases hdec : decode s.ctx (s.window s.ctx.maxBits) with
    | ok p =>
      rw [hdec] at hf hq
      rw [engineTurn_record hf, engineTurn_record hq]
      exact tied_settle ((recordRun_keepsRun (fetchRecord_isRecord hf) _ q).of_keeps {})
    | error r =>
      rw [hdec] at hf hq
      dsimp only at hq
      rw [rejectCause_withHost] at hq
      rw [engineTurn_raised hf, engineTurn_raised hq]
      exact ⟨.faulted _ {}, rfl⟩

theorem engineTurn_reached (s : State) : Reached s (engineTurn s) := (engineTurn_tied s s.host).1

theorem engineTurn_withHost (s : State) (q : List HostAct) : engineTurn (s.withHost q) = (engineTurn s).withHost q :=
  (engineTurn_tied s q).2

/-! ## Commands -/

theorem runRecords_withHost (fuel : Nat) (s : State) (q : List HostAct) :
    runRecords fuel (s.withHost q) = (runRecords fuel s).withHost q := by
  induction fuel generalizing s with
  | zero => rfl
  | succ fuel ih =>
    by_cases hb : s.state = .busy
    · rw [runRecords_busy fuel s hb, runRecords_busy fuel (s.withHost q) hb, engineTurn_withHost, ih]
    · rw [runRecords_quiet _ s hb, runRecords_quiet _ (s.withHost q) hb]

theorem runRecords_reached (fuel : Nat) {s t : State} (h : Reached s t) : Reached s (runRecords fuel t) := by
  refine runRecords_invariant (P := Reached s) (fun t h hb => ?_) fuel h
  cases h with
  | running k => exact (engineTurn_reached t).of_keeps k
  | completed => cases hb
  | faulted => cases hb

theorem directionChecks_keepsRun : KeepsRun true directionChecks := by
  intro s q
  unfold directionChecks
  rw [withHost_dir]
  split
  · exact tied_ite (fun _ => .raised _ {}) fun _ => tied_ite (fun _ => .raised _ {}) fun _ =>
      tied_ite (fun _ => .raised _ {}) fun _ => .ok {}
  · exact tied_ite (fun _ => .raised _ {}) fun _ => tied_ite (fun _ => .raised _ {}) fun _ => .ok {}

/-- The state a codec command is started in: fresh but for `DIR` and `ALG` (R121, R122). -/
def startedAs (dir : Dir) (alg : Alg) (s : State) : State := { startCommand s with dir := dir, alg := alg }

theorem startedAs_inputs (dir : Dir) (alg : Alg) (s : State) : SameInputs s (startedAs dir alg s) :=
  ⟨rfl, rfl, rfl, rfl, rfl, rfl, rfl⟩

theorem beginCommand_withHost (dir : Dir) (alg : Alg) (s : State) (q : List HostAct) :
    beginCommand dir alg (s.withHost q) = (beginCommand dir alg s).withHost q := by
  have hchecks (t : State) := (tied_settle (directionChecks_keepsRun t q)).2
  unfold beginCommand
  dsimp only
  split
  · change (match legalWidth s.lzwW with | none => _ | some w => _) =
      State.withHost q (match legalWidth s.lzwW with | none => _ | some w => _)
    split
    · rfl
    · next w _ => exact hchecks { startedAs dir .lzw s with w := w }
  all_goals exact hchecks (startedAs dir _ s)

theorem runCommand_withHost (dir : Dir) (alg : Alg) (s : State) (q : List HostAct) :
    runCommand dir alg (s.withHost q) = (runCommand dir alg s).withHost q := by
  rw [runCommand, beginCommand_withHost]; exact runRecords_withHost _ _ _

/-- A command's start is the fresh state of R121, still running or faulted. -/
theorem beginCommand_reached (dir : Dir) (alg : Alg) (s : State) :
    Reached (startedAs dir alg s) (beginCommand dir alg s) := by
  obtain ⟨w, h | ⟨c, h⟩⟩ := beginCommand_cases dir alg s <;> rw [h]
  · exact .running {}
  · exact .faulted c {}

theorem runCommand_reached (dir : Dir) (alg : Alg) (s : State) :
    Reached (startedAs dir alg s) (runCommand dir alg s) :=
  runRecords_reached _ (beginCommand_reached dir alg s)

theorem beginCommand_inputs (dir : Dir) (alg : Alg) (s : State) : SameInputs s (beginCommand dir alg s) :=
  (startedAs_inputs dir alg s).trans (beginCommand_reached dir alg s).inputs

theorem runCommand_inputs (dir : Dir) (alg : Alg) (s : State) : SameInputs s (runCommand dir alg s) :=
  (startedAs_inputs dir alg s).trans (runCommand_reached dir alg s).inputs

/-- Every codec command ends, completed or faulted, from a state that keeps what its start had. -/
theorem runCommand_ended (dir : Dir) (alg : Alg) (s : State) :
    (∃ used t, Keeps (startedAs dir alg s) t ∧ runCommand dir alg s = complete used t) ∨
      ∃ c t, Keeps (startedAs dir alg s) t ∧ runCommand dir alg s = faultEntry c t := by
  have hend := runCommand_ends dir alg s
  have hreached := runCommand_reached dir alg s
  generalize runCommand dir alg s = u at hend hreached
  cases hreached with
  | running k => exact absurd k.state hend
  | completed used k => exact .inl ⟨used, _, k, rfl⟩
  | faulted c k => exact .inr ⟨c, _, k, rfl⟩

/-! ## `IBUF` -/

theorem regWrite_ibuf (n v : Nat) (s : State) :
    (s.regWrite n v).ibuf = s.ibuf ∧ (s.regWrite n v).ibufEpoch = s.ibufEpoch := by
  unfold State.regWrite; split <;> exact ⟨rfl, rfl⟩

/-- Settles O51: of everything a step can be, only the two excluded host actions touch `IBUF`. -/
theorem onlyTheHostWritesIbuf : Obligations.OnlyTheHostWritesIbuf := by
  intro s t h hwrite hreset
  have same {s t : State} (h : SameInputs s t) : t.ibuf = s.ibuf ∧ t.ibufEpoch = s.ibufEpoch := ⟨h.ibuf, h.ibufEpoch⟩
  cases step_gives h with
  | turn => exact same (s := s.popped) (engineTurn_reached _).inputs
  | waitTurn => exact same (s := { s with host := .wait :: s.host.tail }) (engineTurn_reached _).inputs
  | quiet => exact ⟨rfl, rfl⟩
  | command _ dir alg => exact same (s := s.popped) (runCommand_inputs dir alg _)
  | begun _ dir alg => exact same (s := s.popped) (beginCommand_inputs dir alg _)
  | illegal => exact ⟨rfl, rfl⟩
  | regWrite _ n v => exact regWrite_ibuf n v s.popped
  | ibufWrite _ a b _ hh => exact absurd hh (hwrite a b)
  | soft => exact ⟨rfl, rfl⟩
  | hard hh => exact absurd hh hreset

end Sys2Proof.Machine
end

section
/-! The two ways to run a command (R70, R71, R76): its word as one step, or its start and a `wait` that takes the engine's
turns one by one. -/

namespace Sys2Proof.Machine

/-! ## The steps of a `wait` -/

theorem hostEffect_wait_busy {s : State} (hb : s.state = .busy) :
    hostEffect .wait s = .next (engineTurn (s.withHost (.wait :: s.host))) := by
  rw [← engineStep_eq]
  simp only [hostEffect]
  split
  · rfl
  all_goals next hs => cases hs.symm.trans hb

theorem hostEffect_wait_quiet {s : State} (hb : s.state ≠ .busy) : hostEffect .wait s = hostRegRead 1 s := by
  simp only [hostEffect]
  split
  · next hs => exact absurd hs hb
  all_goals rfl

/-- A `wait` takes a BUSY engine's turn and stays at the head of the queue. -/
theorem step_wait_busy {s : State} {q : List HostAct} (hh : s.host = .wait :: q) (hb : s.state = .busy) :
    step s = .next (engineTurn s) := by
  have hs : s.withHost (.wait :: q) = s := by rw [← hh]; rfl
  refine (step_hostEffect hh (.inr rfl)).trans ((hostEffect_wait_busy (s := s.withHost q) hb).trans ?_)
  exact congrArg (fun t => Host.Outcome.next (engineTurn t)) hs

/-- The last `STATUS` read of a `wait` frees the host's hands (R304, R105); in IDLE they are free already. -/
theorem step_wait_quiet {s : State} (hb : s.state ≠ .busy)
    (hi : s.state = .idle → s.handsOff = false) :
    step (s.withHost (.wait :: s.host)) = .next { s with rdata := s.regRead 1, handsOff := false } := by
  have hoff : s.handsOffAfterRead 1 = false := by
    unfold State.handsOffAfterRead
    cases hs : s.state with
    | idle => simp [hi hs]
    | busy => exact absurd hs hb
    | done | fault => simp
  have hread : hostRegRead 1 s = .next { s with rdata := s.regRead 1, handsOff := s.handsOffAfterRead 1 } :=
    if_neg fun h => h.2 rfl
  rw [hoff] at hread
  exact (step_hostEffect rfl (.inr rfl)).trans ((hostEffect_wait_quiet hb).trans hread)

theorem run_succ {s t : State} (h : step s = .next t) (k : Nat) :
    Host.Core.run core (k + 1) s = Host.Core.run core k t := by
  have h : core.step s = .next t := h
  simp only [Host.Core.run, h]

/-- A `wait` runs the engine's turns and then takes one step more (R105, R76). -/
theorem run_wait (fuel : Nat) {s : State} {q : List HostAct} (hh : s.host = .wait :: q)
    (hend : (runRecords fuel s).state ≠ .busy) {u : State} (hu : step (runRecords fuel s) = .next u) :
    ∃ k, Host.Core.run core k s = .next u := by
  induction fuel generalizing s with
  | zero => exact ⟨1, run_succ hu 0⟩
  | succ fuel ih =>
    by_cases hb : s.state = .busy
    · rw [runRecords_busy fuel s hb] at hend hu
      obtain ⟨k, hk⟩ := ih ((engineTurn_reached s).inputs.host.trans hh) hend hu
      exact ⟨k + 1, (run_succ (step_wait_busy hh hb) k).trans hk⟩
    · rw [runRecords_quiet _ s hb] at hu
      exact ⟨1, run_succ hu 0⟩

/-! ## The word as one step and record by record -/

/-- After a command word, which leaves the engine quiet, the same word with any queue leaves the same state. -/
theorem exec_command_withHost {word : CmdWord} {s t : State} (hr : s.Ready) (h : exec (decodeCmd word) s = .next t) :
    t.state ≠ .busy ∧ (t.state = .idle → t.handsOff = false) ∧
      ∀ q, exec (decodeCmd word) (s.withHost q) = .next (t.withHost q) := by
  rcases decodeCmd_cases word with ⟨dir, alg, hd⟩ | ⟨_, hd⟩ | ⟨_, hd⟩ <;> rw [hd] at h ⊢
  · rw [exec_commandOf, acceptCommand_ready _ _ hr] at h
    cases h
    refine ⟨runCommand_ends dir alg s, fun hi => ?_, fun q => ?_⟩
    · obtain ⟨used, t, _, ht⟩ | ⟨c, t, _, ht⟩ := runCommand_ended dir alg s <;> rw [ht] at hi <;> cases hi
    · rw [exec_commandOf, acceptCommand_ready _ (s.withHost q) hr, runCommand_withHost]
  · cases h
    exact ⟨nofun, fun _ => rfl, fun _ => rfl⟩
  · change acceptCommand beginIllegal s = _ at h
    rw [acceptCommand_ready _ _ hr] at h
    cases h
    exact ⟨nofun, nofun, fun q => acceptCommand_ready _ (s.withHost q) hr⟩

/-- With its hands free, or for the soft reset, the host's write that starts a command has its effect (R304). -/
theorem step_cmdStart {s : State} {word : CmdWord} {rest : List HostAct} (hh : s.host = .cmdStart word :: rest)
    (hf : s.handsOff = false ∨ decodeCmd word = .sreset) :
    step s = commandBegin (decodeCmd word) (s.withHost rest) :=
  step_hostEffect hh (hf.imp_right fun h => by simp [handsOffAllows, resetAction, decodeCmd_eq_sreset.mp h])

/-- Started and waited for, a command runs to the same end: a codec command turn by turn, the other words at once. -/
theorem run_cmdStart_wait {s t u : State} {word : CmdWord} (hr : s.Ready)
    (hf : s.handsOff = false ∨ decodeCmd word = .sreset) (h : exec (decodeCmd word) s = .next t)
    (hu : step (t.withHost (.wait :: s.host)) = .next u) :
    ∃ k, Host.Core.run core k (s.withHost (.cmdStart word :: .wait :: s.host)) = .next u := by
  have hstart : step (s.withHost (.cmdStart word :: .wait :: s.host)) =
      commandBegin (decodeCmd word) (s.withHost (.wait :: s.host)) := step_cmdStart rfl hf
  have hexec := (exec_command_withHost hr h).2.2 (.wait :: s.host)
  rcases decodeCmd_cases word with ⟨dir, alg, hd⟩ | ⟨_, hd⟩ | ⟨_, hd⟩ <;> rw [hd] at hstart hexec
  · have hr' : (s.withHost (.wait :: s.host)).Ready := hr
    rw [commandBegin_commandOf, acceptCommand_ready _ _ hr'] at hstart
    rw [exec_commandOf, acceptCommand_ready _ _ hr'] at hexec
    have hrun : runCommand dir alg (s.withHost (.wait :: s.host)) = t.withHost (.wait :: s.host) :=
      Host.Outcome.next.inj hexec
    obtain ⟨k, hk⟩ := run_wait (u := u) (s.withHost (.wait :: s.host)).turnBound
      (beginCommand_inputs dir alg (s.withHost (.wait :: s.host))).host (runCommand_ends dir alg _)
      ((congrArg step hrun).trans hu)
    exact ⟨k + 1, (run_succ hstart k).trans hk⟩
  all_goals exact ⟨2, (run_succ (hstart.trans hexec) 1).trans (run_succ hu 0)⟩

/-- What command start leaves running is the fresh state of R121: results invalid, inputs and `OBUF` untouched. -/
theorem beginCommand_fresh {dir : Dir} {alg : Alg} {s u : State} (hu : beginCommand dir alg s = u)
    (hb : u.state = .busy) :
    u.Fresh ∧ u.cause = none ∧ u.outLen = 0 ∧ u.inUsed = 0 ∧ u.statTable = 0 ∧ u.statClears = 0 ∧
      SameInputs s u ∧ SameSize s u ∧ u.obuf = s.obuf ∧ u.obufEpoch = s.obufEpoch := by
  subst hu
  have hinputs := beginCommand_inputs dir alg s
  obtain ⟨⟨w, hw⟩, _⟩ := beginCommand_busy hb
  rw [hw] at hinputs ⊢
  exact ⟨{ startCommand_fresh s with }, rfl, rfl, rfl, rfl, rfl, hinputs, ⟨rfl, rfl⟩, rfl, rfl⟩

theorem beginCommand_state (dir : Dir) (alg : Alg) (s : State) :
    (beginCommand dir alg s).state = .busy ∨ (beginCommand dir alg s).state = .fault := by
  obtain ⟨w, h | ⟨c, h⟩⟩ := beginCommand_cases dir alg s <;> rw [h]
  · exact .inl rfl
  · exact .inr rfl

/-- Settles O54: the engine does not read the host's queue, so a `wait` at its head takes the turns the command word takes
at once. -/
theorem startedCommandReachesTheSameState : Obligations.StartedCommandReachesTheSameState := by
  refine ⟨?_, ?_⟩
  · rintro s word t _ hr hf h rfl
    obtain ⟨hquiet, hidle, hexec⟩ := exec_command_withHost hr h
    have hown : t = t.withHost s.host := Host.Outcome.next.inj (h.symm.trans (hexec s.host))
    have hhost : t.host = s.host := (congrArg State.host hown :)
    have hwait : step (t.withHost (.wait :: s.host)) = .next { t with rdata := t.regRead 1, handsOff := false } := by
      rw [← hhost]; exact step_wait_quiet hquiet hidle
    have hword := (stepRunsTheCommandWord (s.withHost (.regWrite 0 word.toNat :: .wait :: s.host)) word.toNat _ rfl).1
    rw [BitVec.ofNat_toNat, BitVec.setWidth_eq] at hword
    exact ⟨(run_succ ((hword hf).trans (hexec _)) 1).trans (run_succ hwait 0), run_cmdStart_wait hr hf h hwait⟩
  · intro s word dir alg rest hr hf hd hh
    have hstep := step_cmdStart hh (.inl hf)
    rw [hd, commandBegin_commandOf, acceptCommand_ready _ (s.withHost rest) hr] at hstep
    exact ⟨_, hstep, (beginCommand_reached dir alg _).handsOff, beginCommand_state dir alg _, beginCommand_fresh rfl⟩

end Sys2Proof.Machine
end

section
/-! What a RESTORE is certain of between its records (R125, R134, R177, R241): how far it has read and written, so that it
completes with exactly `TOTAL` bytes; and the frame of a whole command. -/

namespace Sys2Proof.Machine

/-! ## What a running RESTORE is certain of -/

/-- The phases in which a RESTORE still lacks bytes of the image, however many it has written: NoOp and Huffman. -/
def DecPhase.lacksBytes : DecPhase → Bool
  | .raw | .hufSize | .hufTable | .hufCodes => true
  | .header | .rle | .lzw => false

/-- A RESTORE between two records: `RPOS` is inside the stream and behind the header, and `WPOS` is where its phase has it. -/
structure State.Restoring (s : State) : Prop where
  busy : s.state = .busy
  dir : s.dir = .restore
  read : s.rpos ≤ 8 * s.inLen
  fresh : s.dec = .header → s.wpos = 0
  size : s.dec ≠ .header → 32 ≤ s.rpos ∧ s.n ≠ 0
  room : s.dec.lacksBytes = true → s.wpos < s.total
  rle : s.dec = .rle → s.wpos = s.rleCh * s.n + s.rleCnt ∧ s.rleCh < 3 ∧ s.rleCnt < s.n

/-- The RESTORE goes on, has faulted, or has completed with exactly the bytes of the image, read from at least a header and
at most the whole input. -/
structure State.Restored (t : State) : Prop where
  running : t.state = .busy → t.Restoring
  completed : t.state = .done → t.outLen = t.total ∧ t.n ≠ 0 ∧ 4 ≤ t.inUsed ∧ t.inUsed ≤ t.inLen

theorem State.Restoring.restored {s : State} (h : s.Restoring) : s.Restored where
  running := fun _ => h
  completed := fun hd => nomatch h.busy.symm.trans hd

theorem restored_faultEntry (c : Cause) (s : State) : (faultEntry c s).Restored := ⟨nofun, nofun⟩

theorem restored_settle {r : Res} (h : r.Lands State.Restored) : r.settle.Restored := by
  cases r with
  | ok s => exact h s rfl
  | raised c s => exact restored_faultEntry c s

theorem restored_finish {s : State} (hp : s.wpos = s.total) (hn : s.n ≠ 0) (h32 : 32 ≤ s.rpos)
    (hr : s.rpos ≤ 8 * s.inLen) : (finishRestore s).Restored where
  running := nofun
  completed := fun _ => by
    have hused : 4 ≤ ceil8 s.rpos ∧ ceil8 s.rpos ≤ s.inLen := by unfold ceil8; omega
    exact ⟨hp, hn, hused⟩

/-- Within the phases that lack bytes only `WPOS` matters. -/
theorem State.Restoring.lacking {s t : State} (h : s.Restoring) (hs : s.dec.lacksBytes = true)
    (ht : t.dec.lacksBytes = true) (room : t.wpos < t.total) (hstate : t.state = s.state := by rfl)
    (hdir : t.dir = s.dir := by rfl) (hrpos : t.rpos = s.rpos := by rfl) (hlen : t.inLen = s.inLen := by rfl)
    (hn : t.n = s.n := by rfl) : t.Restoring where
  busy := hstate.trans h.busy
  dir := hdir.trans h.dir
  read := by rw [hrpos, hlen]; exact h.read
  fresh := fun hd => by rw [hd] at ht; cases ht
  size := fun _ => by rw [hrpos, hn]; exact h.size fun hd => by rw [hd] at hs; cases hs
  room := fun _ => room
  rle := fun hd => by rw [hd] at ht; cases ht

/-- In the phase of LZW codes `WPOS` does not matter: END tests it (R203). -/
theorem State.Restoring.lzw {s t : State} (h : s.Restoring) (hs : s.dec = .lzw) (hdec : t.dec = s.dec := by rfl)
    (hstate : t.state = s.state := by rfl) (hdir : t.dir = s.dir := by rfl) (hrpos : t.rpos = s.rpos := by rfl)
    (hlen : t.inLen = s.inLen := by rfl) (hn : t.n = s.n := by rfl) : t.Restoring where
  busy := hstate.trans h.busy
  dir := hdir.trans h.dir
  read := by rw [hrpos, hlen]; exact h.read
  fresh := fun hd => by rw [hdec, hs] at hd; cases hd
  size := fun _ => by rw [hrpos, hn]; exact h.size fun hd => by rw [hs] at hd; cases hd
  room := fun hd => by rw [hdec, hs] at hd; cases hd
  rle := fun hd => by rw [hdec, hs] at hd; cases hd

/-! ## Records of a RESTORE, in the phase that reads them -/

theorem lands_putBytes {P : State → Prop} {s : State} {f : State → Res} (bs : List Byte)
    (hf : ∀ m, (f { s with obuf := m, wpos := s.wpos + bs.length }).Lands P) : ((putBytes bs s).bind f).Lands P := by
  rcases putBytes_cases bs s with ⟨_, h⟩ | ⟨_, _, h⟩ <;> rw [h]
  · exact hf _
  · exact lands_raised _ _

theorem lands_putByte {P : State → Prop} {s : State} {f : State → Res} (b : Byte)
    (hf : ∀ m, (f { s with obuf := m, wpos := s.wpos + 1 }).Lands P) : ((putByte b s).bind f).Lands P := by
  unfold putByte
  split
  · exact lands_raised _ _
  · exact hf _

section Records

variable {s : State} (h : s.Restoring)
include h

theorem beginDecode_restores (hp : s.wpos = 0) (h32 : 32 ≤ s.rpos) (hn : s.n ≠ 0) :
    (beginDecode s).Lands State.Restored := by
  have htotal : s.wpos < s.total := by rw [hp, total_eq]; omega
  have going {t : State} (ht : t.dec ≠ .header) (hrle : t.dec = .rle → t.rleCh = 0 ∧ t.rleCnt = 0)
      (hstate : t.state = s.state) (hdir : t.dir = s.dir) (hrpos : t.rpos = s.rpos) (hlen : t.inLen = s.inLen)
      (htn : t.n = s.n) (hwpos : t.wpos = s.wpos) : t.Restored := State.Restoring.restored
    { busy := hstate.trans h.busy
      dir := hdir.trans h.dir
      read := by rw [hrpos, hlen]; exact h.read
      fresh := fun hd => absurd hd ht
      size := fun _ => by rw [hrpos, htn]; exact ⟨h32, hn⟩
      room := fun _ => by rw [hwpos, total_eq, htn]; exact htotal
      rle := fun hd => by
        obtain ⟨hch, hcnt⟩ := hrle hd
        rw [hch, hcnt, hwpos, hp, htn]; omega }
  unfold beginDecode
  split
  · exact lands_ite (fun _ => lands_raised _ _) fun _ => lands_ok (going nofun nofun rfl rfl rfl rfl rfl rfl)
  · exact lands_ok (going nofun (fun _ => ⟨rfl, rfl⟩) rfl rfl rfl rfl rfl rfl)
  · exact lands_ok (going nofun nofun rfl rfl rfl rfl rfl rfl)
  · exact lands_ok (going nofun nofun rfl rfl rfl rfl rfl rfl)

theorem readHeader_restores (width height : Half) (hdec : s.dec = .header) (h32 : 32 ≤ s.rpos) :
    (readHeader width height s).Lands State.Restored := by
  refine lands_ite (fun _ => lands_raised _ _) fun hn => lands_ite (fun _ => lands_raised _ _) fun _ => ?_
  have hne {P : Prop} (hd : s.dec ≠ .header) : P := absurd hdec hd
  exact beginDecode_restores (s := { s with width := width, height := height })
    { h with size := hne, room := fun hd => by rw [hdec] at hd; cases hd
             rle := fun hd => nomatch hdec.symm.trans hd } (h.fresh hdec) h32 hn

/-- One byte more: the last one of the image ends the command (R127, R241). -/
theorem putByte_restores (b : Byte) (hdec : s.dec.lacksBytes = true) :
    ((putByte b s).bind fun s1 => if s1.wpos < s1.total then .ok s1 else .ok (finishRestore s1)).Lands
      State.Restored := by
  refine lands_putByte b fun m => lands_ite (fun hlt => lands_ok ?_) fun hge => lands_ok ?_
  · exact (h.lacking (t := { s with obuf := m, wpos := s.wpos + 1 }) hdec hdec hlt).restored
  · obtain ⟨h32, hn⟩ := h.size fun hd => by rw [hd] at hdec; cases hdec
    have hlt := h.room hdec
    refine restored_finish ?_ hn h32 h.read
    change ¬s.wpos + 1 < s.total at hge
    change s.wpos + 1 = s.total
    omega

/-- `k` bytes more of the current channel: the last channel's last byte ends the command (R177). -/
theorem rleCount_restores {k p : Nat} {m : Memory} (c v : Byte) (hdec : s.dec = .rle) (hk : k ≤ s.rleRoom)
    (hpk : p = s.wpos + k) : (rleCount k { s with rleC := c, rleK := k, rleV := v, obuf := m, wpos := p }).Restored := by
  subst hpk
  obtain ⟨hp, hch, hcnt⟩ := h.rle hdec
  obtain ⟨h32, hn⟩ := h.size fun hd => nomatch hdec.symm.trans hd
  unfold State.rleRoom at hk
  have going {p ch cnt : Nat} (hp : p = ch * s.n + cnt ∧ ch < 3 ∧ cnt < s.n) :
      State.Restored { s with rleC := c, rleK := k, rleV := v, obuf := m, wpos := p, rleCh := ch, rleCnt := cnt } :=
    State.Restoring.restored { h with
      fresh := fun hd => nomatch hdec.symm.trans hd
      room := fun hd => by change s.dec.lacksBytes = true at hd; rw [hdec] at hd; cases hd
      rle := fun _ => hp }
  unfold rleCount
  split
  · next hlt => exact going ⟨by rw [hp]; exact Nat.add_assoc _ _ _, hch, hlt⟩
  · next hge =>
    change ¬s.rleCnt + k < s.n at hge
    split
    · next hlt =>
      have hnext : s.wpos + k = (s.rleCh + 1) * s.n + 0 := by rw [hp, Nat.succ_mul]; omega
      exact going ⟨hnext, hlt, Nat.pos_of_ne_zero hn⟩
    · next hlast =>
      change ¬s.rleCh + 1 < 3 at hlast
      refine restored_finish ?_ hn h32 h.read
      have hch2 : s.rleCh = 2 := by omega
      change s.wpos + k = 3 * s.n
      rw [hp, hch2]; omega

/-- The bytes of a record whose control byte counts them (R177, R180 (a)). -/
theorem rleProduce_restores {control : Byte} {bytes : List Byte} (v : Byte) (hdec : s.dec = .rle)
    (hcount : control.toNat % 128 = bytes.length) :
    (rleProduce control bytes { s with rleV := v }).Lands State.Restored := by
  refine lands_ite (fun _ => lands_raised _ _) fun hroom => lands_putBytes bytes fun m => lands_ok ?_
  change ¬s.rleRoom < control.toNat % 128 at hroom
  exact rleCount_restores h control v hdec (Nat.le_of_not_lt hroom) (by rw [hcount])

theorem decodeRep_restores (count : BitVec 7) (v : Byte) (hdec : s.dec = .rle) :
    (decodeRep count v s).Lands State.Restored := by
  refine rleProduce_restores h v hdec ?_
  have := count.isLt
  rw [repControl, BitVec.toNat_ofNat, List.length_replicate]; omega

theorem decodeLit_restores {data : List Byte} (hdata : data.length < 128) (hdec : s.dec = .rle) :
    (decodeLit data s).Lands State.Restored := by
  refine rleProduce_restores h s.rleV hdec ?_
  rw [litControl, BitVec.toNat_ofNat]; omega

theorem learnAndEmit_restores (w : LzwWidth) (c p : Nat) (fb : Byte) (bytes : List Byte) (hdec : s.dec = .lzw) :
    (learnAndEmit w c p fb bytes s).Lands State.Restored :=
  lands_ite (fun _ => lands_raised _ _) fun _ => lands_bind (emitString_writes _ _) fun _ _ _ _ =>
    lands_ok (h.lzw hdec).restored

theorem readOrdinary_restores (w : LzwWidth) (c : Nat) (hdec : s.dec = .lzw) :
    (readOrdinary w c s).Lands State.Restored := by
  refine lands_ite (fun _ => lands_raised _ _) fun _ => ?_
  split
  · exact lands_ite (fun _ => lands_raised _ _) fun _ => lands_bind (emitString_writes _ _) fun _ _ _ _ =>
      lands_ok (h.lzw hdec).restored
  · exact lands_ite (fun _ => learnAndEmit_restores h w c _ _ _ hdec) fun _ =>
      lands_ite (fun _ => learnAndEmit_restores h w c _ _ _ hdec) fun _ => lands_raised _ _

theorem readClear_restores (hdec : s.dec = .lzw) : (readClear s).Lands State.Restored :=
  lands_ok (h.lzw hdec).restored

theorem readEnd_restores (hdec : s.dec = .lzw) : (readEnd s).Lands State.Restored := by
  refine lands_ite (fun _ => lands_raised _ _) fun _ => lands_ite (fun _ => lands_raised _ _) fun hp => lands_ok ?_
  obtain ⟨h32, hn⟩ := h.size fun hd => nomatch hdec.symm.trans hd
  exact restored_finish (Decidable.not_not.mp hp) hn h32 h.read

/-- Any LZW code: CLEAR, END or an ordinary one. -/
theorem lzwInstr_restores (w : LzwWidth) (c : Nat) (hdec : s.dec = .lzw) :
    (recordRun (lzwInstr w c) s).Lands State.Restored := by
  by_cases h1 : c = 256
  · rw [h1, recordRun_lzwClear, lzwClear, h.dir]; exact readClear_restores h hdec
  by_cases h2 : c = 257
  · rw [h2, recordRun_lzwEnd, lzwEnd, h.dir]; exact readEnd_restores h hdec
  obtain ⟨c', hc⟩ := recordRun_lzwOrdinary w h1 h2
  rw [hc, lzwOrdinary, h.dir]; exact readOrdinary_restores h w c' hdec

theorem readHsz_restores (n : Byte) (hdec : s.dec = .hufSize) : (readHsz n s).Lands State.Restored := by
  have hs : s.dec.lacksBytes = true := by rw [hdec]; rfl
  exact lands_ok (State.Restoring.restored (h.lacking hs rfl (h.room hs)))

theorem readHen_restores (sym len : Byte) (code : Half) (hdec : s.dec = .hufTable) :
    (readHen sym len code s).Lands State.Restored := by
  have hs : s.dec.lacksBytes = true := by rw [hdec]; rfl
  exact lands_ite (fun _ => lands_raised _ _) fun _ => lands_ite (fun _ => lands_raised _ _) fun _ =>
    lands_ite (fun _ => lands_raised _ _) fun _ => lands_ite
      (fun _ => lands_ok (State.Restoring.restored (h.lacking hs hs (h.room hs)))) fun _ =>
      lands_ok (State.Restoring.restored (h.lacking hs rfl (h.room hs)))

theorem readHcw_restores (len : BitVec 5) (code : Half) (hdec : s.dec = .hufCodes) :
    (readHcw len code s).Lands State.Restored := by
  unfold readHcw
  split
  · exact lands_raised _ _
  · exact putByte_restores h _ (by rw [hdec]; rfl)

end Records

/-! ## The record a RESTORE reads in each phase -/

/-- An RLE record's literal bytes are counted in seven bits (R95). -/
theorem decodeRle_cases {bs rest : List Bool} {i : Instr} (h : decodeRle bs = .ok (i, rest)) :
    (∃ count v, i = .rleRep count v) ∨ ∃ data, i = .rleLit data ∧ data.length < 128 := by
  simp only [decodeRle] at h
  split at h
  · cases h
  split at h
  · cases h
  next hcount =>
  split at h <;> split at h <;> cases h
  · exact .inl ⟨_, _, rfl⟩
  · next hdata =>
    refine .inr ⟨_, rfl, ?_⟩
    rw [(takeBytes_some hdata).1]
    exact (takeBits_some hcount).1

theorem decodeCode_isHcw {entries : List HufEntry} {lens : List Nat} {bs rest : List Bool} {i : Instr}
    (h : decodeCode entries lens bs = .ok (i, rest)) : ∃ len code, i = .hcw len code := by
  induction lens with
  | nil => cases h
  | cons l ls ih =>
    simp only [decodeCode] at h
    split at h
    · cases h
    · split at h
      · cases h; exact ⟨_, _, rfl⟩
      · exact ih h

/-- The record decoded in the context of a RESTORE does what its phase expects of it. -/
theorem decodedRecord_restores {s : State} (h : s.Restoring) {bs rest : List Bool} {i : Instr}
    (hdec : decode s.ctx bs = .ok (i, rest)) (h32 : 32 ≤ s.rpos) : (recordRun i s).Lands State.Restored := by
  cases hp : s.dec <;> simp only [State.ctx, hp, decode] at hdec
  case header =>
    split at hdec
    · cases hdec
    split at hdec <;> cases hdec
    change (hdrRecord _ _ s).Lands _
    rw [hdrRecord, h.dir]; exact readHeader_restores h _ _ hp h32
  case raw =>
    split at hdec <;> cases hdec
    change (rawRecord _ s).Lands _
    rw [rawRecord, h.dir]; exact putByte_restores h _ (by rw [hp]; rfl)
  case rle =>
    obtain ⟨count, v, rfl⟩ | ⟨data, rfl, hdata⟩ := decodeRle_cases hdec
    · change (rleRepRecord _ _ s).Lands _
      rw [rleRepRecord, h.dir]; exact decodeRep_restores h _ _ hp
    · change (rleLitRecord _ s).Lands _
      rw [rleLitRecord, h.dir]; exact decodeLit_restores h hdata hp
  case lzw =>
    split at hdec <;> cases hdec
    exact lzwInstr_restores h _ _ hp
  case hufSize =>
    split at hdec <;> cases hdec
    change (hszRecord _ s).Lands _
    rw [hszRecord, h.dir]; exact readHsz_restores h _ hp
  case hufTable =>
    split at hdec
    · cases hdec
    split at hdec
    · cases hdec
    split at hdec <;> cases hdec
    change (henRecord _ _ _ s).Lands _
    rw [henRecord, h.dir]; exact readHen_restores h _ _ _ hp
  case hufCodes =>
    obtain ⟨len, code, rfl⟩ := decodeCode_isHcw hdec
    change (hcwRecord _ _ s).Lands _
    rw [hcwRecord, h.dir]; exact readHcw_restores h _ _ hp

/-- The header takes 32 bits (R93). -/
theorem decode_hdr_length {ctx : Ctx} {bs rest : List Bool} {i : Instr} (hc : ctx = .hdr)
    (h : decode ctx bs = .ok (i, rest)) : bs.length = 32 + rest.length := by
  subst hc
  simp only [decode] at h
  split at h
  · cases h
  next h1 =>
  split at h <;> cases h
  next h2 =>
  have := takeBits_length h1
  have := takeBits_length h2
  omega

/-! ## A RESTORE from its start to its end -/

theorem engineTurn_restores {s : State} (h : s.Restoring) : (engineTurn s).Restored := by
  have hf := fetchRecord_restore h.dir
  unfold readRecord at hf
  split at hf
  · next i rest hdec =>
    rw [engineTurn_record hf]
    have hle : (s.window s.ctx.maxBits).length ≤ 8 * s.inLen - s.rpos := by
      rw [State.window, length_bitsFrom]; exact Nat.min_le_right _ _
    set taken := (s.window s.ctx.maxBits).length - rest.length with htaken
    have hread : s.rpos + taken ≤ 8 * s.inLen := by have := h.read; omega
    have hmoved : 32 ≤ s.rpos + taken := by
      by_cases hd : s.dec = .header
      · have hlen := decode_hdr_length (by rw [State.ctx, hd]) hdec
        omega
      · exact Nat.le_add_right_of_le (h.size hd).1
    have h1 : (skipBits taken s).Restoring := { h with read := hread, size := fun hd => ⟨hmoved, (h.size hd).2⟩ }
    exact restored_settle (decodedRecord_restores h1 hdec hmoved)
  · rw [engineTurn_raised hf]; exact restored_faultEntry _ _

theorem beginCommand_restores (alg : Alg) (s : State) : (beginCommand .restore alg s).Restored := by
  obtain ⟨w, h | ⟨c, h⟩⟩ := beginCommand_cases .restore alg s <;> rw [h]
  · exact State.Restoring.restored
      { busy := rfl
        dir := rfl
        read := Nat.zero_le _
        fresh := fun _ => rfl
        size := fun hd => absurd rfl hd
        room := nofun
        rle := nofun }
  · exact restored_faultEntry _ _

theorem runCommand_restores (alg : Alg) (s : State) : (runCommand .restore alg s).Restored :=
  runRecords_invariant (fun _ h hb => engineTurn_restores (h.running hb)) _ (beginCommand_restores alg s)

/-! ## The frame of a command -/

/-- A command starts with nothing written. -/
theorem startedAs_stored (dir : Dir) (alg : Alg) {s : State} (h : Memory.wf s.obuf = true) :
    (startedAs dir alg s).Stored := ⟨h, fun _ ha => absurd ha (Nat.not_lt_zero _)⟩

/-- Settles O20: the command ends, completed or faulted, from a state that has kept its inputs and every byte written; what a
RESTORE has done by then is what its phases are certain of. -/
theorem commandFrame : Obligations.CommandFrame := by
  intro dir alg s t hr hwf h
  rw [exec_commandOf, acceptCommand_ready _ _ hr] at h
  cases h
  have hreached := runCommand_reached dir alg s
  refine ⟨runCommand_inputs dir alg s, hreached.handsOff, hreached.size, fun hdone => ?_, fun hfault => ?_, ?_⟩
  · obtain ⟨used, t, k, ht⟩ | ⟨c, t, k, ht⟩ := runCommand_ended dir alg s <;> rw [ht] at hdone ⊢
    · exact ⟨k.cause, keys_below (k.stored (startedAs_stored dir alg hwf))⟩
    · cases hdone
  · obtain ⟨used, t, k, ht⟩ | ⟨c, t, k, ht⟩ := runCommand_ended dir alg s <;> rw [ht] at hfault ⊢
    · cases hfault
    · exact ⟨rfl, rfl, rfl, rfl, rfl, rfl⟩
  · rintro rfl
    exact (runCommand_restores alg s).completed

end Sys2Proof.Machine
end

section
/-! The encodings of 30_encoding.md: every family of instructions is read back from its encoding, and what is read is
the encoding of something well formed. Last, the header of a RESTORE (R93, R125). -/

namespace Sys2Proof.Machine

/-! ## Command words (R92) -/

theorem decodeCmd_illegal {v : CmdWord} (h : v ∉ legalCmdWords) : decodeCmd v = .cmdIllegal v := by
  simp only [legalCmdWords, List.mem_cons, List.not_mem_nil, or_false, not_or] at h
  obtain ⟨h0, h1, h2, h3, h4, h5, h6, h7, h80⟩ := h
  simp only [decodeCmd, h0, h1, h2, h3, h4, h5, h6, h7, h80, if_false]

/-- A word decodes to a well-formed command whose encoding is the word. -/
theorem encode_decodeCmd (v : CmdWord) :
    (decodeCmd v).wellFormed = true ∧ encode (decodeCmd v) = bitsOf 32 v.toNat := by
  by_cases h : v ∈ legalCmdWords
  · simp only [legalCmdWords, List.mem_cons, List.not_mem_nil, or_false] at h
    obtain rfl | rfl | rfl | rfl | rfl | rfl | rfl | rfl | rfl := h <;> exact ⟨rfl, rfl⟩
  · rw [decodeCmd_illegal h]
    exact ⟨by simpa [Instr.wellFormed] using h, rfl⟩

/-- Every well-formed command is what some word decodes to. -/
theorem exists_decodeCmd {i : Instr} (hi : i.isCommand = true) (hw : i.wellFormed = true) : ∃ v, i = decodeCmd v := by
  cases i with
  | cnoop => exact ⟨0x00#32, rfl⟩
  | crle => exact ⟨0x01#32, rfl⟩
  | clzw => exact ⟨0x02#32, rfl⟩
  | chuf => exact ⟨0x03#32, rfl⟩
  | rnoop => exact ⟨0x04#32, rfl⟩
  | rrle => exact ⟨0x05#32, rfl⟩
  | rlzw => exact ⟨0x06#32, rfl⟩
  | rhuf => exact ⟨0x07#32, rfl⟩
  | sreset => exact ⟨0x80#32, rfl⟩
  | cmdIllegal word => exact ⟨word, (decodeCmd_illegal (by simpa [Instr.wellFormed] using hw)).symm⟩
  | _ => cases hi

/-- A command is read at the command port only. -/
theorem admits_command {ctx : Ctx} {i : Instr} (hi : i.isCommand = true) (h : ctx.admits i) : ctx = .cmd := by
  cases i with
  | cnoop | crle | clzw | chuf | rnoop | rrle | rlzw | rhuf | sreset | cmdIllegal _ => exact h
  | _ => cases hi

theorem decode_encode_command {ctx : Ctx} {i : Instr} (rest : List Bool) (hi : i.isCommand = true)
    (hw : i.wellFormed = true) (h : ctx.admits i) : decode ctx (encode i ++ rest) = .ok (i, rest) := by
  obtain rfl := admits_command hi h
  obtain ⟨v, rfl⟩ := exists_decodeCmd hi hw
  rw [(encode_decodeCmd v).2]
  simp only [decode, takeBits_bitsOf, Nat.mod_eq_of_lt v.isLt, BitVec.ofNat_toNat, BitVec.setWidth_eq]

/-- Settles O1: the words of R92, and records written out from their formats. -/
theorem writtenOutWordsDecode : Obligations.WrittenOutWordsDecode :=
  ⟨rfl, rfl, rfl, rfl, rfl, rfl, rfl, rfl, rfl, fun _ => decodeCmd_illegal,
    rfl, rfl, rfl, rfl, rfl, rfl, rfl, rfl, rfl⟩

/-! ## LZW codes (R97) -/

/-- A literal code as its row has it, at each width. -/
theorem lzwInstr_literal (v : Byte) : lzwInstr .w12 v.toNat = .lzwLit12 v ∧ lzwInstr .w16 v.toNat = .lzwLit16 v ∧
    lzwInstr .w20 v.toNat = .lzwLit20 v := by
  simp [lzwInstr, v.isLt]

/-- A phrase code as its row has it, at each width. -/
theorem lzwInstr_phrase {c : Nat} (h : 258 ≤ c) : lzwInstr .w12 c = .lzwPhrase12 (BitVec.ofNat 12 c) ∧
    lzwInstr .w16 c = .lzwPhrase16 (BitVec.ofNat 16 c) ∧ lzwInstr .w20 c = .lzwPhrase20 (BitVec.ofNat 20 c) := by
  have h0 : ¬c < 256 := by omega
  have h1 : c ≠ 256 := by omega
  have h2 : c ≠ 257 := by omega
  simp only [lzwInstr, h0, h1, h2, if_false, and_self]

/-- A code that fits its width is a well-formed record whose encoding is the code. -/
theorem encode_lzwInstr {w : LzwWidth} {c : Nat} (hc : c < w.cap) :
    (lzwInstr w c).wellFormed = true ∧ encode (lzwInstr w c) = bitsOf w.bits c := by
  by_cases hl : c < 256
  · obtain ⟨h12, h16, h20⟩ := lzwInstr_literal (BitVec.ofNat 8 c)
    rw [BitVec.toNat_ofNat, Nat.mod_eq_of_lt hl] at h12 h16 h20
    cases w <;> simp [h12, h16, h20, Instr.wellFormed, encode, lzwCodeBits, Nat.mod_eq_of_lt hl]
  by_cases h1 : c = 256
  · subst h1; cases w <;> exact ⟨rfl, rfl⟩
  by_cases h2 : c = 257
  · subst h2; cases w <;> exact ⟨rfl, rfl⟩
  have hp : 258 ≤ c := by omega
  obtain ⟨h12, h16, h20⟩ := lzwInstr_phrase hp
  have hmod : c % 2 ^ w.bits = c := Nat.mod_eq_of_lt hc
  cases w <;> simp only [LzwWidth.bits] at hmod <;>
    simp only [h12, h16, h20, Instr.wellFormed, encode, lzwCodeBits, LzwWidth.bits, BitVec.toNat_ofNat, hmod, hp,
      decide_true, and_self]

/-- Every well-formed LZW record is the record of a code that fits its width, and is read at that width only. -/
theorem exists_lzwInstr {i : Instr} (hi : i.isLzw = true) (hw : i.wellFormed = true) :
    ∃ w c, c < w.cap ∧ i = lzwInstr w c ∧ ∀ ctx : Ctx, ctx.admits i → ctx = .lzw w := by
  have small (w : LzwWidth) {c : Nat} (h : c < 258) : c < w.cap := h.trans (LzwWidth.cap_pos w)
  have literal (w : LzwWidth) (v : Byte) : v.toNat < w.cap := small w (v.isLt.trans (by decide))
  cases i with
  | lzwLit12 v => exact ⟨.w12, _, literal _ v, (lzwInstr_literal v).1.symm, fun _ => id⟩
  | lzwLit16 v => exact ⟨.w16, _, literal _ v, (lzwInstr_literal v).2.1.symm, fun _ => id⟩
  | lzwLit20 v => exact ⟨.w20, _, literal _ v, (lzwInstr_literal v).2.2.symm, fun _ => id⟩
  | lzwClear12 => exact ⟨.w12, 256, small _ (by decide), rfl, fun _ => id⟩
  | lzwClear16 => exact ⟨.w16, 256, small _ (by decide), rfl, fun _ => id⟩
  | lzwClear20 => exact ⟨.w20, 256, small _ (by decide), rfl, fun _ => id⟩
  | lzwEnd12 => exact ⟨.w12, 257, small _ (by decide), rfl, fun _ => id⟩
  | lzwEnd16 => exact ⟨.w16, 257, small _ (by decide), rfl, fun _ => id⟩
  | lzwEnd20 => exact ⟨.w20, 257, small _ (by decide), rfl, fun _ => id⟩
  | lzwPhrase12 c =>
    exact ⟨.w12, c.toNat, c.isLt, by
      rw [(lzwInstr_phrase (of_decide_eq_true hw)).1, BitVec.ofNat_toNat, BitVec.setWidth_eq],
      fun _ => id⟩
  | lzwPhrase16 c =>
    exact ⟨.w16, c.toNat, c.isLt, by
      rw [(lzwInstr_phrase (of_decide_eq_true hw)).2.1, BitVec.ofNat_toNat, BitVec.setWidth_eq],
      fun _ => id⟩
  | lzwPhrase20 c =>
    exact ⟨.w20, c.toNat, c.isLt, by
      rw [(lzwInstr_phrase (of_decide_eq_true hw)).2.2, BitVec.ofNat_toNat, BitVec.setWidth_eq],
      fun _ => id⟩
  | _ => cases hi

theorem decode_encode_lzw {ctx : Ctx} {i : Instr} (rest : List Bool) (hi : i.isLzw = true)
    (hw : i.wellFormed = true) (h : ctx.admits i) : decode ctx (encode i ++ rest) = .ok (i, rest) := by
  obtain ⟨w, c, hc, rfl, hctx⟩ := exists_lzwInstr hi hw
  obtain rfl := hctx ctx h
  rw [(encode_lzwInstr hc).2]
  have hc : c < 2 ^ w.bits := hc
  simp only [decode, takeBits_bitsOf, Nat.mod_eq_of_lt hc]

/-! ## Code words (R101, R238) -/

/-- The bits of a number, cut in two. -/
theorem bitsOf_add (m n v : Nat) : bitsOf (m + n) v = bitsOf m (v / 2 ^ n) ++ bitsOf n v := by
  induction m with
  | zero => simp
  | succ m ih => rw [Nat.succ_add, bitsOf_succ, bitsOf_succ, ih, Nat.testBit_div_two_pow, List.cons_append]

/-- The code search passes over the shorter candidate lengths and stops at the code's own (R238). -/
theorem decodeCode_bitsOf {entries : List HufEntry} {lens : List Nat} {len code : Nat} (rest : List Bool)
    (hmem : len ∈ lens) (hfound : (hufLookup entries len code).isSome = true) (hasc : lens.Pairwise (· < ·))
    (hmiss : ∀ l ∈ lens, l < len → hufLookup entries l (code / 2 ^ (len - l)) = none) (hcode : code < 2 ^ len) :
    decodeCode entries lens (bitsOf len code ++ rest) =
      .ok (.hcw (BitVec.ofNat 5 len) (BitVec.ofNat 16 code), rest) := by
  induction lens with
  | nil => cases hmem
  | cons l ls ih =>
    obtain ⟨hlt, hasc⟩ := List.pairwise_cons.mp hasc
    obtain rfl | hmem := List.mem_cons.mp hmem
    · simp only [decodeCode, takeBits_bitsOf, Nat.mod_eq_of_lt hcode, hfound, if_true]
    · have hl : l < len := hlt len hmem
      have hsplit : bitsOf len code = bitsOf l (code / 2 ^ (len - l)) ++ bitsOf (len - l) code := by
        rw [← bitsOf_add, Nat.add_sub_cancel' hl.le]
      have hval : code / 2 ^ (len - l) < 2 ^ l := by
        rw [Nat.div_lt_iff_lt_mul (Nat.two_pow_pos _), ← Nat.pow_add, Nat.add_sub_cancel' hl.le]; exact hcode
      have hread : takeBits l (bitsOf len code ++ rest) =
          some (code / 2 ^ (len - l), bitsOf (len - l) code ++ rest) := by
        rw [hsplit, List.append_assoc, takeBits_bitsOf, Nat.mod_eq_of_lt hval]
      simp only [decodeCode, hread, hmiss l List.mem_cons_self hl]
      exact ih hmem hasc fun l' hl' => hmiss l' (List.mem_cons_of_mem _ hl')

/-- Whatever the code search finds has a candidate length, and its encoding is what was read. -/
theorem decodeCode_some {entries : List HufEntry} {lens : List Nat} {bits rest : List Bool} {i : Instr}
    (hlens : ∀ l ∈ lens, 1 ≤ l ∧ l ≤ 16) (h : decodeCode entries lens bits = .ok (i, rest)) :
    i.wellFormed = true ∧ bits = encode i ++ rest := by
  induction lens with
  | nil => cases h
  | cons l ls ih =>
    simp only [decodeCode] at h
    split at h
    · cases h
    next v r hv =>
    split at h
    · cases h
      obtain ⟨hlt, rfl⟩ := takeBits_some hv
      obtain ⟨h1, h16⟩ := hlens l List.mem_cons_self
      have hl : (BitVec.ofNat 5 l).toNat = l := by rw [BitVec.toNat_ofNat]; omega
      have hpow : 2 ^ l ≤ 2 ^ 16 := Nat.pow_le_pow_right (by decide) h16
      have hc : (BitVec.ofNat 16 v).toNat = v := by rw [BitVec.toNat_ofNat]; omega
      simp only [Instr.wellFormed, encode, hl, hc]
      simp [h1, h16, hlt]
    · exact ih (fun l' hl' => hlens l' (List.mem_cons_of_mem _ hl')) h

/-! ## RLE records (R95, R96) -/

/-- The flag of a control byte, read as a number (R95). -/
theorem takeBits_flag (f : Bool) (bits : List Bool) : takeBits 1 (f :: bits) = some (f.toNat, bits) := by
  cases f <;> rfl

theorem decodeRle_rep (count : BitVec 7) (v : Byte) (rest : List Bool) :
    decodeRle (encode (.rleRep count v) ++ rest) = .ok (.rleRep count v, rest) := by
  simp only [encode, List.cons_append, List.append_assoc, decodeRle, takeBits_flag, takeBits_bitsOf,
    Nat.mod_eq_of_lt count.isLt, takeByte_bitsOf, Bool.toNat_true, if_true, BitVec.ofNat_toNat, BitVec.setWidth_eq]

theorem decodeRle_lit {data : List Byte} (h : data.length ≤ 127) (rest : List Bool) :
    decodeRle (encode (.rleLit data) ++ rest) = .ok (.rleLit data, rest) := by
  have hcount : data.length % 2 ^ 7 = data.length := Nat.mod_eq_of_lt (by omega)
  simp only [encode, List.cons_append, List.append_assoc, decodeRle, takeBits_flag, takeBits_bitsOf, hcount,
    takeBytes_bytesBits, Bool.toNat_false, zero_ne_one, if_false]

/-- Whatever is read as an RLE record is well formed, and its encoding is what was read. -/
theorem decodeRle_some {bits rest : List Bool} {i : Instr} (h : decodeRle bits = .ok (i, rest)) :
    i.wellFormed = true ∧ bits = encode i ++ rest := by
  simp only [decodeRle] at h
  split at h
  · cases h
  next f bs1 hf =>
  split at h
  · cases h
  next count bs2 hcount =>
  obtain ⟨hf2, rfl⟩ := takeBits_some hf
  obtain ⟨hc, rfl⟩ := takeBits_some hcount
  split at h
  · next hf1 =>
    split at h <;> cases h
    next v hv =>
    rw [takeByte_some hv, hf1]
    refine ⟨rfl, ?_⟩
    rw [encode, bitsOf_ofNat]
    simp [bitsOf]
  · next hf1 =>
    split at h <;> cases h
    next data hdata =>
    obtain ⟨hlen, rfl⟩ := takeBytes_some hdata
    have hf0 : f = 0 := by omega
    subst hf0 hlen
    exact ⟨decide_eq_true (Nat.le_of_lt_succ hc), by simp [encode, bitsOf]⟩

/-! ## Every context -/

/-- Settles O2: family by family; the widths of a record's fields are those its decoder reads. -/
theorem decodeOfEncodeIsTheInstruction : Obligations.DecodeOfEncodeIsTheInstruction := by
  intro ctx i rest hw h
  cases i with
  | cnoop | crle | clzw | chuf | rnoop | rrle | rlzw | rhuf | sreset | cmdIllegal _ =>
    exact decode_encode_command rest rfl hw h
  | lzwLit12 _ | lzwClear12 | lzwEnd12 | lzwPhrase12 _ | lzwLit16 _ | lzwClear16 | lzwEnd16 | lzwPhrase16 _
  | lzwLit20 _ | lzwClear20 | lzwEnd20 | lzwPhrase20 _ => exact decode_encode_lzw rest rfl hw h
  | hdr width height =>
    obtain rfl : ctx = .hdr := h
    simp only [encode, decode, List.append_assoc, takeBits_bitsOf, Nat.mod_eq_of_lt width.isLt,
      Nat.mod_eq_of_lt height.isLt, BitVec.ofNat_toNat, BitVec.setWidth_eq]
  | raw b =>
    obtain rfl : ctx = .raw := h
    simp only [encode, decode, takeByte_bitsOf]
  | rleRep count v =>
    obtain rfl : ctx = .rle := h
    exact decodeRle_rep count v rest
  | rleLit data =>
    obtain rfl : ctx = .rle := h
    exact decodeRle_lit (of_decide_eq_true hw) rest
  | hsz n =>
    obtain rfl : ctx = .hsz := h
    simp only [encode, decode, takeByte_bitsOf]
  | hen sym len code =>
    obtain rfl : ctx = .hen := h
    simp only [encode, decode, List.append_assoc, takeByte_bitsOf, takeBits_bitsOf, Nat.mod_eq_of_lt code.isLt,
      BitVec.ofNat_toNat, BitVec.setWidth_eq]
  | hcw len code =>
    obtain ⟨lens, entries, rfl, hmem, hfound, hasc, hmiss⟩ := h
    simp only [Instr.wellFormed, Bool.and_eq_true, decide_eq_true_eq] at hw
    have hread := decodeCode_bitsOf rest hmem hfound hasc hmiss hw.2
    rwa [BitVec.ofNat_toNat, BitVec.ofNat_toNat, BitVec.setWidth_eq, BitVec.setWidth_eq] at hread
  | pad n =>
    obtain rfl : ctx = .pad n := h
    simp only [encode, decode, takeBits_bitsOf]

/-- Settles O3: context by context; a read of `n` bits gives the number whose `n` bits they are. -/
theorem encodeOfDecodeIsTheBits : Obligations.EncodeOfDecodeIsTheBits := by
  intro ctx bits rest i hpad hlens h
  cases ctx with
  | cmd =>
    simp only [decode] at h
    split at h <;> cases h
    next v hv =>
    obtain ⟨hwf, henc⟩ := encode_decodeCmd (BitVec.ofNat 32 v)
    rw [bitsOf_ofNat] at henc
    exact ⟨hwf, by rw [henc]; exact (takeBits_some hv).2⟩
  | hdr =>
    simp only [decode] at h
    split at h
    · cases h
    next hwidth =>
    split at h <;> cases h
    next hheight =>
    refine ⟨rfl, ?_⟩
    rw [(takeBits_some hwidth).2, (takeBits_some hheight).2, encode, bitsOf_ofNat, bitsOf_ofNat, List.append_assoc]
  | raw =>
    simp only [decode] at h
    split at h <;> cases h
    next hb => exact ⟨rfl, takeByte_some hb⟩
  | rle => exact decodeRle_some h
  | lzw w =>
    simp only [decode] at h
    split at h <;> cases h
    next c hc =>
    obtain ⟨hlt, hbits⟩ := takeBits_some hc
    obtain ⟨hwf, henc⟩ := encode_lzwInstr (w := w) hlt
    exact ⟨hwf, by rw [henc]; exact hbits⟩
  | hsz =>
    simp only [decode] at h
    split at h <;> cases h
    next hb => exact ⟨rfl, takeByte_some hb⟩
  | hen =>
    simp only [decode] at h
    split at h
    · cases h
    next hsym =>
    split at h
    · cases h
    next hlen =>
    split at h <;> cases h
    next hcode =>
    refine ⟨rfl, ?_⟩
    rw [takeByte_some hsym, takeByte_some hlen, (takeBits_some hcode).2, encode, bitsOf_ofNat, List.append_assoc,
      List.append_assoc]
  | hcw lens entries => exact decodeCode_some (hlens lens entries rfl) h
  | pad n => exact absurd rfl (hpad n)

/-! ## The header of a RESTORE (R93, R125, R127) -/

/-- A fault entered from a state with the same inputs. -/
theorem faulted_of_inputs (c : Cause) {s s1 : State} (h : SameInputs s s1) : Faulted c s (faultEntry c s1) :=
  { faulted_faultEntry c s1 with inputs := h.trans (faulted_faultEntry c s1).inputs }

/-- The state with the size of the header (R25, R125). -/
def State.sized (width height : Half) (s : State) : State := { s with width := width, height := height }

theorem sized_inputs (width height : Half) (s : State) : SameInputs s (s.sized width height) :=
  ⟨rfl, rfl, rfl, rfl, rfl, rfl, rfl⟩

/-! The tests of R125, in their order, after the size is latched. -/

theorem readHeader_empty {width height : Half} {s : State} (h : width.toNat * height.toNat = 0) :
    readHeader width height s = .raised .invalidInput (s.sized width height) := if_pos h

theorem readHeader_large {width height : Half} {s : State} (h : width.toNat * height.toNat ≠ 0)
    (hcap : s.params.obufCap < 3 * (width.toNat * height.toNat)) :
    readHeader width height s = .raised .outputOverflow (s.sized width height) :=
  (if_neg h).trans (if_pos hcap)

theorem readHeader_fits {width height : Half} {s : State} (h : width.toNat * height.toNat ≠ 0)
    (hcap : 3 * (width.toNat * height.toNat) ≤ s.params.obufCap) :
    readHeader width height s = beginDecode (s.sized width height) :=
  (if_neg h).trans (if_neg hcap.not_gt)

/-! The first payload record of each codec. -/

theorem beginDecode_noop_short {s : State} (h : s.alg = .noop) (hlen : s.inLen < 4 + s.total) :
    beginDecode s = .raised .truncatedStream s := by
  simp only [beginDecode, h, if_pos hlen]

theorem beginDecode_noop {s : State} (h : s.alg = .noop) (hlen : 4 + s.total ≤ s.inLen) :
    beginDecode s = .ok { s with dec := .raw } := by
  simp only [beginDecode, h, if_neg hlen.not_gt]

theorem beginDecode_rle {s : State} (h : s.alg = .rle) :
    beginDecode s = .ok { s with dec := .rle, rleCh := 0, rleCnt := 0 } := by
  simp only [beginDecode, h]

theorem beginDecode_lzw {s : State} (h : s.alg = .lzw) : beginDecode s = .ok { s with dec := .lzw } := by
  simp only [beginDecode, h]

theorem beginDecode_huf {s : State} (h : s.alg = .huf) : beginDecode s = .ok { s with dec := .hufSize } := by
  simp only [beginDecode, h]

/-- Settles O33: the tests in their order, then the first payload record of the codec. -/
theorem headerLatchesTheSize : Obligations.HeaderLatchesTheSize := by
  intro width height s hd
  have hrun : exec (.hdr width height) s = .next (readHeader width height s).settle := by
    rw [exec_hdr, hdrRecord, hd]
  have hfault (c : Cause) (h : readHeader width height s = .raised c (s.sized width height)) :
      ∃ t, exec (.hdr width height) s = .next t ∧ Faulted c s t ∧ t.width = width ∧ t.height = height :=
    ⟨_, by rw [hrun, h]; rfl, faulted_of_inputs c (sized_inputs width height s), rfl, rfl⟩
  refine ⟨fun h0 => hfault _ (readHeader_empty h0), fun h0 hcap => hfault _ (readHeader_large h0 hcap),
    fun h0 hcap => ?_⟩
  have hfits := readHeader_fits h0 hcap
  have hnext {t : State} (h : beginDecode (s.sized width height) = .ok t) : exec (.hdr width height) s = .next t := by
    rw [hrun, hfits, h]; rfl
  exact ⟨fun ha hshort => hfault _ (hfits.trans (beginDecode_noop_short ha hshort)),
    fun ha hlong => hnext (beginDecode_noop ha hlong),
    fun ha => hnext (beginDecode_rle ha), fun ha => hnext (beginDecode_lzw ha), fun ha => hnext (beginDecode_huf ha)⟩

end Sys2Proof.Machine
end

section
/-! Records of a COMPRESS (R151, R152): each one's run is a bit write or a byte write of its encoding, followed by changes
to registers that are no part of the writer. -/

namespace Sys2Proof.Machine

/-! ## What a write appends -/

/-- With `bytes` gone out and `cnt` bits of value `acc` pending, the old pending bits and `bits` have been written. -/
structure Pending (s : State) (bits : List Bool) (bytes : List Byte) (cnt acc : Nat) : Prop where
  same : bytesBits bytes ++ bitsOf cnt acc = bitsOf s.wcnt s.wacc ++ bits
  few : cnt < 8
  fits : acc < 2 ^ cnt

/-- What `Appends` and the frame of a record look at is the same in `t` as in `u`. -/
structure SameWriter (u t : State) : Prop where
  state : t.state = u.state := by rfl
  obuf : t.obuf = u.obuf := by rfl
  wpos : t.wpos = u.wpos := by rfl
  wcnt : t.wcnt = u.wcnt := by rfl
  wacc : t.wacc = u.wacc := by rfl
  rpos : t.rpos = u.rpos := by rfl

/-- The run goes on or completes, the writer being as in `u`. -/
inductive Res.LeavesWriter (u : State) : Res → Prop where
  | goesOn {t : State} (h : SameWriter u t := by exact {}) : Res.LeavesWriter u (.ok t)
  | completes (used : Nat) {t : State} (h : SameWriter u t := by exact {}) :
      Res.LeavesWriter u (.ok (complete used t))

/-- The run does not raise, and appends `bits`; while it goes on it leaves `RPOS`. -/
def Res.AppendsBits (s : State) (bits : List Bool) (r : Res) : Prop :=
  ∃ t, r = .ok t ∧ Appends s t bits ∧ (t.state = .busy → t.rpos = s.rpos)

theorem Res.LeavesWriter.appendsBits {s : State} {bits : List Bool} {bytes : List Byte} {cnt acc : Nat} {r : Res}
    (hb : s.state = .busy) (hp : Pending s bits bytes cnt acc) (h : r.LeavesWriter (s.wrote bytes cnt acc)) :
    r.AppendsBits s bits := by
  cases h with
  | @goesOn t h =>
    refine ⟨t, rfl, ⟨bytes, ?_, ?_, ?_, stores_writeBytes s t bytes h.state h.wpos h.obuf⟩, fun _ => h.rpos⟩
    · rw [h.wcnt, h.wacc]; exact hp.same
    · rw [h.wcnt]; exact hp.few
    · rw [h.wcnt, h.wacc]; exact hp.fits
  | @completes used t h =>
    have hd : s.state ≠ .done := by rw [hb]; decide
    refine ⟨complete used t, rfl, ⟨bytes, ?_, ?_, ?_, stores_complete s t bytes used hd h.wpos h.obuf⟩, nofun⟩
    · rw [complete_wcnt, complete_wacc, h.wcnt, h.wacc]; exact hp.same
    · rw [complete_wcnt, h.wcnt]; exact hp.few
    · rw [complete_wcnt, complete_wacc, h.wcnt, h.wacc]; exact hp.fits

/-! ## The bytes of an encoding -/

theorem bitsOf_half (v : Half) : bitsOf 16 v.toNat = bytesBits [hiByte v, loByte v] := by
  rw [bytesBits_cons, bytesBits_cons, bytesBits_nil, hiByte, loByte, bitsOf_ofNat, bitsOf_ofNat, List.append_nil]
  exact bitsOf_add 8 8 v.toNat

theorem bitsOf_repControl (count : BitVec 7) :
    bitsOf 8 (repControl count.toNat).toNat = true :: bitsOf 7 count.toNat := by
  have hmod : (128 + count.toNat) % 2 ^ 7 = count.toNat := by have := count.isLt; omega
  have hflag : (128 + count.toNat).testBit 7 = true := by
    rw [Nat.testBit_eq_decide_div_mod_eq]; have := count.isLt; exact decide_eq_true (by omega)
  rw [repControl, bitsOf_ofNat, bitsOf_succ, ← bitsOf_mod 7 7 _ le_rfl, hmod, hflag]

theorem bitsOf_litControl {count : Nat} (h : count ≤ 127) :
    bitsOf 8 (litControl count).toNat = false :: bitsOf 7 count := by
  rw [litControl, bitsOf_ofNat, bitsOf_succ, Nat.testBit_lt_two_pow (by omega)]

theorem encode_hdr (width height : Half) :
    encode (.hdr width height) = bytesBits [hiByte width, loByte width, hiByte height, loByte height] := by
  rw [encode, bitsOf_half, bitsOf_half, ← bytesBits_append]; rfl

theorem encode_rleRep (count : BitVec 7) (v : Byte) :
    encode (.rleRep count v) = bytesBits [repControl count.toNat, v] := by
  rw [bytesBits_cons, bitsOf_repControl, bytesBits_cons, bytesBits_nil, List.append_nil]; rfl

theorem encode_rleLit {data : List Byte} (h : data.length ≤ 127) :
    encode (.rleLit data) = bytesBits (litControl data.length :: data) := by
  rw [bytesBits_cons, bitsOf_litControl h]; rfl

theorem encode_hen (sym len : Byte) (code : Half) :
    encode (.hen sym len code) = bytesBits [sym, len, hiByte code, loByte code] := by
  rw [encode, bitsOf_half, bytesBits_cons sym, bytesBits_cons len, List.append_assoc]

theorem bytesBits_singleton (b : Byte) : bytesBits [b] = bitsOf 8 b.toNat := by
  rw [bytesBits_cons, bytesBits_nil, List.append_nil]

/-! ## After the write -/

theorem leavesWriter_ite {u : State} {p : Prop} [Decidable p] {r r' : Res} (h : r.LeavesWriter u)
    (h' : r'.LeavesWriter u) : (if p then r else r').LeavesWriter u := by
  split
  · exact h
  · exact h'

theorem rleAdvance_leavesWriter (k : Nat) (u : State) : (Res.ok (rleAdvance k u)).LeavesWriter u := by
  unfold rleAdvance
  split
  · exact .goesOn
  · split
    · exact .goesOn
    · exact .completes _

theorem beginEncode_leavesWriter {u : State} (h : u.alg ≠ .huf) : (beginEncode u).LeavesWriter u := by
  unfold beginEncode
  split
  · exact .goesOn
  · exact .goesOn
  · exact .goesOn
  · next hh => exact absurd hh h

/-! ## Every record -/

theorem putBytes_singleton (b : Byte) (s : State) : putBytes [b] s = putByte b s := by
  rw [putBytes]; cases putByte b s <;> rfl

section Records

variable {s : State} (hb : s.state = .busy) (hc : s.wcnt < 8) (ha : s.wacc < 2 ^ s.wcnt)

/-- Room in `OBUF` for the bytes that `bits` complete. -/
def State.Fits (s : State) (bits : List Bool) : Prop := s.wpos + (s.wcnt + bits.length) / 8 ≤ s.params.obufCap

include hc ha in
/-- A bit write that fits (R152). -/
theorem putBits_pending {v n : Nat} (hfit : s.Fits (bitsOf n v)) :
    ∃ bytes cnt acc, putBits v n s = .ok (s.wrote bytes cnt acc) ∧ Pending s (bitsOf n v) bytes cnt acc := by
  obtain ⟨bytes, acc, hput, _, hacc, hbits⟩ := putBitList_ok (bitsOf n v) s hc ha hfit
  exact ⟨bytes, _, acc, hput, hbits, Nat.mod_lt _ (by decide), hacc⟩

include hb hc ha in
theorem putBits_appends {v n : Nat} {f : State → Res} (hfit : s.Fits (bitsOf n v))
    (hf : ∀ u, (f u).LeavesWriter u) : ((putBits v n s).bind f).AppendsBits s (bitsOf n v) := by
  obtain ⟨bytes, cnt, acc, hput, hp⟩ := putBits_pending hc ha hfit
  rw [hput]
  exact (hf _).appendsBits hb hp

include hb ha in
/-- Whole bytes at a byte boundary, that fit (R151). -/
theorem putBytes_appends {bytes : List Byte} {f : State → Res} (h0 : s.wcnt = 0) (hfit : s.Fits (bytesBits bytes))
    (hf : ∀ u, u.alg = s.alg → (f u).LeavesWriter u) : ((putBytes bytes s).bind f).AppendsBits s (bytesBits bytes) := by
  have hroom : s.wpos + bytes.length ≤ s.params.obufCap := by
    unfold State.Fits at hfit
    rw [h0, length_bytesBits] at hfit; omega
  have hp : Pending s (bytesBits bytes) bytes s.wcnt s.wacc := ⟨by rw [h0]; simp, by omega, ha⟩
  rw [putBytes_ok bytes s hroom]
  exact (hf (s.wrote bytes s.wcnt s.wacc) rfl).appendsBits hb hp

include hb ha in
theorem hdrRecord_appends (width height : Half) (hd : s.dir = .compress) (h0 : s.wcnt = 0) (halg : s.alg ≠ .huf)
    (hfit : s.Fits (encode (.hdr width height))) :
    (hdrRecord width height s).AppendsBits s (encode (.hdr width height)) := by
  rw [encode_hdr] at hfit ⊢
  rw [hdrRecord, hd]
  exact putBytes_appends hb ha h0 hfit fun u hu => beginEncode_leavesWriter (by rw [hu]; exact halg)

include hb ha in
theorem rleRepRecord_appends (count : BitVec 7) (v : Byte) (hd : s.dir = .compress) (h0 : s.wcnt = 0)
    (hfit : s.Fits (encode (.rleRep count v))) :
    (rleRepRecord count v s).AppendsBits s (encode (.rleRep count v)) := by
  rw [encode_rleRep] at hfit ⊢
  rw [rleRepRecord, hd]
  exact putBytes_appends hb ha h0 hfit fun u _ => rleAdvance_leavesWriter _ u

include hb ha in
theorem rleLitRecord_appends {data : List Byte} (hlen : data.length ≤ 127) (hd : s.dir = .compress) (h0 : s.wcnt = 0)
    (hfit : s.Fits (encode (.rleLit data))) :
    (rleLitRecord data s).AppendsBits s (encode (.rleLit data)) := by
  rw [encode_rleLit hlen] at hfit ⊢
  rw [rleLitRecord, hd]
  exact putBytes_appends hb ha h0 hfit fun u _ => rleAdvance_leavesWriter _ u

include hb ha in
theorem rawRecord_appends (b : Byte) (hd : s.dir = .compress) (h0 : s.wcnt = 0) (hfit : s.Fits (bitsOf 8 b.toNat)) :
    (rawRecord b s).AppendsBits s (bitsOf 8 b.toNat) := by
  rw [← bytesBits_singleton] at hfit ⊢
  rw [rawRecord, hd]
  change (emitRaw b s).AppendsBits _ _
  rw [emitRaw, ← putBytes_singleton]
  exact putBytes_appends hb ha h0 hfit fun u _ => leavesWriter_ite .goesOn (.completes _)

include hb ha in
theorem hszRecord_appends (n : Byte) (hd : s.dir = .compress) (h0 : s.wcnt = 0) (hfit : s.Fits (bitsOf 8 n.toNat)) :
    (hszRecord n s).AppendsBits s (bitsOf 8 n.toNat) := by
  rw [← bytesBits_singleton] at hfit ⊢
  rw [hszRecord, hd]
  change (emitHsz n s).AppendsBits _ _
  rw [emitHsz, ← putBytes_singleton]
  exact putBytes_appends hb ha h0 hfit fun u _ => .goesOn

include hb ha in
theorem henRecord_appends (sym len : Byte) (code : Half) (hd : s.dir = .compress) (h0 : s.wcnt = 0)
    (hfit : s.Fits (encode (.hen sym len code))) :
    (henRecord sym len code s).AppendsBits s (encode (.hen sym len code)) := by
  rw [encode_hen] at hfit ⊢
  rw [henRecord, hd]
  exact putBytes_appends hb ha h0 hfit fun u _ => leavesWriter_ite .goesOn .goesOn

include hb hc ha

theorem hcwRecord_appends (len : BitVec 5) (code : Half) (hd : s.dir = .compress)
    (hfit : s.Fits (bitsOf len.toNat code.toNat)) :
    (hcwRecord len code s).AppendsBits s (bitsOf len.toNat code.toNat) := by
  rw [hcwRecord, hd]
  exact putBits_appends hb hc ha hfit fun u => leavesWriter_ite .goesOn .goesOn

theorem padRecord_appends (n : BitVec 3) (hd : s.dir = .compress) (hfit : s.Fits (bitsOf n.toNat 0)) :
    (padRecord n s).AppendsBits s (bitsOf n.toNat 0) := by
  rw [padRecord, hd]
  exact putBits_appends hb hc ha hfit fun u => .completes _

theorem lzwOrdinary_appends (w : LzwWidth) (c : Nat) (hd : s.dir = .compress) (hfit : s.Fits (bitsOf w.bits c)) :
    (lzwOrdinary w c s).AppendsBits s (bitsOf w.bits c) := by
  rw [lzwOrdinary, hd]
  exact putBits_appends hb hc ha hfit fun u => leavesWriter_ite .goesOn .goesOn

/-- CLEAR empties the table before it is written, which the writer does not see (R196). -/
theorem lzwClear_appends (w : LzwWidth) (hd : s.dir = .compress) (hfit : s.Fits (bitsOf w.bits 256)) :
    (lzwClear w s).AppendsBits s (bitsOf w.bits 256) := by
  rw [lzwClear, hd]
  obtain ⟨bytes, cnt, acc, hput, hp⟩ := putBits_pending (s := { s with lzwTable := [] }) hc ha hfit
  have hend : (emitClear w s).LeavesWriter (s.wrote bytes cnt acc) := by
    rw [emitClear, emitCode, hput]; exact .goesOn
  exact hend.appendsBits hb { hp with }

theorem lzwEnd_appends (w : LzwWidth) (hd : s.dir = .compress) (hfit : s.Fits (bitsOf w.bits 257)) :
    (lzwEnd w s).AppendsBits s (bitsOf w.bits 257) := by
  rw [lzwEnd, hd]
  exact putBits_appends hb hc ha hfit fun u => .goesOn

/-- Every record of a COMPRESS but the header of a Huffman stream. -/
theorem record_appends {i : Instr} (hi : i.isRecord = true) (hw : i.wellFormed = true) (hd : s.dir = .compress)
    (h0 : i.wholeBytes = true → s.wcnt = 0) (hhuf : (∃ width height, i = .hdr width height) → s.alg ≠ .huf)
    (hfit : s.Fits (encode i)) : (recordRun i s).AppendsBits s (encode i) := by
  cases i with
  | hdr width height => exact hdrRecord_appends hb ha width height hd (h0 rfl) (hhuf ⟨_, _, rfl⟩) hfit
  | raw b => exact rawRecord_appends hb ha b hd (h0 rfl) hfit
  | rleRep count v => exact rleRepRecord_appends hb ha count v hd (h0 rfl) hfit
  | rleLit data => exact rleLitRecord_appends hb ha (of_decide_eq_true hw) hd (h0 rfl) hfit
  | lzwLit12 _ | lzwPhrase12 _ => exact lzwOrdinary_appends hb hc ha .w12 _ hd hfit
  | lzwLit16 _ | lzwPhrase16 _ => exact lzwOrdinary_appends hb hc ha .w16 _ hd hfit
  | lzwLit20 _ | lzwPhrase20 _ => exact lzwOrdinary_appends hb hc ha .w20 _ hd hfit
  | lzwClear12 => exact lzwClear_appends hb hc ha .w12 hd hfit
  | lzwClear16 => exact lzwClear_appends hb hc ha .w16 hd hfit
  | lzwClear20 => exact lzwClear_appends hb hc ha .w20 hd hfit
  | lzwEnd12 => exact lzwEnd_appends hb hc ha .w12 hd hfit
  | lzwEnd16 => exact lzwEnd_appends hb hc ha .w16 hd hfit
  | lzwEnd20 => exact lzwEnd_appends hb hc ha .w20 hd hfit
  | hsz n => exact hszRecord_appends hb ha n hd (h0 rfl) hfit
  | hen sym len code => exact henRecord_appends hb ha sym len code hd (h0 rfl) hfit
  | hcw len code => exact hcwRecord_appends hb hc ha len code hd hfit
  | pad n => exact padRecord_appends hb hc ha n hd hfit
  | cnoop | crle | clzw | chuf | rnoop | rrle | rlzw | rhuf | sreset | cmdIllegal _ => cases hi

end Records

/-- A run that goes on or completes does so from a state that keeps what a command keeps. -/
theorem keeps_of_tied_ok {s t : State} {q : List HostAct} {ends : Bool} {r : Res} (h : Tied s q ends (.ok t) r) :
    Keeps s t ∨ ∃ used u, t = complete used u ∧ Keeps s u := by
  cases h with
  | ok k => exact .inl k
  | complete used k => exact .inr ⟨used, _, rfl, k⟩

/-- What a COMPRESS leaves unchanged in a record that does not raise (R69). -/
theorem recordRun_frame {i : Instr} {s t : State} (hi : i.isRecord = true) (hd : s.dir = .compress)
    (hb : s.state = .busy) (h : recordRun i s = .ok t) :
    (t.state = .busy ∨ t.state = .done) ∧ SameInputs s t ∧ SameSize s t ∧ t.cause = s.cause := by
  have htied := recordRun_keepsRun hi s s.host
  rw [h] at htied
  obtain k | ⟨used, u, rfl, k⟩ := keeps_of_tied_ok htied
  · exact ⟨.inl (k.state.trans hb), k.inputs, k.size hd, k.cause⟩
  · exact ⟨.inr rfl, k.inputs.trans ⟨rfl, rfl, rfl, rfl, rfl, rfl, rfl⟩, k.size hd, k.cause⟩

/-- Settles O26: the record's run appends its encoding, and keeps what every run of a command keeps. -/
theorem encoderRecordsAppendTheirEncoding : Obligations.EncoderRecordsAppendTheirEncoding := by
  intro i s hi hw hd hb hc ha h0 hhuf hfit
  obtain ⟨t, hrun, happ, hrpos⟩ := record_appends hb hc ha hi hw hd h0 hhuf hfit
  obtain ⟨hstate, hinputs, hsize, hcause⟩ := recordRun_frame hi hd hb hrun
  refine ⟨t, ?_, happ, hstate, hinputs, hsize, hcause, hrpos⟩
  rw [exec_record hi, recordEffect_eq_settle, hrun, settle_ok]

end Sys2Proof.Machine
end

section
/-! How a command ends (R76, R123, R125, R310): its turns from the start to `DONE` or `FAULT`, whatever their number,
and the tests of its start. -/

namespace Sys2Proof.Machine

/-! ## The turns of a command -/

/-- The engine is quiet in `t`, and gets there from `s` in its turns. -/
inductive Finishes : State → State → Prop where
  | quiet {t : State} (h : t.state ≠ .busy) : Finishes t t
  | turn {s t : State} (hb : s.state = .busy) (h : Finishes (engineTurn s) t) : Finishes s t

/-- Turns enough to make the engine quiet give the state it finishes in. -/
theorem runRecords_of_finishes {s t : State} (h : Finishes s t) (fuel : Nat)
    (hend : (runRecords fuel s).state ≠ .busy) : runRecords fuel s = t := by
  induction h generalizing fuel with
  | quiet h => exact runRecords_quiet fuel _ h
  | turn hb h ih =>
    cases fuel with
    | zero => exact absurd hb hend
    | succ fuel =>
      rw [runRecords_busy fuel _ hb] at hend ⊢
      exact ih fuel hend

theorem runCommand_of_finishes {dir : Dir} {alg : Alg} {s t : State} (h : Finishes (beginCommand dir alg s) t) :
    runCommand dir alg s = t :=
  runRecords_of_finishes h _ (runCommand_ends dir alg s)

/-- A codec command's effect is where its turns from the start end. -/
theorem exec_of_finishes {dir : Dir} {alg : Alg} {s t : State} (hr : s.Ready)
    (h : Finishes (beginCommand dir alg s) t) : exec (commandOf dir alg) s = .next t := by
  rw [exec_commandOf, acceptCommand_ready _ _ hr, runCommand_of_finishes h]

theorem sameSize_of_finishes {alg : Alg} {s t : State} (h : Finishes (beginCommand .compress alg s) t) :
    SameSize s t := by
  rw [← runCommand_of_finishes h]
  exact (runCommand_reached .compress alg s).size rfl

/-- The fault a command ends in. -/
theorem faulted_of_finishes {dir : Dir} {alg : Alg} {s u : State} {c : Cause}
    (h : Finishes (beginCommand dir alg s) (faultEntry c u)) : Faulted c s (faultEntry c u) where
  state := rfl
  cause := rfl
  outLen := rfl
  inUsed := rfl
  statTable := rfl
  statClears := rfl
  obuf := rfl
  inputs := by rw [← runCommand_of_finishes h]; exact runCommand_inputs dir alg s

/-! ## The start of a command -/

/-- The state a command runs from when its tests have let it pass (R121, R122). -/
def begun (dir : Dir) (alg : Alg) (w : LzwWidth) (s : State) : State :=
  { startCommand s with dir := dir, alg := alg, w := w }

/-- A command whose width is legal where it needs one goes on to the tests of its direction. -/
theorem beginCommand_checks (dir : Dir) {alg : Alg} {s : State} (h : alg = .lzw → legalWidth s.lzwW ≠ none) :
    ∃ w, (alg = .lzw → legalWidth s.lzwW = some w) ∧
      beginCommand dir alg s = (directionChecks (begun dir alg w s)).settle := by
  cases alg with
  | lzw =>
    obtain ⟨w, hw⟩ := Option.ne_none_iff_exists'.mp (h rfl)
    refine ⟨w, fun _ => hw, ?_⟩
    have hw' : legalWidth (startCommand s).lzwW = some w := hw
    simp only [beginCommand, hw']
    rfl
  | noop | rle | huf => exact ⟨s.w, nofun, rfl⟩

/-- The tests of a COMPRESS let an accepted input pass (R123). -/
theorem directionChecks_compress {s : State} (hd : s.dir = .compress) (h : s.CompressInput) :
    directionChecks s = .ok s := by
  obtain ⟨hcap, hn, htotal⟩ := h
  rw [directionChecks, hd]
  exact (if_neg hcap.not_gt).trans ((if_neg hn).trans (if_neg (not_not.mpr htotal)))

/-- The tests of a COMPRESS raise `InvalidInput` only, on every other input (R123). -/
theorem directionChecks_compress_invalid {s : State} (hd : s.dir = .compress)
    (h : s.params.ibufCap < s.inLen ∨ s.n = 0 ∨ s.inLen ≠ s.total) :
    directionChecks s = .raised .invalidInput s := by
  simp only [directionChecks, hd, compressChecks]
  split
  · rfl
  next h1 =>
  split
  · rfl
  next h2 =>
  exact if_pos ((h.resolve_left h1).resolve_left h2)

/-- A command of which the tests of its direction let nothing pass. -/
theorem exec_of_checks_raised {dir : Dir} {alg : Alg} {s : State} {c : Cause} (hr : s.Ready)
    (hw : alg = .lzw → legalWidth s.lzwW ≠ none)
    (h : ∀ w, directionChecks (begun dir alg w s) = .raised c (begun dir alg w s)) :
    ∃ t, exec (commandOf dir alg) s = .next t ∧ Faulted c s t ∧ SameSize s t := by
  obtain ⟨w, _, hbegin⟩ := beginCommand_checks dir hw
  rw [h w] at hbegin
  have hf : Finishes (beginCommand dir alg s) (faultEntry c (begun dir alg w s)) := by
    rw [hbegin]; exact .quiet nofun
  exact ⟨_, exec_of_finishes hr hf, faulted_of_finishes hf, rfl, rfl⟩

/-- A COMPRESS of an accepted input runs from its fresh state (R123). -/
theorem beginCommand_compress {alg : Alg} {s : State} (hw : alg = .lzw → legalWidth s.lzwW ≠ none)
    (h : s.CompressInput) : ∃ w, (alg = .lzw → legalWidth s.lzwW = some w) ∧
      beginCommand .compress alg s = begun .compress alg w s := by
  obtain ⟨w, hw', hbegin⟩ := beginCommand_checks .compress hw
  refine ⟨w, hw', hbegin.trans ?_⟩
  rw [directionChecks_compress (s := begun .compress alg w s) rfl h, settle_ok]

/-- A RESTORE of at least a header runs from its fresh state (R125). -/
theorem beginCommand_restore {alg : Alg} {s : State} (hw : alg = .lzw → legalWidth s.lzwW ≠ none)
    (hcap : s.inLen ≤ s.params.ibufCap) (hlen : 4 ≤ s.inLen) :
    ∃ w, (alg = .lzw → legalWidth s.lzwW = some w) ∧
      beginCommand .restore alg s = begun .restore alg w s := by
  obtain ⟨w, hw', hbegin⟩ := beginCommand_checks .restore hw
  refine ⟨w, hw', hbegin.trans ?_⟩
  have hchecks : directionChecks (begun .restore alg w s) = .ok (begun .restore alg w s) :=
    (if_neg hcap.not_gt).trans (if_neg hlen.not_gt)
  rw [hchecks, settle_ok]

/-- Settles O7: the three tests of R123 raise the same cause, before anything is written. -/
theorem compressRejectsInvalidInput : Obligations.CompressRejectsInvalidInput := by
  intro alg s hr hw h
  exact exec_of_checks_raised hr hw fun w =>
    directionChecks_compress_invalid (s := begun .compress alg w s) rfl h

/-- What a command other than SRESET does is command acceptance (R120). -/
theorem exec_command {i : Instr} (hi : i.isCommand = true) (hs : i ≠ .sreset) :
    ∃ run, ∀ s, exec i s = acceptCommand run s := by
  cases i with
  | cnoop => exact ⟨_, exec_commandOf .compress .noop⟩
  | crle => exact ⟨_, exec_commandOf .compress .rle⟩
  | clzw => exact ⟨_, exec_commandOf .compress .lzw⟩
  | chuf => exact ⟨_, exec_commandOf .compress .huf⟩
  | rnoop => exact ⟨_, exec_commandOf .restore .noop⟩
  | rrle => exact ⟨_, exec_commandOf .restore .rle⟩
  | rlzw => exact ⟨_, exec_commandOf .restore .lzw⟩
  | rhuf => exact ⟨_, exec_commandOf .restore .huf⟩
  | cmdIllegal word => exact ⟨beginIllegal, fun _ => rfl⟩
  | sreset => exact absurd rfl hs
  | _ => cases hi

/-- Settles O4: every command but SRESET goes through command acceptance. -/
theorem commandsInFaultAndBusy : Obligations.CommandsInFaultAndBusy := by
  intro i s hi hs
  obtain ⟨run, hrun⟩ := exec_command hi hs
  rw [hrun]
  exact ⟨acceptCommand_fault run s, acceptCommand_busy run s⟩

/-! ## A byte of a NoOp payload -/

/-- A byte that fits, followed by the test for the last byte of the image (R127, R241). -/
theorem putByte_restored (b : Byte) {s : State} (hcap : s.wpos < s.params.obufCap) :
    ((putByte b s).bind fun s1 => if s1.wpos < s1.total then .ok s1 else .ok (finishRestore s1)) =
      if s.wpos + 1 < s.total then .ok { s with obuf := Memory.write s.obuf s.wpos b, wpos := s.wpos + 1 }
      else .ok (finishRestore { s with obuf := Memory.write s.obuf s.wpos b, wpos := s.wpos + 1 }) := by
  rw [putByte_ok b s hcap]; rfl

/-- Settles O34: the store, then the test for the last of the 3N bytes. -/
theorem rawByteIsCopied : Obligations.RawByteIsCopied := by
  intro b s hd hb hlt hcap
  have hrun : exec (.raw b) s = .next (readRaw b s).settle := by rw [exec_raw, rawRecord, hd]
  rw [hrun, readRaw, putByte_restored b (by omega)]
  by_cases hlast : s.wpos + 1 < s.total
  · rw [if_pos hlast]
    refine ⟨_, rfl, stores_writeBytes s _ [b] rfl rfl rfl, ⟨rfl, rfl, rfl, rfl, rfl, rfl, rfl⟩, ⟨rfl, rfl⟩, rfl,
      fun _ => rfl, fun h => absurd h (by omega)⟩
  · rw [if_neg hlast]
    have hnot : s.state ≠ .done := by rw [hb]; decide
    refine ⟨_, rfl, stores_complete s _ [b] _ hnot rfl rfl, ⟨rfl, rfl, rfl, rfl, rfl, rfl, rfl⟩, ⟨rfl, rfl⟩, rfl,
      fun h => absurd h hlast, fun h => ⟨rfl, h, rfl⟩⟩

end Sys2Proof.Machine
end

section
/-! What a command has written, as bytes (R31, R61, R151), and what a RESTORE has still to read, as bits (R33, R63). -/

namespace Sys2Proof.Machine

/-! ## The bytes written -/

/-- The command has written exactly `bytes`. -/
structure Holds (s : State) (bytes : List Byte) : Prop where
  wf : Memory.wf s.obuf = true
  wpos : s.wpos = bytes.length
  stored : ∀ a, a < bytes.length → Memory.lookup s.obuf a = bytes[a]?

/-- What completion leaves of `OBUF` are the bytes written. -/
theorem Holds.below {s : State} {bytes : List Byte} (h : Holds s bytes) :
    Memory.below s.wpos s.obuf = Memory.listing 0 bytes := by
  refine eq_listing (wf_below _ h.wf) fun a => ?_
  rw [lookup_below, h.wpos]
  split
  · next ha => exact h.stored a ha
  · next ha => rw [List.getElem?_eq_none (by omega)]

/-- More bytes behind those written. -/
theorem Holds.append {s t : State} {bytes more : List Byte} (h : Holds s bytes)
    (hm : t.obuf = Memory.writeBytes s.obuf s.wpos more) (hp : t.wpos = s.wpos + more.length) :
    Holds t (bytes ++ more) where
  wf := by rw [hm]; exact wf_writeBytes _ _ h.wf
  wpos := by rw [hp, h.wpos, List.length_append]
  stored := fun a ha => by
    rw [List.length_append] at ha
    rw [hm, lookup_writeBytes, h.wpos]
    split
    · next hin => rw [List.getElem?_append_right hin.1]
    · next hout =>
      have hlt : a < bytes.length := by omega
      rw [List.getElem?_append_left hlt]; exact h.stored a hlt

/-- Other registers do not matter. -/
theorem Holds.keep {s t : State} {bytes : List Byte} (h : Holds s bytes) (hm : t.obuf = s.obuf := by rfl)
    (hp : t.wpos = s.wpos := by rfl) : Holds t bytes where
  wf := by rw [hm]; exact h.wf
  wpos := hp.trans h.wpos
  stored := by rw [hm]; exact h.stored

/-- A command that has just started has written nothing. -/
theorem holds_begun (dir : Dir) (alg : Alg) (w : LzwWidth) {s : State} (h : Memory.wf s.obuf = true) :
    Holds (begun dir alg w s) [] where
  wf := h
  wpos := rfl
  stored := nofun

/-- The completion a command ends in, with the bytes it has written. -/
theorem completed_of_finishes {dir : Dir} {alg : Alg} {s u : State} {used : Nat} {bytes : List Byte}
    (h : Finishes (beginCommand dir alg s) (complete used u)) (hu : Holds u bytes) :
    Completed s (complete used u) bytes used where
  state := rfl
  cause := by
    rw [← runCommand_of_finishes h]
    have hdone : (runCommand dir alg s).state = .done := by rw [runCommand_of_finishes h]; rfl
    obtain ⟨used', t, k, ht⟩ | ⟨c, t, _, ht⟩ := runCommand_ended dir alg s <;> rw [ht] at hdone ⊢
    · exact k.cause
    · cases hdone
  obuf := hu.below
  outLen := hu.wpos
  inUsed := rfl
  inputs := by rw [← runCommand_of_finishes h]; exact runCommand_inputs dir alg s

/-! ## Reading alike -/

theorem n_congr {s t : State} (hw : t.width = s.width := by rfl) (hh : t.height = s.height := by rfl) : t.n = s.n := by
  rw [n_eq, n_eq, hw, hh]

theorem total_congr {s t : State} (hw : t.width = s.width := by rfl) (hh : t.height = s.height := by rfl) :
    t.total = s.total := by
  rw [total_eq, total_eq, n_congr hw hh]

theorem ibufBytes_congr {s t : State} (base len : Nat) (hi : t.ibuf = s.ibuf := by rfl)
    (he : t.ibufEpoch = s.ibufEpoch := by rfl) : t.ibufBytes base len = s.ibufBytes base len := by
  induction len generalizing base with
  | zero => rfl
  | succ len ih => simp only [State.ibufBytes, State.ibufByte, hi, he, ih]

theorem bitsFrom_congr {s t : State} (q k : Nat) (hi : t.ibuf = s.ibuf := by rfl)
    (he : t.ibufEpoch = s.ibufEpoch := by rfl) : t.bitsFrom q k = s.bitsFrom q k := by
  induction k generalizing q with
  | zero => rfl
  | succ k ih => simp only [State.bitsFrom, State.streamBit, State.ibufByte, hi, he, ih]

theorem ibufBytes_add (s : State) (base j k : Nat) :
    s.ibufBytes base (j + k) = s.ibufBytes base j ++ s.ibufBytes (base + j) k := by
  induction j generalizing base with
  | zero => simp [State.ibufBytes]
  | succ j ih => rw [Nat.succ_add, State.ibufBytes, ih, State.ibufBytes, Nat.add_right_comm base 1 j]; rfl

/-- Eight stream bits from a byte boundary are the byte's (R63). -/
theorem bitsFrom_byte (s : State) (a : Nat) : s.bitsFrom (8 * a) 8 = bitsOf 8 (s.ibufByte a).toNat := by
  have hbit (j : Nat) (hj : j < 8) : s.streamBit (8 * a + j) = (s.ibufByte a).toNat.testBit (7 - j) := by
    rw [State.streamBit, show (8 * a + j) / 8 = a by omega, show (8 * a + j) % 8 = j by omega]
  simp only [State.bitsFrom, bitsOf, Nat.add_assoc, Nat.reduceAdd]
  have h0 := hbit 0 (by decide)
  rw [Nat.add_zero] at h0
  rw [h0, hbit 1 (by decide), hbit 2 (by decide), hbit 3 (by decide), hbit 4 (by decide), hbit 5 (by decide),
    hbit 6 (by decide), hbit 7 (by decide)]

/-- The bits of whole bytes of `IBUF` (R63, R64). -/
theorem bitsFrom_bytes (s : State) (a k : Nat) : s.bitsFrom (8 * a) (8 * k) = bytesBits (s.ibufBytes a k) := by
  induction k generalizing a with
  | zero => rfl
  | succ k ih =>
    rw [Nat.mul_succ, Nat.add_comm, bitsFrom_add, bitsFrom_byte, State.ibufBytes, bytesBits_cons, ← ih]; rfl

theorem inputBits_eq (s : State) : s.inputBits = bytesBits (s.ibufBytes 0 s.inLen) := bitsFrom_bytes s 0 s.inLen

/-! ## The bits a RESTORE has not read -/

/-- What is left of the stream at `RPOS` (R33). -/
def State.unread (s : State) : List Bool := s.bitsFrom s.rpos (8 * s.inLen - s.rpos)

theorem unread_congr {s t : State} (hi : t.ibuf = s.ibuf := by rfl) (he : t.ibufEpoch = s.ibufEpoch := by rfl)
    (hl : t.inLen = s.inLen := by rfl) (hp : t.rpos = s.rpos := by rfl) : t.unread = s.unread := by
  rw [State.unread, State.unread, hl, hp]; exact bitsFrom_congr _ _ hi he

theorem unread_begun (alg : Alg) (w : LzwWidth) (s : State) : (begun .restore alg w s).unread = s.inputBits :=
  bitsFrom_congr 0 (8 * s.inLen)

theorem length_unread (s : State) : s.unread.length = 8 * s.inLen - s.rpos := length_bitsFrom s _ _

/-- Moving over the bits in front leaves the others. -/
theorem unread_skipBits {s : State} {front rest : List Bool} (h : s.unread = front ++ rest) :
    (skipBits front.length s).unread = rest := by
  have hlen := length_unread s
  rw [h, List.length_append] at hlen
  have hsplit : 8 * s.inLen - s.rpos = front.length + (8 * s.inLen - (s.rpos + front.length)) := by omega
  have hbits : s.unread = s.bitsFrom s.rpos front.length ++
      s.bitsFrom (s.rpos + front.length) (8 * s.inLen - (s.rpos + front.length)) := by
    rw [← bitsFrom_add, ← hsplit]; rfl
  rw [h] at hbits
  rw [(List.append_inj hbits (length_bitsFrom s _ _).symm).2]
  exact bitsFrom_congr _ _

/-- The turn of a RESTORE whose next record is `i`: the reader has moved past it, and it is run (R33). -/
theorem engineTurn_reads {s : State} {i : Instr} {rest : List Bool} (hd : s.dir = .restore)
    (hl : ∀ l ∈ s.lens, l ≤ 16) (hw : i.wellFormed = true) (hctx : s.ctx.admits i)
    (hu : s.unread = encode i ++ rest) :
    engineTurn s = (recordRun i (skipBits (encode i).length s)).settle := by
  have hdec : decode s.ctx s.unread = .ok (i, rest) := by
    rw [hu]; exact decodeOfEncodeIsTheInstruction s.ctx i rest hw hctx
  have hstep := engineStep_restore s hd hl
  change match decode s.ctx s.unread with | .ok (i, rest) => _ | .error r => _ at hstep
  rw [hdec] at hstep
  have hlen : 8 * s.inLen - s.rpos - rest.length = (encode i).length := by
    rw [← length_unread, hu, List.length_append, Nat.add_sub_cancel]
  dsimp only at hstep
  have hrecord : i.isRecord = true := decode_isRecord (ctx_ne_cmd s) hdec
  rw [engineStep_eq, hlen, exec_record hrecord, recordEffect_eq_settle] at hstep
  exact Host.Outcome.next.inj hstep

/-! ## The header of a RESTORE -/

/-- The state in which a RESTORE tests the size it has latched (R125). -/
def headed (alg : Alg) (w : LzwWidth) (width height : Half) (s : State) : State :=
  (skipBits 32 (begun .restore alg w s)).sized width height

/-- After the header the payload is unread. -/
theorem unread_headed {alg : Alg} {w : LzwWidth} {width height : Half} {s : State} {payload : List Bool}
    (h : s.inputBits = encode (.hdr width height) ++ payload) : (headed alg w width height s).unread = payload := by
  rw [← unread_begun alg w] at h
  have hskip := unread_skipBits h
  rw [encode_hdr, length_bytesBits] at hskip
  exact (unread_congr (s := skipBits 32 (begun .restore alg w s))).trans hskip

/-- The first turn of a RESTORE reads the header. -/
theorem engineTurn_header {alg : Alg} {w : LzwWidth} {width height : Half} {s : State} {payload : List Bool}
    (h : s.inputBits = encode (.hdr width height) ++ payload) :
    engineTurn (begun .restore alg w s) =
      (readHeader width height (skipBits 32 (begun .restore alg w s))).settle := by
  rw [← unread_begun alg w] at h
  have hl : ∀ l ∈ (begun .restore alg w s).lens, l ≤ 16 := fun l hl => nomatch hl
  rw [engineTurn_reads (s := begun .restore alg w s) (i := .hdr width height) rfl hl rfl rfl h, encode_hdr,
    length_bytesBits]
  rfl

/-- A RESTORE of which the tests of the header let nothing pass. -/
theorem exec_of_header_raised {alg : Alg} {s : State} {width height : Half} {payload : List Bool} {c : Cause}
    (hr : s.Ready) (hw : alg = .lzw → legalWidth s.lzwW ≠ none) (hcap : s.inLen ≤ s.params.ibufCap)
    (hlen : 4 ≤ s.inLen) (hbits : s.inputBits = encode (.hdr width height) ++ payload)
    (h : ∀ w, readHeader width height (skipBits 32 (begun .restore alg w s)) =
      .raised c (headed alg w width height s)) :
    ∃ t, exec (commandOf .restore alg) s = .next t ∧ Faulted c s t ∧ t.width = width ∧ t.height = height := by
  obtain ⟨w, _, hbegin⟩ := beginCommand_restore hw hcap hlen
  have hf : Finishes (beginCommand .restore alg s) (faultEntry c (headed alg w width height s)) := by
    rw [hbegin]
    refine .turn rfl ?_
    rw [engineTurn_header hbits, h w]
    exact .quiet nofun
  exact ⟨_, exec_of_finishes hr hf, faulted_of_finishes hf, rfl, rfl⟩

/-- Settles O8: each test in its order, up to the first that raises. -/
theorem restoreHeaderChecksInOrder : Obligations.RestoreHeaderChecksInOrder := by
  intro alg s hr hw
  refine ⟨fun hcap => ?_, fun hcap hshort => ?_, fun width height payload hcap hlen hbits => ⟨fun hn => ?_, ?_⟩⟩
  · exact exec_of_checks_raised hr hw fun w => if_pos hcap
  · exact exec_of_checks_raised hr hw fun w => (if_neg hcap.not_gt).trans (if_pos hshort)
  · exact exec_of_header_raised hr hw hcap hlen hbits fun w => readHeader_empty hn
  · exact fun hn hover => exec_of_header_raised hr hw hcap hlen hbits fun w => readHeader_large hn hover

/-- A stream whose header the tests let pass has one. -/
theorem RestoreInput.four_le {s : State} {width height : Half} {payload : List Bool}
    (h : s.RestoreInput width height payload) : 4 ≤ s.inLen := by
  obtain ⟨_, hbits, _, _⟩ := h
  have hlen := congrArg List.length hbits
  rw [inputBits_eq, length_bytesBits, length_ibufBytes, List.length_append, encode_hdr, length_bytesBits] at hlen
  simp only [List.length_cons, List.length_nil] at hlen
  omega

/-- A RESTORE that passes the tests of its header finishes where it does after them. -/
theorem finishes_restore {alg : Alg} {s : State} {width height : Half} {payload : List Bool}
    (hw : alg = .lzw → legalWidth s.lzwW ≠ none) (h : s.RestoreInput width height payload) :
    ∃ w, (alg = .lzw → legalWidth s.lzwW = some w) ∧
      beginCommand .restore alg s = begun .restore alg w s ∧
      engineTurn (begun .restore alg w s) = (beginDecode (headed alg w width height s)).settle ∧
      (headed alg w width height s).unread = payload := by
  have hlen := RestoreInput.four_le h
  obtain ⟨hcap, hbits, hn, hfits⟩ := h
  obtain ⟨w, hw', hbegin⟩ := beginCommand_restore hw hcap hlen
  refine ⟨w, hw', hbegin, ?_, unread_headed hbits⟩
  rw [engineTurn_header hbits, readHeader_fits (s := skipBits 32 (begun .restore alg w s)) hn hfits]
  rfl

end Sys2Proof.Machine
end

section
/-! A COMPRESS as a writer of bits (R123, R134, R151 to R153): from each of its records on it either completes with
the bits that are due, or overflows because they do not fit. CNOOP. -/

namespace Sys2Proof.Machine

/-- The bits of a byte sequence tell its bytes. -/
theorem bytesBits_injective : Function.Injective bytesBits := by
  intro as bs h
  have hlen : as.length = bs.length := by
    have := congrArg List.length h
    rw [length_bytesBits, length_bytesBits] at this; omega
  have hread := takeBytes_bytesBits as []
  rw [h, hlen, takeBytes_bytesBits] at hread
  exact (Prod.mk.inj (Option.some.inj hread)).1.symm

/-! ## Bytes stored at `WPOS` -/

/-- The state after a byte write (R151). -/
def State.put (bytes : List Byte) (s : State) : State :=
  { s with obuf := Memory.writeBytes s.obuf s.wpos bytes, wpos := s.wpos + bytes.length }

theorem putBytes_put {bytes : List Byte} {s : State} (h : s.wpos + bytes.length ≤ s.params.obufCap) :
    putBytes bytes s = .ok (s.put bytes) := putBytes_ok bytes s h

theorem Holds.put {s : State} {bytes : List Byte} (h : Holds s bytes) (more : List Byte) :
    Holds (s.put more) (bytes ++ more) := h.append rfl rfl

/-! ## The bits written -/

/-- A COMPRESS has written exactly `bits`, the last few of which may be pending (R34). -/
structure Written (s : State) (bits : List Bool) : Prop where
  room : s.wpos ≤ s.params.obufCap
  few : s.wcnt < 8
  fits : s.wacc < 2 ^ s.wcnt
  out : ∃ bytes, Holds s bytes ∧ bytesBits bytes ++ bitsOf s.wcnt s.wacc = bits

theorem Written.length {s : State} {bits : List Bool} (h : Written s bits) : bits.length = 8 * s.wpos + s.wcnt := by
  obtain ⟨bytes, hbytes, rfl⟩ := h.out
  rw [List.length_append, length_bytesBits, length_bitsOf, hbytes.wpos]

/-- Registers that are no part of the writer do not matter. -/
theorem Written.keep {s t : State} {bits : List Bool} (h : Written s bits) (hcap : t.params = s.params := by rfl)
    (hm : t.obuf = s.obuf := by rfl) (hp : t.wpos = s.wpos := by rfl) (hc : t.wcnt = s.wcnt := by rfl)
    (ha : t.wacc = s.wacc := by rfl) : Written t bits where
  room := by rw [hcap, hp]; exact h.room
  few := by rw [hc]; exact h.few
  fits := by rw [ha, hc]; exact h.fits
  out := by
    obtain ⟨bytes, hbytes, hbits⟩ := h.out
    exact ⟨bytes, hbytes.keep hm hp, by rw [hc, ha]; exact hbits⟩

theorem written_begun (alg : Alg) (w : LzwWidth) {s : State} (h : Memory.wf s.obuf = true) :
    Written (begun .compress alg w s) [] where
  room := Nat.zero_le _
  few := by change 0 < 8; decide
  fits := by change 0 < 2 ^ 0; decide
  out := ⟨[], holds_begun .compress alg w h, rfl⟩

theorem Written.put {s : State} {bits : List Bool} (h : Written s bits) (h0 : s.wcnt = 0) {bytes : List Byte}
    (hfit : s.wpos + bytes.length ≤ s.params.obufCap) : Written (s.put bytes) (bits ++ bytesBits bytes) where
  room := hfit
  few := h.few
  fits := h.fits
  out := by
    obtain ⟨before, hbefore, rfl⟩ := h.out
    refine ⟨before ++ bytes, hbefore.put bytes, ?_⟩
    have h0' : (s.put bytes).wcnt = 0 := h0
    rw [h0, h0', bitsOf_zero, bitsOf_zero, List.append_nil, List.append_nil, bytesBits_append]

theorem Written.wrote {s : State} {bits more : List Bool} {bytes : List Byte} {cnt acc : Nat} (h : Written s bits)
    (hp : Pending s more bytes cnt acc) (hfit : s.wpos + bytes.length ≤ s.params.obufCap) :
    Written (s.wrote bytes cnt acc) (bits ++ more) where
  room := hfit
  few := hp.few
  fits := hp.fits
  out := by
    obtain ⟨before, hbefore, rfl⟩ := h.out
    refine ⟨before ++ bytes, hbefore.append rfl rfl, ?_⟩
    rw [bytesBits_append, List.append_assoc, List.append_assoc, ← hp.same]; rfl

/-! ## How a COMPRESS ends -/

/-- The COMPRESS in `s` writes `bits` in all: it completes in a state with `P` where they fit, and overflows
where not. -/
structure Compresses (s : State) (bits : List Bool) (P : State → Prop) : Prop where
  fits : bits.length ≤ 8 * s.params.obufCap →
    ∃ u bytes, Finishes s (finishCompress u) ∧ Holds u bytes ∧ bytesBits bytes = bits ∧ P u
  overflows : 8 * s.params.obufCap < bits.length → ∃ u, Finishes s (faultEntry .outputOverflow u)

theorem Compresses.turn {s : State} {bits : List Bool} {P : State → Prop} (hb : s.state = .busy)
    (h : Compresses (engineTurn s) bits P) : Compresses s bits P := by
  have hcap : (engineTurn s).params = s.params := (engineTurn_reached s).inputs.params
  refine ⟨fun hfit => ?_, fun hover => ?_⟩
  · rw [← hcap] at hfit
    obtain ⟨u, bytes, hf, hu⟩ := h.fits hfit
    exact ⟨u, bytes, .turn hb hf, hu⟩
  · rw [← hcap] at hover
    obtain ⟨u, hf⟩ := h.overflows hover
    exact ⟨u, .turn hb hf⟩

theorem compresses_faulted {s : State} {bits : List Bool} {P : State → Prop}
    (hover : 8 * s.params.obufCap < bits.length) : Compresses (faultEntry .outputOverflow s) bits P where
  fits := fun hfit => absurd hfit hover.not_ge
  overflows := fun _ => ⟨s, .quiet nofun⟩

/-- A COMPRESS completes on a byte boundary. -/
theorem compresses_finish {u : State} {bits : List Bool} {P : State → Prop} (h : Written u bits) (h0 : u.wcnt = 0)
    (hP : P u) : Compresses (finishCompress u) bits P where
  fits := fun _ => by
    obtain ⟨bytes, hbytes, hbits⟩ := h.out
    rw [h0, bitsOf_zero, List.append_nil] at hbits
    exact ⟨u, bytes, .quiet nofun, hbytes, hbits, hP⟩
  overflows := fun hover => by
    change 8 * u.params.obufCap < bits.length at hover
    have := h.length
    have := h.room
    omega

/-- Bytes on a byte boundary, then the rest of the record's run. -/
theorem compresses_putBytes {s : State} {bits rest : List Bool} {P : State → Prop} {bytes : List Byte}
    {f : State → Res} (h : Written s bits) (h0 : s.wcnt = 0)
    (hf : Written (s.put bytes) (bits ++ bytesBits bytes) →
      Compresses (f (s.put bytes)).settle (bits ++ bytesBits bytes ++ rest) P) :
    Compresses ((putBytes bytes s).bind f).settle (bits ++ (bytesBits bytes ++ rest)) P := by
  rw [← List.append_assoc]
  by_cases hfit : s.wpos + bytes.length ≤ s.params.obufCap
  · rw [putBytes_put hfit]
    exact hf (h.put h0 hfit)
  · obtain ⟨m, p, hfull⟩ := putBytes_full bytes s h.room (by omega)
    rw [hfull]
    refine compresses_faulted (s := { s with obuf := m, wpos := p }) ?_
    rw [List.length_append, List.length_append, h.length, length_bytesBits]
    change 8 * s.params.obufCap < _
    omega

/-- Bits, then the rest of the record's run. -/
theorem compresses_putBits {s : State} {bits total : List Bool} {P : State → Prop} {v n : Nat} {f : State → Res}
    (h : Written s bits) (hpre : bits ++ bitsOf n v <+: total)
    (hf : ∀ bytes cnt acc, Written (s.wrote bytes cnt acc) (bits ++ bitsOf n v) →
      Compresses (f (s.wrote bytes cnt acc)).settle total P) :
    Compresses ((putBits v n s).bind f).settle total P := by
  by_cases hfit : s.Fits (bitsOf n v)
  · obtain ⟨bytes, acc, hput, hlen, hacc, hbits⟩ := putBitList_ok (bitsOf n v) s h.few h.fits hfit
    rw [putBits, hput]
    exact hf _ _ _ (h.wrote ⟨hbits, Nat.mod_lt _ (by decide), hacc⟩ (by rw [hlen]; exact hfit))
  · have hover : s.params.obufCap < s.wpos + (s.wcnt + (bitsOf n v).length) / 8 := Nat.lt_of_not_le hfit
    obtain ⟨m, p, hfull⟩ := putBitList_full (bitsOf n v) s h.few h.room hover
    rw [putBits, hfull]
    refine compresses_faulted (s := { s with obuf := m, wpos := p, wcnt := 0, wacc := 0 }) ?_
    have hlen := hpre.length_le
    rw [List.length_append, h.length] at hlen
    change 8 * s.params.obufCap < _
    omega

/-- A COMPRESS command is how its first turn's state ends. -/
theorem exec_of_compresses {alg : Alg} {s : State} {stream : List Byte} {P : State → Prop} (hr : s.Ready)
    (h : Compresses (beginCommand .compress alg s) (bytesBits stream) P) :
    (stream.length ≤ s.params.obufCap → ∃ u, exec (commandOf .compress alg) s = .next (finishCompress u) ∧
      Completed s (finishCompress u) stream s.inLen ∧ SameSize s (finishCompress u) ∧ P u) ∧
    (s.params.obufCap < stream.length →
      ∃ t, exec (commandOf .compress alg) s = .next t ∧ Faulted .outputOverflow s t ∧ SameSize s t) := by
  have hcap : (beginCommand .compress alg s).params = s.params := (beginCommand_inputs .compress alg s).params
  refine ⟨fun hfit => ?_, fun hover => ?_⟩
  · obtain ⟨u, bytes, hf, hu, hbits, hP⟩ := h.fits (by rw [length_bytesBits, hcap]; omega)
    obtain rfl := bytesBits_injective hbits
    have hdone := completed_of_finishes hf hu
    have hused : u.inLen = s.inLen := hdone.inputs.inLen
    exact ⟨u, exec_of_finishes hr hf, { hdone with inUsed := hused }, sameSize_of_finishes hf, hP⟩
  · obtain ⟨u, hf⟩ := h.overflows (by rw [length_bytesBits, hcap]; omega)
    exact ⟨_, exec_of_finishes hr hf, faulted_of_finishes hf, sameSize_of_finishes hf⟩

/-! ## A COMPRESS between its records -/

/-- A COMPRESS with the input of `s0`, in phase `enc`, has written `bits`. -/
structure Encoding (enc : EncPhase) (alg : Alg) (s0 s : State) (bits : List Bool) : Prop where
  busy : s.state = .busy
  dir : s.dir = .compress
  phase : s.enc = enc
  alg : s.alg = alg
  inputs : SameInputs s0 s
  size : SameSize s0 s
  written : Written s bits

theorem Encoding.ibufByte {enc : EncPhase} {alg : Alg} {s0 s : State} {bits : List Bool}
    (h : Encoding enc alg s0 s bits) (a : Nat) : s.ibufByte a = s0.ibufByte a := by
  rw [State.ibufByte, h.inputs.ibuf, h.inputs.ibufEpoch]; rfl

theorem Encoding.ibufBytes {enc : EncPhase} {alg : Alg} {s0 s : State} {bits : List Bool}
    (h : Encoding enc alg s0 s bits) (a k : Nat) : s.ibufBytes a k = s0.ibufBytes a k :=
  ibufBytes_congr a k h.inputs.ibuf h.inputs.ibufEpoch

theorem Encoding.n {enc : EncPhase} {alg : Alg} {s0 s : State} {bits : List Bool} (h : Encoding enc alg s0 s bits) :
    s.n = s0.n := n_congr h.size.1 h.size.2

theorem Encoding.total {enc : EncPhase} {alg : Alg} {s0 s : State} {bits : List Bool}
    (h : Encoding enc alg s0 s bits) : s.total = s0.total := total_congr h.size.1 h.size.2

/-- After a record: the writer has moved on, and other registers do not matter here. -/
theorem Encoding.next {enc enc' : EncPhase} {alg : Alg} {s0 s t : State} {bits bits' : List Bool}
    (h : Encoding enc alg s0 s bits) (hw : Written t bits') (hphase : t.enc = enc')
    (hb : t.state = s.state := by rfl) (hd : t.dir = s.dir := by rfl) (ha : t.alg = s.alg := by rfl)
    (hin : SameInputs s t := by exact ⟨rfl, rfl, rfl, rfl, rfl, rfl, rfl⟩) (hwidth : t.width = s.width := by rfl)
    (hheight : t.height = s.height := by rfl) : Encoding enc' alg s0 t bits' where
  busy := hb.trans h.busy
  dir := hd.trans h.dir
  phase := hphase
  alg := ha.trans h.alg
  inputs := h.inputs.trans hin
  size := ⟨hwidth.trans h.size.1, hheight.trans h.size.2⟩
  written := hw

theorem encoding_begun (alg : Alg) (w : LzwWidth) {s : State} (hwf : Memory.wf s.obuf = true) :
    Encoding .header alg s (begun .compress alg w s) [] :=
  ⟨rfl, rfl, rfl, rfl, ⟨rfl, rfl, rfl, rfl, rfl, rfl, rfl⟩, ⟨rfl, rfl⟩, written_begun alg w hwf⟩

/-! ## The header of a COMPRESS -/

/-- The four bytes of the header (R124). -/
def headerBytes (width height : Half) : List Byte := [hiByte width, loByte width, hiByte height, loByte height]

/-- The turn of a COMPRESS: its scan, then the record due there. -/
theorem engineTurn_compress {s t : State} {i : Instr} (hd : s.dir = .compress) (hscan : encScan s = t)
    (hi : t.encNext = i) : engineTurn s = (recordRun i t).settle := by
  have hf := fetchRecord_compress hd
  rw [hscan, hi] at hf
  exact engineTurn_record hf

/-- A COMPRESS writes the header first (R123, R124). -/
theorem compresses_header {alg : Alg} {w : LzwWidth} {s : State} {rest : List Bool} {P : State → Prop}
    (hwf : Memory.wf s.obuf = true)
    (h : Written ((begun .compress alg w s).put (headerBytes s.width s.height))
        (bytesBits (headerBytes s.width s.height)) →
      Compresses (beginEncode ((begun .compress alg w s).put (headerBytes s.width s.height))).settle
        (bytesBits (headerBytes s.width s.height) ++ rest) P) :
    Compresses (begun .compress alg w s) (bytesBits (headerBytes s.width s.height) ++ rest) P := by
  refine Compresses.turn rfl ?_
  rw [engineTurn_compress (s := begun .compress alg w s) (i := .hdr s.width s.height) rfl rfl rfl]
  exact compresses_putBytes (written_begun alg w hwf) rfl h

/-! ## CNOOP (R126) -/

/-- The bytes of the planes from the loop index on, one record each. -/
theorem compresses_raw {s0 s : State} {bits : List Bool} {data : List Byte} (h : Encoding .raw .noop s0 s bits)
    (h0 : s.wcnt = 0) (hdata : s0.ibufBytes s.idx data.length = data) (hend : s.idx + data.length = s.total)
    (hne : data ≠ []) : Compresses s (bits ++ bytesBits data) (fun u => u.alg = .noop) := by
  induction data generalizing s bits with
  | nil => exact absurd rfl hne
  | cons b data ih =>
    obtain ⟨hbyte, hrest⟩ := List.cons.inj hdata
    refine Compresses.turn h.busy ?_
    have hscan : encScan s = s := by simp only [encScan, h.phase]
    have hnext : s.encNext = .raw b := by simp only [State.encNext, h.phase, h.ibufByte, hbyte]
    rw [engineTurn_compress h.dir hscan hnext]
    change Compresses (rawRecord b s).settle _ _
    rw [rawRecord, h.dir, bytesBits_cons, ← bytesBits_singleton]
    change Compresses (emitRaw b s).settle _ _
    rw [emitRaw, ← putBytes_singleton]
    refine compresses_putBytes h.written h0 fun hput => ?_
    rw [List.length_cons] at hend
    by_cases hlast : data = []
    · subst hlast
      have hdone : ¬s.idx + 1 < s.total := by rw [← hend]; exact Nat.lt_irrefl _
      change Compresses (if s.idx + 1 < s.total then Res.ok _ else Res.ok _).settle _ _
      rw [if_neg hdone, settle_ok, bytesBits_nil, List.append_nil]
      exact compresses_finish (u := { s.put [b] with idx := s.idx + 1 }) hput.keep h0 h.alg
    · have hmore : s.idx + 1 < s.total := by have := List.length_pos_iff.mpr hlast; omega
      change Compresses (if s.idx + 1 < s.total then Res.ok _ else Res.ok _).settle _ _
      rw [if_pos hmore, settle_ok]
      refine ih (s := { s.put [b] with idx := s.idx + 1 }) (h.next hput.keep h.phase) h0 hrest ?_ hlast
      change s.idx + 1 + data.length = s.total; omega

theorem total_ne_zero {s : State} (h : s.n ≠ 0) : s.total ≠ 0 := by rw [total_eq]; omega

/-- Settles O9: the header, then one record per byte of the planes. -/
theorem cnoopWritesHeaderAndPlanes : Obligations.CnoopWritesHeaderAndPlanes := by
  intro s hr hwf hin
  obtain ⟨w, _, hbegin⟩ := beginCommand_compress (alg := .noop) nofun hin
  have hlen : (s.ibufBytes 0 s.total).length = s.total := length_ibufBytes s 0 s.total
  have h : Compresses (beginCommand .compress .noop s)
      (bytesBits (headerBytes s.width s.height ++ s.ibufBytes 0 s.total)) (fun u => u.alg = .noop) := by
    rw [hbegin, bytesBits_append]
    refine compresses_header hwf fun hput => ?_
    refine compresses_raw (s0 := s) (s := { (begun .compress .noop w s).put (headerBytes s.width s.height) with
      enc := .raw, idx := 0 }) ((encoding_begun .noop w hwf).next hput.keep rfl) rfl ?_ ?_ ?_
    · rw [hlen]
    · rw [hlen]; exact Nat.zero_add _
    · exact List.ne_nil_of_length_pos (by rw [hlen]; exact Nat.pos_of_ne_zero (total_ne_zero hin.2.1))
  have hstream : (headerBytes s.width s.height ++ s.ibufBytes 0 s.total).length = 4 + s.total := by
    rw [List.length_append, hlen]; rfl
  obtain ⟨hfits, hover⟩ := exec_of_compresses hr h
  rw [hstream] at hfits hover
  refine ⟨fun hcap => ?_, hover⟩
  obtain ⟨u, hexec, hdone, hsize, halg⟩ := hfits hcap
  refine ⟨_, hexec, hdone, hdone.outLen.trans hstream, hsize, ?_, ?_⟩
  · change u.finalStatTable = 0
    rw [State.finalStatTable, halg]
  · change u.finalStatClears = 0
    rw [State.finalStatClears, halg]

end Sys2Proof.Machine
end

section
/-! A RESTORE between its records: what it has written and what it has still to read; how the last record completes it.
RNOOP, and the round trip of the NoOp codec (R127, R136). -/

namespace Sys2Proof.Machine

/-! ## A RESTORE between its records -/

/-- A RESTORE in phase `dec`, whose image fits `OBUF`, has written `out` and has `rest` still to read. -/
structure Decoding (dec : DecPhase) (s : State) (out : List Byte) (rest : List Bool) : Prop where
  busy : s.state = .busy
  dir : s.dir = .restore
  phase : s.dec = dec
  lens : ∀ l ∈ s.lens, l ≤ 16
  room : s.total ≤ s.params.obufCap
  holds : Holds s out
  unread : s.unread = rest

/-- What the results of a RESTORE depend on, besides its output: how far it has read, the size, and the codec. -/
structure SameResults (s t : State) (used : Nat) : Prop where
  rpos : t.rpos = s.rpos + used := by rfl
  width : t.width = s.width := by rfl
  height : t.height = s.height := by rfl
  alg : t.alg = s.alg := by rfl
  dir : t.dir = s.dir := by rfl

theorem SameResults.trans {s t u : State} {j k : Nat} (h : SameResults s t j) (h' : SameResults t u k) :
    SameResults s u (j + k) where
  rpos := by rw [h'.rpos, h.rpos, Nat.add_assoc]
  width := h'.width.trans h.width
  height := h'.height.trans h.height
  alg := h'.alg.trans h.alg
  dir := h'.dir.trans h.dir

/-- Registers that are no part of the results do not matter. -/
theorem SameResults.keep {s t t' : State} {used : Nat} (h : SameResults s t used) (hp : t'.rpos = t.rpos := by rfl)
    (hw : t'.width = t.width := by rfl) (hh : t'.height = t.height := by rfl) (ha : t'.alg = t.alg := by rfl)
    (hd : t'.dir = t.dir := by rfl) : SameResults s t' used :=
  ⟨hp.trans h.rpos, hw.trans h.width, hh.trans h.height, ha.trans h.alg, hd.trans h.dir⟩

/-- The RESTORE in `s` reads `used` bits more and completes from `u`, with `bytes` written. -/
structure Restores (s u : State) (bytes : List Byte) (used : Nat) : Prop where
  finishes : Finishes s (finishRestore u)
  holds : Holds u bytes
  results : SameResults s u used

/-- A record that does not complete the command. -/
theorem Restores.turn {s t u : State} {bytes : List Byte} {j k : Nat} (h : Restores t u bytes k)
    (hb : s.state = .busy) (ht : engineTurn s = t) (hr : SameResults s t j) : Restores s u bytes (j + k) where
  finishes := .turn hb (by rw [ht]; exact h.finishes)
  holds := h.holds
  results := hr.trans h.results

/-- The record that completes the command. -/
theorem restores_last {s u : State} {bytes : List Byte} {k : Nat} (hb : s.state = .busy)
    (ht : engineTurn s = finishRestore u) (hu : Holds u bytes) (hr : SameResults s u k) : Restores s u bytes k where
  finishes := .turn hb (by rw [ht]; exact .quiet nofun)
  holds := hu
  results := hr

/-- The turn that reads the record in front. -/
theorem Decoding.turn_reads {dec : DecPhase} {s : State} {out : List Byte} {i : Instr} {rest : List Bool}
    (h : Decoding dec s out (encode i ++ rest)) (hw : i.wellFormed = true) (hctx : s.ctx.admits i) :
    engineTurn s = (recordRun i (skipBits (encode i).length s)).settle :=
  engineTurn_reads h.dir h.lens hw hctx h.unread

/-- After the turn of a record that writes `bytes` and moves registers that do not matter here. -/
theorem Decoding.next {dec dec' : DecPhase} {s t : State} {out bytes : List Byte} {front rest : List Bool}
    (h : Decoding dec s out (front ++ rest)) (hphase : t.dec = dec') (hlens : ∀ l ∈ t.lens, l ≤ 16)
    (ho : t.obuf = Memory.writeBytes s.obuf s.wpos bytes := by rfl) (hwpos : t.wpos = s.wpos + bytes.length := by rfl)
    (hstate : t.state = s.state := by rfl) (hdir : t.dir = s.dir := by rfl) (hwidth : t.width = s.width := by rfl)
    (hheight : t.height = s.height := by rfl) (hcap : t.params = s.params := by rfl) (hi : t.ibuf = s.ibuf := by rfl)
    (he : t.ibufEpoch = s.ibufEpoch := by rfl) (hl : t.inLen = s.inLen := by rfl)
    (hp : t.rpos = s.rpos + front.length := by rfl) : Decoding dec' t (out ++ bytes) rest where
  busy := hstate.trans h.busy
  dir := hdir.trans h.dir
  phase := hphase
  lens := hlens
  room := by rw [total_congr hwidth hheight, hcap]; exact h.room
  holds := h.holds.append ho hwpos
  unread := (unread_congr (s := skipBits front.length s) hi he hl hp).trans (unread_skipBits h.unread)

/-- Registers that a RESTORE in `dec` does not depend on. -/
theorem Decoding.keep {dec : DecPhase} {s t : State} {out : List Byte} {rest : List Bool} (h : Decoding dec s out rest)
    (hphase : t.dec = s.dec := by rfl) (hlens : t.lens = s.lens := by rfl) (ho : t.obuf = s.obuf := by rfl)
    (hwpos : t.wpos = s.wpos := by rfl) (hstate : t.state = s.state := by rfl) (hdir : t.dir = s.dir := by rfl)
    (hwidth : t.width = s.width := by rfl) (hheight : t.height = s.height := by rfl)
    (hcap : t.params = s.params := by rfl) (hi : t.ibuf = s.ibuf := by rfl)
    (he : t.ibufEpoch = s.ibufEpoch := by rfl) (hl : t.inLen = s.inLen := by rfl) (hp : t.rpos = s.rpos := by rfl) :
    Decoding dec t out rest where
  busy := hstate.trans h.busy
  dir := hdir.trans h.dir
  phase := hphase.trans h.phase
  lens := by rw [hlens]; exact h.lens
  room := by rw [total_congr hwidth hheight, hcap]; exact h.room
  holds := h.holds.keep ho hwpos
  unread := (unread_congr hi he hl hp).trans h.unread

/-- After the header a RESTORE has written nothing and read 32 bits (R125). -/
theorem decoding_headed {alg : Alg} {w : LzwWidth} {s : State} {width height : Half} {payload : List Bool}
    (hwf : Memory.wf s.obuf = true) (h : s.RestoreInput width height payload) :
    Decoding .header (headed alg w width height s) [] payload := by
  obtain ⟨_, hbits, _, hfits⟩ := h
  exact ⟨rfl, rfl, rfl, nofun, hfits, (holds_begun .restore alg w hwf).keep, unread_headed hbits⟩

/-- A RESTORE command is what its codec makes of the payload. -/
theorem exec_of_restores {alg : Alg} {s : State} {width height : Half} {payload : List Bool} {bytes : List Byte}
    {used : Nat} (hr : s.Ready) (hw : alg = .lzw → legalWidth s.lzwW ≠ none)
    (hin : s.RestoreInput width height payload) {P : State → Prop}
    (h : ∀ w, (alg = .lzw → legalWidth s.lzwW = some w) →
      ∃ t u, beginDecode (headed alg w width height s) = .ok t ∧ SameResults (headed alg w width height s) t 0 ∧
        Restores t u bytes used ∧ P u) :
    ∃ u, exec (commandOf .restore alg) s = .next (finishRestore u) ∧
      Completed s (finishRestore u) bytes (ceil8 (32 + used)) ∧ u.width = width ∧ u.height = height ∧ u.alg = alg ∧
      u.dir = .restore ∧ P u := by
  obtain ⟨w, hw', hbegin, hturn, _⟩ := finishes_restore hw hin
  obtain ⟨t, u, ht, hsame, hrest, hP⟩ := h w hw'
  have hres := hsame.trans hrest.results
  have hf : Finishes (beginCommand .restore alg s) (finishRestore u) := by
    rw [hbegin]
    refine .turn rfl ?_
    rw [hturn, ht, settle_ok]
    exact hrest.finishes
  have hused : ceil8 u.rpos = ceil8 (32 + used) := by
    have hrpos := hres.rpos
    change u.rpos = 0 + 32 + (0 + used) at hrpos
    rw [hrpos, Nat.zero_add, Nat.zero_add]
  exact ⟨u, exec_of_finishes hr hf, hused ▸ completed_of_finishes hf hrest.holds, hres.width, hres.height, hres.alg,
    hres.dir, hP⟩

/-! ## RNOOP (R127) -/

/-- The bytes of the payload, one record each; the last of the image completes the command. -/
theorem restores_raw {s : State} {out data : List Byte} {rest : List Bool}
    (h : Decoding .raw s out (bytesBits data ++ rest)) (hne : data ≠ [])
    (hend : out.length + data.length = s.total) :
    ∃ u, Restores s u (out ++ data) (8 * data.length) := by
  induction data generalizing s out with
  | nil => exact absurd rfl hne
  | cons b data ih =>
    rw [bytesBits_cons, List.append_assoc] at h
    rw [List.length_cons] at hend
    have hcap : s.wpos < s.params.obufCap := by have := h.room; have := h.holds.wpos; omega
    have hturn := h.turn_reads (i := .raw b) rfl (by rw [State.ctx, h.phase]; rfl)
    have hrun : recordRun (.raw b) (skipBits 8 s) =
        if s.wpos + 1 < s.total then .ok (State.put [b] (skipBits 8 s))
        else .ok (finishRestore (State.put [b] (skipBits 8 s))) := by
      change rawRecord b (skipBits 8 s) = _
      rw [rawRecord, skipBits_dir, h.dir]
      exact putByte_restored b (s := skipBits 8 s) hcap
    have hlen : (encode (.raw b)).length = 8 := length_bitsOf 8 _
    rw [hlen, hrun, h.holds.wpos] at hturn
    have hnext : Decoding .raw (State.put [b] (skipBits 8 s)) (out ++ [b]) (bytesBits data ++ rest) := by
      refine h.next h.phase h.lens (hp := ?_)
      rw [length_bitsOf]; rfl
    rw [List.append_cons]
    by_cases hlast : data = []
    · subst hlast
      rw [if_neg (by simp only [List.length_nil] at hend; omega), settle_ok] at hturn
      rw [List.append_nil]
      exact ⟨_, restores_last h.busy hturn hnext.holds {}⟩
    · have hpos := List.length_pos_iff.mpr hlast
      rw [if_pos (by omega), settle_ok] at hturn
      obtain ⟨u, hu⟩ := ih hnext hlast
        (by rw [List.length_append]; change out.length + 1 + data.length = s.total; omega)
      refine ⟨u, ?_⟩
      rw [List.length_cons, Nat.mul_succ, Nat.add_comm]
      exact hu.turn h.busy hturn {}

/-- Settles O14: the copy, or the test of R127 at the header. -/
theorem rnoopCopiesPlanes : Obligations.RnoopCopiesPlanes := by
  intro s width height payload hr hwf hin
  have htotal (w : LzwWidth) : (headed .noop w width height s).total = 3 * (width.toNat * height.toNat) := rfl
  refine ⟨fun hlong => ?_, fun hshort => ?_⟩
  · set k := 3 * (width.toNat * height.toNat) with hk
    have hlen : (s.ibufBytes 4 k).length = k := length_ibufBytes s 4 k
    have hpayload : payload = bytesBits (s.ibufBytes 4 k) ++ bytesBits (s.ibufBytes (4 + k) (s.inLen - (4 + k))) := by
      have hbits := hin.2.1
      rw [inputBits_eq, encode_hdr, show s.inLen = 4 + (k + (s.inLen - (4 + k))) by omega, ibufBytes_add, ibufBytes_add,
        bytesBits_append, bytesBits_append, Nat.zero_add] at hbits
      exact (List.append_inj hbits (by simp)).2.symm
    have hdone := exec_of_restores (alg := .noop) (bytes := s.ibufBytes 4 k) (used := 8 * k) (P := fun _ => True) hr
      nofun hin fun w _ => by
        obtain ⟨u, hu⟩ := restores_raw (s := { headed .noop w width height s with dec := .raw }) (out := [])
          (data := s.ibufBytes 4 k)
          (by
            rw [← hpayload]
            exact (decoding_headed hwf hin).next (front := []) (bytes := []) rfl nofun)
          (List.ne_nil_of_length_pos (by rw [hlen]; have := hin.2.2.1; omega))
          (by rw [hlen]; exact Nat.zero_add _)
        rw [hlen] at hu
        exact ⟨_, u, beginDecode_noop rfl hlong, {}, hu, trivial⟩
    obtain ⟨u, hexec, hdone, hwidth, hheight, halg, _, _⟩ := hdone
    rw [show ceil8 (32 + 8 * k) = 4 + k by unfold ceil8; omega] at hdone
    refine ⟨_, hexec, hdone, hwidth, hheight, ?_, ?_⟩
    · change u.finalStatTable = 0
      rw [State.finalStatTable, halg]
    · change u.finalStatClears = 0
      rw [State.finalStatClears, halg]
  · obtain ⟨w, _, hbegin, hturn, _⟩ := finishes_restore (alg := .noop) nofun hin
    have hraised : beginDecode (headed .noop w width height s) =
        .raised .truncatedStream (headed .noop w width height s) := beginDecode_noop_short rfl hshort
    rw [hraised, settle_raised] at hturn
    have hf : Finishes (beginCommand .restore .noop s)
        (faultEntry .truncatedStream (headed .noop w width height s)) := by
      rw [hbegin]; exact .turn rfl (by rw [hturn]; exact .quiet nofun)
    rw [hbegin, hturn]
    exact ⟨rfl, rfl, _, exec_of_finishes hr hf, faulted_of_finishes hf, rfl, rfl, rfl⟩

/-! ## Round trips (R136, R137) -/

/-- What a COMPRESS that has completed took and left: an accepted input, and the bytes of its stream in `OBUF`. -/
theorem compressInput_of_done {alg : Alg} {s t : State} (hr : s.Ready) (h : exec (commandOf .compress alg) s = .next t)
    (hd : t.state = .done) : s.CompressInput ∧ (alg = .lzw → legalWidth s.lzwW ≠ none) := by
  have hlegal : alg = .lzw → legalWidth s.lzwW ≠ none := by
    rintro rfl hnone
    rw [exec_commandOf, acceptCommand_ready _ _ hr] at h
    have hbegin : beginCommand .compress .lzw s = faultEntry .illegalCommand (startedAs .compress .lzw s) := by
      have hnone' : legalWidth (startCommand s).lzwW = none := hnone
      simp only [beginCommand, hnone']; rfl
    rw [runCommand, hbegin, runRecords_quiet _ (faultEntry _ _) nofun] at h
    cases h; cases hd
  refine ⟨?_, hlegal⟩
  by_contra hin
  obtain ⟨u, hu, hfault, _⟩ := compressRejectsInvalidInput alg s hr hlegal (by
    unfold State.CompressInput at hin; omega)
  rw [hu] at h
  cases h
  rw [hfault.state] at hd; cases hd

/-- A COMPRESS that has completed has written its whole stream, and the stream fits `OBUF`. -/
theorem completed_of_done {alg : Alg} {s t : State} {stream : List Byte} {P : State → Prop}
    (h : exec (commandOf .compress alg) s = .next t) (hd : t.state = .done)
    (hfits : stream.length ≤ s.params.obufCap →
      ∃ t, exec (commandOf .compress alg) s = .next t ∧ Completed s t stream s.inLen ∧ P t)
    (hover : s.params.obufCap < stream.length →
      ∃ t, exec (commandOf .compress alg) s = .next t ∧ Faulted .outputOverflow s t ∧ SameSize s t) :
    Completed s t stream s.inLen := by
  by_cases hcap : stream.length ≤ s.params.obufCap
  · obtain ⟨u, hu, hdone, _⟩ := hfits hcap
    rw [hu] at h; cases h
    exact hdone
  · obtain ⟨u, hu, hfault, _⟩ := hover (Nat.lt_of_not_le hcap)
    rw [hu] at h; cases h
    rw [hfault.state] at hd; cases hd

/-- The bytes of a record sequence are its bits, the last byte filled up with zeros (R63, R153). -/
theorem bytesBits_recordBytes (bits : List Bool) :
    bytesBits (recordBytes bits) = bits ++ List.replicate (8 * ceil8 bits.length - bits.length) false := by
  have hpad : 8 * ceil8 bits.length - bits.length ≤ 7 := by unfold ceil8; omega
  have hfull : bits.length ≤ 8 * ceil8 bits.length := by unfold ceil8; omega
  obtain ⟨bytes, rest, htake⟩ := takeBytes_enough (k := ceil8 bits.length) (bs := bits ++ List.replicate 7 false)
    (by rw [List.length_append, List.length_replicate]; omega)
  obtain ⟨hlen, hsplit⟩ := takeBytes_some htake
  have hbytes : recordBytes bits = bytes := by simp only [recordBytes, htake]
  rw [show 7 = (8 * ceil8 bits.length - bits.length) + (7 - (8 * ceil8 bits.length - bits.length)) by omega,
    ← List.replicate_append_replicate, ← List.append_assoc] at hsplit
  rw [hbytes]
  refine (List.append_inj hsplit ?_).1.symm
  rw [List.length_append, List.length_replicate, length_bytesBits, hlen]; omega

theorem recordBytes_bytesBits (bytes : List Byte) : recordBytes (bytesBits bytes) = bytes := by
  refine bytesBits_injective ?_
  rw [bytesBits_recordBytes, length_bytesBits, show 8 * ceil8 (8 * bytes.length) - 8 * bytes.length = 0 by
    unfold ceil8; omega]
  exact List.append_nil _

/-- The stream of a completed COMPRESS, put into `IBUF`, is the input bits of the RESTORE (R136). -/
theorem inputBits_of_stream {t u : State} {stream : List Byte} (ho : t.obuf = Memory.listing 0 stream)
    (hl : t.outLen = stream.length) (hlen : u.inLen = t.outLen)
    (hbuf : ∀ a, a < t.outLen → Memory.lookup u.ibuf a = Memory.lookup t.obuf a) :
    u.inputBits = bytesBits stream := by
  rw [inputBits_eq, hlen, hl]
  congr 1
  refine ibufBytes_of_lookup u stream 0 fun k b hk => ?_
  obtain ⟨hlt, _⟩ := List.getElem?_eq_some_iff.mp hk
  rw [Nat.zero_add, hbuf k (by omega), ho, lookup_listing, if_pos (by omega), Nat.sub_zero, hk]

/-- Settles O22: CNOOP leaves the header and the planes, of which RNOOP copies the planes. -/
theorem noopRoundTrip : Obligations.NoopRoundTrip := by
  intro s t u hr hwf h hd hru hwfu _ hlen hibuf hobuf hbuf
  obtain ⟨hin, _⟩ := compressInput_of_done hr h hd
  have hdone := completed_of_done (alg := .noop) h hd
    (stream := headerBytes s.width s.height ++ s.ibufBytes 0 s.total)
    (P := fun _ => True)
    (fun hcap => by
      rw [List.length_append, length_ibufBytes] at hcap
      obtain ⟨t, ht, hdone, _⟩ := (cnoopWritesHeaderAndPlanes s hr hwf hin).1 hcap
      exact ⟨t, ht, hdone, trivial⟩)
    (fun hcap => by
      rw [List.length_append, length_ibufBytes] at hcap
      exact (cnoopWritesHeaderAndPlanes s hr hwf hin).2 hcap)
  have hbits := inputBits_of_stream hdone.obuf hdone.outLen hlen hbuf
  have hinLen : u.inLen = 4 + s.total := by
    rw [hlen, hdone.outLen, List.length_append, length_ibufBytes]; rfl
  have hrestore : u.RestoreInput s.width s.height (bytesBits (s.ibufBytes 0 s.total)) :=
    ⟨hlen ▸ hibuf, by rw [hbits, bytesBits_append, encode_hdr]; rfl, hin.2.1, hobuf⟩
  have hplanes : u.ibufBytes 4 s.total = s.ibufBytes 0 s.total := by
    rw [inputBits_eq, hinLen, ibufBytes_add, bytesBits_append, bytesBits_append] at hbits
    exact bytesBits_injective (List.append_inj hbits (by simp; rfl)).2
  obtain ⟨v, hv, hcompleted, hwidth, hheight, _⟩ :=
    (rnoopCopiesPlanes u s.width s.height _ hru hwfu hrestore).1 (by rw [hinLen]; exact Nat.le_refl _)
  refine ⟨v, hv, ?_, hwidth, hheight⟩
  have hused : t.outLen = 4 + 3 * (s.width.toNat * s.height.toNat) := hlen.symm.trans hinLen
  rw [hused, ← hplanes]
  exact hcompleted

end Sys2Proof.Machine
end

section
/-! RRLE (R129, R177 to R180): any records that fill the three channels, one at a time. -/

namespace Sys2Proof.Machine

/-! ## The bytes of a record -/

/-- The bytes a RESTORE reads for a record are counted in its control byte (R95, R177). -/
theorem rleProduce_ok {control : Byte} {bytes : List Byte} {s : State} (hk : control.toNat % 128 = bytes.length)
    (hroom : bytes.length ≤ s.rleRoom) (hcap : s.wpos + bytes.length ≤ s.params.obufCap) :
    rleProduce control bytes s =
      .ok (rleCount bytes.length (State.put bytes { s with rleC := control, rleK := bytes.length })) := by
  unfold rleProduce
  rw [hk]
  dsimp only
  rw [if_neg (show ¬State.rleRoom { s with rleC := control, rleK := bytes.length } < bytes.length from hroom.not_gt),
    putBytes_put (s := { s with rleC := control, rleK := bytes.length }) hcap]
  rfl

/-- The state in which the bytes of an RLE record are counted: `C`, `K` and `V` are latched (R177, R178). -/
def State.latched (control : Byte) (count : Nat) (v : Byte) (s : State) : State :=
  { s with rleC := control, rleK := count, rleV := v }

/-- What an RLE record does in a channel that has room for its bytes (R178, R179). -/
theorem recordRun_rle {i : Instr} {s : State} (hi : i.isRle = true) (hw : i.wellFormed = true) (hd : s.dir = .restore)
    (hroom : (rleYield i).length ≤ s.rleRoom) (hcap : s.wpos + (rleYield i).length ≤ s.params.obufCap) :
    ∃ c v, recordRun i s =
      .ok (rleCount (rleYield i).length (State.put (rleYield i) (s.latched c (rleYield i).length v))) := by
  cases i with
  | rleRep count v =>
    refine ⟨repControl count.toNat, v, ?_⟩
    have hk : (repControl count.toNat).toNat % 128 = (List.replicate count.toNat v).length := by
      have := count.isLt
      rw [repControl, BitVec.toNat_ofNat, List.length_replicate]; omega
    change rleRepRecord count v s = _
    rw [rleRepRecord, hd]
    exact rleProduce_ok (s := { s with rleV := v }) hk hroom hcap
  | rleLit data =>
    refine ⟨litControl data.length, s.rleV, ?_⟩
    have hlen : data.length ≤ 127 := of_decide_eq_true hw
    have hk : (litControl data.length).toNat % 128 = data.length := by
      rw [litControl, BitVec.toNat_ofNat]; omega
    change rleLitRecord data s = _
    rw [rleLitRecord, hd]
    exact rleProduce_ok hk hroom hcap
  | _ => cases hi

/-! ## RRLE (R129) -/

/-- The records fill the channels from `cnt` bytes of channel `ch` on, none running over its channel (R177, R180). -/
inductive Fills (n : Nat) : (ch cnt : Nat) → List Instr → Prop where
  | done : Fills n 3 0 []
  | inside {ch cnt : Nat} {r : Instr} {rs : List Instr} (hr : r.isRle = true) (hw : r.wellFormed = true) (hch : ch < 3)
      (hlt : cnt + (rleYield r).length < n) (h : Fills n ch (cnt + (rleYield r).length) rs) : Fills n ch cnt (r :: rs)
  | full {ch cnt : Nat} {r : Instr} {rs : List Instr} (hr : r.isRle = true) (hw : r.wellFormed = true) (hch : ch < 3)
      (heq : cnt + (rleYield r).length = n) (h : Fills n (ch + 1) 0 rs) : Fills n ch cnt (r :: rs)

/-- After the third channel there are no more records. -/
theorem Fills.eq_nil {n ch cnt : Nat} {records : List Instr} (h : Fills n ch cnt records) (hch : ¬ch < 3) :
    records = [] := by
  cases h with
  | done => rfl
  | inside _ _ h => exact absurd h hch
  | full _ _ h => exact absurd h hch

/-- A segment of records fills what is left of a channel. -/
theorem fills_segment {n ch cnt m : Nat} {records rest : List Instr} (h : RleSegment m records) (hm : cnt + m = n)
    (hlt : cnt < n) (hch : ch < 3) (hrest : Fills n (ch + 1) 0 rest) : Fills n ch cnt (records ++ rest) := by
  induction records generalizing cnt m with
  | nil =>
    have hzero : (0 : Nat) = m := h.2.1
    omega
  | cons r rs ih =>
    obtain ⟨hall, hlen, hlast⟩ := h
    obtain ⟨hw, hrle⟩ := hall r List.mem_cons_self
    have hr : r.isRle = true := by obtain ⟨k, v, rfl⟩ | ⟨d, rfl⟩ := hrle <;> rfl
    rw [List.flatMap_cons, List.length_append] at hlen
    rw [List.cons_append]
    cases rs with
    | nil =>
      rw [List.flatMap_nil, List.length_nil] at hlen
      exact .full hr hw hch (by omega) hrest
    | cons r' rs =>
      have hpos : 0 < ((r' :: rs).flatMap rleYield).length := by
        obtain ⟨front, last, hfront⟩ : ∃ front last, r' :: rs = front ++ [last] :=
          ⟨_, _, (List.dropLast_append_getLast (List.cons_ne_nil r' rs)).symm⟩
        have hne := hlast (r :: front) last (by rw [List.cons_append, ← hfront])
        rw [hfront, List.flatMap_append, List.length_append, List.flatMap_singleton]
        have := List.length_pos_iff.mpr hne
        omega
      refine .inside hr hw hch (by omega) (ih (m := m - (rleYield r).length) ⟨?_, by omega, ?_⟩ (by omega) (by omega))
      · exact fun r hr => hall r (List.mem_cons_of_mem _ hr)
      · exact fun front last hf => hlast (r :: front) last (by rw [hf]; rfl)

/-- The state in which a RESTORE counts the bytes of the record it has read (R177). -/
def State.recorded (r : Instr) (c v : Byte) (s : State) : State :=
  State.put (rleYield r) (State.latched c (rleYield r).length v (skipBits (encode r).length s))

/-- The turn of a RESTORE that reads a record with room for its bytes in the channel. -/
theorem Decoding.rleTurn {s : State} {out : List Byte} {r : Instr} {rest : List Bool}
    (h : Decoding .rle s out (encode r ++ rest)) (hr : r.isRle = true) (hw : r.wellFormed = true) (hch : s.rleCh < 3)
    (hout : out.length = s.rleCh * s.n + s.rleCnt) (hroom : s.rleCnt + (rleYield r).length ≤ s.n) :
    ∃ c v, engineTurn s = rleCount (rleYield r).length (s.recorded r c v) := by
  have hcap : s.wpos + (rleYield r).length ≤ s.params.obufCap := by
    have hroom3 := h.room
    have hch3 : (s.rleCh + 1) * s.n ≤ 3 * s.n := Nat.mul_le_mul_right s.n (by omega)
    rw [total_eq] at hroom3
    rw [Nat.succ_mul] at hch3
    rw [h.holds.wpos]; omega
  obtain ⟨c, v, hrun⟩ := recordRun_rle (s := skipBits (encode r).length s) hr hw h.dir
    (Nat.le_sub_of_add_le' hroom) hcap
  have hctx : s.ctx.admits r := by
    rw [State.ctx, h.phase]
    cases r with
    | rleRep count v => rfl
    | rleLit data => rfl
    | _ => cases hr
  exact ⟨c, v, by rw [h.turn_reads hw hctx, hrun]; rfl⟩

theorem Decoding.recorded {s : State} {out : List Byte} {r : Instr} {rest : List Bool}
    (h : Decoding .rle s out (encode r ++ rest)) (c v : Byte) :
    Decoding .rle (s.recorded r c v) (out ++ rleYield r) rest := h.next h.phase h.lens

theorem recorded_results (r : Instr) (c v : Byte) (s : State) :
    SameResults s (s.recorded r c v) (encode r).length := {}

@[simp] theorem recorded_n (r : Instr) (c v : Byte) (s : State) : (s.recorded r c v).n = s.n := n_congr
@[simp] theorem recorded_rleCnt (r : Instr) (c v : Byte) (s : State) : (s.recorded r c v).rleCnt = s.rleCnt := rfl
@[simp] theorem recorded_rleCh (r : Instr) (c v : Byte) (s : State) : (s.recorded r c v).rleCh = s.rleCh := rfl

/-! The three things the count of a record's bytes can do (R129, R177). -/

theorem rleCount_inside {k : Nat} {s : State} (h : s.rleCnt + k < s.n) :
    rleCount k s = { s with rleCnt := s.rleCnt + k } := if_pos h

theorem rleCount_next {k : Nat} {s : State} (h : s.rleCnt + k = s.n) (hch : s.rleCh + 1 < 3) :
    rleCount k s = { s with rleCnt := 0, rleCh := s.rleCh + 1 } := (if_neg h.not_lt).trans (if_pos hch)

theorem rleCount_last {k : Nat} {s : State} (h : s.rleCnt + k = s.n) (hch : ¬s.rleCh + 1 < 3) :
    rleCount k s = finishRestore { s with rleCnt := s.rleCnt + k } := (if_neg h.not_lt).trans (if_neg hch)

/-- Records that fill the channels complete the command with their bytes. -/
theorem restores_rle {n ch cnt : Nat} {records : List Instr} {s : State} {out : List Byte} {rest : List Bool}
    (hfill : Fills n ch cnt records) (h : Decoding .rle s out (records.flatMap encode ++ rest)) (hn : s.n = n)
    (hch : s.rleCh = ch) (hcnt : s.rleCnt = cnt) (hout : out.length = ch * n + cnt) (hch3 : ch < 3) :
    ∃ u, Restores s u (out ++ records.flatMap rleYield) (records.flatMap encode).length := by
  induction hfill generalizing s out with
  | done => exact absurd hch3 (by decide)
  | @inside ch cnt r rs hr hw _ hlt _ ih =>
    subst hn hch hcnt
    rw [List.flatMap_cons, List.append_assoc] at h
    obtain ⟨c, v, hturn⟩ := h.rleTurn hr hw hch3 hout hlt.le
    rw [rleCount_inside (by simpa using hlt)] at hturn
    obtain ⟨u, hu⟩ := ih
      (s := { s.recorded r c v with rleCnt := s.rleCnt + (rleYield r).length })
      (h.recorded c v).keep n_congr rfl rfl (by rw [List.length_append]; omega) hch3
    refine ⟨u, ?_⟩
    rw [List.flatMap_cons, List.flatMap_cons, ← List.append_assoc, List.length_append]
    exact hu.turn h.busy hturn (recorded_results r c v s).keep
  | @full ch cnt r rs hr hw _ heq hrest ih =>
    subst hn hch hcnt
    rw [List.flatMap_cons, List.append_assoc] at h
    obtain ⟨c, v, hturn⟩ := h.rleTurn hr hw hch3 hout heq.le
    rw [List.flatMap_cons, List.flatMap_cons, ← List.append_assoc, List.length_append]
    by_cases hnext : s.rleCh + 1 < 3
    · rw [rleCount_next (by simpa using heq) (by simpa using hnext)] at hturn
      obtain ⟨u, hu⟩ := ih
        (s := { s.recorded r c v with rleCnt := 0, rleCh := s.rleCh + 1 })
        (h.recorded c v).keep n_congr rfl rfl
        (by rw [List.length_append, Nat.succ_mul]; omega) hnext
      exact ⟨u, hu.turn h.busy hturn (recorded_results r c v s).keep⟩
    · rw [rleCount_last (by simpa using heq) (by simpa using hnext)] at hturn
      obtain rfl := hrest.eq_nil hnext
      rw [List.flatMap_nil, List.append_nil]
      exact ⟨_, restores_last h.busy hturn (h.recorded c v).holds.keep (recorded_results r c v s).keep⟩

/-- Settles O15: the three segments fill the three channels. -/
theorem rrleProducesTheRecordsBytes : Obligations.RrleProducesTheRecordsBytes := by
  intro s width height r g b rest hr hwf hin hred hgreen hblue
  have hpos : 0 < width.toNat * height.toNat := Nat.pos_of_ne_zero hin.2.2.1
  have hfill : Fills (width.toNat * height.toNat) 0 0 (r ++ g ++ b) := by
    have h2 := fills_segment hblue (Nat.zero_add _) hpos (by decide : 2 < 3) .done
    rw [List.append_nil] at h2
    rw [List.append_assoc]
    exact fills_segment hred (Nat.zero_add _) hpos (by decide)
      (fills_segment hgreen (Nat.zero_add _) hpos (by decide) h2)
  obtain ⟨u, hexec, hdone, hwidth, hheight, halg, _⟩ := exec_of_restores (alg := .rle)
    (bytes := (r ++ g ++ b).flatMap rleYield) (used := ((r ++ g ++ b).flatMap encode).length) (P := fun _ => True)
    hr nofun hin fun w _ => by
      obtain ⟨u, hu⟩ := restores_rle (s := { headed .rle w width height s with dec := .rle, rleCh := 0, rleCnt := 0 })
        (out := []) hfill ((decoding_headed hwf hin).next (front := []) (bytes := []) rfl nofun) rfl rfl rfl
        (Nat.zero_mul _).symm (by decide)
      exact ⟨_, u, beginDecode_rle rfl, {}, hu, trivial⟩
  rw [show ceil8 (32 + ((r ++ g ++ b).flatMap encode).length) = 4 + ceil8 ((r ++ g ++ b).flatMap encode).length by
    unfold ceil8; omega] at hdone
  refine ⟨_, hexec, hdone, hwidth, hheight, ?_, ?_⟩
  · change u.finalStatTable = 0
    rw [State.finalStatTable, halg]
  · change u.finalStatClears = 0
    rw [State.finalStatClears, halg]

end Sys2Proof.Machine
end

section
/-! CRLE (R128, R170 to R176): the run finder on byte lists record by record, the engine's cursors, and the round trip
of the RLE codec (R136). -/

namespace Sys2Proof.Machine

/-! ## The run finder on byte lists (R171 to R173, R176) -/

theorem sameLen_le (v : Byte) (cap : Nat) (xs : List Byte) : sameLen v cap xs ≤ cap ∧ sameLen v cap xs ≤ xs.length := by
  induction xs generalizing cap with
  | nil => cases cap <;> exact ⟨Nat.zero_le _, Nat.le_refl _⟩
  | cons x xs ih =>
    cases cap with
    | zero => exact ⟨Nat.le_refl _, Nat.zero_le _⟩
    | succ cap =>
      have := ih cap
      simp only [sameLen, List.length_cons]
      split <;> omega

/-- The bytes counted are copies of the value. -/
theorem take_sameLen (v : Byte) (cap : Nat) (xs : List Byte) :
    xs.take (sameLen v cap xs) = List.replicate (sameLen v cap xs) v := by
  induction xs generalizing cap with
  | nil => cases cap <;> rfl
  | cons x xs ih =>
    cases cap with
    | zero => rfl
    | succ cap =>
      simp only [sameLen]
      split
      · next hx => rw [Nat.add_comm, List.take_succ_cons, ih, List.replicate_succ, hx]
      · rfl

theorem litLen_le (cap : Nat) (xs : List Byte) : litLen cap xs ≤ cap ∧ litLen cap xs ≤ xs.length := by
  induction xs generalizing cap with
  | nil => cases cap <;> exact ⟨Nat.zero_le _, Nat.le_refl _⟩
  | cons x xs ih =>
    cases cap with
    | zero => exact ⟨Nat.le_refl _, Nat.zero_le _⟩
    | succ cap =>
      cases xs with
      | nil => exact ⟨Nat.zero_le _, Nat.zero_le _⟩
      | cons y ys =>
        have := ih cap
        simp only [litLen, List.length_cons] at this ⊢
        split <;> omega

/-- How many bytes the first record of a channel takes. -/
def rleSpan (x : Byte) (xs : List Byte) : Nat :=
  if 1 < 1 + sameLen x 126 xs then 1 + sameLen x 126 xs else max 1 (litLen 127 (x :: xs))

/-- The first record of a channel. -/
def rleFirst (x : Byte) (xs : List Byte) : Instr :=
  if 1 < 1 + sameLen x 126 xs then .rleRep (BitVec.ofNat 7 (1 + sameLen x 126 xs)) x
  else .rleLit ((x :: xs).take (max 1 (litLen 127 (x :: xs))))

theorem rleSpan_bounds (x : Byte) (xs : List Byte) :
    1 ≤ rleSpan x xs ∧ rleSpan x xs ≤ 127 ∧ rleSpan x xs ≤ (x :: xs).length := by
  have hsame := sameLen_le x 126 xs
  have hlit := litLen_le 127 (x :: xs)
  rw [List.length_cons] at hlit ⊢
  unfold rleSpan
  split <;> omega

/-- The first record stands for the bytes it takes (R96, R173). -/
theorem rleYield_first (x : Byte) (xs : List Byte) : rleYield (rleFirst x xs) = (x :: xs).take (rleSpan x xs) := by
  have hsame := (sameLen_le x 126 xs).1
  unfold rleFirst rleSpan
  split
  · rw [rleYield, BitVec.toNat_ofNat, Nat.mod_eq_of_lt (by omega), Nat.add_comm, List.take_succ_cons, take_sameLen,
      List.replicate_succ]
  · rfl

theorem rleFirst_isRle (x : Byte) (xs : List Byte) :
    (rleFirst x xs).isRle = true ∧ (rleFirst x xs).wellFormed = true := by
  have hlit := (litLen_le 127 (x :: xs)).1
  unfold rleFirst
  split
  · exact ⟨rfl, rfl⟩
  · refine ⟨rfl, decide_eq_true ?_⟩
    rw [List.length_take]; omega

/-- With enough fuel the records do not depend on it. -/
theorem rleRecordsFuel_eq {fuel : Nat} {channel : List Byte} (h : channel.length ≤ fuel) :
    rleRecordsFuel fuel channel = rleRecords channel := by
  induction hn : channel.length using Nat.strongRecOn generalizing channel fuel with
  | ind n ih =>
    subst hn
    cases channel with
    | nil => cases fuel <;> rfl
    | cons x xs =>
      obtain ⟨fuel, rfl⟩ : ∃ k, fuel = k + 1 := ⟨fuel - 1, by rw [List.length_cons] at h; omega⟩
      rw [List.length_cons] at h
      have hdrop (k : Nat) (hk : 1 ≤ k) :
          rleRecordsFuel fuel ((x :: xs).drop k) = rleRecordsFuel xs.length ((x :: xs).drop k) := by
        have hlen : ((x :: xs).drop k).length ≤ xs.length := by rw [List.length_drop, List.length_cons]; omega
        rw [ih _ (Nat.lt_succ_of_le hlen) (by omega) rfl, ih _ (Nat.lt_succ_of_le hlen) hlen rfl]
      simp only [rleRecords, List.length_cons, rleRecordsFuel]
      rw [hdrop _ (Nat.le_add_right 1 _), hdrop _ (Nat.le_max_left 1 _)]

/-- The records of a channel, one at a time (R173). -/
theorem rleRecords_cons (x : Byte) (xs : List Byte) :
    rleRecords (x :: xs) = rleFirst x xs :: rleRecords ((x :: xs).drop (rleSpan x xs)) := by
  have hdrop (k : Nat) (hk : 1 ≤ k) : rleRecordsFuel xs.length ((x :: xs).drop k) = rleRecords ((x :: xs).drop k) :=
    rleRecordsFuel_eq (by rw [List.length_drop, List.length_cons]; omega)
  simp only [rleRecords, List.length_cons, rleRecordsFuel, rleFirst, rleSpan]
  split
  · next h => rw [hdrop _ h.le]; rfl
  · rw [hdrop _ (Nat.le_max_left 1 _)]; rfl

/-- The records stand for the channel (R181). -/
theorem rleYield_records (channel : List Byte) : (rleRecords channel).flatMap rleYield = channel := by
  induction hn : channel.length using Nat.strongRecOn generalizing channel with
  | ind n ih =>
    subst hn
    cases channel with
    | nil => rfl
    | cons x xs =>
      have hspan := rleSpan_bounds x xs
      rw [rleRecords_cons, List.flatMap_cons, rleYield_first,
        ih ((x :: xs).drop (rleSpan x xs)).length (by rw [List.length_drop]; omega) _ rfl, List.take_append_drop]

/-- Every record of the run finder is an RLE record of at least one byte (R176, R181). -/
theorem rleRecords_proper {channel : List Byte} {r : Instr} (h : r ∈ rleRecords channel) :
    r.isRle = true ∧ r.wellFormed = true ∧ rleYield r ≠ [] := by
  induction hn : channel.length using Nat.strongRecOn generalizing channel with
  | ind n ih =>
    subst hn
    cases channel with
    | nil => cases h
    | cons x xs =>
      have hspan := rleSpan_bounds x xs
      rw [rleRecords_cons] at h
      obtain rfl | h := List.mem_cons.mp h
      · obtain ⟨hrle, hw⟩ := rleFirst_isRle x xs
        refine ⟨hrle, hw, List.ne_nil_of_length_pos ?_⟩
        rw [rleYield_first, List.length_take]; omega
      · exact ih _ (by rw [List.length_drop]; omega) h rfl

/-- The records of a channel fill it (R177, R181). -/
theorem rleSegment_records (channel : List Byte) : RleSegment channel.length (rleRecords channel) := by
  refine ⟨fun r hr => ?_, by rw [rleYield_records], fun front r hf => ?_⟩
  · obtain ⟨hrle, hw, _⟩ := rleRecords_proper hr
    refine ⟨hw, ?_⟩
    cases r with
    | rleRep count v => exact .inl ⟨count, v, rfl⟩
    | rleLit data => exact .inr ⟨data, rfl⟩
    | _ => cases hrle
  · exact (rleRecords_proper (channel := channel) (by rw [hf]; simp)).2.2

/-! ## The engine's run finder (R171, R172) -/

/-- The bytes of the current channel from `j` on. -/
def State.channelFrom (s : State) (j : Nat) : List Byte := s.ibufBytes (s.rleBase + j) (s.n - j)

theorem channelFrom_lt {s : State} {j : Nat} (h : j < s.n) :
    s.channelFrom j = s.channelByte j :: s.channelFrom (j + 1) := by
  rw [State.channelFrom, show s.n - j = s.n - (j + 1) + 1 by omega]; rfl

theorem channelFrom_ge {s : State} {j : Nat} (h : s.n ≤ j) : s.channelFrom j = [] := by
  rw [State.channelFrom, Nat.sub_eq_zero_of_le h]; rfl

@[simp] theorem length_channelFrom (s : State) (j : Nat) : (s.channelFrom j).length = s.n - j :=
  length_ibufBytes _ _ _

theorem drop_channelFrom (s : State) (i k : Nat) : (s.channelFrom i).drop k = s.channelFrom (i + k) := by
  induction k generalizing i with
  | zero => rfl
  | succ k ih =>
    by_cases h : i < s.n
    · rw [channelFrom_lt h, List.drop_succ_cons, ih, Nat.add_right_comm]; rfl
    · rw [channelFrom_ge (by omega), channelFrom_ge (by omega), List.drop_nil]

theorem take_channelFrom {s : State} {i k : Nat} (h : i + k ≤ s.n) :
    (s.channelFrom i).take k = s.ibufBytes (s.rleBase + i) k := by
  rw [State.channelFrom, show s.n - i = k + (s.n - i - k) by omega, ibufBytes_add]
  exact List.take_left' (length_ibufBytes _ _ _)

theorem sameRunLoop_eq (s : State) (i : Nat) {fuel run : Nat} (hf : 127 ≤ fuel + run) (hr : run ≤ 127) :
    sameRunLoop s.channelByte s.n i fuel run =
      run + sameLen (s.channelByte i) (127 - run) (s.channelFrom (i + run)) := by
  induction fuel generalizing run with
  | zero =>
    obtain rfl : run = 127 := by omega
    rfl
  | succ fuel ih =>
    simp only [sameRunLoop]
    by_cases h127 : run < 127
    · rw [show 127 - run = 127 - (run + 1) + 1 by omega]
      by_cases hn : i + run < s.n
      · rw [channelFrom_lt hn, sameLen]
        by_cases hv : s.channelByte (i + run) = s.channelByte i
        · rw [if_pos ⟨hn, hv, h127⟩, if_pos hv, ih (by omega) (by omega)]
          simp only [Nat.add_assoc]
        · rw [if_neg (fun h => hv h.2.1), if_neg hv]; rfl
      · rw [if_neg (fun h => hn h.1), channelFrom_ge (by omega)]; rfl
    · obtain rfl : run = 127 := by omega
      rw [if_neg (fun h => h127 h.2.2)]; rfl

theorem litRunLoop_eq (s : State) (i : Nat) {fuel run : Nat} (hf : 127 ≤ fuel + run) (hr : run ≤ 127) :
    litRunLoop s.channelByte s.n i fuel run = run + litLen (127 - run) (s.channelFrom (i + run)) := by
  induction fuel generalizing run with
  | zero =>
    obtain rfl : run = 127 := by omega
    rfl
  | succ fuel ih =>
    simp only [litRunLoop]
    by_cases h127 : run < 127
    · rw [show 127 - run = 127 - (run + 1) + 1 by omega]
      by_cases hn : i + run + 1 < s.n
      · rw [channelFrom_lt (by omega : i + run < s.n), channelFrom_lt hn, litLen]
        by_cases hv : s.channelByte (i + run) = s.channelByte (i + run + 1)
        · rw [if_neg (fun h => h.2.1 hv), if_pos hv]; rfl
        · rw [if_pos ⟨hn, hv, h127⟩, if_neg hv, ih (by omega) (by omega), ← channelFrom_lt hn]
          simp only [Nat.add_assoc]
      · rw [if_neg (fun h => hn h.1)]
        by_cases hlast : i + run < s.n
        · rw [channelFrom_lt hlast, channelFrom_ge (by omega)]; rfl
        · rw [channelFrom_ge (by omega)]; rfl
    · obtain rfl : run = 127 := by omega
      rw [if_neg (fun h => h127 h.2.2)]; rfl

/-- `SameRun` and `LitRun` count what the run finder on byte lists counts. -/
theorem sameRun_eq (s : State) : sameRun s.channelByte s.n s.rleI =
    1 + sameLen (s.channelByte s.rleI) 126 (s.channelFrom (s.rleI + 1)) :=
  sameRunLoop_eq s s.rleI (by decide) (by decide)

theorem litRun_eq (s : State) : litRun s.channelByte s.n s.rleI = litLen 127 (s.channelFrom s.rleI) := by
  rw [litRun, litRunLoop_eq s s.rleI (by decide) (by decide), Nat.zero_add]; rfl

/-- The record the engine chooses after its scan is the first record of the rest of the channel (R173). -/
theorem rleNext_eq {s : State} (h : s.rleI < s.n) :
    (rleScan s).rleNext = rleFirst (s.channelByte s.rleI) (s.channelFrom (s.rleI + 1)) := by
  have hspan := (rleSpan_bounds (s.channelByte s.rleI) (s.channelFrom (s.rleI + 1))).2.2
  rw [← channelFrom_lt h, length_channelFrom] at hspan
  unfold rleFirst
  unfold rleSpan at hspan
  by_cases hr : 1 < sameRun s.channelByte s.n s.rleI
  · rw [rleScan_repeat hr, State.rleNext, if_pos hr, ← sameRun_eq, if_pos hr]; rfl
  · rw [rleScan_literal hr, State.rleNext, if_neg hr, ← sameRun_eq, if_neg hr]
    rw [← sameRun_eq, if_neg hr] at hspan
    rw [← channelFrom_lt h] at hspan ⊢
    rw [← litRun_eq] at hspan ⊢
    rw [take_channelFrom (by omega)]
    exact congrArg Instr.rleLit (ibufBytes_congr _ _)

/-! ## CRLE (R128) -/

/-- The writing of an RLE record, and the move to what follows it (R174, R175). -/
theorem recordRun_rle_compress {i : Instr} {s : State} (hi : i.isRle = true) (hw : i.wellFormed = true)
    (hd : s.dir = .compress) : ∃ bytes, encode i = bytesBits bytes ∧
      recordRun i s = (putBytes bytes s).bind fun s1 => .ok (rleAdvance (rleYield i).length s1) := by
  cases i with
  | rleRep count v =>
    refine ⟨_, encode_rleRep count v, ?_⟩
    change rleRepRecord count v s = _
    rw [rleRepRecord, hd, rleYield, List.length_replicate]; rfl
  | rleLit data =>
    refine ⟨_, encode_rleLit (of_decide_eq_true hw), ?_⟩
    change rleLitRecord data s = _
    rw [rleLitRecord, hd]; rfl
  | _ => cases hi

/-- CRLE before the record at byte `i` of channel `ch`. -/
structure RleEncoding (ch i : Nat) (s0 s : State) (bits : List Bool) : Prop extends
    Encoding .rle .rle s0 s bits where
  flushed : s.wcnt = 0
  channel : s.rleCh = ch
  base : s.rleBase = ch * s0.n
  cursor : s.rleI = i

theorem RleEncoding.channelFrom {ch i : Nat} {s0 s : State} {bits : List Bool} (h : RleEncoding ch i s0 s bits)
    (j : Nat) : s.channelFrom j = s0.ibufBytes (ch * s0.n + j) (s0.n - j) := by
  rw [State.channelFrom, h.n, h.base, h.ibufBytes]

/-! The three things the move past a record can do (R128, R173). -/

theorem rleAdvance_inside {k : Nat} {s : State} (h : s.rleI + k < s.n) :
    rleAdvance k s = { s with rleI := s.rleI + k } := if_pos h

theorem rleAdvance_next {k : Nat} {s : State} (h : ¬s.rleI + k < s.n) (hch : s.rleCh + 1 < 3) :
    rleAdvance k s = { s with rleI := 0, rleBase := s.rleBase + s.n, rleCh := s.rleCh + 1 } :=
  (if_neg h).trans (if_pos hch)

theorem rleAdvance_last {k : Nat} {s : State} (h : ¬s.rleI + k < s.n) (hch : ¬s.rleCh + 1 < 3) :
    rleAdvance k s = finishCompress { s with rleI := s.rleI + k } := (if_neg h).trans (if_neg hch)

/-- One record of CRLE, before the move past it: the first of the rest of the channel. -/
theorem compresses_rleRecord {ch i : Nat} {s0 s : State} {bits rest : List Bool} {P : State → Prop}
    (h : RleEncoding ch i s0 s bits) (hi : i < s0.n)
    (hnext : ∀ span t bits', 1 ≤ span → i + span ≤ s0.n → RleEncoding ch i s0 t bits' →
      Compresses (rleAdvance span t)
        (bits' ++ ((rleRecords (s0.ibufBytes (ch * s0.n + (i + span)) (s0.n - (i + span)))).flatMap encode ++
          rest)) P) :
    Compresses s (bits ++ ((rleRecords (s0.ibufBytes (ch * s0.n + i) (s0.n - i))).flatMap encode ++ rest)) P := by
  have hi' : s.rleI < s.n := by rw [h.cursor, h.n]; exact hi
  set x := s.channelByte s.rleI
  set xs := s.channelFrom (s.rleI + 1)
  have hchannel : s0.ibufBytes (ch * s0.n + i) (s0.n - i) = x :: xs := by
    rw [← h.channelFrom, ← h.cursor]; exact channelFrom_lt hi'
  obtain ⟨hpos, _, hlen⟩ := rleSpan_bounds x xs
  rw [← hchannel, length_ibufBytes] at hlen
  set span := rleSpan x xs
  have hdrop : (x :: xs).drop span = s0.ibufBytes (ch * s0.n + (i + span)) (s0.n - (i + span)) := by
    rw [← hchannel, ← h.channelFrom, ← h.channelFrom, drop_channelFrom]
  have hyield : (rleYield (rleFirst x xs)).length = span := by
    rw [rleYield_first, List.length_take, ← hchannel, length_ibufBytes]; omega
  obtain ⟨hrle, hwf⟩ := rleFirst_isRle x xs
  obtain ⟨bytes, henc, hrun⟩ := recordRun_rle_compress (s := rleScan s) hrle hwf (by rw [rleScan_eq]; exact h.dir)
  have hscan : encScan s = rleScan s := by simp only [encScan, h.phase]
  have hphase : (rleScan s).enc = .rle := by rw [rleScan_eq]; exact h.phase
  have hchosen : (rleScan s).encNext = rleFirst x xs := by
    simp only [State.encNext, hphase]; exact rleNext_eq hi'
  have hscanned : RleEncoding ch i s0 (rleScan s) bits := by
    rw [rleScan_eq]
    exact ⟨h.next h.written.keep h.phase, h.flushed, h.channel, h.base, h.cursor⟩
  refine Compresses.turn h.busy ?_
  rw [engineTurn_compress h.dir hscan hchosen, hrun, hchannel, rleRecords_cons, List.flatMap_cons, henc,
    List.append_assoc, hyield, hdrop]
  generalize rleScan s = s1 at hscanned
  refine compresses_putBytes hscanned.written hscanned.flushed fun hput => ?_
  rw [settle_ok]
  exact hnext span _ _ hpos (by omega)
    ⟨hscanned.next hput hscanned.phase, hscanned.flushed, hscanned.channel, hscanned.base, hscanned.cursor⟩

/-- CRLE writes the records of the rest of its channel, and then what the next channel is due. -/
theorem compresses_channel {ch i : Nat} {s0 s : State} {bits rest : List Bool} (h : RleEncoding ch i s0 s bits)
    (hi : i < s0.n)
    (hnext : ch + 1 < 3 → ∀ t bits', RleEncoding (ch + 1) 0 s0 t bits' →
      Compresses t (bits' ++ rest) (fun u => u.alg = .rle))
    (hlast : ¬ch + 1 < 3 → rest = []) :
    Compresses s (bits ++ ((rleRecords (s0.ibufBytes (ch * s0.n + i) (s0.n - i))).flatMap encode ++ rest))
      (fun u => u.alg = .rle) := by
  induction hk : s0.n - i using Nat.strongRecOn generalizing i s bits with
  | ind k ih =>
    subst hk
    refine compresses_rleRecord h hi fun span t bits' hpos hle ht => ?_
    have hwritten := ht.written
    by_cases hinside : i + span < s0.n
    · rw [rleAdvance_inside (by rw [ht.cursor, ht.n]; exact hinside)]
      exact ih _ (by omega)
        ⟨ht.next hwritten.keep ht.phase, ht.flushed, ht.channel, ht.base, congrArg (· + span) ht.cursor⟩ hinside rfl
    · have hfull : ¬t.rleI + span < t.n := by rw [ht.cursor, ht.n]; exact hinside
      rw [show s0.n - (i + span) = 0 by omega]
      change Compresses _ (_ ++ ([] ++ rest)) _
      rw [List.nil_append]
      by_cases hmore : ch + 1 < 3
      · rw [rleAdvance_next hfull (by rw [ht.channel]; exact hmore)]
        refine hnext hmore _ _ ⟨ht.next hwritten.keep ht.phase, ht.flushed, congrArg (· + 1) ht.channel, ?_, rfl⟩
        change t.rleBase + t.n = _
        rw [ht.base, ht.n, Nat.succ_mul]
      · rw [rleAdvance_last hfull (by rw [ht.channel]; exact hmore), hlast hmore, List.append_nil]
        exact compresses_finish (u := { t with rleI := t.rleI + span }) hwritten.keep ht.flushed ht.alg

/-- The three channels by themselves (R128). -/
def channelRecords (s : State) : List Instr :=
  rleRecords (s.ibufBytes 0 s.n) ++ rleRecords (s.ibufBytes s.n s.n) ++ rleRecords (s.ibufBytes (2 * s.n) s.n)

theorem compresses_crle {s : State} {w : LzwWidth} (hwf : Memory.wf s.obuf = true) (hn : s.n ≠ 0) :
    Compresses (begun .compress .rle w s)
      (bytesBits (headerBytes s.width s.height) ++ (channelRecords s).flatMap encode) (fun u => u.alg = .rle) := by
  have hpos : 0 < s.n := Nat.pos_of_ne_zero hn
  refine compresses_header hwf fun hput => ?_
  have hblue {t : State} {bits : List Bool} (ht : RleEncoding 2 0 s t bits) :
      Compresses t (bits ++ (rleRecords (s.ibufBytes (2 * s.n) s.n)).flatMap encode) (fun u => u.alg = .rle) := by
    have h := compresses_channel (rest := []) ht hpos (fun h => absurd h (by decide)) fun _ => rfl
    rwa [List.append_nil, Nat.add_zero, Nat.sub_zero] at h
  have hgreen {t : State} {bits : List Bool} (ht : RleEncoding 1 0 s t bits) := compresses_channel ht hpos
    (fun _ t bits ht => hblue ht) (fun h => absurd (by decide : 1 + 1 < 3) h)
  have hred := compresses_channel (ch := 0) (i := 0)
    (s := { (begun .compress .rle w s).put (headerBytes s.width s.height) with
      enc := .rle, rleBase := 0, rleI := 0, rleCh := 0 })
    ⟨(encoding_begun .rle w hwf).next hput.keep rfl, rfl, rfl, (Nat.zero_mul _).symm, rfl⟩ hpos
    (fun _ t bits ht => hgreen ht) (fun h => absurd (by decide : 0 + 1 < 3) h)
  rw [Nat.one_mul, Nat.zero_mul, Nat.add_zero, Nat.add_zero, Nat.sub_zero] at hred
  rw [channelRecords, List.flatMap_append, List.flatMap_append, List.append_assoc]
  exact hred

/-! ## The stream of CRLE -/

theorem isRle_channelRecords {s : State} {r : Instr} (h : r ∈ channelRecords s) :
    r.isRle = true ∧ r.wellFormed = true := by
  unfold channelRecords at h
  rw [List.mem_append, List.mem_append] at h
  obtain (h | h) | h := h <;> exact (rleRecords_proper h).imp_right And.left

/-- RLE records are whole bytes (R95). -/
theorem exists_bytes_of_isRle {records : List Instr} (h : ∀ r ∈ records, r.isRle = true ∧ r.wellFormed = true) :
    ∃ bytes, records.flatMap encode = bytesBits bytes := by
  induction records with
  | nil => exact ⟨[], rfl⟩
  | cons r rs ih =>
    obtain ⟨hr, hw⟩ := h r List.mem_cons_self
    obtain ⟨tail, htail⟩ := ih fun r hr => h r (List.mem_cons_of_mem _ hr)
    obtain ⟨front, hfront⟩ : ∃ front, encode r = bytesBits front := by
      cases r with
      | rleRep count v => exact ⟨_, encode_rleRep count v⟩
      | rleLit data => exact ⟨_, encode_rleLit (of_decide_eq_true hw)⟩
      | _ => cases hr
    exact ⟨front ++ tail, by rw [List.flatMap_cons, hfront, htail, bytesBits_append]⟩

/-- Settles O10: the header, and channel by channel the records of the run finder. -/
theorem crleWritesThreeChannels : Obligations.CrleWritesThreeChannels := by
  intro s stream hr hwf hin hstream
  obtain ⟨w, _, hbegin⟩ := beginCommand_compress (alg := .rle) nofun hin
  obtain ⟨bytes, hbytes⟩ := exists_bytes_of_isRle fun r hr => isRle_channelRecords (s := s) hr
  have hbits : bytesBits stream =
      bytesBits (headerBytes s.width s.height) ++ (channelRecords s).flatMap encode := by
    rw [hstream]
    change bytesBits (streamBytes (.hdr s.width s.height :: channelRecords s)) = _
    rw [streamBytes, List.flatMap_cons, encode_hdr, hbytes, ← bytesBits_append, recordBytes_bytesBits]
    exact bytesBits_append _ _
  have h := compresses_crle (w := w) hwf hin.2.1
  rw [← hbits, ← hbegin] at h
  obtain ⟨hfits, hover⟩ := exec_of_compresses hr h
  refine ⟨fun hcap => ?_, hover⟩
  obtain ⟨u, hexec, hdone, hsize, halg⟩ := hfits hcap
  refine ⟨_, hexec, hdone, hsize, ?_, ?_⟩
  · change u.finalStatTable = 0
    rw [State.finalStatTable, halg]
  · change u.finalStatClears = 0
    rw [State.finalStatClears, halg]

/-- Settles O23: the run finder's records fill the three channels and stand for them. -/
theorem rleRoundTrip : Obligations.RleRoundTrip := by
  intro s t u hr hwf h hd hru hwfu _ hlen hibuf hobuf hbuf
  obtain ⟨hin, _⟩ := compressInput_of_done hr h hd
  obtain ⟨hfits, hover⟩ := crleWritesThreeChannels s _ hr hwf hin rfl
  have hdone := completed_of_done (alg := .rle) h hd hfits hover
  have hbits := inputBits_of_stream hdone.obuf hdone.outLen hlen hbuf
  set records := rleRecords (s.ibufBytes 0 s.n) ++ rleRecords (s.ibufBytes s.n s.n) ++
    rleRecords (s.ibufBytes (2 * s.n) s.n) with hrecords
  obtain ⟨bytes, hbytes⟩ := exists_bytes_of_isRle fun r hr => isRle_channelRecords (s := s) hr
  change records.flatMap encode = _ at hbytes
  rw [streamBytes, List.flatMap_cons, encode_hdr, hbytes, ← bytesBits_append, recordBytes_bytesBits] at hbits
  have hrestore : u.RestoreInput s.width s.height (records.flatMap encode ++ []) :=
    ⟨hlen ▸ hibuf, by rw [hbits, bytesBits_append, encode_hdr, hbytes, List.append_nil], hin.2.1, hobuf⟩
  have hsegment (a : Nat) : RleSegment (s.width.toNat * s.height.toNat) (rleRecords (s.ibufBytes a s.n)) := by
    have h := rleSegment_records (s.ibufBytes a s.n)
    rwa [length_ibufBytes] at h
  obtain ⟨v, hv, hcompleted, hwidth, hheight, _⟩ := rrleProducesTheRecordsBytes u s.width s.height _ _ _ [] hru hwfu
    hrestore (hsegment 0) (hsegment s.n) (hsegment (2 * s.n))
  refine ⟨v, hv, ?_, hwidth, hheight⟩
  have hplanes : records.flatMap rleYield = s.ibufBytes 0 s.total := by
    rw [hrecords, List.flatMap_append, List.flatMap_append, rleYield_records, rleYield_records, rleYield_records,
      total_eq, show 3 * s.n = s.n + s.n + s.n by omega, ibufBytes_add, ibufBytes_add, Nat.zero_add, Nat.zero_add,
      Nat.two_mul]
  have hused : 4 + ceil8 (records.flatMap encode).length = t.outLen := by
    rw [hdone.outLen, streamBytes, List.flatMap_cons, encode_hdr, hbytes, ← bytesBits_append, recordBytes_bytesBits,
      length_bytesBits, List.length_append]
    unfold ceil8
    rw [show (8 * bytes.length + 7) / 8 = bytes.length by omega]; rfl
  rw [← hplanes, ← hused]
  exact hcompleted

end Sys2Proof.Machine
end

section
/-! The adaptive dictionary of LZW: the table of code pairs as a list of strings (R40, R42, R192, R193), and that
`Find` looks a string up. -/

namespace Sys2Proof.Machine

/-! ## The string of a code -/

/-- `str(c)` on a list of strings: a literal or a phrase (R42). -/
def codeString (dict : List (List Byte)) (c : Nat) : Option (List Byte) :=
  if c < 256 then some [BitVec.ofNat 8 c] else if c < 258 then none else dict[c - 258]?

theorem codeString_literal (dict : List (List Byte)) (b : Byte) : codeString dict b.toNat = some [b] := by
  rw [codeString, if_pos b.isLt, BitVec.ofNat_toNat, BitVec.setWidth_eq]

theorem codeString_phrase (dict : List (List Byte)) (k : Nat) : codeString dict (258 + k) = dict[k]? := by
  rw [codeString, if_neg (by omega), if_neg (by omega), Nat.add_sub_cancel_left]

/-- A code that has a string is a literal or a phrase of the dictionary. -/
theorem codeString_cases {dict : List (List Byte)} {c : Nat} {str : List Byte} (h : codeString dict c = some str) :
    (∃ b : Byte, c = b.toNat ∧ str = [b]) ∨ ∃ k, c = 258 + k ∧ dict[k]? = some str := by
  unfold codeString at h
  split at h
  · next hc =>
    exact .inl ⟨BitVec.ofNat 8 c, by rw [BitVec.toNat_ofNat, Nat.mod_eq_of_lt hc], (Option.some.inj h).symm⟩
  · split at h
    · cases h
    · exact .inr ⟨c - 258, by omega, h⟩

theorem codeString_lt {dict : List (List Byte)} {c : Nat} {str : List Byte} (h : codeString dict c = some str) :
    c < 258 + dict.length ∧ c ≠ 256 ∧ c ≠ 257 := by
  obtain ⟨b, rfl, _⟩ | ⟨k, rfl, hk⟩ := codeString_cases h
  · have := b.isLt; omega
  · obtain ⟨hlt, _⟩ := List.getElem?_eq_some_iff.mp hk
    omega

/-- New phrases leave the old codes their strings. -/
theorem codeString_append {dict : List (List Byte)} {c : Nat} {str : List Byte} (h : codeString dict c = some str)
    (more : List (List Byte)) : codeString (dict ++ more) c = some str := by
  obtain ⟨b, rfl, rfl⟩ | ⟨k, rfl, hk⟩ := codeString_cases h
  · exact codeString_literal _ b
  · obtain ⟨hlt, _⟩ := List.getElem?_eq_some_iff.mp hk
    rw [codeString_phrase, List.getElem?_append_left hlt, hk]

/-! ## The table of code pairs -/

/-- Entry `k` of the table stands for string `k`: that of its earlier code, and its last byte
(R42). -/
structure TableStrings (table : List LzwEntry) (dict : List (List Byte)) : Prop where
  length : table.length = dict.length
  entry : ∀ (k : Nat) (e : LzwEntry), table[k]? = some e →
    ∃ str : List Byte, e.pfx < 258 + k ∧ codeString dict e.pfx = some str ∧ dict[k]? = some (str ++ [e.sfx])

theorem tableStrings_nil : TableStrings [] [] := ⟨rfl, nofun⟩

theorem TableStrings.insert {table : List LzwEntry} {dict : List (List Byte)} (h : TableStrings table dict) {p : Nat}
    {str : List Byte} (hp : codeString dict p = some str) (b : Byte) :
    TableStrings (table ++ [{ pfx := p, sfx := b }]) (dict ++ [str ++ [b]]) where
  length := by rw [List.length_append, List.length_append, h.length]; rfl
  entry := fun k e he => by
    by_cases hk : k < table.length
    · rw [List.getElem?_append_left hk] at he
      obtain ⟨str', hlt, hstr, hdict⟩ := h.entry k e he
      exact ⟨str', hlt, codeString_append hstr _, by
        rw [List.getElem?_append_left (by rw [← h.length]; exact hk), hdict]⟩
    · have hlast : k = table.length := by
        obtain ⟨hlt, _⟩ := List.getElem?_eq_some_iff.mp he
        rw [List.length_append, List.length_singleton] at hlt; omega
      subst hlast
      rw [List.getElem?_concat_length] at he
      obtain rfl := (Option.some.inj he).symm
      refine ⟨str, ?_, codeString_append hp _, ?_⟩
      · rw [h.length]; exact (codeString_lt hp).1
      · rw [h.length, List.getElem?_concat_length]

/-- Every phrase is a coded string and one byte. -/
theorem TableStrings.phrase {table : List LzwEntry} {dict : List (List Byte)} (h : TableStrings table dict) {k : Nat}
    {str : List Byte} (hk : dict[k]? = some str) : ∃ e : LzwEntry, table[k]? = some e ∧
      ∃ front : List Byte, e.pfx < 258 + k ∧ codeString dict e.pfx = some front ∧ str = front ++ [e.sfx] := by
  obtain ⟨hlt, _⟩ := List.getElem?_eq_some_iff.mp hk
  have he := List.getElem?_eq_getElem (l := table) (i := k) (by rw [h.length]; exact hlt)
  obtain ⟨front, hpfx, hfront, hdict⟩ := h.entry k _ he
  exact ⟨_, he, front, hpfx, hfront, Option.some.inj (hk.symm.trans hdict)⟩

theorem TableStrings.ne_nil {table : List LzwEntry} {dict : List (List Byte)} (h : TableStrings table dict) {c : Nat}
    {str : List Byte} (hc : codeString dict c = some str) : str ≠ [] := by
  obtain ⟨b, _, rfl⟩ | ⟨k, _, hk⟩ := codeString_cases hc
  · exact List.cons_ne_nil _ _
  · obtain ⟨e, _, front, _, _, rfl⟩ := h.phrase hk
    exact List.append_ne_nil_of_right_ne_nil _ (List.cons_ne_nil _ _)

/-- A phrase has at least two bytes. -/
theorem TableStrings.two_le {table : List LzwEntry} {dict : List (List Byte)} (h : TableStrings table dict) {k : Nat}
    {str : List Byte} (hk : dict[k]? = some str) : 2 ≤ str.length := by
  obtain ⟨e, _, front, _, hfront, rfl⟩ := h.phrase hk
  have := List.length_pos_iff.mpr (h.ne_nil hfront)
  rw [List.length_append, List.length_singleton]; omega

/-- `str(c)` and `first(c)` of the table are those of the strings (R42). -/
theorem TableStrings.strFuel {table : List LzwEntry} {dict : List (List Byte)} (h : TableStrings table dict)
    {fuel c : Nat} {str : List Byte} (hc : codeString dict c = some str) (hf : c < 256 ∨ c - 258 + 2 ≤ fuel)
    (h1 : 1 ≤ fuel) : lzwStrFuel table fuel c = str ∧ str.head? = some (lzwFirstFuel table fuel c) := by
  induction fuel generalizing c str with
  | zero => omega
  | succ fuel ih =>
    obtain ⟨b, rfl, rfl⟩ | ⟨k, rfl, hk⟩ := codeString_cases hc
    · rw [lzwStrFuel, if_pos b.isLt, lzwFirstFuel, if_pos b.isLt, BitVec.ofNat_toNat, BitVec.setWidth_eq]
      exact ⟨rfl, rfl⟩
    · obtain ⟨e, he, front, hlt, hfront, rfl⟩ := h.phrase hk
      obtain ⟨hstr, hfirst⟩ := ih hfront
        (by obtain ⟨b, hb, _⟩ | ⟨j, hj, _⟩ := codeString_cases hfront
            · left; rw [hb]; exact b.isLt
            · right; omega)
        (by omega)
      have hentry : lzwEntry table (258 + k) = some e := by
        rw [lzwEntry, if_neg (by omega), Nat.add_sub_cancel_left, he]
      have hge : ¬258 + k < 256 := by omega
      rw [lzwStrFuel, if_neg hge, lzwFirstFuel, if_neg hge]
      simp only [hentry, hstr]
      exact ⟨trivial, by rw [List.head?_append, hfirst]; rfl⟩

theorem TableStrings.str {table : List LzwEntry} {dict : List (List Byte)} (h : TableStrings table dict) {c : Nat}
    {str : List Byte} (hc : codeString dict c = some str) :
    lzwStr table c = str ∧ str.head? = some (lzwFirst table c) := by
  refine h.strFuel hc ?_ (by omega)
  have := codeString_lt hc
  rw [h.length]; omega

/-! ## The strings of the encoder are distinct (R193, R211) -/

/-- The encoder's table: its strings are distinct, and there is a code left (R194, R196). -/
structure Dictionary (w : LzwWidth) (table : List LzwEntry) (dict : List (List Byte)) : Prop extends
    TableStrings table dict where
  nodup : dict.Nodup
  room : 258 + dict.length < w.cap

theorem dictionary_nil (w : LzwWidth) : Dictionary w [] [] := ⟨tableStrings_nil, List.nodup_nil, LzwWidth.cap_pos w⟩

/-- A string has one code (R192). -/
theorem Dictionary.code_unique {w : LzwWidth} {table : List LzwEntry} {dict : List (List Byte)}
    (h : Dictionary w table dict) {c c' : Nat} {str : List Byte} (hc : codeString dict c = some str)
    (hc' : codeString dict c' = some str) : c = c' := by
  obtain ⟨b, rfl, hb⟩ | ⟨k, rfl, hk⟩ := codeString_cases hc <;>
    obtain ⟨b', rfl, hb'⟩ | ⟨k', rfl, hk'⟩ := codeString_cases hc'
  · rw [hb] at hb'; rw [(List.cons.inj hb').1]
  · have := h.two_le hk'; rw [hb] at this; simp at this
  · have := h.two_le hk; rw [hb'] at this; simp at this
  · obtain ⟨hlt, hval⟩ := List.getElem?_eq_some_iff.mp hk
    obtain ⟨hlt', hval'⟩ := List.getElem?_eq_some_iff.mp hk'
    rw [(h.nodup.getElem_inj_iff).mp (hval.trans hval'.symm)]

/-- The code the reference gives a known string is its code (R192). -/
theorem Dictionary.phraseCode {w : LzwWidth} {table : List LzwEntry} {dict : List (List Byte)}
    (h : Dictionary w table dict) {c : Nat} {str : List Byte} (hc : codeString dict c = some str) :
    phraseCode dict str = c := by
  obtain ⟨b, rfl, rfl⟩ | ⟨k, rfl, hk⟩ := codeString_cases hc
  · rfl
  · have htwo := h.two_le hk
    obtain ⟨hlt, hval⟩ := List.getElem?_eq_some_iff.mp hk
    match str, htwo with
    | x :: y :: ys, _ =>
      change 258 + dict.idxOf (x :: y :: ys) = 258 + k
      rw [← hval, h.nodup.idxOf_getElem]

/-- The loop of `Find` is the search for the string. -/
theorem findFrom_eq {p k : Nat} {b : Byte} {str : List Byte} {es : List LzwEntry} {ds : List (List Byte)}
    (hlen : es.length = ds.length)
    (h : ∀ (j : Nat) (e : LzwEntry), es[j]? = some e → ((e.pfx = p ∧ e.sfx = b) ↔ ds[j]? = some str)) :
    findFrom p b es k = if str ∈ ds then some (k + ds.idxOf str) else none := by
  induction es generalizing ds k with
  | nil => obtain rfl := List.length_eq_zero_iff.mp hlen.symm; rfl
  | cons e es ih =>
    cases ds with
    | nil => cases hlen
    | cons d ds =>
      have h0 := h 0 e rfl
      rw [List.getElem?_cons_zero, Option.some_inj] at h0
      rw [findFrom]
      by_cases hd : d = str
      · rw [if_pos (h0.mpr hd), if_pos (by rw [hd]; exact List.mem_cons_self), hd, List.idxOf_cons_self]; rfl
      · rw [if_neg (fun hx => hd (h0.mp hx)), ih (ds := ds) (Nat.succ.inj hlen) (fun j e he => h (j + 1) e he)]
        have hne : str ≠ d := fun hx => hd hx.symm
        simp only [List.mem_cons, hne, false_or, List.idxOf_cons_ne _ hd]
        split
        · rw [Nat.succ_eq_add_one, Nat.add_assoc, Nat.add_comm 1]
        · rfl

/-- `Find(p, b)` looks up the string of `p` followed by `b` (R193). -/
theorem Dictionary.find {w : LzwWidth} {s : State} {dict : List (List Byte)} (h : Dictionary w s.lzwTable dict)
    {p : Nat} {buffer : List Byte} (hp : codeString dict p = some buffer) (b : Byte) :
    s.lzwFind p b = if buffer ++ [b] ∈ dict then some (258 + dict.idxOf (buffer ++ [b])) else none := by
  refine findFrom_eq h.length fun j e he => ?_
  obtain ⟨front, _, hfront, hdict⟩ := h.entry j e he
  rw [hdict, Option.some_inj]
  constructor
  · rintro ⟨rfl, rfl⟩
    rw [Option.some.inj (hfront.symm.trans hp)]
  · intro hstr
    obtain ⟨rfl, hb⟩ := List.append_inj' hstr rfl
    exact ⟨h.code_unique hfront hp, (List.cons.inj hb).1⟩

theorem phraseKnown_append {dict : List (List Byte)} {buffer : List Byte} (hne : buffer ≠ []) (b : Byte) :
    phraseKnown dict (buffer ++ [b]) = true ↔ buffer ++ [b] ∈ dict := by
  simp [phraseKnown, hne]

/-- A new string is added where there is room for one more after it. -/
theorem Dictionary.insert {w : LzwWidth} {table : List LzwEntry} {dict : List (List Byte)} (h : Dictionary w table dict)
    {p : Nat} {buffer : List Byte} (hp : codeString dict p = some buffer) {b : Byte} (hnew : buffer ++ [b] ∉ dict)
    (hroom : 258 + dict.length + 1 ≠ w.cap) :
    Dictionary w (table ++ [{ pfx := p, sfx := b }]) (dict ++ [buffer ++ [b]]) where
  toTableStrings := h.toTableStrings.insert hp b
  nodup := by
    rw [List.nodup_append]
    exact ⟨h.nodup, List.nodup_singleton _, fun x hx y hy => by
      rw [List.mem_singleton.mp hy]; rintro rfl; exact hnew hx⟩
  room := by
    have := h.room
    rw [List.length_append, List.length_singleton]; omega

end Sys2Proof.Machine
end

section
/-! RLZW (R131, R200 to R209): the engine's table of code pairs follows the string-table decoder code by code. -/

namespace Sys2Proof.Machine

/-! ## LZW codes as records -/

/-- An ordinary code at any width is run as that code. -/
theorem recordRun_ordinary {w : LzwWidth} {c : Nat} (hc : c < w.cap) (h1 : c ≠ 256) (h2 : c ≠ 257) :
    recordRun (lzwInstr w c) = lzwOrdinary w c := by
  by_cases hl : c < 256
  · obtain ⟨h12, h16, h20⟩ := lzwInstr_literal (BitVec.ofNat 8 c)
    rw [BitVec.toNat_ofNat, Nat.mod_eq_of_lt hl] at h12 h16 h20
    have hval : (BitVec.ofNat 8 c).toNat = c := by rw [BitVec.toNat_ofNat, Nat.mod_eq_of_lt hl]
    cases w <;> simp only [h12, h16, h20, recordRun, hval]
  · obtain ⟨h12, h16, h20⟩ := lzwInstr_phrase (c := c) (by omega)
    have hval : c % 2 ^ w.bits = c := Nat.mod_eq_of_lt hc
    cases w <;> simp only [LzwWidth.bits] at hval <;> simp only [h12, h16, h20, recordRun, BitVec.toNat_ofNat, hval]

theorem admits_lzwInstr (w : LzwWidth) (c : Nat) : (Ctx.lzw w).admits (lzwInstr w c) := by
  by_cases hl : c < 256
  · cases w <;> simp only [lzwInstr, hl, if_true] <;> rfl
  by_cases h1 : c = 256
  · subst h1; cases w <;> rfl
  by_cases h2 : c = 257
  · subst h2; cases w <;> rfl
  obtain ⟨h12, h16, h20⟩ := lzwInstr_phrase (c := c) (by omega)
  cases w <;> simp only [h12, h16, h20] <;> rfl

/-! ## The decoder between two codes -/

/-- `PREV` is the code of the previous string, if there is one (R41, R202). -/
inductive PrevString (dict : List (List Byte)) : Option Nat → Option (List Byte) → Prop where
  | none : PrevString dict none none
  | some {c : Nat} {str : List Byte} (h : codeString dict c = some str) : PrevString dict (some c) (some str)

/-- RLZW after the first CLEAR: the table stands for the strings of the reference decoder. -/
structure LzwDecoding (w : LzwWidth) (dict : List (List Byte)) (prev : Option (List Byte)) (s : State)
    (out : List Byte) (rest : List Bool) : Prop extends Decoding .lzw s out rest where
  width : s.w = w
  started : s.started = true
  table : TableStrings s.lzwTable dict
  prevString : PrevString dict s.prev prev

/-- The turn that reads a code. -/
theorem Decoding.turn_code {w : LzwWidth} {s : State} {out : List Byte} {c : Nat} {rest : List Bool}
    (h : Decoding .lzw s out (lzwCodeBits w c ++ rest)) (hwidth : s.w = w) (hc : c < w.cap) :
    engineTurn s = (recordRun (lzwInstr w c) (skipBits w.bits s)).settle := by
  obtain ⟨hw, henc⟩ := encode_lzwInstr hc
  have hu := h.unread
  rw [lzwCodeBits, ← henc] at hu
  have hctx : s.ctx.admits (lzwInstr w c) := by rw [State.ctx, h.phase, ← hwidth]; exact admits_lzwInstr _ _
  rw [engineTurn_reads h.dir h.lens hw hctx hu, henc, length_bitsOf]

theorem capacity_codes (w : LzwWidth) : 256 < w.cap ∧ 257 < w.cap := by
  have := LzwWidth.cap_pos w; omega

/-- The state after CLEAR (R202). -/
def State.cleared (w : LzwWidth) (s : State) : State :=
  { skipBits w.bits s with started := true, lzwTable := [], prev := none, clears := s.clears + 1 }

/-- After CLEAR, the first one included, the table is empty and there is no previous code (R202, R203). -/
theorem Decoding.turn_clear {w : LzwWidth} {s : State} {out : List Byte} {rest : List Bool}
    (h : Decoding .lzw s out (lzwCodeBits w 256 ++ rest)) (hwidth : s.w = w) :
    engineTurn s = s.cleared w ∧ LzwDecoding w [] none (s.cleared w) out rest := by
  refine ⟨?_, ?_⟩
  · rw [h.turn_code hwidth (capacity_codes w).1, recordRun_lzwClear, lzwClear, skipBits_dir, h.dir]; rfl
  · have hnext := h.next (bytes := []) (t := s.cleared w) h.phase h.lens
      (hp := by rw [lzwCodeBits, length_bitsOf]; rfl)
    rw [List.append_nil] at hnext
    exact ⟨hnext, hwidth, rfl, tableStrings_nil, .none⟩

/-- `EmitString` of a string that fits the image (R209). -/
theorem emitString_ok {bytes : List Byte} {s : State} (h : s.wpos + bytes.length ≤ s.total)
    (hcap : s.total ≤ s.params.obufCap) : emitString bytes s = .ok (s.put bytes) := by
  rw [emitString, if_neg h.not_gt, putBytes_put (h.trans hcap)]

/-- The state after a code: its string is written, `PREV` is the code (R205, R206). -/
def State.decoded (w : LzwWidth) (c : Nat) (str : List Byte) (table : List LzwEntry) (s : State) : State :=
  { State.put str (skipBits w.bits s) with lzwTable := table, prev := some c }

theorem LzwDecoding.decoded {w : LzwWidth} {dict dict' : List (List Byte)} {prev : Option (List Byte)} {s : State}
    {out str : List Byte} {c : Nat} {rest : List Bool} {table : List LzwEntry}
    (h : LzwDecoding w dict prev s out (lzwCodeBits w c ++ rest)) (ht : TableStrings table dict')
    (hstr : codeString dict' c = some str) :
    LzwDecoding w dict' (some str) (s.decoded w c str table) (out ++ str) rest where
  toDecoding := h.next h.phase h.lens (hp := by rw [lzwCodeBits, length_bitsOf]; rfl)
  width := h.width
  started := h.started
  table := ht
  prevString := .some hstr

/-- The first code after a CLEAR is a literal (R204). -/
theorem LzwDecoding.turn_first {w : LzwWidth} {dict : List (List Byte)} {s : State} {out : List Byte} {b : Byte}
    {rest : List Bool} (h : LzwDecoding w dict none s out (lzwCodeBits w b.toNat ++ rest))
    (hroom : out.length + 1 ≤ s.total) : engineTurn s = s.decoded w b.toNat [b] s.lzwTable := by
  have hb := b.isLt
  have hc : b.toNat < w.cap := by have := capacity_codes w; omega
  have hprev : s.prev = none := by
    have hp := h.prevString
    generalize s.prev = p at hp
    cases hp; rfl
  have hemit : emitString [b] (skipBits w.bits s) = .ok (State.put [b] (skipBits w.bits s)) :=
    emitString_ok (by rw [skipBits_wpos, h.holds.wpos]; exact hroom) h.room
  rw [h.turn_code h.width hc, recordRun_ordinary hc (by omega) (by omega), lzwOrdinary, skipBits_dir, h.dir]
  simp only [readOrdinary, skipBits_started, h.started, Bool.true_eq_false, if_false, skipBits_prev, hprev,
    show ¬258 ≤ b.toNat by omega, BitVec.ofNat_toNat, BitVec.setWidth_eq, hemit, bind_ok, settle_ok]
  rfl

/-- Insert and emit, where the table has room (R201, R208). -/
theorem learnAndEmit_ok {w : LzwWidth} {c p : Nat} {fb : Byte} {bytes : List Byte} {s : State} (hcap : s.next ≠ w.cap)
    (h : s.wpos + bytes.length ≤ s.total) (hroom : s.total ≤ s.params.obufCap) :
    learnAndEmit w c p fb bytes s =
      .ok { s.put bytes with lzwTable := s.lzwTable ++ [{ pfx := p, sfx := fb }], prev := some c } := by
  rw [learnAndEmit, if_neg hcap, emitString_ok (s := lzwInsert p fb s) h hroom]
  rfl

/-- The meaning the reference gives a code (R205, R206). -/
theorem lzwMeaning_cases {dict : List (List Byte)} {p str : List Byte} {c : Nat} (h : lzwMeaning dict p c = some str) :
    codeString dict c = some str ∨ (c = 258 + dict.length ∧ str = p ++ p.take 1) := by
  unfold lzwMeaning at h
  unfold codeString
  split at h
  · next hc => rw [if_pos hc]; exact .inl h
  · next hc =>
    rw [if_neg hc]
    split at h
    · cases h
    · next h2 =>
      rw [if_neg h2]
      split at h
      · exact .inl h
      · split at h
        · next hlast => exact .inr ⟨hlast, (Option.some.inj h).symm⟩
        · cases h

theorem take_one_of_head? {str : List Byte} {b : Byte} (h : str.head? = some b) : str.take 1 = [b] := by
  obtain ⟨tail, rfl⟩ := List.head?_eq_some_iff.mp h; rfl

/-- Any later code: the previous string and the first byte of the new one are learned (R205, R206). -/
theorem LzwDecoding.turn_later {w : LzwWidth} {dict : List (List Byte)} {p str : List Byte} {s : State}
    {out : List Byte} {c : Nat} {rest : List Bool} (h : LzwDecoding w dict (some p) s out (lzwCodeBits w c ++ rest))
    (hc : c < w.cap) (h1 : c ≠ 256) (h2 : c ≠ 257) (hstr : lzwMeaning dict p c = some str)
    (hfull : 258 + dict.length ≠ w.cap) (hroom : out.length + str.length ≤ s.total) :
    ∃ table, engineTurn s = s.decoded w c str table ∧ TableStrings table (dict ++ [p ++ str.take 1]) ∧
      codeString (dict ++ [p ++ str.take 1]) c = some str := by
  obtain ⟨pc, hprev, hp⟩ : ∃ pc, s.prev = some pc ∧ codeString dict pc = some p := by
    have hp := h.prevString
    generalize s.prev = q at hp
    cases hp with
    | some h => exact ⟨_, rfl, h⟩
  have hnext : (skipBits w.bits s).next = 258 + dict.length := by
    rw [next_eq, skipBits_lzwTable, h.table.length]
  have hwpos : (skipBits w.bits s).wpos + str.length ≤ (skipBits w.bits s).total := by
    rw [skipBits_wpos, h.holds.wpos]; exact hroom
  have hlearn (fb : Byte) : learnAndEmit w c pc fb str (skipBits w.bits s) =
      .ok (s.decoded w c str (s.lzwTable ++ [{ pfx := pc, sfx := fb }])) :=
    learnAndEmit_ok (by rw [hnext]; exact hfull) hwpos h.room
  obtain ⟨hpstr, hpfirst⟩ := h.table.str hp
  rw [h.turn_code h.width hc, recordRun_ordinary hc h1 h2, lzwOrdinary, skipBits_dir, h.dir]
  simp only [readOrdinary, skipBits_started, h.started, Bool.true_eq_false, if_false, skipBits_prev, hprev, hnext,
    skipBits_lzwTable]
  obtain hknown | ⟨hlast, hkwk⟩ := lzwMeaning_cases hstr
  · obtain ⟨hcstr, hcfirst⟩ := h.table.str hknown
    rw [if_pos (codeString_lt hknown).1, hcstr, hlearn, settle_ok, take_one_of_head? hcfirst]
    exact ⟨_, rfl, h.table.insert hp _, codeString_append hknown _⟩
  · have htake := take_one_of_head? hpfirst
    have hpstr1 : p ++ [lzwFirst s.lzwTable pc] = str := by rw [hkwk, htake]
    have hfirst : str.take 1 = [lzwFirst s.lzwTable pc] := by
      rw [hkwk, List.take_append_of_le_length (List.length_pos_iff.mpr (h.table.ne_nil hp))]
      exact htake
    rw [if_neg (by omega), if_pos hlast, hpstr, hpstr1, hlearn, settle_ok, hfirst]
    refine ⟨_, rfl, h.table.insert hp _, ?_⟩
    rw [hlast, codeString_phrase, List.getElem?_concat_length, hpstr1]

/-! ## The whole payload -/

/-- What the reference decoder does with the next code. -/
inductive DecodesCode (w : LzwWidth) (dict : List (List Byte)) (prev : Option (List Byte)) (c : Nat) (cs : List Nat)
    (bytes : List Byte) (dict' : List (List Byte)) (clears : Nat) : Prop where
  | clear (k : Nat) (hc : c = 256) (hk : clears = k + 1) (h : lzwDecodeFrom w [] none cs = some (bytes, dict', k))
  | first (b : Byte) (tail : List Byte) (hc : c = b.toNat) (hprev : prev = none) (hb : bytes = [b] ++ tail)
      (h : lzwDecodeFrom w dict (some [b]) cs = some (tail, dict', clears))
  | later (p str tail : List Byte) (hc : c ≠ 256) (hprev : prev = some p) (hstr : lzwMeaning dict p c = some str)
      (hfull : 258 + dict.length ≠ w.cap) (hb : bytes = str ++ tail)
      (h : lzwDecodeFrom w (dict ++ [p ++ str.take 1]) (some str) cs = some (tail, dict', clears))

theorem lzwDecodeFrom_cons {w : LzwWidth} {dict dict' : List (List Byte)} {prev : Option (List Byte)} {c clears : Nat}
    {cs : List Nat} {bytes : List Byte} (h : lzwDecodeFrom w dict prev (c :: cs) = some (bytes, dict', clears)) :
    DecodesCode w dict prev c cs bytes dict' clears := by
  rw [lzwDecodeFrom.eq_def] at h
  dsimp only at h
  split at h
  · next hc =>
    split at h <;> cases h
    next hd => exact .clear _ hc rfl hd
  · next hc =>
    cases prev with
    | none =>
      dsimp only at h
      split at h
      · next hlt =>
        split at h <;> cases h
        next hd => exact .first _ _ (by rw [BitVec.toNat_ofNat, Nat.mod_eq_of_lt hlt]) rfl rfl hd
      · cases h
    | some p =>
      dsimp only at h
      split at h
      · cases h
      · next str hstr =>
        split at h
        · cases h
        · next hfull =>
          split at h <;> cases h
          next hd => exact .later p str _ hc rfl hstr hfull rfl hd

/-- END after the last byte of the image completes RLZW (R203). -/
theorem restores_end {w : LzwWidth} {dict : List (List Byte)} {prev : Option (List Byte)} {s : State}
    {out : List Byte} {rest : List Bool} (h : LzwDecoding w dict prev s out (lzwCodeBits w 257 ++ rest))
    (hend : out.length = s.total) :
    ∃ u, Restores s u out w.bits ∧ u.next = 258 + dict.length ∧ u.clears = s.clears := by
  have hfull : (skipBits w.bits s).wpos = (skipBits w.bits s).total := by
    rw [skipBits_wpos, h.holds.wpos]; exact hend
  have hturn : engineTurn s = finishRestore (skipBits w.bits s) := by
    rw [h.turn_code h.width (capacity_codes w).2, recordRun_lzwEnd, lzwEnd, skipBits_dir, h.dir]
    simp only [readEnd, skipBits_started, h.started, Bool.true_eq_false, if_false, hfull, ne_eq, not_true, settle_ok]
  exact ⟨_, restores_last h.busy hturn h.holds.keep {}, by rw [next_eq, skipBits_lzwTable, h.table.length], rfl⟩

/-- RLZW of codes the reference decoder accepts, and END, completes with their bytes. -/
theorem restores_codes {w : LzwWidth} {codes : List Nat} {dict dict' : List (List Byte)} {prev : Option (List Byte)}
    {s : State} {out bytes : List Byte} {clears : Nat} {rest : List Bool}
    (h : LzwDecoding w dict prev s out ((codes ++ [257]).flatMap (lzwCodeBits w) ++ rest))
    (hcodes : ∀ c ∈ codes, c < w.cap ∧ c ≠ 257) (hdict : 258 + dict.length ≤ w.cap)
    (hdec : lzwDecodeFrom w dict prev codes = some (bytes, dict', clears))
    (hend : out.length + bytes.length = s.total) :
    ∃ u, Restores s u (out ++ bytes) (w.bits * (codes.length + 1)) ∧ u.next = 258 + dict'.length ∧
      258 + dict'.length ≤ w.cap ∧ u.clears = s.clears + clears := by
  induction codes generalizing dict prev s out bytes clears with
  | nil =>
    obtain ⟨rfl, rfl, rfl⟩ : [] = bytes ∧ dict = dict' ∧ 0 = clears := by simpa [lzwDecodeFrom] using hdec
    rw [List.nil_append, List.flatMap_singleton] at h
    obtain ⟨u, hu, hnext, hclears⟩ := restores_end h hend
    rw [List.append_nil, List.length_nil, Nat.zero_add, Nat.mul_one]
    exact ⟨u, hu, hnext, hdict, hclears⟩
  | cons c cs ih =>
    obtain ⟨hc, hc257⟩ := hcodes c List.mem_cons_self
    have hcs := fun c hc => hcodes c (List.mem_cons_of_mem _ hc)
    rw [List.cons_append, List.flatMap_cons, List.append_assoc] at h
    rw [List.length_cons, Nat.mul_succ w.bits (cs.length + 1), Nat.add_comm]
    obtain ⟨k, rfl, rfl, hrest⟩ | ⟨b, tail, rfl, rfl, rfl, hrest⟩ |
      ⟨p, str, tail, h1, rfl, hstr, hfull, rfl, hrest⟩ := lzwDecodeFrom_cons hdec
    · obtain ⟨hturn, ht⟩ := h.turn_clear h.width
      obtain ⟨u, hu, hnext, hcap, hk⟩ := ih ht hcs (LzwWidth.cap_pos w).le hrest (hend.trans total_congr)
      exact ⟨u, hu.turn h.busy hturn {}, hnext, hcap, hk.trans (Nat.succ_add_eq_add_succ _ _)⟩
    · rw [List.length_append, List.length_singleton, ← Nat.add_assoc] at hend
      have hturn := h.turn_first (by omega)
      obtain ⟨u, hu, hnext, hcap, hk⟩ := ih
        (h.decoded (c := b.toNat) h.table (codeString_literal dict b)) hcs hdict hrest
        (by rw [List.length_append]; exact hend.trans total_congr)
      rw [← List.append_assoc]
      exact ⟨u, hu.turn h.busy hturn {}, hnext, hcap, hk⟩
    · rw [List.length_append, ← Nat.add_assoc] at hend
      obtain ⟨table, hturn, htable, hcode⟩ := h.turn_later hc h1 hc257 hstr hfull (by omega)
      obtain ⟨u, hu, hnext, hcap, hk⟩ := ih (h.decoded htable hcode) hcs
        (by rw [List.length_append, List.length_singleton]; omega) hrest
        (by rw [List.length_append]; exact hend.trans total_congr)
      rw [← List.append_assoc]
      exact ⟨u, hu.turn h.busy hturn {}, hnext, hcap, hk⟩

theorem cap_le (w : LzwWidth) : w.cap ≤ 2 ^ 20 := by cases w <;> decide

/-- `STAT_TABLE` holds every table size. -/
theorem statTable_toNat {w : LzwWidth} {n : Nat} (h : n ≤ w.cap) : (BitVec.ofNat 21 n).toNat = n := by
  have := cap_le w
  rw [BitVec.toNat_ofNat, Nat.mod_eq_of_lt (by omega)]

/-- Settles O16: CLEAR makes the decoder ready, the codes follow the reference decoder, END completes. -/
theorem rlzwProducesTheStringsOfTheCodes : Obligations.RlzwProducesTheStringsOfTheCodes := by
  intro s w width height codes rest bytes dict clears hr hwf hw hin hcodes hdec hlen
  have hpayload : (256 :: codes ++ [257]).flatMap (lzwCodeBits w) ++ rest =
      lzwCodeBits w 256 ++ ((codes ++ [257]).flatMap (lzwCodeBits w) ++ rest) := by
    rw [List.cons_append, List.flatMap_cons, List.append_assoc]
  obtain ⟨u, hexec, hdone, hwidth, hheight, halg, hdir, hnext, hcap, hclears⟩ := exec_of_restores (alg := .lzw)
    (bytes := bytes) (used := w.bits * (codes.length + 2))
    (P := fun u => u.next = 258 + dict.length ∧ 258 + dict.length ≤ w.cap ∧ u.clears = clears + 1) hr
    (fun _ => by rw [hw]; exact Option.some_ne_none w) hin fun w' hw' => by
      obtain rfl : w = w' := Option.some.inj (hw.symm.trans (hw' rfl))
      have h0 : Decoding .lzw { headed .lzw w width height s with dec := .lzw } []
          (lzwCodeBits w 256 ++ ((codes ++ [257]).flatMap (lzwCodeBits w) ++ rest)) := by
        rw [← hpayload]
        exact (decoding_headed hwf hin).next (front := []) (bytes := []) rfl nofun
      obtain ⟨hturn, ht⟩ := h0.turn_clear rfl
      obtain ⟨u, hu, hnext, hcap, hk⟩ := restores_codes ht hcodes (LzwWidth.cap_pos w).le hdec
        ((Nat.zero_add _).trans hlen)
      have hrest := hu.turn h0.busy hturn {}
      rw [Nat.add_comm, ← Nat.mul_succ] at hrest
      exact ⟨_, u, beginDecode_lzw rfl, {}, hrest, hnext, hcap, hk.trans (Nat.add_comm _ _)⟩
  refine ⟨_, hexec, hdone, hwidth, hheight, ?_, ?_⟩
  · change u.finalStatTable.toNat = _
    rw [State.finalStatTable, halg, hnext]
    exact statTable_toNat hcap
  · change u.finalStatClears = _
    rw [State.finalStatClears, halg, hclears]

end Sys2Proof.Machine
end

section
/-! CLZW (R130, R194 to R198): the engine's scan and its table of code pairs follow the dictionary of strings, record by
record. The pad that ends a bit stream (R153). -/

namespace Sys2Proof.Machine

/-! ## The pad -/

/-- A stream of bytes begins with any front of its bits. -/
theorem prefix_stream {front bits : List Bool} (h : front <+: bits) : front <+: bytesBits (recordBytes bits) := by
  rw [bytesBits_recordBytes]
  exact h.trans (List.prefix_append _ _)

theorem bitsOf_zero_value (n : Nat) : bitsOf n 0 = List.replicate n false := by
  induction n with
  | zero => rfl
  | succ n ih => rw [bitsOf_succ, ih, Nat.zero_testBit]; rfl

/-- Whole bytes in front of a bit stream. -/
theorem recordBytes_append (bytes : List Byte) (bits : List Bool) :
    recordBytes (bytesBits bytes ++ bits) = bytes ++ recordBytes bits := by
  refine bytesBits_injective ?_
  rw [bytesBits_append, bytesBits_recordBytes, bytesBits_recordBytes, List.append_assoc, List.length_append,
    length_bytesBits]
  congr 3
  unfold ceil8; omega

theorem length_recordBytes (bits : List Bool) : (recordBytes bits).length = ceil8 bits.length := by
  have h := congrArg List.length (bytesBits_recordBytes bits)
  rw [length_bytesBits, List.length_append, List.length_replicate] at h
  unfold ceil8 at h ⊢; omega

/-- The pad fills the last byte with zeros and completes the COMPRESS. -/
theorem compresses_pad {alg : Alg} {s0 s : State} {bits : List Bool} {P : State → Prop}
    (h : Encoding .pad alg s0 s bits) (hP : ∀ bytes cnt acc, P (s.wrote bytes cnt acc)) :
    Compresses (engineTurn s) (bytesBits (recordBytes bits)) P := by
  have hscan : encScan s = s := by simp only [encScan, h.phase]
  have hnext : s.encNext = .pad (BitVec.ofNat 3 s.padWidth) := by simp only [State.encNext, h.phase]
  have hn : (BitVec.ofNat 3 s.padWidth).toNat = s.padWidth := by
    rw [BitVec.toNat_ofNat, Nat.mod_eq_of_lt (padWidth_lt s)]
  have hlen := h.written.length
  have hfull : bytesBits (recordBytes bits) = bits ++ bitsOf s.padWidth 0 := by
    have hwidth : 8 * ceil8 bits.length - bits.length = s.padWidth := by
      have := h.written.few
      rw [hlen]; unfold ceil8 State.padWidth; omega
    rw [bytesBits_recordBytes, bitsOf_zero_value, hwidth]
  rw [engineTurn_compress h.dir hscan hnext, hfull]
  change Compresses (padRecord _ s).settle _ _
  rw [padRecord, h.dir, hn]
  refine compresses_putBits h.written (List.prefix_refl _) fun bytes cnt acc hwrote => ?_
  refine compresses_finish hwrote ?_ (hP bytes cnt acc)
  have hlen' := hwrote.length
  have hspec := padWidth_spec s h.written.few
  have hfew := hwrote.few
  rw [List.length_append, length_bitsOf, hlen] at hlen'
  omega

/-! ## The encoder between two codes -/

/-- What the buffer holds is the string of the code `CUR` (R194). -/
inductive BufferCode (dict : List (List Byte)) : Option Nat → List Byte → Prop where
  | empty : BufferCode dict none []
  | code {p : Nat} {buffer : List Byte} (h : codeString dict p = some buffer) : BufferCode dict (some p) buffer

/-- CLZW in the loop of R194: its table stands for `dict`. -/
structure LzwEncoding (w : LzwWidth) (dict : List (List Byte)) (s0 s : State) (bits : List Bool) : Prop extends
    Encoding .lzwCodes .lzw s0 s bits where
  width : s.w = w
  dictionary : Dictionary w s.lzwTable dict

/-- What completion reports of CLZW (R212). -/
structure LzwResults (w : LzwWidth) (dict : List (List Byte)) (clears : Nat) (u : State) : Prop where
  alg : u.alg = .lzw
  next : u.next = 258 + dict.length
  room : 258 + dict.length ≤ w.cap
  clears : u.clears = clears

/-- A CLEAR code: the table is seeded and counted (R194, R196). -/
theorem compresses_clear {w : LzwWidth} {s0 s : State} {bits total : List Bool} {P : State → Prop}
    (h : Encoding .lzwClear .lzw s0 s bits) (hw : s.w = w) (hpre : bits ++ lzwCodeBits w 256 <+: total)
    (hnext : ∀ t, LzwEncoding w [] s0 t (bits ++ lzwCodeBits w 256) → t.cur = s.cur → t.idx = s.idx →
      t.clears = s.clears + 1 → Compresses t total P) : Compresses (engineTurn s) total P := by
  have hscan : encScan s = s := by simp only [encScan, h.phase]
  have hi : s.encNext = lzwInstr w 256 := by simp only [State.encNext, h.phase, hw]
  rw [engineTurn_compress h.dir hscan hi, recordRun_lzwClear, lzwClear, h.dir]
  refine compresses_putBits (s := { s with lzwTable := [] }) h.written.keep hpre fun bytes cnt acc hwrote => ?_
  exact hnext _ ⟨h.next hwrote.keep rfl, hw, dictionary_nil w⟩ rfl rfl rfl

/-- END, then the pad (R197). -/
theorem compresses_end {w : LzwWidth} {s0 s : State} {bits : List Bool} {dict : List (List Byte)} {clears : Nat}
    (h : Encoding .lzwEnd .lzw s0 s bits) (hw : s.w = w) (hres : LzwResults w dict clears s) :
    Compresses (engineTurn s) (bytesBits (recordBytes (bits ++ lzwCodeBits w 257))) (LzwResults w dict clears) := by
  have hscan : encScan s = s := by simp only [encScan, h.phase]
  have hi : s.encNext = lzwInstr w 257 := by simp only [State.encNext, h.phase, hw]
  rw [engineTurn_compress h.dir hscan hi, recordRun_lzwEnd, lzwEnd, h.dir]
  refine compresses_putBits h.written (prefix_stream (List.prefix_refl _)) fun bytes cnt acc hwrote => ?_
  refine Compresses.turn h.busy (compresses_pad (h.next hwrote.keep rfl) fun _ _ _ => ?_)
  exact ⟨hres.alg, hres.next, hres.room, hres.clears⟩

/-- The code of the buffer, at the byte that ends it or at the end of the input. -/
theorem LzwEncoding.turn {w : LzwWidth} {dict : List (List Byte)} {s0 s : State} {bits : List Bool} {p : Nat}
    {buffer : List Byte} (h : LzwEncoding w dict s0 s bits) (hcur : s.cur = some p)
    (hp : codeString dict p = some buffer) (hscan : encScan s = s) : engineTurn s = (emitOrdinary w p s).settle := by
  obtain ⟨hlt, h1, h2⟩ := codeString_lt hp
  have hi : s.encNext = lzwInstr w p := by simp only [State.encNext, h.phase, h.width, hcur, Option.getD_some]
  rw [engineTurn_compress h.dir hscan hi, recordRun_ordinary (hlt.trans h.dictionary.room) h1 h2, lzwOrdinary, h.dir]

/-- The last code: END follows (R197). -/
theorem compresses_lastCode {w : LzwWidth} {dict : List (List Byte)} {s0 s : State} {bits : List Bool} {p : Nat}
    {buffer : List Byte} (h : LzwEncoding w dict s0 s bits) (hcur : s.cur = some p)
    (hp : codeString dict p = some buffer) (hend : s.idx = s0.total) :
    Compresses (engineTurn s) (bytesBits (recordBytes (bits ++ [p, 257].flatMap (lzwCodeBits w))))
      (LzwResults w dict s.clears) := by
  have hfull : ¬s.idx < s.total := by rw [hend, h.total]; exact Nat.lt_irrefl _
  have hscan : encScan s = s := by
    simp only [encScan, h.phase, lzwScan, show s.total - s.idx = 0 by omega, lzwScanLoop]
  have hbits : bits ++ [p, 257].flatMap (lzwCodeBits w) = bits ++ lzwCodeBits w p ++ lzwCodeBits w 257 := by simp
  rw [h.turn hcur hp hscan, hbits]
  refine compresses_putBits h.written (prefix_stream (List.prefix_append _ _)) fun bytes cnt acc hwrote => ?_
  dsimp only
  rw [if_neg (by rw [total_congr (s := s)]; exact hfull)]
  refine Compresses.turn h.busy (compresses_end (h.next hwrote.keep rfl) h.width ?_)
  exact ⟨h.alg, by rw [← h.dictionary.length]; exact next_eq s, h.dictionary.room.le, rfl⟩

/-- How CLZW goes on behind a code: with a larger table, or with CLEAR where it is full (R194, R196). -/
def AfterCode (w : LzwWidth) (dict : List (List Byte)) (str : List Byte) (s0 t : State) (bits : List Bool) : Prop :=
  if 258 + dict.length + 1 = w.cap then Encoding .lzwClear .lzw s0 t bits else LzwEncoding w (dict ++ [str]) s0 t bits

/-- A code before the end of the input: the new string is added and the buffer is the byte that ended the old one (R194,
R196). -/
theorem compresses_code {w : LzwWidth} {dict : List (List Byte)} {s0 s : State} {bits total : List Bool}
    {P : State → Prop} {p : Nat} {buffer : List Byte} {b : Byte} (h : LzwEncoding w dict s0 s bits)
    (hcur : s.cur = some p) (hp : codeString dict p = some buffer) (hidx : s.idx < s.total)
    (hb : s.ibufByte s.idx = b) (hnew : buffer ++ [b] ∉ dict) (hpre : bits ++ lzwCodeBits w p <+: total)
    (hnext : ∀ t, AfterCode w dict (buffer ++ [b]) s0 t (bits ++ lzwCodeBits w p) → t.w = w → t.cur = some b.toNat →
      t.idx = s.idx + 1 → t.clears = s.clears → Compresses t total P) : Compresses (engineTurn s) total P := by
  have hscan : encScan s = s := by
    simp only [encScan, h.phase, lzwScan]
    rw [show s.total - s.idx = s.total - s.idx - 1 + 1 by omega, lzwScanLoop_stop _ hidx hcur]
    rw [hb, h.dictionary.find hp, if_neg hnew]
  rw [h.turn hcur hp hscan]
  refine compresses_putBits h.written hpre fun bytes cnt acc hwrote => ?_
  dsimp only
  rw [if_pos (by rw [total_congr (s := s)]; exact hidx)]
  have hbyte : (s.wrote bytes cnt acc).ibufByte (s.wrote bytes cnt acc).idx = b := hb
  have hsize : (lzwInsert p b (s.wrote bytes cnt acc)).next = 258 + dict.length + 1 := by
    rw [next_eq, ← h.dictionary.length]
    change 258 + (s.lzwTable ++ [_]).length = _
    rw [List.length_append, List.length_singleton, Nat.add_assoc]
  rw [hbyte, hsize, settle_ok]
  refine hnext _ ?_ h.width rfl rfl rfl
  unfold AfterCode
  split
  · exact h.next hwrote.keep rfl
  · next hroom => exact ⟨h.next hwrote.keep rfl, h.width, h.dictionary.insert hp hnew hroom⟩

/-! ## The scan (R194) -/

/-- A step of the scan does not change what the turn does. -/
theorem engineTurn_scan {s t : State} (hd : s.dir = .compress) (hd' : t.dir = .compress)
    (h : encScan s = encScan t) : engineTurn s = engineTurn t := by
  rw [engineTurn_compress hd h rfl, engineTurn_compress hd' rfl rfl]

/-- The state after one step of the scan. -/
def State.scanned (p : Nat) (s : State) : State := { s with cur := some p, idx := s.idx + 1 }

theorem LzwEncoding.scanned {w : LzwWidth} {dict : List (List Byte)} {s0 s : State} {bits : List Bool}
    (h : LzwEncoding w dict s0 s bits) (p : Nat) : LzwEncoding w dict s0 (s.scanned p) bits :=
  ⟨h.next h.written.keep h.phase, h.width, h.dictionary⟩

/-- A byte that extends the buffer to a known string is part of the scan. -/
theorem LzwEncoding.scan {w : LzwWidth} {dict : List (List Byte)} {s0 s : State} {bits : List Bool}
    {buffer : List Byte} {b : Byte} (h : LzwEncoding w dict s0 s bits) (hcur : BufferCode dict s.cur buffer)
    (hidx : s.idx < s.total) (hb : s.ibufByte s.idx = b) (hknown : phraseKnown dict (buffer ++ [b]) = true) :
    ∃ p, engineTurn s = engineTurn (s.scanned p) ∧ codeString dict p = some (buffer ++ [b]) := by
  have hturn (p : Nat) (hstep : ∀ fuel, lzwScanLoop (fuel + 1) s = lzwScanLoop fuel (s.scanned p)) :
      engineTurn s = engineTurn (s.scanned p) := by
    have hphase : (s.scanned p).enc = .lzwCodes := h.phase
    have htotal : (s.scanned p).total = s.total := total_congr
    refine engineTurn_scan h.dir h.dir ?_
    simp only [encScan, h.phase, hphase, lzwScan, htotal]
    rw [show s.total - s.idx = s.total - (s.scanned p).idx + 1 by change _ = s.total - (s.idx + 1) + 1; omega]
    exact hstep _
  generalize hc : s.cur = cur at hcur
  cases hcur with
  | empty =>
    refine ⟨b.toNat, hturn _ fun fuel => ?_, codeString_literal dict b⟩
    rw [lzwScanLoop_first fuel hidx hc, hb]; rfl
  | @code p _ hp =>
    have hmem := (phraseKnown_append (h.dictionary.ne_nil hp) b).mp hknown
    have hfind := h.dictionary.find hp b
    rw [if_pos hmem] at hfind
    refine ⟨_, hturn _ fun fuel => lzwScanLoop_found fuel hidx hc (by rw [hb]; exact hfind), ?_⟩
    rw [codeString_phrase]
    have hlt := List.idxOf_lt_length_iff.mpr hmem
    rw [List.getElem?_eq_getElem hlt, List.getElem_idxOf hlt]

/-! ## The whole payload -/

/-- From `s` on CLZW writes the codes of the buffer and the rest of the input, END and the pad. -/
def WritesCodes (w : LzwWidth) (dict : List (List Byte)) (buffer input : List Byte) (s : State) (bits : List Bool) :
    Prop :=
  Compresses (engineTurn s)
    (bytesBits (recordBytes (bits ++ ((lzwCodesFrom w dict buffer input).1 ++ [257]).flatMap (lzwCodeBits w))))
    (LzwResults w (lzwCodesFrom w dict buffer input).2
      (s.clears + (lzwCodesFrom w dict buffer input).1.count 256))

/-- A code before the end of the input, and the codes that follow it: a CLEAR first where the table is full (R194,
R196). -/
theorem writesCodes_code {w : LzwWidth} {dict : List (List Byte)} {s0 s : State} {bits : List Bool} {p : Nat}
    {buffer input : List Byte} {b : Byte} (h : LzwEncoding w dict s0 s bits) (hcur : s.cur = some p)
    (hp : codeString dict p = some buffer) (hidx : s.idx < s.total) (hb : s.ibufByte s.idx = b)
    (hunknown : ¬phraseKnown dict (buffer ++ [b]) = true)
    (hrest : ∀ t dict' bits', LzwEncoding w dict' s0 t bits' → t.cur = some b.toNat → t.idx = s.idx + 1 →
      WritesCodes w dict' [b] input t bits') : WritesCodes w dict buffer (b :: input) s bits := by
  obtain ⟨_, h256, _⟩ := codeString_lt hp
  have hnew := mt (phraseKnown_append (h.dictionary.ne_nil hp) b).mpr hunknown
  rw [WritesCodes, lzwCodesFrom, if_neg hunknown, h.dictionary.phraseCode hp]
  split
  · next hfull =>
    have hbits (codes : List Nat) : bits ++ (p :: 256 :: codes ++ [257]).flatMap (lzwCodeBits w) =
        bits ++ lzwCodeBits w p ++ lzwCodeBits w 256 ++ (codes ++ [257]).flatMap (lzwCodeBits w) := by simp
    rw [hbits, List.count_cons_of_ne h256, List.count_cons_self]
    refine compresses_code h hcur hp hidx hb hnew (prefix_stream (by simp)) fun t ht hw hcur hi hclears => ?_
    rw [AfterCode, if_pos hfull] at ht
    refine Compresses.turn ht.busy ?_
    refine compresses_clear ht hw (prefix_stream (by simp)) fun t' ht' hcur' hi' hclears' => ?_
    have hcodes := hrest t' [] _ ht' (hcur'.trans hcur) (hi'.trans hi)
    rw [WritesCodes, hclears', hclears, Nat.add_assoc, Nat.add_comm 1] at hcodes
    exact Compresses.turn ht'.busy hcodes
  · next hroom =>
    have hbits (codes : List Nat) : bits ++ (p :: codes ++ [257]).flatMap (lzwCodeBits w) =
        bits ++ lzwCodeBits w p ++ (codes ++ [257]).flatMap (lzwCodeBits w) := by simp
    rw [hbits, List.count_cons_of_ne h256]
    refine compresses_code h hcur hp hidx hb hnew (prefix_stream (by simp)) fun t ht hw hcur hi hclears => ?_
    rw [AfterCode, if_neg hroom] at ht
    have hcodes := hrest t _ _ ht hcur hi
    rw [WritesCodes, hclears] at hcodes
    exact Compresses.turn ht.busy hcodes

/-- From any point of the loop on CLZW writes the codes of the rest of the input. -/
theorem writesCodes {w : LzwWidth} {dict : List (List Byte)} {s0 s : State} {bits : List Bool}
    {buffer input : List Byte} (h : LzwEncoding w dict s0 s bits) (hcur : BufferCode dict s.cur buffer)
    (hinput : s0.ibufBytes s.idx input.length = input) (hend : s.idx + input.length = s0.total)
    (hne : buffer ++ input ≠ []) : WritesCodes w dict buffer input s bits := by
  induction input generalizing dict s bits buffer with
  | nil =>
    generalize hc : s.cur = cur at hcur
    cases hcur with
    | empty => exact absurd rfl hne
    | @code p _ hp =>
      obtain ⟨_, h256, _⟩ := codeString_lt hp
      rw [WritesCodes, lzwCodesFrom, h.dictionary.phraseCode hp, List.count_singleton, if_neg (by simpa using h256)]
      exact compresses_lastCode h hc hp hend
  | cons b input ih =>
    obtain ⟨hb, hrest⟩ := List.cons.inj hinput
    have hb : s.ibufByte s.idx = b := (h.ibufByte _).trans hb
    rw [List.length_cons] at hend
    have hidx : s.idx < s.total := by rw [h.total]; omega
    have hend' : s.idx + 1 + input.length = s0.total := by omega
    by_cases hknown : phraseKnown dict (buffer ++ [b]) = true
    · obtain ⟨p, hturn, hp⟩ := h.scan hcur hidx hb hknown
      rw [WritesCodes, lzwCodesFrom, if_pos hknown, hturn]
      exact ih (h.scanned p) (.code hp) hrest hend' (by simp)
    · generalize hc : s.cur = cur at hcur
      cases hcur with
      | empty => exact absurd rfl hknown
      | code hp =>
        refine writesCodes_code h hc hp hidx hb hknown fun t dict' bits' ht hcur' hi => ?_
        rw [← hi] at hrest hend'
        exact ih ht (by rw [hcur']; exact .code (codeString_literal dict' b)) hrest hend' (by simp)

/-! ## The codes of the loop as records -/

/-- A code of the encoder fits its width; END is not among them. -/
theorem phraseCode_lt {w : LzwWidth} {dict : List (List Byte)} (hroom : 258 + dict.length < w.cap) (str : List Byte) :
    phraseCode dict str < w.cap ∧ phraseCode dict str ≠ 256 ∧ phraseCode dict str ≠ 257 := by
  unfold phraseCode
  split
  · next b => have := b.isLt; have := LzwWidth.cap_pos w; omega
  · have := List.idxOf_le_length (l := dict) (a := str); omega

theorem lzwCodesFrom_lt {w : LzwWidth} {dict : List (List Byte)} {buffer input : List Byte}
    (hroom : 258 + dict.length < w.cap) : ∀ c ∈ (lzwCodesFrom w dict buffer input).1, c < w.cap ∧ c ≠ 257 := by
  induction input generalizing dict buffer with
  | nil =>
    intro c hc
    obtain ⟨hlt, _, h257⟩ := phraseCode_lt hroom buffer
    rw [List.mem_singleton.mp hc]
    exact ⟨hlt, h257⟩
  | cons b input ih =>
    obtain ⟨hlt, _, h257⟩ := phraseCode_lt hroom buffer
    rw [lzwCodesFrom]
    split
    · exact ih hroom
    · split
      · simp only [List.mem_cons, forall_eq_or_imp]
        exact ⟨⟨hlt, h257⟩, ⟨(capacity_codes w).1, by decide⟩, ih (LzwWidth.cap_pos w)⟩
      · next hfull =>
        simp only [List.mem_cons, forall_eq_or_imp]
        exact ⟨⟨hlt, h257⟩, ih (by rw [List.length_append, List.length_singleton]; omega)⟩

theorem encode_lzwCodes {w : LzwWidth} {codes : List Nat} (h : ∀ c ∈ codes, c < w.cap) :
    (codes.map (lzwInstr w)).flatMap encode = codes.flatMap (lzwCodeBits w) := by
  rw [List.flatMap_map]
  exact List.flatMap_congr fun c hc => (encode_lzwInstr (h c hc)).2

/-- The bytes of a CLZW stream. -/
theorem streamBytes_lzw (w : LzwWidth) (width height : Half) (input : List Byte) :
    streamBytes (.hdr width height :: (lzwCodes w input).map (lzwInstr w)) = headerBytes width height ++
      recordBytes (lzwCodeBits w 256 ++ ((lzwCodesFrom w [] [] input).1 ++ [257]).flatMap (lzwCodeBits w)) := by
  have hlt : ∀ c ∈ lzwCodes w input, c < w.cap := by
    intro c hc
    rw [lzwCodes, List.cons_append, List.mem_cons, List.mem_append, List.mem_singleton] at hc
    obtain ⟨h256, h257⟩ := capacity_codes w
    obtain rfl | hc | rfl := hc
    · exact h256
    · exact (lzwCodesFrom_lt (dict := []) (LzwWidth.cap_pos w) c hc).1
    · exact h257
  rw [streamBytes, List.flatMap_cons, encode_hdr, encode_lzwCodes hlt, recordBytes_append]
  rfl

/-- CLZW after its header. -/
def lzwBegun (w : LzwWidth) (s : State) : State :=
  { (begun .compress .lzw w s).put (headerBytes s.width s.height) with enc := .lzwClear, idx := 0 }

/-- The header, CLEAR, the codes of the loop, END and the pad. -/
theorem compresses_lzw {w : LzwWidth} {s : State} (hwf : Memory.wf s.obuf = true) (hn : s.n ≠ 0) :
    Compresses (begun .compress .lzw w s)
      (bytesBits (streamBytes (.hdr s.width s.height :: (lzwCodes w (s.ibufBytes 0 s.total)).map (lzwInstr w))))
      (LzwResults w (lzwCodesFrom w [] [] (s.ibufBytes 0 s.total)).2
        ((lzwCodesFrom w [] [] (s.ibufBytes 0 s.total)).1.count 256 + 1)) := by
  have hlen : (s.ibufBytes 0 s.total).length = s.total := length_ibufBytes s 0 s.total
  rw [streamBytes_lzw, bytesBits_append]
  refine compresses_header hwf fun hput => ?_
  change Compresses (lzwBegun w s) _ _
  have h0 : Encoding .lzwClear .lzw s (lzwBegun w s) (bytesBits (headerBytes s.width s.height)) :=
    (encoding_begun .lzw w hwf).next hput.keep rfl
  rw [← bytesBits_append, ← recordBytes_append]
  refine Compresses.turn h0.busy ?_
  refine compresses_clear (w := w) h0 rfl (prefix_stream (by simp)) fun t ht hcur hidx hclears => ?_
  have hidx : t.idx = 0 := hidx
  have hcodes := writesCodes ht (buffer := []) (input := s.ibufBytes 0 s.total) (by rw [hcur]; exact .empty)
    (by rw [hidx, hlen]) (by rw [hidx, hlen]; exact Nat.zero_add _)
    (List.ne_nil_of_length_pos (by rw [List.nil_append, hlen]; exact Nat.pos_of_ne_zero (total_ne_zero hn)))
  rw [WritesCodes, hclears.trans (Nat.zero_add 1), Nat.add_comm, List.append_assoc] at hcodes
  exact Compresses.turn ht.busy hcodes

/-- Settles O11: the stream is the records' that the engine writes, and completion reports its table and CLEARs. -/
theorem clzwWritesDictionaryCodes : Obligations.ClzwWritesDictionaryCodes := by
  intro s w stream hr hwf hw hin hstream
  obtain ⟨w', hw', hbegin⟩ := beginCommand_compress (alg := .lzw) (fun _ => by rw [hw]; exact Option.some_ne_none w) hin
  obtain rfl : w = w' := Option.some.inj (hw.symm.trans (hw' rfl))
  have h := compresses_lzw (w := w) hwf hin.2.1
  rw [← hstream, ← hbegin] at h
  obtain ⟨hfits, hover⟩ := exec_of_compresses hr h
  refine ⟨fun hcap => ?_, hover⟩
  obtain ⟨u, hexec, hdone, hsize, hres⟩ := hfits hcap
  refine ⟨_, hexec, hdone, hsize, ?_, ?_⟩
  · change u.finalStatTable.toNat = _
    rw [State.finalStatTable, hres.alg, hres.next]
    exact statTable_toNat hres.room
  · change u.finalStatClears = _
    rw [State.finalStatClears, hres.alg, hres.clears, lzwCodes, List.cons_append, List.count_cons_self,
      List.count_append]
    rfl

end Sys2Proof.Machine
end

section
/-! The round trip of LZW (R136, R137): the decoder of R200 to R209 on strings undoes the encoder of R194 to R197. -/

namespace Sys2Proof.Machine

theorem codeString_phraseCode {dict : List (List Byte)} {str : List Byte} (h : phraseKnown dict str = true) :
    codeString dict (phraseCode dict str) = some str := by
  unfold phraseCode
  split
  · exact codeString_literal dict _
  · next hone =>
    rw [codeString_phrase]
    have hmem : str ∈ dict := by
      rw [phraseKnown, Bool.or_eq_true, decide_eq_true_eq, List.length_eq_one_iff] at h
      obtain ⟨b, rfl⟩ | h := h
      · exact absurd rfl (hone b)
      · exact List.contains_iff_mem.mp h
    have hlt := List.idxOf_lt_length_iff.mpr hmem
    rw [List.getElem?_eq_getElem hlt, List.getElem_idxOf hlt]

/-- How far the decoder's table is behind the encoder's: by the string whose last byte begins the buffer, but not after
CLEAR. -/
inductive Lag : (dict : List (List Byte)) → (buffer : List Byte) → (known : List (List Byte)) →
    (prev : Option (List Byte)) → Prop where
  | fresh {buffer : List Byte} : Lag [] buffer [] none
  | behind {buffer p : List Byte} {known : List (List Byte)} {b : Byte} (hp : p ≠ []) (hb : buffer.head? = some b) :
    Lag (known ++ [p ++ [b]]) buffer known (some p)

/-- A longer buffer begins with the same byte. -/
theorem Lag.extend {dict known : List (List Byte)} {buffer : List Byte} {prev : Option (List Byte)}
    (h : Lag dict buffer known prev) (more : List Byte) : Lag dict (buffer ++ more) known prev := by
  cases h with
  | fresh => exact .fresh
  | behind hp hb => exact .behind hp (by rw [List.head?_append, hb]; rfl)

/-- The decoder reads the code of a string it has, or is about to learn, as that string (R205, R206). -/
theorem lzwMeaning_of_codeString {known : List (List Byte)} {p str : List Byte} {b : Byte} {c : Nat} (hp : p ≠ [])
    (hb : str.head? = some b) (h : codeString (known ++ [p ++ [b]]) c = some str) :
    lzwMeaning known p c = some str := by
  obtain ⟨b', rfl, rfl⟩ | ⟨k, rfl, hk⟩ := codeString_cases h
  · rw [lzwMeaning, if_pos b'.isLt, BitVec.ofNat_toNat, BitVec.setWidth_eq]
  · rw [lzwMeaning, if_neg (by omega), if_neg (by omega), Nat.add_sub_cancel_left]
    obtain ⟨hlt, _⟩ := List.getElem?_eq_some_iff.mp hk
    rw [List.length_append, List.length_singleton] at hlt
    by_cases hold : k < known.length
    · rw [if_pos hold]
      rwa [List.getElem?_append_left hold] at hk
    · obtain rfl : k = known.length := by omega
      rw [List.getElem?_concat_length] at hk
      obtain rfl := (Option.some.inj hk).symm
      obtain ⟨x, p, rfl⟩ := List.exists_cons_of_ne_nil hp
      obtain rfl : x = b := Option.some.inj hb
      rw [if_neg hold, if_pos rfl]; rfl

/-- The decoder takes a code of the encoder for its string, and has the encoder's table then. -/
theorem lzwDecodeFrom_phraseCode {w : LzwWidth} {dict known dict' : List (List Byte)} {buffer bytes : List Byte}
    {prev : Option (List Byte)} {cs : List Nat} {clears : Nat} (h : Lag dict buffer known prev)
    (hknown : phraseKnown dict buffer = true) (hroom : 258 + dict.length < w.cap)
    (hrest : lzwDecodeFrom w dict (some buffer) cs = some (bytes, dict', clears)) :
    lzwDecodeFrom w known prev (phraseCode dict buffer :: cs) = some (buffer ++ bytes, dict', clears) := by
  obtain ⟨_, h256, _⟩ := phraseCode_lt hroom buffer
  have hcode := codeString_phraseCode hknown
  rw [lzwDecodeFrom.eq_def]
  dsimp only
  rw [if_neg h256]
  cases h with
  | fresh =>
    obtain ⟨b, hc, rfl⟩ | ⟨k, _, hk⟩ := codeString_cases hcode
    · simp only [hc, b.isLt, if_true, BitVec.ofNat_toNat, BitVec.setWidth_eq, hrest, List.singleton_append]
    · cases hk
  | @behind _ p _ b hp hb =>
    have hfull : 258 + known.length ≠ w.cap := by
      rw [List.length_append, List.length_singleton] at hroom; omega
    simp only [lzwMeaning_of_codeString hp hb hcode, if_neg hfull, take_one_of_head? hb, hrest]

/-- The decoder undoes the encoder, across resets (R136). -/
theorem lzwDecodeFrom_lzwCodesFrom {w : LzwWidth} {dict known : List (List Byte)} {buffer input : List Byte}
    {prev : Option (List Byte)} (h : Lag dict buffer known prev) (hroom : 258 + dict.length < w.cap)
    (hbuffer : buffer = [] ∨ phraseKnown dict buffer = true) (hne : buffer ++ input ≠ []) :
    ∃ dict' clears, lzwDecodeFrom w known prev (lzwCodesFrom w dict buffer input).1 =
      some (buffer ++ input, dict', clears) := by
  induction input generalizing dict known buffer prev with
  | nil =>
    have hknown := hbuffer.resolve_left fun h => hne (by rw [h]; rfl)
    exact ⟨dict, 0, lzwDecodeFrom_phraseCode h hknown hroom (by rw [lzwDecodeFrom])⟩
  | cons b input ih =>
    rw [lzwCodesFrom]
    split
    · next hext =>
      obtain ⟨dict', clears, hdec⟩ := ih (h.extend [b]) hroom (.inr hext) (by simp)
      exact ⟨dict', clears, by rw [hdec, List.append_assoc]; rfl⟩
    · next hext =>
      have hne' : buffer ≠ [] := by rintro rfl; exact hext rfl
      have hknown := hbuffer.resolve_left hne'
      split
      · obtain ⟨dict', clears, hdec⟩ := ih (.fresh (buffer := [b])) (LzwWidth.cap_pos w) (.inr rfl) (by simp)
        refine ⟨dict', clears + 1, lzwDecodeFrom_phraseCode h hknown hroom ?_⟩
        rw [lzwDecodeFrom, if_pos rfl, hdec]; rfl
      · next hfull =>
        obtain ⟨dict', clears, hdec⟩ := ih (.behind (buffer := [b]) (known := dict) hne' rfl)
          (by rw [List.length_append, List.length_singleton]; omega) (.inr rfl) (by simp)
        exact ⟨dict', clears, lzwDecodeFrom_phraseCode h hknown hroom hdec⟩

theorem length_lzwCodes (w : LzwWidth) (codes : List Nat) :
    (codes.flatMap (lzwCodeBits w)).length = w.bits * codes.length := by
  simp only [List.length_flatMap, lzwCodeBits, length_bitsOf, List.map_const', List.sum_replicate, smul_eq_mul,
    Nat.mul_comm]

/-- Settles O24: CLZW leaves the encoder's codes, whose bytes the decoder gives back. -/
theorem lzwRoundTrip : Obligations.LzwRoundTrip := by
  intro s t u hr hwf h hd hru hwfu hw hlen hibuf hobuf hbuf
  obtain ⟨hin, hlegal⟩ := compressInput_of_done hr h hd
  obtain ⟨w, hwidth⟩ := Option.ne_none_iff_exists'.mp (hlegal rfl)
  obtain ⟨hfits, hover⟩ := clzwWritesDictionaryCodes s w _ hr hwf hwidth hin rfl
  have hdone := completed_of_done (alg := .lzw) h hd hfits hover
  have hbits := inputBits_of_stream hdone.obuf hdone.outLen hlen hbuf
  have houtLen := hdone.outLen
  have hinput : (s.ibufBytes 0 s.total).length = s.total := length_ibufBytes s 0 s.total
  have hne := List.ne_nil_of_length_pos (hinput ▸ Nat.pos_of_ne_zero (total_ne_zero hin.2.1))
  obtain ⟨dict, clears, hdec⟩ := lzwDecodeFrom_lzwCodesFrom (w := w) (.fresh (buffer := []))
    (LzwWidth.cap_pos w) (.inl rfl) hne
  rw [List.nil_append] at hdec
  rw [streamBytes_lzw] at hbits houtLen
  set codes := (lzwCodesFrom w [] [] (s.ibufBytes 0 s.total)).1 with hcodes
  have hpayload : lzwCodeBits w 256 ++ (codes ++ [257]).flatMap (lzwCodeBits w) =
      (256 :: codes ++ [257]).flatMap (lzwCodeBits w) := by rw [List.cons_append, List.flatMap_cons]
  rw [hpayload] at hbits houtLen
  rw [bytesBits_append, bytesBits_recordBytes] at hbits
  obtain ⟨v, hv, hcompleted, hwidth', hheight, _⟩ := rlzwProducesTheStringsOfTheCodes u w s.width s.height codes _ _
    dict clears hru hwfu (by rw [hw]; exact hwidth) ⟨hlen ▸ hibuf, by rw [hbits, encode_hdr]; rfl, hin.2.1, hobuf⟩
    (lzwCodesFrom_lt (dict := []) (LzwWidth.cap_pos w)) hdec hinput
  refine ⟨v, hv, ?_, hwidth', hheight⟩
  have hused : t.outLen = ceil8 (32 + w.bits * (codes.length + 2)) := by
    rw [houtLen, List.length_append, length_recordBytes, length_lzwCodes, List.length_append]
    change 4 + ceil8 (w.bits * (codes.length + 2)) = _
    unfold ceil8; omega
  rw [hused]
  exact hcompleted

end Sys2Proof.Machine
end

section
/-! RHUF (R133, R235 to R241): the table is collected entry by entry; where no code begins another the code search
finds each code word as its own entry. -/

namespace Sys2Proof.Machine

/-! ## A table where no code begins another (R236, R238) -/

/-- Neither entry's code begins the other's. -/
def PrefixFree (e f : HufEntry) : Prop :=
  ¬bitsOf e.len e.code <+: bitsOf f.len f.code ∧ ¬bitsOf f.len f.code <+: bitsOf e.len e.code

/-- A table whose entries pass the checks of R236 and where no code begins another. -/
structure HufTable (entries : List HufEntry) : Prop where
  legal : ∀ e ∈ entries, 1 ≤ e.len ∧ e.len ≤ 16 ∧ e.code < 2 ^ e.len
  free : entries.Pairwise PrefixFree

/-- Of two codes in the table none begins the other but itself. -/
theorem HufTable.eq_of_prefix {entries : List HufEntry} (h : HufTable entries) {e f : HufEntry} (he : e ∈ entries)
    (hf : f ∈ entries) (hpre : bitsOf e.len e.code <+: bitsOf f.len f.code) : e = f := by
  by_contra hne
  have hsymm : Std.Symm PrefixFree := ⟨fun _ _ h => ⟨h.2, h.1⟩⟩
  exact (h.free.forall he hf hne).1 hpre

theorem hufLookup_eq_none {entries : List HufEntry} {l v : Nat} (h : ∀ e ∈ entries, ¬(e.len = l ∧ e.code = v)) :
    hufLookup entries l v = none := by
  induction entries with
  | nil => rfl
  | cons e es ih =>
    rw [hufLookup, if_neg (h e List.mem_cons_self)]
    exact ih fun e he => h e (List.mem_cons_of_mem _ he)

theorem HufTable.cons {e : HufEntry} {es : List HufEntry} (h : HufTable (e :: es)) : HufTable es where
  legal := fun f hf => h.legal f (List.mem_cons_of_mem _ hf)
  free := (List.pairwise_cons.mp h.free).2

/-- An entry is found by its length and code. -/
theorem HufTable.lookup {entries : List HufEntry} (h : HufTable entries) {e : HufEntry} (he : e ∈ entries) :
    hufLookup entries e.len e.code = some e.sym := by
  induction entries with
  | nil => cases he
  | cons f es ih =>
    rw [hufLookup]
    split
    · next hsame =>
      obtain ⟨hlen, hcode⟩ := hsame
      rw [h.eq_of_prefix List.mem_cons_self he (by rw [hlen, hcode])]
    · next hdiff =>
      obtain rfl | he := List.mem_cons.mp he
      · exact absurd ⟨rfl, rfl⟩ hdiff
      · exact ih h.cons he

/-- No shorter entry matches the front of a code (R238). -/
theorem HufTable.lookup_shorter {entries : List HufEntry} (h : HufTable entries) {e : HufEntry} (he : e ∈ entries)
    {l : Nat} (hl : l < e.len) : hufLookup entries l (e.code / 2 ^ (e.len - l)) = none := by
  refine hufLookup_eq_none fun f hf hmatch => ?_
  obtain ⟨rfl, hcode⟩ := hmatch
  have hsplit := bitsOf_add f.len (e.len - f.len) e.code
  rw [Nat.add_sub_cancel' hl.le, ← hcode] at hsplit
  exact hl.ne (congrArg HufEntry.len (h.eq_of_prefix hf he (hsplit ▸ List.prefix_append _ _)))

theorem pairwise_lensOf (entries : List HufEntry) : (lensOf entries).Pairwise (· < ·) :=
  List.Pairwise.filter _ List.pairwise_lt_range

theorem lensOf_le {entries : List HufEntry} {l : Nat} (h : l ∈ lensOf entries) : l ≤ 16 := by
  have := List.mem_range.mp (List.mem_filter.mp h).1; omega

theorem HufTable.mem_lensOf {entries : List HufEntry} (h : HufTable entries) {e : HufEntry} (he : e ∈ entries) :
    e.len ∈ lensOf entries := by
  obtain ⟨_, h16, _⟩ := h.legal e he
  exact List.mem_filter.mpr ⟨List.mem_range.mpr (by omega), List.any_eq_true.mpr ⟨e, he, decide_eq_true rfl⟩⟩

/-! ## An entry as the records carry it -/

/-- The length and code of a legal entry in the fields of `HEN` and `HCW` (R100, R101). -/
theorem HufTable.fields {entries : List HufEntry} (h : HufTable entries) {e : HufEntry} (he : e ∈ entries) :
    (BitVec.ofNat 8 e.len).toNat = e.len ∧ (BitVec.ofNat 5 e.len).toNat = e.len ∧
      (BitVec.ofNat 16 e.code).toNat = e.code := by
  obtain ⟨_, h16, hcode⟩ := h.legal e he
  have hpow : 2 ^ e.len ≤ 2 ^ 16 := Nat.pow_le_pow_right (by decide) h16
  simp only [BitVec.toNat_ofNat]
  omega

/-- The code word of an entry. -/
def wordOf (e : HufEntry) : Instr := .hcw (BitVec.ofNat 5 e.len) (BitVec.ofNat 16 e.code)

/-- The table record of an entry. -/
def entryRecord (e : HufEntry) : Instr := .hen e.sym (BitVec.ofNat 8 e.len) (BitVec.ofNat 16 e.code)

theorem HufTable.encode_wordOf {entries : List HufEntry} (h : HufTable entries) {e : HufEntry} (he : e ∈ entries) :
    encode (wordOf e) = bitsOf e.len e.code := by
  obtain ⟨_, h5, h16⟩ := h.fields he
  simp only [wordOf, encode, h5, h16]

theorem HufTable.wellFormed_wordOf {entries : List HufEntry} (h : HufTable entries) {e : HufEntry} (he : e ∈ entries) :
    (wordOf e).wellFormed = true := by
  obtain ⟨_, h5, h16⟩ := h.fields he
  obtain ⟨hlen1, hlen16, hcode⟩ := h.legal e he
  simp [wordOf, Instr.wellFormed, h5, h16, hlen1, hlen16, hcode]

/-- A code word of the table is read where the table and its lengths are the context (R238). -/
theorem HufTable.admits_wordOf {entries : List HufEntry} (h : HufTable entries) {e : HufEntry} (he : e ∈ entries) :
    (Ctx.hcw (lensOf entries) entries).admits (wordOf e) := by
  obtain ⟨_, h5, h16⟩ := h.fields he
  refine ⟨lensOf entries, entries, rfl, ?_⟩
  rw [h5, h16]
  exact ⟨h.mem_lensOf he, by rw [h.lookup he]; rfl, pairwise_lensOf _, fun l _ hl => h.lookup_shorter he hl⟩

/-! ## The code words (R238 to R241) -/

/-- RHUF behind its table. -/
structure HufDecoding (entries : List HufEntry) (s : State) (out : List Byte) (rest : List Bool) : Prop extends
    Decoding .hufCodes s out rest where
  dtab : s.dtab = entries
  lensOf : s.lens = lensOf entries

/-- A code word writes its symbol; the last of the image completes the command. -/
theorem HufDecoding.turn {entries : List HufEntry} {s : State} {out : List Byte} {e : HufEntry} {rest : List Bool}
    (ht : HufTable entries) (h : HufDecoding entries s out (bitsOf e.len e.code ++ rest)) (he : e ∈ entries)
    (hroom : s.wpos < s.total) :
    HufDecoding entries (State.put [e.sym] (skipBits e.len s)) (out ++ [e.sym]) rest ∧
      engineTurn s = if s.wpos + 1 < s.total then State.put [e.sym] (skipBits e.len s)
        else finishRestore (State.put [e.sym] (skipBits e.len s)) := by
  obtain ⟨_, h5, h16⟩ := ht.fields he
  have hword := ht.encode_wordOf he
  have hread : Decoding .hufCodes s out (encode (wordOf e) ++ rest) := by rw [hword]; exact h.toDecoding
  have hturn := hread.turn_reads (ht.wellFormed_wordOf he)
    (by rw [State.ctx, h.phase, h.lensOf, h.dtab]; exact ht.admits_wordOf he)
  refine ⟨⟨h.next h.phase h.lens (hp := by rw [length_bitsOf]; rfl), h.dtab, h.lensOf⟩, ?_⟩
  rw [hturn, hword, length_bitsOf]
  change (hcwRecord _ _ (skipBits e.len s)).settle = _
  rw [hcwRecord, skipBits_dir, h.dir]
  change (readHcw _ _ (skipBits e.len s)).settle = _
  have hlookup : hufLookup (skipBits e.len s).dtab (BitVec.ofNat 5 e.len).toNat (BitVec.ofNat 16 e.code).toNat =
      some e.sym := by rw [skipBits_dtab, h.dtab, h5, h16, ht.lookup he]
  simp only [readHcw, hlookup]
  rw [putByte_restored e.sym (s := skipBits e.len s) (hroom.trans_le h.room)]
  change Res.settle (if s.wpos + 1 < s.total then _ else _) = _
  split <;> rfl

/-- The code words of the image, one record each. -/
theorem restores_words {entries words : List HufEntry} {s : State} {out : List Byte} {rest : List Bool}
    (ht : HufTable entries)
    (h : HufDecoding entries s out (words.flatMap (fun e => bitsOf e.len e.code) ++ rest))
    (hwords : ∀ e ∈ words, e ∈ entries) (hne : words ≠ []) (hend : out.length + words.length = s.total) :
    ∃ u, Restores s u (out ++ words.map (fun e => e.sym)) (words.map (fun e => e.len)).sum ∧ u.dn = s.dn := by
  induction words generalizing s out with
  | nil => exact absurd rfl hne
  | cons e words ih =>
    obtain ⟨he, hwords⟩ := List.forall_mem_cons.mp hwords
    rw [List.length_cons] at hend
    rw [List.flatMap_cons, List.append_assoc] at h
    obtain ⟨hnext, hturn⟩ := h.turn ht he (by rw [h.holds.wpos]; omega)
    rw [h.holds.wpos] at hturn
    rw [List.map_cons, List.map_cons, List.append_cons, List.sum_cons]
    by_cases hlast : words = []
    · subst hlast
      rw [if_neg (by simp only [List.length_nil] at hend; omega)] at hturn
      rw [List.map_nil, List.map_nil, List.append_nil]
      exact ⟨_, restores_last h.busy hturn hnext.holds {}, rfl⟩
    · have hpos := List.length_pos_iff.mpr hlast
      rw [if_pos (by omega)] at hturn
      obtain ⟨u, hu, hdn⟩ := ih hnext hwords hlast
        (by rw [List.length_append, List.length_singleton, Nat.add_assoc, Nat.add_comm 1]; exact hend.trans total_congr)
      exact ⟨u, hu.turn h.busy hturn {}, hdn⟩

/-! ## The table (R235 to R237) -/

/-- RHUF with the entries `done` collected, of a table of `k`. -/
structure HufCollecting (done : List HufEntry) (k : Nat) (s : State) (rest : List Bool) : Prop extends
    Decoding .hufTable s [] rest where
  dtab : s.dtab = done
  dn : s.dn = k

theorem length_entryRecord (e : HufEntry) : (encode (entryRecord e)).length = 32 := by
  simp only [entryRecord, encode, List.length_append, length_bitsOf]

/-- The state after a table entry. -/
def State.collected (e : HufEntry) (s : State) : State := { skipBits 32 s with dtab := s.dtab ++ [e] }

/-- The state after the last table entry. -/
def State.tabled (e : HufEntry) (s : State) : State :=
  { s.collected e with lens := lensOf (s.dtab ++ [e]), dec := .hufCodes }

/-- An entry passes the checks of R236 and is collected; the last one makes the table known. -/
theorem HufCollecting.turn {done todo : List HufEntry} {e : HufEntry} {k : Nat} {s : State} {rest : List Bool}
    (ht : HufTable (done ++ e :: todo)) (h : HufCollecting done k s (encode (entryRecord e) ++ rest)) :
    engineTurn s = if done.length + 1 < k then s.collected e else s.tabled e := by
  obtain rfl := h.dtab
  obtain rfl := h.dn
  have he : e ∈ s.dtab ++ e :: todo := by simp
  obtain ⟨h8, _, h16⟩ := ht.fields he
  obtain ⟨hlen1, hlen16, hcode⟩ := ht.legal e he
  have hturn := h.turn_reads (i := entryRecord e) rfl (by rw [State.ctx, h.phase]; rfl)
  have hlookup : hufLookup s.dtab e.len e.code = none := by
    refine hufLookup_eq_none fun f hf hsame => ?_
    obtain ⟨hl, hc⟩ := hsame
    have hfree := (List.pairwise_append.mp ht.free).2.2 f hf e List.mem_cons_self
    exact hfree.1 (by rw [hl, hc])
  rw [hturn, length_entryRecord]
  change (henRecord _ _ _ (skipBits 32 s)).settle = _
  rw [henRecord, skipBits_dir, h.dir]
  change (readHen _ _ _ (skipBits 32 s)).settle = _
  rw [readHen, h8, h16, skipBits_dtab, hlookup, if_neg (by omega), if_neg (by omega), Option.isSome_none,
    if_neg Bool.false_ne_true]
  rw [← List.length_singleton (a := e), ← List.length_append]
  change Res.settle (if (s.dtab ++ [e]).length < s.dn then _ else _) = _
  split <;> rfl

/-- The rest of the table, then the code words. -/
theorem restores_table {done todo words : List HufEntry} {s : State} {rest : List Bool}
    (ht : HufTable (done ++ todo))
    (h : HufCollecting done (done ++ todo).length s
      (todo.flatMap (fun e => encode (entryRecord e)) ++ (words.flatMap (fun e => bitsOf e.len e.code) ++ rest)))
    (htodo : todo ≠ []) (hwords : ∀ e ∈ words, e ∈ done ++ todo) (hne : words ≠ []) (hend : words.length = s.total) :
    ∃ u, Restores s u (words.map (fun e => e.sym)) (32 * todo.length + (words.map (fun e => e.len)).sum) ∧
      u.dn = (done ++ todo).length := by
  induction todo generalizing done s with
  | nil => exact absurd rfl htodo
  | cons e todo ih =>
    have hsplit : done ++ e :: todo = done ++ [e] ++ todo := List.append_cons _ _ _
    rw [List.flatMap_cons, List.append_assoc] at h
    have hturn := h.turn ht
    have hused : 32 * (e :: todo).length + (words.map (fun e => e.len)).sum =
        32 + (32 * todo.length + (words.map (fun e => e.len)).sum) := by rw [List.length_cons]; omega
    rw [hused]
    by_cases hlast : todo = []
    · subst hlast
      rw [if_neg (by simp)] at hturn
      have hnext : HufDecoding (done ++ [e]) (s.tabled e) [] (words.flatMap (fun e => bitsOf e.len e.code) ++ rest) :=
        ⟨h.next (bytes := []) rfl (fun l hl => lensOf_le hl) (hp := by rw [length_entryRecord]; rfl),
          congrArg (· ++ [e]) h.dtab, congrArg (fun d => lensOf (d ++ [e])) h.dtab⟩
      obtain ⟨u, hu, hdn⟩ := restores_words ht hnext hwords hne ((Nat.zero_add _).trans (hend.trans total_congr))
      rw [List.length_nil, Nat.mul_zero, Nat.zero_add]
      exact ⟨u, hu.turn h.busy hturn {}, hdn.trans h.dn⟩
    · have hpos := List.length_pos_iff.mpr hlast
      rw [if_pos (by simp; omega)] at hturn
      rw [hsplit] at ht hwords ⊢
      have hnext : HufCollecting (done ++ [e]) (done ++ [e] ++ todo).length (s.collected e)
          (todo.flatMap (fun e => encode (entryRecord e)) ++ (words.flatMap (fun e => bitsOf e.len e.code) ++ rest)) :=
        ⟨h.next (bytes := []) h.phase h.lens (hp := by rw [length_entryRecord]; rfl), congrArg (· ++ [e]) h.dtab,
          by rw [← hsplit]; exact h.dn⟩
      obtain ⟨u, hu, hdn⟩ := ih ht hnext hlast hwords (hend.trans total_congr)
      exact ⟨u, hu.turn h.busy hturn {}, hdn⟩

/-- Settles O17: the table size, the entries, the code words. -/
theorem rhufProducesTheSymbolsOfTheCodeWords : Obligations.RhufProducesTheSymbolsOfTheCodeWords := by
  intro s width height entries words rest hr hwf h1 h256 hlegal hfree hwords hlen hin
  rw [List.append_assoc, List.append_assoc] at hin
  have ht : HufTable entries := ⟨hlegal, hfree⟩
  have hsize : (BitVec.ofNat 8 (entries.length - 1)).toNat + 1 = entries.length := by
    rw [BitVec.toNat_ofNat]; omega
  have hwords0 : words ≠ [] := List.ne_nil_of_length_pos (by have := hin.2.2.1; omega)
  obtain ⟨u, hexec, hdone, hwidth, hheight, halg, hdir, hdn⟩ := exec_of_restores (alg := .huf)
    (bytes := words.map (fun e => e.sym)) (used := 8 + (32 * entries.length + (words.map (fun e => e.len)).sum))
    (P := fun u => u.dn = entries.length) hr nofun hin fun w _ => by
      have h0 : Decoding .hufSize { headed .huf w width height s with dec := .hufSize } []
          (encode (.hsz (BitVec.ofNat 8 (entries.length - 1))) ++ (entries.flatMap (fun e => encode (entryRecord e)) ++
            (words.flatMap (fun e => bitsOf e.len e.code) ++ rest))) := by
        have h := (decoding_headed (alg := .huf) (w := w) hwf hin).next (front := []) (bytes := [])
          (t := { headed .huf w width height s with dec := .hufSize }) rfl nofun
        exact h
      have hturn := h0.turn_reads rfl rfl
      have hnext : HufCollecting [] entries.length _ _ :=
        ⟨h0.next (t := { skipBits 8 { headed .huf w width height s with dec := .hufSize } with
            dn := (BitVec.ofNat 8 (entries.length - 1)).toNat + 1, dtab := [], dec := .hufTable }) (bytes := [])
          rfl nofun, rfl, hsize⟩
      obtain ⟨u, hu, hdn⟩ := restores_table (done := []) ht hnext (List.ne_nil_of_length_pos h1) hwords hwords0 hlen
      exact ⟨_, u, beginDecode_huf rfl, {}, hu.turn h0.busy hturn {}, hdn⟩
  refine ⟨_, hexec, ?_, hwidth, hheight, ?_, ?_⟩
  · rw [← Nat.add_assoc, ← Nat.add_assoc] at hdone; exact hdone
  · change u.finalStatTable.toNat = _
    rw [State.finalStatTable, halg, hdir]
    change (BitVec.ofNat 21 u.dn).toNat = _
    rw [hdn, BitVec.toNat_ofNat]; omega
  · change u.finalStatClears = _
    rw [State.finalStatClears, halg]

end Sys2Proof.Machine
end

section
/-! Huffman trees as trees (R221 to R228): the bytes at their leaves, their paths as codes, and the trees the merge loop
leaves. -/

namespace Sys2Proof.Machine

/-! ## Bit strings as numbers (R227) -/

theorem bitsVal_concat (bits : List Bool) (b : Bool) : bitsVal (bits ++ [b]) = bitsVal bits * 2 + b.toNat := by
  rw [bitsVal, List.foldl_append, Nat.mul_comm]; rfl

theorem bitsVal_cons (b : Bool) (bits : List Bool) :
    bitsVal (b :: bits) = b.toNat * 2 ^ bits.length + bitsVal bits := by
  induction bits using List.reverseRecOn with
  | nil => cases b <;> rfl
  | append_singleton bits x ih =>
    rw [← List.cons_append, bitsVal_concat, bitsVal_concat, ih, List.length_append, List.length_singleton, Nat.pow_succ]
    ring

/-- The bits of the number a bit string is are the string. -/
theorem bitsOf_bitsVal (bits : List Bool) : bitsOf bits.length (bitsVal bits) = bits := by
  induction bits using List.reverseRecOn with
  | nil => rfl
  | append_singleton bits x ih => rw [List.length_append, List.length_singleton, bitsVal_concat, bitsOf_snoc, ih]

theorem bitsVal_lt (bits : List Bool) : bitsVal bits < 2 ^ bits.length := by
  induction bits using List.reverseRecOn with
  | nil => exact Nat.one_pos
  | append_singleton bits x ih =>
    have := x.toNat_le
    rw [List.length_append, List.length_singleton, bitsVal_concat, Nat.pow_succ]; omega

/-! ## The paths of a tree (R226, R233) -/

/-- The bytes at the leaves. -/
def HufTree.syms (t : HufTree) : List Byte := t.paths.map Prod.fst

theorem HufTree.syms_leaf (f : Nat) (b : Byte) : (HufTree.leaf f b).syms = [b] := rfl

theorem HufTree.syms_node (f : Nat) (l r : HufTree) : (HufTree.node f l r).syms = l.syms ++ r.syms := by
  simp only [HufTree.syms, HufTree.paths, List.map_append, List.map_map]; rfl

theorem HufTree.syms_ne_nil (t : HufTree) : t.syms ≠ [] := by
  induction t with
  | leaf f b => exact List.cons_ne_nil _ _
  | node f l r ihl _ => rw [syms_node]; exact List.append_ne_nil_of_left_ne_nil ihl _

/-- Neither path begins the other. -/
def Apart (p q : Byte × List Bool) : Prop := ¬p.2 <+: q.2 ∧ ¬q.2 <+: p.2

theorem Apart.cons {p q : Byte × List Bool} (h : Apart p q) (b : Bool) : Apart (p.1, b :: p.2) (q.1, b :: q.2) :=
  ⟨fun hpre => h.1 (List.cons_prefix_cons.mp hpre).2, fun hpre => h.2 (List.cons_prefix_cons.mp hpre).2⟩

/-- No path of a tree begins another (R233). -/
theorem HufTree.apart_paths (t : HufTree) : t.paths.Pairwise Apart := by
  induction t with
  | leaf f b => exact List.pairwise_singleton _ _
  | node f l r ihl ihr =>
    rw [HufTree.paths, List.pairwise_append]
    refine ⟨List.pairwise_map.mpr (ihl.imp (·.cons false)), List.pairwise_map.mpr (ihr.imp (·.cons true)), ?_⟩
    intro p hp q hq
    obtain ⟨p, _, rfl⟩ := List.mem_map.mp hp
    obtain ⟨q, _, rfl⟩ := List.mem_map.mp hq
    exact ⟨fun h => Bool.false_ne_true (List.cons_prefix_cons.mp h).1,
      fun h => Bool.false_ne_true (List.cons_prefix_cons.mp h).1.symm⟩

/-- Below a branch every path has an edge. -/
theorem HufTree.path_ne_nil {f : Nat} {l r : HufTree} {p : Byte × List Bool} (h : p ∈ (HufTree.node f l r).paths) :
    p.2 ≠ [] := by
  rw [HufTree.paths, List.mem_append, List.mem_map, List.mem_map] at h
  obtain ⟨q, _, rfl⟩ | ⟨q, _, rfl⟩ := h <;> exact List.cons_ne_nil _ _

/-! ## The merge loop (R223, R224) -/

/-- The bytes at the leaves of a forest. -/
def forestSyms (forest : List HufTree) : List Byte := forest.flatMap HufTree.syms

theorem lightest_mem (t : HufTree) (us : List HufTree) : lightest t us ∈ t :: us := by
  induction us generalizing t with
  | nil => exact List.mem_cons_self
  | cons u us ih =>
    rw [lightest]
    split
    · exact List.mem_cons_of_mem _ (ih u)
    · obtain h | h := List.mem_cons.mp (ih t)
      · rw [h]; exact List.mem_cons_self
      · exact List.mem_cons_of_mem _ (List.mem_cons_of_mem _ h)

/-- One merge: the two trees extracted, and what is left (R223). -/
theorem mergeForest_step (fuel : Nat) (t u : HufTree) (us : List HufTree) :
    ∃ x y rest, (t :: u :: us).Perm (x :: y :: rest) ∧
      mergeForest (fuel + 1) (t :: u :: us) = mergeForest fuel (rest ++ [.node (x.weight + y.weight) x y]) := by
  have hx := List.perm_cons_erase (lightest_mem t (u :: us))
  rw [mergeForest]
  dsimp only
  split
  · next hnil =>
    have := hx.length_eq
    rw [hnil] at this
    simp at this
  · next v vs hvs =>
    rw [hvs] at hx
    exact ⟨_, lightest v vs, _, hx.trans ((List.perm_cons_erase (lightest_mem v vs)).cons _), rfl⟩

/-- Merging keeps the leaves, and leaves one tree. -/
theorem mergeForest_spec {fuel : Nat} {forest : List HufTree} (hne : forest ≠ []) (hfuel : forest.length ≤ fuel + 1) :
    ∃ tree, mergeForest fuel forest = [tree] ∧ tree.syms.Perm (forestSyms forest) := by
  have single (t : HufTree) : t.syms.Perm (forestSyms [t]) := by rw [forestSyms, List.flatMap_singleton]
  induction fuel generalizing forest with
  | zero =>
    obtain ⟨t, rfl⟩ := List.length_eq_one_iff.mp (by have := List.length_pos_iff.mpr hne; omega : forest.length = 1)
    exact ⟨t, rfl, single t⟩
  | succ fuel ih =>
    match forest, hne with
    | [t], _ => exact ⟨t, rfl, single t⟩
    | t :: u :: us, _ =>
      obtain ⟨x, y, rest, hperm, hstep⟩ := mergeForest_step fuel t u us
      have hlen := hperm.length_eq
      simp only [List.length_cons] at hlen hfuel
      obtain ⟨tree, htree, hsyms⟩ := ih (forest := rest ++ [.node (x.weight + y.weight) x y]) (by simp)
        (by rw [List.length_append, List.length_singleton]; omega)
      refine ⟨tree, hstep.trans htree, hsyms.trans (.trans ?_ (hperm.flatMap_right _).symm)⟩
      rw [forestSyms, List.flatMap_append, List.flatMap_singleton, HufTree.syms_node, List.flatMap_cons,
        List.flatMap_cons, ← List.append_assoc x.syms]
      exact List.perm_append_comm

/-! ## The byte values that occur (R222) -/

theorem mem_occurring {bytes : List Byte} {b : Byte} : b ∈ occurring bytes ↔ b ∈ bytes := by
  rw [occurring, List.mem_filter, List.mem_map, decide_eq_true_eq, List.count_pos_iff]
  refine ⟨And.right, fun h => ⟨⟨b.toNat, List.mem_range.mpr b.isLt, ?_⟩, h⟩⟩
  rw [BitVec.ofNat_toNat, BitVec.setWidth_eq]

theorem nodup_occurring (bytes : List Byte) : (occurring bytes).Nodup := by
  refine List.Nodup.filter _ (List.Nodup.map_on ?_ List.nodup_range)
  intro a ha b hb hab
  have h := congrArg BitVec.toNat hab
  rwa [BitVec.toNat_ofNat, BitVec.toNat_ofNat, Nat.mod_eq_of_lt (List.mem_range.mp ha),
    Nat.mod_eq_of_lt (List.mem_range.mp hb)] at h

theorem length_occurring_le (bytes : List Byte) : (occurring bytes).length ≤ bytes.length :=
  (List.subperm_of_subset (nodup_occurring bytes) fun _ => mem_occurring.mp).length_le

theorem length_occurring_le_256 (bytes : List Byte) : (occurring bytes).length ≤ 256 := by
  refine (List.length_filter_le _ _).trans ?_
  rw [List.length_map, List.length_range]

/-- The leaf of a byte value. -/
def leafOf (bytes : List Byte) (b : Byte) : HufTree := .leaf (bytes.count b) b

theorem hufForest_eq (bytes : List Byte) : hufForest bytes = (occurring bytes).map (leafOf bytes) := by
  rw [hufForest, occurring, List.filter_map, List.map_map, ← List.filterMap_eq_map, List.filterMap_filter]
  congr 1
  funext b
  simp only [Function.comp_apply, decide_eq_true_eq]
  rfl

theorem forestSyms_hufForest (bytes : List Byte) : forestSyms (hufForest bytes) = occurring bytes := by
  rw [hufForest_eq, forestSyms, List.flatMap_map]
  exact List.flatMap_singleton' _

/-! ## The codes of an input -/

/-- One byte value has the one-bit code; more have the paths of the merged tree (R225, R226). -/
inductive HufCodes (bytes : List Byte) : Prop where
  | single (b : Byte) (h : occurring bytes = [b]) (hp : hufPaths bytes = [(b, [false])])
  | tree (f : Nat) (l r : HufTree) (h2 : 2 ≤ (occurring bytes).length)
    (h : mergeForest bytes.length (hufForest bytes) = [.node f l r]) (hp : hufPaths bytes = (HufTree.node f l r).paths)
    (hs : (HufTree.node f l r).syms.Perm (occurring bytes))

theorem hufCodes_of_ne_nil {bytes : List Byte} (hne : bytes ≠ []) : HufCodes bytes := by
  obtain ⟨b0, hb0⟩ := List.exists_mem_of_ne_nil _ hne
  have hocc : occurring bytes ≠ [] := List.ne_nil_of_mem (mem_occurring.mpr hb0)
  obtain ⟨tree, htree, hsyms⟩ := mergeForest_spec (fuel := bytes.length) (forest := hufForest bytes)
    (by rw [hufForest_eq]; simpa using hocc)
    (by rw [hufForest_eq, List.length_map]; exact (length_occurring_le bytes).trans (Nat.le_succ _))
  rw [forestSyms_hufForest] at hsyms
  cases tree with
  | leaf f b =>
    rw [HufTree.syms_leaf] at hsyms
    exact .single b (List.singleton_perm.mp hsyms).symm (by rw [hufPaths, htree])
  | node f l r =>
    refine .tree f l r ?_ htree (by rw [hufPaths, htree]) hsyms
    have hl := List.length_pos_iff.mpr l.syms_ne_nil
    have hr := List.length_pos_iff.mpr r.syms_ne_nil
    rw [← hsyms.length_eq, HufTree.syms_node, List.length_append]; omega

/-- There is one code for each byte value that occurs (R233). -/
theorem hufPaths_syms {bytes : List Byte} (hne : bytes ≠ []) :
    ((hufPaths bytes).map Prod.fst).Perm (occurring bytes) := by
  cases hufCodes_of_ne_nil hne with
  | single b h hp => rw [hp, h]; exact .refl _
  | tree f l r _ _ hp hs => rw [hp]; exact hs

theorem hufPaths_apart {bytes : List Byte} (hne : bytes ≠ []) : (hufPaths bytes).Pairwise Apart := by
  cases hufCodes_of_ne_nil hne with
  | single b h hp => rw [hp]; exact List.pairwise_singleton _ _
  | tree f l r _ _ hp _ => rw [hp]; exact HufTree.apart_paths _

theorem hufPaths_ne_nil {bytes : List Byte} (hne : bytes ≠ []) {p : Byte × List Bool} (h : p ∈ hufPaths bytes) :
    p.2 ≠ [] := by
  cases hufCodes_of_ne_nil hne with
  | single b _ hp =>
    rw [hp, List.mem_singleton] at h
    rw [h]; exact List.cons_ne_nil _ _
  | tree f l r _ _ hp _ => rw [hp] at h; exact HufTree.path_ne_nil h

/-- The code of a byte of the input is among the codes. -/
theorem pathOf_mem {bytes : List Byte} {b : Byte} (h : b ∈ bytes) :
    (b, pathOf (hufPaths bytes) b) ∈ hufPaths bytes := by
  have hsyms := hufPaths_syms (List.ne_nil_of_mem h)
  obtain ⟨p, hp, rfl⟩ := List.mem_map.mp (hsyms.mem_iff.mpr (mem_occurring.mpr h))
  rw [pathOf]
  split
  · next q hq =>
    have hfst : q.1 = p.1 := by simpa using List.find?_some hq
    rw [← hfst]
    exact List.mem_of_find?_eq_some hq
  · next hnone => exact absurd (beq_self_eq_true p.1) (by simpa using List.find?_eq_none.mp hnone p hp)

end Sys2Proof.Machine
end

section
/-! The tree builder of CHUF (R221 to R228): node table and queue stand for a forest of trees, merge by merge. -/

namespace Sys2Proof.Machine

/-! ## The frequency pass and the leaves (R221, R222) -/

/-- A list is the values at its indices. -/
theorem map_getD_range (l : List Nat) : (List.range l.length).map (fun k => l.getD k 0) = l := by
  refine List.ext_getElem (by rw [List.length_map, List.length_range]) fun k h _ => ?_
  rw [List.getElem_map, List.getElem_range, List.getD_eq_getElem]

theorem getD_set {α : Type} (l : List α) (a x : α) {i j : Nat} (hi : i < l.length) :
    (l.set i a).getD j x = if i = j then a else l.getD j x := by
  rw [List.getD_eq_getElem?_getD, List.getD_eq_getElem?_getD, List.getElem?_set, if_pos hi]
  split <;> rfl

theorem freqCount_spec {freq : List Nat} {bytes : List Byte} (h : freq.length = 256) :
    (freqCount freq bytes).length = 256 ∧
      ∀ b : Byte, (freqCount freq bytes).getD b.toNat 0 = freq.getD b.toNat 0 + bytes.count b := by
  induction bytes generalizing freq with
  | nil => exact ⟨h, fun b => by rw [List.count_nil]; rfl⟩
  | cons x bytes ih =>
    have hx : x.toNat < freq.length := by rw [h]; exact x.isLt
    obtain ⟨hlen, hcount⟩ := ih (freq := freqBump freq x) (by rw [freqBump, List.length_set, h])
    refine ⟨hlen, fun b => ?_⟩
    change (freqCount (freqBump freq x) bytes).getD b.toNat 0 = _
    rw [hcount, freqBump, getD_set _ _ _ hx, List.count_cons]
    by_cases hxb : x = b
    · subst hxb; simp; omega
    · rw [if_neg (fun h => hxb (BitVec.eq_of_toNat_eq h)), if_neg (by simpa using hxb)]; rfl

/-- The table the frequency pass leaves. -/
theorem inputFreq_eq {s : State} {bytes : List Byte} (hbytes : s.ibufBytes 0 s.total = bytes)
    (hfreq : s.freq = List.replicate 256 0) :
    s.inputFreq = (List.range 256).map (fun k => bytes.count (BitVec.ofNat 8 k)) := by
  obtain ⟨hlen, hcount⟩ := freqCount_spec (freq := s.freq) (bytes := bytes) (by rw [hfreq, List.length_replicate])
  rw [State.inputFreq, hbytes, ← map_getD_range (freqCount s.freq bytes), hlen]
  refine List.map_congr_left fun k hk => ?_
  have hk : k < 256 := List.mem_range.mp hk
  have h := hcount (BitVec.ofNat 8 k)
  have h0 : s.freq.getD k 0 = 0 := by rw [hfreq, List.getD_replicate _ hk]
  rwa [BitVec.toNat_ofNat, Nat.mod_eq_of_lt hk, h0, Nat.zero_add] at h

/-- The leaves of a table of frequencies. -/
theorem hufLeaves_map (f : Nat → Nat) (b n : Nat) : hufLeaves b ((List.range' b n).map f) =
    ((List.range' b n).filter (fun k => decide (0 < f k))).map (fun k => .leaf (f k) (BitVec.ofNat 8 k)) := by
  induction n generalizing b with
  | zero => rfl
  | succ n ih =>
    rw [List.range'_succ, List.map_cons, hufLeaves, ih, List.filter_cons]
    by_cases h : 0 < f b
    · rw [if_pos h, if_pos (decide_eq_true h)]; rfl
    · rw [if_neg h, if_neg (by simpa using h)]

/-- The leaf node of a byte value. -/
def leafNode (bytes : List Byte) (b : Byte) : HufNode := .leaf (bytes.count b) b

/-- There is one leaf per byte value that occurs, in ascending order (R222). -/
theorem hufLeaves_inputFreq {s : State} {bytes : List Byte} (hbytes : s.ibufBytes 0 s.total = bytes)
    (hfreq : s.freq = List.replicate 256 0) : hufLeaves 0 s.inputFreq = (occurring bytes).map (leafNode bytes) := by
  rw [inputFreq_eq hbytes hfreq, List.range_eq_range', hufLeaves_map, occurring, List.filter_map, List.map_map,
    List.range_eq_range']
  rfl

/-! ## Nodes as trees (R46) -/

/-- Node `j` is the root of a tree; children are older than their parent (R225). -/
inductive NodeTree (nodes : List HufNode) : Nat → HufTree → Prop where
  | leaf {j f : Nat} {b : Byte} (h : nodes[j]? = some (.leaf f b)) : NodeTree nodes j (.leaf f b)
  | node {j f l r : Nat} {left right : HufTree} (h : nodes[j]? = some (.node f l r)) (hl : l < j) (hr : r < j)
    (htl : NodeTree nodes l left) (htr : NodeTree nodes r right) : NodeTree nodes j (.node f left right)

theorem NodeTree.lt_length {nodes : List HufNode} {j : Nat} {t : HufTree} (h : NodeTree nodes j t) :
    j < nodes.length := by
  cases h with
  | leaf h | node h => exact (List.getElem?_eq_some_iff.mp h).1

theorem NodeTree.nodeFreq {nodes : List HufNode} {j : Nat} {t : HufTree} (h : NodeTree nodes j t) :
    nodeFreq nodes j = t.weight := by
  cases h with
  | leaf h | node h => simp only [Machine.nodeFreq, h, HufTree.weight]

/-- New nodes leave the old trees. -/
theorem NodeTree.append {nodes : List HufNode} {j : Nat} {t : HufTree} (h : NodeTree nodes j t) (more : List HufNode) :
    NodeTree (nodes ++ more) j t := by
  have keep {j : Nat} {n : HufNode} (h : nodes[j]? = some n) : (nodes ++ more)[j]? = some n := by
    rw [List.getElem?_append_left (List.getElem?_eq_some_iff.mp h).1, h]
  induction h with
  | leaf h => exact .leaf (keep h)
  | node h hl hr _ _ ihl ihr => exact .node (keep h) hl hr ihl ihr

/-- The queue with the tree of each of its nodes, in order of creation (R45). -/
structure Forest (nodes : List HufNode) (items : List (Nat × HufTree)) : Prop where
  tree : ∀ p ∈ items, NodeTree nodes p.1 p.2
  ascending : items.Pairwise (fun p q => p.1 < q.1)

theorem Forest.sublist {nodes : List HufNode} {items items' : List (Nat × HufTree)} (h : Forest nodes items)
    (hsub : items'.Sublist items) : Forest nodes items' :=
  ⟨fun p hp => h.tree p (hsub.mem hp), h.ascending.sublist hsub⟩

/-- With the queue in order of creation a later node is extracted first only if it is lighter (R224). -/
theorem hufBefore_of_lt {nodes : List HufNode} {a b : Nat} (h : a < b) :
    hufBefore nodes b a = decide (nodeFreq nodes b < nodeFreq nodes a) := by
  have hnot : Config.hufTiebreak b a = false := decide_eq_false (by omega)
  rw [hufBefore, hnot, Bool.and_false, Bool.or_false]

/-- The node the engine extracts is the first of the lightest trees (R224). -/
theorem Forest.hufMin {nodes : List HufNode} {p : Nat × HufTree} {items : List (Nat × HufTree)}
    (h : Forest nodes (p :: items)) : ∃ front x back, p :: items = front ++ x :: back ∧
      hufMin nodes p.1 (items.map Prod.fst) = x.1 ∧ lightest p.2 (items.map Prod.snd) = x.2 ∧
      (∀ y ∈ front, x.2.weight < y.2.weight) ∧ x.2.weight ≤ p.2.weight := by
  induction items generalizing p with
  | nil => exact ⟨[], p, [], rfl, rfl, rfl, nofun, Nat.le_refl _⟩
  | cons u us ih =>
    obtain ⟨hp, hus⟩ := List.pairwise_cons.mp h.ascending
    have hbefore : hufBefore nodes u.1 p.1 = decide (u.2.weight < p.2.weight) := by
      rw [hufBefore_of_lt (hp u List.mem_cons_self), (h.tree u (by simp)).nodeFreq, (h.tree p (by simp)).nodeFreq]
    rw [List.map_cons, List.map_cons, Machine.hufMin, lightest, hbefore]
    by_cases hlt : u.2.weight < p.2.weight
    · obtain ⟨front, x, back, hsplit, hmin, hlight, hfront, hle⟩ := ih (h.sublist (List.sublist_cons_self _ _))
      rw [if_pos (decide_eq_true hlt), if_pos hlt]
      refine ⟨p :: front, x, back, by rw [hsplit]; rfl, hmin, hlight, ?_, by omega⟩
      rw [List.forall_mem_cons]
      exact ⟨by omega, hfront⟩
    · obtain ⟨front, x, back, hsplit, hmin, hlight, hfront, hle⟩ :=
        ih (p := p) (h.sublist ((List.sublist_cons_self _ _).cons_cons _))
      rw [if_neg (by simpa using hlt), if_neg hlt]
      cases front with
      | nil =>
        obtain ⟨rfl, rfl⟩ := List.cons.inj hsplit
        exact ⟨[], p, u :: us, rfl, hmin, hlight, nofun, hle⟩
      | cons p' front =>
        obtain ⟨rfl, rfl⟩ := List.cons.inj hsplit
        obtain ⟨hp', hfront⟩ := List.forall_mem_cons.mp hfront
        refine ⟨p :: u :: front, x, back, rfl, hmin, hlight, ?_, hle⟩
        rw [List.forall_mem_cons, List.forall_mem_cons]
        exact ⟨hp', by omega, hfront⟩

/-- One extraction, from the queue and from the forest. -/
theorem Forest.extract {nodes : List HufNode} {p : Nat × HufTree} {items : List (Nat × HufTree)}
    (h : Forest nodes (p :: items)) : ∃ (x : Nat × HufTree) (rest : List (Nat × HufTree)),
      extractMin nodes ((p :: items).map Prod.fst) = some (x.1, rest.map Prod.fst) ∧
      lightest p.2 (items.map Prod.snd) = x.2 ∧ ((p :: items).map Prod.snd).erase x.2 = rest.map Prod.snd ∧
      NodeTree nodes x.1 x.2 ∧ Forest nodes rest ∧ rest.length = items.length := by
  obtain ⟨front, x, back, hsplit, hmin, hlight, hfront, _⟩ := h.hufMin
  have hsub : (front ++ back).Sublist (p :: items) := by
    rw [hsplit]; exact (List.sublist_cons_self _ _).append_left _
  refine ⟨x, front ++ back, ?_, hlight, ?_, h.tree x (by rw [hsplit]; simp), h.sublist hsub, ?_⟩
  · have hnot : x.1 ∉ front.map Prod.fst := by
      intro hmem
      obtain ⟨y, hy, hxy⟩ := List.mem_map.mp hmem
      have hasc := h.ascending
      rw [hsplit, List.pairwise_append] at hasc
      exact (hasc.2.2 y hy x List.mem_cons_self).ne hxy
    rw [List.map_cons, extractMin, hmin, ← List.map_cons (f := Prod.fst), hsplit, List.map_append, List.map_cons,
      List.erase_append_right _ hnot, List.erase_cons_head, List.map_append]
  · have hnot : x.2 ∉ front.map Prod.snd := by
      intro hmem
      obtain ⟨y, hy, hxy⟩ := List.mem_map.mp hmem
      exact (hfront y hy).ne (by rw [hxy])
    rw [hsplit, List.map_append, List.map_cons, List.erase_append_right _ hnot, List.erase_cons_head, List.map_append]
  · have hlen := congrArg List.length hsplit
    simp only [List.length_append, List.length_cons] at hlen ⊢; omega

/-- The new node joins the queue at its end, with the merged tree (R223). -/
theorem Forest.merge {nodes : List HufNode} {items : List (Nat × HufTree)} {x y : Nat × HufTree}
    (h : Forest nodes items) (hx : NodeTree nodes x.1 x.2) (hy : NodeTree nodes y.1 y.2) :
    Forest (nodes ++ [.node (x.2.weight + y.2.weight) x.1 y.1])
      (items ++ [(nodes.length, .node (x.2.weight + y.2.weight) x.2 y.2)]) := by
  refine ⟨fun z hz => ?_, ?_⟩
  · obtain hz | hz := List.mem_append.mp hz
    · exact (h.tree z hz).append _
    · rw [List.mem_singleton.mp hz]
      exact .node List.getElem?_concat_length hx.lt_length hy.lt_length (hx.append _) (hy.append _)
  · rw [List.pairwise_append]
    refine ⟨h.ascending, List.pairwise_singleton _ _, fun z hz z' hz' => ?_⟩
    rw [List.mem_singleton.mp hz']
    exact (h.tree z hz).lt_length

/-- The engine's merge loop leaves the tree that merging the forest leaves (R223). -/
theorem hufMerge_forest {nodes : List HufNode} {items : List (Nat × HufTree)} {fuel fuel' : Nat}
    (h : Forest nodes items) (hne : items ≠ []) (hfuel : items.length ≤ fuel + 1) (hfuel' : items.length ≤ fuel' + 1) :
    ∃ nodes' root tree, hufMerge fuel nodes (items.map Prod.fst) = (nodes', [root]) ∧
      mergeForest fuel' (items.map Prod.snd) = [tree] ∧ NodeTree nodes' root tree := by
  induction fuel generalizing nodes items fuel' with
  | zero =>
    obtain ⟨p, rfl⟩ := List.length_eq_one_iff.mp (by have := List.length_pos_iff.mpr hne; omega : items.length = 1)
    exact ⟨nodes, p.1, p.2, rfl, by cases fuel' <;> rfl, h.tree p List.mem_cons_self⟩
  | succ fuel ih =>
    match items, hne with
    | [p], _ =>
      refine ⟨nodes, p.1, p.2, ?_, by cases fuel' <;> rfl, h.tree p List.mem_cons_self⟩
      simp [hufMerge, extractMin, hufMin]
    | p :: q :: items, _ =>
      obtain ⟨x, rest, hx, hlight, herase, hxtree, hrest, hlen⟩ := h.extract
      obtain ⟨v, vs, rfl⟩ := List.exists_cons_of_length_eq_add_one hlen
      obtain ⟨y, rest', hy, hlight', herase', hytree, hrest', hlen'⟩ := hrest.extract
      simp only [List.length_cons] at hfuel hfuel' hlen
      obtain ⟨fuel', rfl⟩ : ∃ k, fuel' = k + 1 := ⟨fuel' - 1, by omega⟩
      obtain ⟨nodes', root, tree, hmerge, hforest, hroot⟩ :=
        ih (fuel' := fuel') (hrest'.merge hxtree hytree) (by simp)
        (by rw [List.length_append, List.length_singleton]; omega)
        (by rw [List.length_append, List.length_singleton]; omega)
      refine ⟨nodes', root, tree, ?_, ?_, hroot⟩
      · rw [List.map_append] at hmerge
        simp only [hufMerge, hx, hy, hxtree.nodeFreq, hytree.nodeFreq]
        exact hmerge
      · rw [List.map_append] at hforest
        rw [List.map_cons, List.map_cons, mergeForest]
        rw [List.map_cons, List.map_cons] at herase
        rw [List.map_cons] at hlight
        simp only [hlight, herase, List.map_cons, hlight']
        rw [List.map_cons] at herase'
        rw [herase']
        exact hforest

end Sys2Proof.Machine
end

section
/-! Code assignment (R226 to R228): what `HufEncode` puts into `HLEN` and `HCODE`. -/

namespace Sys2Proof.Machine

/-! ## Code assignment on the paths -/

/-- The tables of code lengths and codes after those of `paths`, below a node with code `v` at depth `d` (R226,
R227). -/
def assigned (v d : Nat) (paths : List (Byte × List Bool)) (t : List Nat × List Half) : List Nat × List Half :=
  paths.foldl (fun t p => (t.1.set p.1.toNat (d + p.2.length),
    t.2.set p.1.toNat (BitVec.ofNat 16 (v * 2 ^ p.2.length + bitsVal p.2)))) t

theorem assigned_append (v d : Nat) (ps qs : List (Byte × List Bool)) (t : List Nat × List Half) :
    assigned v d (ps ++ qs) t = assigned v d qs (assigned v d ps t) := List.foldl_append

/-- An edge in front of every path is one step down the tree. -/
theorem assigned_edge (v d : Nat) (b : Bool) (ps : List (Byte × List Bool)) (t : List Nat × List Half) :
    assigned v d (ps.map (fun p => (p.1, b :: p.2))) t = assigned (v * 2 + b.toNat) (d + 1) ps t := by
  have hval (p : List Bool) : v * 2 ^ (b :: p).length + bitsVal (b :: p) =
      (v * 2 + b.toNat) * 2 ^ p.length + bitsVal p := by
    rw [bitsVal_cons, List.length_cons, Nat.pow_succ]; ring
  simp only [assigned, List.foldl_map, hval, Nat.add_right_comm d 1]
  rfl

theorem assigned_node (v d f : Nat) (l r : HufTree) (t : List Nat × List Half) :
    assigned v d (HufTree.node f l r).paths t =
      assigned (v * 2 + 1) (d + 1) r.paths (assigned (v * 2) (d + 1) l.paths t) := by
  rw [HufTree.paths, assigned_append, assigned_edge, assigned_edge]; rfl

/-- Every leaf is at most 16 deep, in the tree and below its root. -/
theorem forall_paths_node {f d : Nat} {l r : HufTree} : (∀ p ∈ (HufTree.node f l r).paths, d + p.2.length ≤ 16) ↔
    (∀ p ∈ l.paths, d + 1 + p.2.length ≤ 16) ∧ ∀ p ∈ r.paths, d + 1 + p.2.length ≤ 16 := by
  rw [HufTree.paths, List.forall_mem_append, List.forall_mem_map, List.forall_mem_map]
  simp only [List.length_cons, Nat.add_assoc, Nat.add_comm 1]

/-- Code assignment goes through where no path is too long, and raises where one is (R228). -/
theorem NodeTree.hufAssign {nodes : List HufNode} {j : Nat} {tree : HufTree} (h : NodeTree nodes j tree) {fuel : Nat}
    (hfuel : j < fuel) (v d : Nat) (t : List Nat × List Half) :
    ((∀ p ∈ tree.paths, d + p.2.length ≤ 16) → hufAssign nodes fuel j v d t = .ok (assigned v d tree.paths t)) ∧
      ((¬∀ p ∈ tree.paths, d + p.2.length ≤ 16) → hufAssign nodes fuel j v d t = .error .codeTooLong) := by
  induction h generalizing fuel v d t with
  | @leaf j f b h =>
    obtain ⟨fuel, rfl⟩ : ∃ k, fuel = k + 1 := ⟨fuel - 1, by omega⟩
    have hpaths : (∀ p ∈ (HufTree.leaf f b).paths, d + p.2.length ≤ 16) ↔ ¬16 < d := by
      rw [HufTree.paths, List.forall_mem_singleton]; exact (Nat.not_lt).symm
    simp only [Machine.hufAssign, h, hpaths]
    refine ⟨fun hd => ?_, fun hd => if_pos (not_not.mp hd)⟩
    rw [if_neg hd, HufTree.paths, assigned, List.foldl_cons, List.foldl_nil, List.length_nil, Nat.pow_zero, Nat.mul_one]
    rfl
  | @node j f l r left right h hl hr _ _ ihl ihr =>
    obtain ⟨fuel, rfl⟩ : ∃ k, fuel = k + 1 := ⟨fuel - 1, by omega⟩
    obtain ⟨hlok, hlerr⟩ := ihl (fuel := fuel) (by omega) (v * 2) (d + 1) t
    obtain ⟨hrok, hrerr⟩ := ihr (fuel := fuel) (by omega) (v * 2 + 1) (d + 1) (assigned (v * 2) (d + 1) left.paths t)
    rw [forall_paths_node, assigned_node]
    simp only [Machine.hufAssign, h]
    by_cases hleft : ∀ p ∈ left.paths, d + 1 + p.2.length ≤ 16
    · simp only [hlok hleft]
      exact ⟨fun hall => hrok hall.2, fun hnot => hrerr fun hright => hnot ⟨hleft, hright⟩⟩
    · simp only [hlerr hleft]
      exact ⟨fun hall => absurd hall.1 hleft, fun _ => trivial⟩

/-! ## The code tables -/

/-- `HLEN` and `HCODE` hold the codes of `paths`, of at most 16 bits, and 0 for a byte value without a code (R47). -/
structure CodeTable (paths : List (Byte × List Bool)) (hlen : List Nat) (hcode : List Half) : Prop where
  length : hlen.length = 256
  short : ∀ p ∈ paths, p.2.length ≤ 16
  len : ∀ p ∈ paths, hlen.getD p.1.toNat 0 = p.2.length
  code : ∀ p ∈ paths, (hcode.getD p.1.toNat 0).toNat = bitsVal p.2
  other : ∀ b, b ∉ paths.map Prod.fst → hlen.getD b.toNat 0 = 0

/-- Assigning each byte value once leaves each its code. -/
theorem assigned_getD {paths : List (Byte × List Bool)} {t : List Nat × List Half}
    (hnodup : (paths.map Prod.fst).Nodup) (hlen : t.1.length = 256) (hcode : t.2.length = 256) :
    (assigned 0 0 paths t).1.length = 256 ∧
      (∀ p ∈ paths, (assigned 0 0 paths t).1.getD p.1.toNat 0 = p.2.length ∧
        (assigned 0 0 paths t).2.getD p.1.toNat 0 = BitVec.ofNat 16 (bitsVal p.2)) ∧
      ∀ b, b ∉ paths.map Prod.fst → (assigned 0 0 paths t).1.getD b.toNat 0 = t.1.getD b.toNat 0 ∧
        (assigned 0 0 paths t).2.getD b.toNat 0 = t.2.getD b.toNat 0 := by
  induction paths generalizing t with
  | nil => exact ⟨hlen, nofun, fun b _ => ⟨rfl, rfl⟩⟩
  | cons q paths ih =>
    rw [List.map_cons, List.nodup_cons] at hnodup
    obtain ⟨hq, hnodup⟩ := hnodup
    have hq1 : q.1.toNat < t.1.length := by rw [hlen]; exact q.1.isLt
    have hq2 : q.1.toNat < t.2.length := by rw [hcode]; exact q.1.isLt
    obtain ⟨hlen', hmem, hother⟩ := ih (t := (t.1.set q.1.toNat q.2.length,
      t.2.set q.1.toNat (BitVec.ofNat 16 (bitsVal q.2)))) hnodup (by rw [List.length_set, hlen])
      (by rw [List.length_set, hcode])
    have hstep : assigned 0 0 (q :: paths) t = assigned 0 0 paths (t.1.set q.1.toNat q.2.length,
        t.2.set q.1.toNat (BitVec.ofNat 16 (bitsVal q.2))) := by
      rw [assigned, List.foldl_cons, Nat.zero_add, Nat.zero_mul, Nat.zero_add]; rfl
    rw [hstep]
    refine ⟨hlen', fun p hp => ?_, fun b hb => ?_⟩
    · obtain rfl | hp := List.mem_cons.mp hp
      · obtain ⟨h1, h2⟩ := hother p.1 hq
        rw [h1, h2, getD_set _ _ _ hq1, getD_set _ _ _ hq2, if_pos rfl, if_pos rfl]
        exact ⟨rfl, rfl⟩
      · exact hmem p hp
    · rw [List.map_cons, List.mem_cons, not_or] at hb
      have hne : q.1.toNat ≠ b.toNat := fun h => hb.1 (BitVec.eq_of_toNat_eq h).symm
      obtain ⟨h1, h2⟩ := hother b hb.2
      rw [h1, h2, getD_set _ _ _ hq1, getD_set _ _ _ hq2, if_neg hne, if_neg hne]
      exact ⟨rfl, rfl⟩

theorem codeTable_assigned {paths : List (Byte × List Bool)} {t : List Nat × List Half}
    (hnodup : (paths.map Prod.fst).Nodup) (hshort : ∀ p ∈ paths, p.2.length ≤ 16) (hlen : t.1 = List.replicate 256 0)
    (hcode : t.2.length = 256) : CodeTable paths (assigned 0 0 paths t).1 (assigned 0 0 paths t).2 := by
  obtain ⟨hlen', hmem, hother⟩ := assigned_getD hnodup (by rw [hlen, List.length_replicate]) hcode
  refine ⟨hlen', hshort, fun p hp => (hmem p hp).1, fun p hp => ?_, fun b hb => ?_⟩
  · have hlt := bitsVal_lt p.2
    have hpow : 2 ^ p.2.length ≤ 2 ^ 16 := Nat.pow_le_pow_right (by decide) (hshort p hp)
    rw [(hmem p hp).2, BitVec.toNat_ofNat, Nat.mod_eq_of_lt (by omega)]
  · rw [(hother b hb).1, hlen, List.getD_replicate _ b.isLt]

/-! ## The builder -/

/-- The state after the builder. -/
def State.built (nodes : List HufNode) (queue : List Nat) (t : List Nat × List Half) (s : State) : State :=
  { s with freq := s.inputFreq, nodes := nodes, queue := queue, hlen := t.1, hcode := t.2 }

/-- The leaves with their node numbers. -/
def leafItems (bytes : List Byte) : List (Nat × HufTree) := (hufForest bytes).zipIdx.map Prod.swap

theorem leafItems_fst (bytes : List Byte) : (leafItems bytes).map Prod.fst = List.range (occurring bytes).length := by
  rw [leafItems, List.map_map, hufForest_eq]
  change List.map Prod.snd _ = _
  rw [List.zipIdx_map_snd, List.length_map, List.range_eq_range']

theorem leafItems_snd (bytes : List Byte) : (leafItems bytes).map Prod.snd = hufForest bytes := by
  rw [leafItems, List.map_map]
  exact List.zipIdx_map_fst 0 _

/-- The leaves, in order of creation, are a forest (R222). -/
theorem forest_leafItems (bytes : List Byte) : Forest ((occurring bytes).map (leafNode bytes)) (leafItems bytes) := by
  refine ⟨fun p hp => ?_, ?_⟩
  · obtain ⟨⟨tree, k⟩, hk, rfl⟩ := List.mem_map.mp hp
    rw [hufForest_eq, List.mem_zipIdx_iff_getElem?, List.getElem?_map, Option.map_eq_some_iff] at hk
    obtain ⟨b, hb, rfl⟩ := hk
    exact .leaf (by rw [Prod.swap, List.getElem?_map, hb]; rfl)
  · have h := List.pairwise_lt_range (n := (occurring bytes).length)
    rwa [← leafItems_fst, List.pairwise_map] at h

/-- The merge loop of the engine leaves the tree of the input. -/
theorem hufMerge_leaves {bytes : List Byte} {tree : HufTree} (hne : bytes ≠ [])
    (hmerge : mergeForest bytes.length (hufForest bytes) = [tree]) :
    ∃ nodes root, hufMerge (occurring bytes).length ((occurring bytes).map (leafNode bytes))
        (List.range (occurring bytes).length) = (nodes, [root]) ∧ NodeTree nodes root tree := by
  have hlen : (leafItems bytes).length = (occurring bytes).length := by
    rw [← List.length_map (f := Prod.fst), leafItems_fst, List.length_range]
  have hocc : (occurring bytes).length ≠ 0 := by
    obtain ⟨b, hb⟩ := List.exists_mem_of_ne_nil _ hne
    exact (List.length_pos_of_mem (mem_occurring.mpr hb)).ne'
  have hle := length_occurring_le bytes
  obtain ⟨nodes, root, tree', heng, href, hroot⟩ := hufMerge_forest (fuel := (occurring bytes).length)
    (fuel' := bytes.length) (forest_leafItems bytes) (List.ne_nil_of_length_pos (by omega)) (by omega) (by omega)
  rw [leafItems_snd, hmerge] at href
  obtain rfl := (List.cons.inj href).1
  rw [leafItems_fst] at heng
  exact ⟨nodes, root, heng, hroot⟩

/-- The builder, where there are at least two byte values, assigns the codes of the tree or raises. -/
theorem hufTree_spec {s : State} {bytes : List Byte} {tree : HufTree} (hne : bytes ≠ [])
    (hleaves : hufLeaves 0 s.inputFreq = (occurring bytes).map (leafNode bytes))
    (hmerge : mergeForest bytes.length (hufForest bytes) = [tree]) :
    ((∀ p ∈ tree.paths, p.2.length ≤ 16) → ∃ nodes queue,
      hufTree s = .ok (s.built nodes queue (assigned 0 0 tree.paths (s.hlen, s.hcode)))) ∧
    ((¬∀ p ∈ tree.paths, p.2.length ≤ 16) → ∃ u, hufTree s = .raised .codeTooLong u) := by
  obtain ⟨nodes, root, heng, hroot⟩ := hufMerge_leaves hne hmerge
  obtain ⟨hok, herr⟩ := hroot.hufAssign hroot.lt_length 0 0 (s.hlen, s.hcode)
  simp only [Nat.zero_add] at hok herr
  simp only [hufTree, hleaves, List.length_map, heng]
  refine ⟨fun hshort => ?_, fun hlong => ?_⟩
  · rw [hok hshort]; exact ⟨_, _, rfl⟩
  · rw [herr hlong]; exact ⟨_, rfl⟩

/-- From cleared tables the builder leaves the codes of the input; a code above 16 bits raises (R221 to R228). -/
theorem hufBuild_spec {s : State} {bytes : List Byte} (hbytes : s.ibufBytes 0 s.total = bytes) (hne : bytes ≠ [])
    (hfreq : s.freq = List.replicate 256 0) (hlen : s.hlen = List.replicate 256 0) (hcode : s.hcode.length = 256) :
    ((∀ p ∈ hufPaths bytes, p.2.length ≤ 16) → ∃ nodes queue t, hufBuild s = .ok (s.built nodes queue t) ∧
      CodeTable (hufPaths bytes) t.1 t.2) ∧
    ((¬∀ p ∈ hufPaths bytes, p.2.length ≤ 16) → ∃ u, hufBuild s = .raised .codeTooLong u) := by
  have hnodup : ((hufPaths bytes).map Prod.fst).Nodup := (hufPaths_syms hne).nodup_iff.mpr (nodup_occurring bytes)
  have hleaves := hufLeaves_inputFreq hbytes hfreq
  have htable (hshort) := codeTable_assigned (t := (s.hlen, s.hcode)) hnodup hshort hlen hcode
  cases hufCodes_of_ne_nil hne with
  | single b h hp =>
    rw [hp] at htable ⊢
    have hshort : ∀ p ∈ [(b, [false])], p.2.length ≤ 16 := by simp
    have hbuild := hufBuild_single (s := s) (f := bytes.count b) (sym := b) (by rw [hleaves, h]; rfl)
    exact ⟨fun _ => ⟨_, _, assigned 0 0 [(b, [false])] (s.hlen, s.hcode), hbuild, htable hshort⟩,
      fun hlong => absurd hshort hlong⟩
  | tree f l r h2 hmerge hp hs =>
    have hmany (f : Nat) (sym : Byte) : hufLeaves 0 s.inputFreq ≠ [.leaf f sym] := by
      intro h
      have hone := congrArg List.length (hleaves.symm.trans h)
      rw [List.length_map, List.length_singleton] at hone; omega
    obtain ⟨hok, herr⟩ := hufTree_spec hne hleaves hmerge
    rw [hp] at htable ⊢
    rw [hufBuild_tree hmany]
    refine ⟨fun hshort => ?_, herr⟩
    obtain ⟨nodes, queue, hbuild⟩ := hok hshort
    exact ⟨nodes, queue, _, hbuild, htable hshort⟩

end Sys2Proof.Machine
end

section
/-! CHUF (R132, R229, R230): the table in ascending byte value, then the code words of the input. -/

namespace Sys2Proof.Machine

/-! ## What the code tables say of an input -/

/-- The byte values with a code are those that occur. -/
theorem CodeTable.pos_iff {bytes : List Byte} {hlen : List Nat} {hcode : List Half} (hne : bytes ≠ [])
    (h : CodeTable (hufPaths bytes) hlen hcode) (b : Byte) : 0 < hlen.getD b.toNat 0 ↔ b ∈ bytes := by
  refine ⟨fun hpos => ?_, fun hb => ?_⟩
  · by_contra hb
    rw [h.other b fun hmem => hb (mem_occurring.mp ((hufPaths_syms hne).mem_iff.mp hmem))] at hpos
    exact Nat.lt_irrefl 0 hpos
  · rw [h.len _ (pathOf_mem hb)]
    exact List.length_pos_iff.mpr (hufPaths_ne_nil hne (pathOf_mem hb))

/-- The table entry of a byte value of the input is the reference's (R229). -/
theorem CodeTable.henFor {bytes : List Byte} {s : State} {b : Byte} (h : CodeTable (hufPaths bytes) s.hlen s.hcode)
    (hb : b ∈ bytes) : s.henFor b.toNat = henOf (hufPaths bytes) b := by
  rw [State.henFor, State.codeLen, State.codeVal, henOf, h.len _ (pathOf_mem hb), ← h.code _ (pathOf_mem hb),
    BitVec.ofNat_toNat, BitVec.ofNat_toNat, BitVec.setWidth_eq, BitVec.setWidth_eq]

theorem CodeTable.hcwFor {bytes : List Byte} {s : State} {b : Byte} (h : CodeTable (hufPaths bytes) s.hlen s.hcode)
    (hb : b ∈ bytes) : s.hcwFor b.toNat = hcwOf (hufPaths bytes) b := by
  rw [State.hcwFor, State.codeLen, State.codeVal, hcwOf, h.len _ (pathOf_mem hb), ← h.code _ (pathOf_mem hb),
    BitVec.ofNat_toNat, BitVec.setWidth_eq]

/-- The fields of a code word of at most 16 bits are the path's length and number. -/
theorem pathOf_fields {bytes : List Byte} (hshort : ∀ p ∈ hufPaths bytes, p.2.length ≤ 16) {b : Byte} (hb : b ∈ bytes) :
    (BitVec.ofNat 5 (pathOf (hufPaths bytes) b).length).toNat = (pathOf (hufPaths bytes) b).length ∧
      (BitVec.ofNat 16 (bitsVal (pathOf (hufPaths bytes) b))).toNat = bitsVal (pathOf (hufPaths bytes) b) := by
  have h16 : (pathOf (hufPaths bytes) b).length ≤ 16 := hshort _ (pathOf_mem hb)
  have hlt := bitsVal_lt (pathOf (hufPaths bytes) b)
  have hpow : 2 ^ (pathOf (hufPaths bytes) b).length ≤ 2 ^ 16 := Nat.pow_le_pow_right (by decide) h16
  rw [BitVec.toNat_ofNat, BitVec.toNat_ofNat]
  omega

/-- The bits of a code word are the path (R101, R227). -/
theorem encode_hcwOf {bytes : List Byte} (hshort : ∀ p ∈ hufPaths bytes, p.2.length ≤ 16) {b : Byte} (hb : b ∈ bytes) :
    encode (hcwOf (hufPaths bytes) b) = pathOf (hufPaths bytes) b := by
  obtain ⟨hlen, hcode⟩ := pathOf_fields hshort hb
  simp only [hcwOf, encode, hlen, hcode, bitsOf_bitsVal]

/-! ## The byte values of the table, in order (R229) -/

/-- The byte values with a code, from `idx` on. -/
def codedFrom (hlen : List Nat) (idx : Nat) : List Nat :=
  (List.range' idx (256 - idx)).filter (fun k => decide (0 < hlen.getD k 0))

theorem symbolFrom_map (f : Nat → Nat) (b n : Nat) :
    symbolFrom b ((List.range' b n).map f) = ((List.range' b n).filter (fun k => decide (0 < f k))).head? := by
  induction n generalizing b with
  | zero => rfl
  | succ n ih =>
    rw [List.range'_succ, List.map_cons, symbolFrom, ih, List.filter_cons]
    by_cases h : 0 < f b
    · rw [if_pos h, if_pos (decide_eq_true h)]; rfl
    · rw [if_neg h, if_neg (by simpa using h)]

/-- The next byte value of the loop is the first with a code. -/
theorem nextSymbol_eq {s : State} (h : s.hlen.length = 256) : s.nextSymbol = (codedFrom s.hlen s.idx).head? := by
  have hdrop : s.hlen.drop s.idx = (List.range' s.idx (256 - s.idx)).map (fun k => s.hlen.getD k 0) := by
    conv_lhs => rw [← map_getD_range s.hlen, h, List.range_eq_range', ← List.map_drop, List.drop_range']
    simp
  rw [State.nextSymbol, hdrop, symbolFrom_map]; rfl

/-- Behind the first element that passes a filter the filter goes on. -/
theorem filter_range'_cons {P : Nat → Bool} {i n k : Nat} {ks : List Nat} (h : (List.range' i n).filter P = k :: ks) :
    k < i + n ∧ P k = true ∧ (List.range' (k + 1) (i + n - (k + 1))).filter P = ks := by
  induction n generalizing i with
  | zero => cases h
  | succ n ih =>
    rw [List.range'_succ, List.filter_cons] at h
    split at h
    · next hi =>
      obtain ⟨rfl, rfl⟩ := List.cons.inj h
      exact ⟨by omega, hi, by congr 2; omega⟩
    · obtain ⟨hk, hP, hrest⟩ := ih h
      exact ⟨by omega, hP, by rw [← hrest]; congr 2; omega⟩

theorem codedFrom_cons {hlen : List Nat} {idx k : Nat} {ks : List Nat} (hidx : idx ≤ 256)
    (h : codedFrom hlen idx = k :: ks) : k < 256 ∧ 0 < hlen.getD k 0 ∧ codedFrom hlen (k + 1) = ks := by
  obtain ⟨hk, hpos, hrest⟩ := filter_range'_cons h
  rw [Nat.add_sub_cancel' hidx] at hk hrest
  exact ⟨hk, of_decide_eq_true hpos, hrest⟩

/-- From 0 on they are the byte values that occur. -/
theorem CodeTable.codedFrom_zero {bytes : List Byte} {hlen : List Nat} {hcode : List Half} (hne : bytes ≠ [])
    (h : CodeTable (hufPaths bytes) hlen hcode) : (codedFrom hlen 0).map (BitVec.ofNat 8) = occurring bytes := by
  rw [codedFrom, Nat.sub_zero, ← List.range_eq_range', occurring, List.filter_map]
  congr 1
  refine List.filter_congr fun k hk => ?_
  have hpos := h.pos_iff hne (BitVec.ofNat 8 k)
  rw [BitVec.toNat_ofNat, Nat.mod_eq_of_lt (List.mem_range.mp hk), ← List.count_pos_iff] at hpos
  exact decide_eq_decide.mpr hpos

/-- `k` of the table (R229) is the number of byte values that occur. -/
theorem CodeTable.hufCount {bytes : List Byte} {s : State} (hne : bytes ≠ [])
    (h : CodeTable (hufPaths bytes) s.hlen s.hcode) : s.hufCount = (occurring bytes).length := by
  rw [← h.codedFrom_zero hne, List.length_map, codedFrom, Nat.sub_zero, ← List.range_eq_range', State.hufCount]
  conv_lhs => rw [← map_getD_range s.hlen, h.length, List.filter_map, List.length_map]
  rfl

/-! ## CHUF behind its header -/

/-- CHUF with its code tables built. -/
structure HufEncoding (bytes : List Byte) (enc : EncPhase) (s0 s : State) (bits : List Bool) : Prop extends
    Encoding enc .huf s0 s bits where
  table : CodeTable (hufPaths bytes) s.hlen s.hcode

/-- What completion reports of CHUF (R132). -/
structure HufResults (bytes : List Byte) (u : State) : Prop where
  alg : u.alg = .huf
  dir : u.dir = .compress
  count : u.hufCount = (occurring bytes).length

/-- The code words, one record each, then the pad (R230). -/
theorem compresses_words {bytes input : List Byte} {s0 s : State} {bits : List Bool} (hne : bytes ≠ [])
    (h : HufEncoding bytes .hufCodes s0 s bits) (hinput : s0.ibufBytes s.idx input.length = input)
    (hend : s.idx + input.length = s0.total) (hin : input ≠ []) (hmem : ∀ b ∈ input, b ∈ bytes) :
    Compresses s (bytesBits (recordBytes (bits ++ input.flatMap (pathOf (hufPaths bytes))))) (HufResults bytes) := by
  induction input generalizing s bits with
  | nil => exact absurd rfl hin
  | cons b input ih =>
    obtain ⟨hbyte, hrest⟩ := List.cons.inj hinput
    obtain ⟨hb, hmem⟩ := List.forall_mem_cons.mp hmem
    rw [List.length_cons] at hend
    have hscan : encScan s = s := by simp only [encScan, h.phase]
    have hi : s.encNext = hcwOf (hufPaths bytes) b := by
      simp only [State.encNext, h.phase, h.ibufByte, hbyte]
      exact h.table.hcwFor hb
    obtain ⟨hlen, hcode⟩ := pathOf_fields h.table.short hb
    refine Compresses.turn h.busy ?_
    rw [engineTurn_compress h.dir hscan hi, List.flatMap_cons, ← List.append_assoc]
    change Compresses (hcwRecord _ _ s).settle _ _
    rw [hcwRecord, h.dir]
    change Compresses (emitHcw _ _ s).settle _ _
    rw [emitHcw, hlen, hcode]
    refine compresses_putBits h.written (by rw [bitsOf_bitsVal]; exact prefix_stream (List.prefix_append _ _))
      fun _ cnt acc hwrote => ?_
    rw [bitsOf_bitsVal] at hwrote
    dsimp only
    change Compresses (if s.idx + 1 < s.total then Res.ok _ else Res.ok _).settle _ _
    rw [h.total]
    by_cases hlast : input = []
    · subst hlast
      rw [if_neg (by rw [← hend]; exact Nat.lt_irrefl _), settle_ok, List.flatMap_nil, List.append_nil]
      refine Compresses.turn h.busy (compresses_pad (h.next hwrote.keep rfl) fun _ _ _ => ?_)
      exact ⟨h.alg, h.dir, h.table.hufCount hne⟩
    · have := List.length_pos_iff.mpr hlast
      rw [if_pos (by omega), settle_ok]
      refine ih ⟨h.next hwrote.keep h.phase, h.table⟩ hrest ?_ hlast hmem
      change s.idx + 1 + input.length = s0.total; omega

/-- The bytes of a table entry (R100). -/
def entryBytes (paths : List (Byte × List Bool)) (b : Byte) : List Byte :=
  [b, BitVec.ofNat 8 (pathOf paths b).length, hiByte (BitVec.ofNat 16 (bitsVal (pathOf paths b))),
    loByte (BitVec.ofNat 16 (bitsVal (pathOf paths b)))]

theorem encode_henOf (paths : List (Byte × List Bool)) (b : Byte) :
    encode (henOf paths b) = bytesBits (entryBytes paths b) := by
  rw [henOf, encode_hen]; rfl

/-- The state after a table entry. -/
def State.entered (paths : List (Byte × List Bool)) (b : Byte) (s : State) : State :=
  { s.put (entryBytes paths b) with idx := b.toNat + 1 }

/-- One table entry; behind the last the code words are due (R229). -/
theorem compresses_entry {bytes : List Byte} {s0 s : State} {bits rest : List Bool} {P : State → Prop} {b : Byte}
    {ks : List Nat} (h : HufEncoding bytes .hufTable s0 s bits) (h0 : s.wcnt = 0) (hidx : s.idx ≤ 256)
    (htodo : codedFrom s.hlen s.idx = b.toNat :: ks) (hb : b ∈ bytes)
    (hmore : ks ≠ [] → ∀ t, HufEncoding bytes .hufTable s0 t (bits ++ bytesBits (entryBytes (hufPaths bytes) b)) →
      t.wcnt = 0 → t.idx ≤ 256 → codedFrom t.hlen t.idx = ks →
      Compresses t (bits ++ bytesBits (entryBytes (hufPaths bytes) b) ++ rest) P)
    (hlast : ks = [] → ∀ t, HufEncoding bytes .hufCodes s0 t (bits ++ bytesBits (entryBytes (hufPaths bytes) b)) →
      t.wcnt = 0 → t.idx = 0 → Compresses t (bits ++ bytesBits (entryBytes (hufPaths bytes) b) ++ rest) P) :
    Compresses s (bits ++ (bytesBits (entryBytes (hufPaths bytes) b) ++ rest)) P := by
  obtain ⟨_, _, htail⟩ := codedFrom_cons hidx htodo
  have hscan : encScan s = s := by simp only [encScan, h.phase]
  have hi : s.encNext = henOf (hufPaths bytes) b := by
    simp only [State.encNext, h.phase, nextSymbol_eq h.table.length, htodo, List.head?_cons, Option.getD_some]
    exact h.table.henFor hb
  have hnext : (s.entered (hufPaths bytes) b).nextSymbol = ks.head? := by
    rw [nextSymbol_eq (s := s.entered (hufPaths bytes) b) h.table.length, ← htail]; rfl
  refine Compresses.turn h.busy ?_
  rw [engineTurn_compress h.dir hscan hi]
  change Compresses (henRecord _ _ _ s).settle _ _
  rw [henRecord, h.dir]
  refine compresses_putBytes h.written h0 fun hput => ?_
  change Compresses (if (s.entered (hufPaths bytes) b).nextSymbol.isSome then Res.ok _ else Res.ok _).settle _ _
  rw [hnext]
  cases ks with
  | nil =>
    exact hlast rfl _ ⟨h.next hput.keep rfl, h.table⟩ h0 rfl
  | cons k ks =>
    exact hmore (List.cons_ne_nil _ _) _ ⟨h.next hput.keep h.phase, h.table⟩ h0 b.isLt htail

/-- The table entries in ascending byte value, then what follows them (R229). -/
theorem compresses_entries {bytes bs : List Byte} {s0 s : State} {bits rest : List Bool} {P : State → Prop}
    (hne : bytes ≠ []) (h : HufEncoding bytes .hufTable s0 s bits) (h0 : s.wcnt = 0) (hidx : s.idx ≤ 256)
    (htodo : codedFrom s.hlen s.idx = bs.map BitVec.toNat) (hbs : bs ≠ [])
    (hrest : ∀ t bits', HufEncoding bytes .hufCodes s0 t bits' → t.wcnt = 0 → t.idx = 0 →
      Compresses t (bits' ++ rest) P) :
    Compresses s (bits ++ (bytesBits (bs.flatMap (entryBytes (hufPaths bytes))) ++ rest)) P := by
  induction bs generalizing s bits with
  | nil => exact absurd rfl hbs
  | cons b bs ih =>
    have hb : b ∈ bytes := (h.table.pos_iff hne b).mp (codedFrom_cons hidx htodo).2.1
    rw [List.flatMap_cons, bytesBits_append, List.append_assoc]
    refine compresses_entry h h0 hidx htodo hb (fun hmore t ht ht0 hti htail => ?_) fun hlast t ht ht0 hti => ?_
    · exact ih ht ht0 hti htail (fun hnil => hmore (by rw [hnil]; rfl))
    · obtain rfl := List.map_eq_nil_iff.mp hlast
      exact hrest t _ ht ht0 hti

/-! ## The command -/

/-- The bytes of the payload before the code words (R229). -/
def tableBytes (bytes : List Byte) : List Byte :=
  BitVec.ofNat 8 ((occurring bytes).length - 1) :: (occurring bytes).flatMap (entryBytes (hufPaths bytes))

/-- The bytes of a CHUF stream. -/
theorem streamBytes_huf {bytes : List Byte} (width height : Half) (hshort : ∀ p ∈ hufPaths bytes, p.2.length ≤ 16) :
    streamBytes (.hdr width height :: hufRecords bytes) = headerBytes width height ++
      (tableBytes bytes ++ recordBytes (bytes.flatMap (pathOf (hufPaths bytes)))) := by
  have hwords : (bytes.map (hcwOf (hufPaths bytes))).flatMap encode = bytes.flatMap (pathOf (hufPaths bytes)) := by
    rw [List.flatMap_map]
    exact List.flatMap_congr fun b hb => encode_hcwOf hshort hb
  have hentries : ((occurring bytes).map (henOf (hufPaths bytes))).flatMap encode =
      bytesBits ((occurring bytes).flatMap (entryBytes (hufPaths bytes))) := by
    rw [List.flatMap_map, bytesBits, List.flatMap_assoc]
    exact List.flatMap_congr fun b _ => encode_henOf _ b
  have hbits : (Instr.hdr width height :: hufRecords bytes).flatMap encode =
      bytesBits (headerBytes width height ++ tableBytes bytes) ++ bytes.flatMap (pathOf (hufPaths bytes)) := by
    rw [hufRecords, List.flatMap_cons, List.flatMap_cons, List.flatMap_append, hwords, hentries, encode_hdr,
      bytesBits_append, tableBytes, bytesBits_cons, List.append_assoc, List.append_assoc]
    rfl
  rw [streamBytes, hbits, recordBytes_append, List.append_assoc]

/-- On a byte boundary the bits written are whole bytes. -/
theorem Written.whole {s : State} {bits : List Bool} (h : Written s bits) (h0 : s.wcnt = 0) :
    ∃ bytes, bits = bytesBits bytes := by
  obtain ⟨bytes, _, hbits⟩ := h.out
  exact ⟨bytes, by rw [← hbits, h0, bitsOf_zero, List.append_nil]⟩

/-- CHUF after its header: the table and the code words. -/
theorem compresses_huf {bytes : List Byte} {s0 s : State} {bits : List Bool} (hne : bytes ≠ [])
    (h : HufEncoding bytes .hufSize s0 s bits) (h0 : s.wcnt = 0) (hbytes : s0.ibufBytes 0 s0.total = bytes) :
    Compresses s (bits ++ bytesBits (tableBytes bytes ++ recordBytes (bytes.flatMap (pathOf (hufPaths bytes)))))
      (HufResults bytes) := by
  have hlen : bytes.length = s0.total := by rw [← hbytes]; exact length_ibufBytes s0 0 s0.total
  have hscan : encScan s = s := by simp only [encScan, h.phase]
  have hi : s.encNext = .hsz (BitVec.ofNat 8 ((occurring bytes).length - 1)) := by
    simp only [State.encNext, h.phase, h.table.hufCount hne]
  have hocc : codedFrom s.hlen 0 = (occurring bytes).map BitVec.toNat := by
    rw [← h.table.codedFrom_zero hne, List.map_map]
    refine List.map_congr_left (fun k hk => ?_) |>.trans (List.map_id _) |>.symm
    have hk : k < 256 := by simpa [List.mem_range'] using (List.mem_filter.mp hk).1
    exact Nat.mod_eq_of_lt hk
  obtain ⟨b, hb⟩ := List.exists_mem_of_ne_nil _ hne
  have hne' := List.ne_nil_of_mem (mem_occurring.mpr hb)
  refine Compresses.turn h.busy ?_
  rw [engineTurn_compress h.dir hscan hi, tableBytes, List.cons_append, ← List.singleton_append, bytesBits_append,
    bytesBits_append]
  change Compresses (hszRecord _ s).settle _ _
  rw [hszRecord, h.dir]
  change Compresses (emitHsz _ s).settle _ _
  rw [emitHsz, ← putBytes_singleton]
  refine compresses_putBytes h.written h0 fun hput => ?_
  refine compresses_entries hne ⟨h.next hput.keep rfl, h.table⟩ h0 (Nat.zero_le _) hocc hne' ?_
  intro t bits' ht ht0 hti
  have hwords := compresses_words hne ht (by rw [hti, hlen]; exact hbytes) (by rw [hti, hlen, Nat.zero_add]) hne
    fun _ => id
  obtain ⟨front, rfl⟩ := ht.written.whole ht0
  rwa [recordBytes_append, bytesBits_append] at hwords

theorem length_tableBytes (bytes : List Byte) : (tableBytes bytes).length = 1 + 4 * (occurring bytes).length := by
  have hentry (b : Byte) : (entryBytes (hufPaths bytes) b).length = 4 := rfl
  simp only [tableBytes, List.length_cons, List.length_flatMap, hentry, List.map_const', List.sum_replicate,
    smul_eq_mul]
  omega

/-- The length of a CHUF stream (R232). -/
theorem length_streamBytes_huf {bytes : List Byte} (width height : Half)
    (hshort : ∀ p ∈ hufPaths bytes, p.2.length ≤ 16) :
    (streamBytes (.hdr width height :: hufRecords bytes)).length = 4 + 1 + 4 * (occurring bytes).length +
      ceil8 (bytes.map (fun b => (pathOf (hufPaths bytes) b).length)).sum := by
  rw [streamBytes_huf _ _ hshort, List.length_append, List.length_append, length_tableBytes, length_recordBytes,
    List.length_flatMap, ← Nat.add_assoc, ← Nat.add_assoc]
  rfl

/-- CHUF with the codes of its input built, when no code is longer than 16 bits. -/
theorem compresses_chuf {w : LzwWidth} {s : State} {bytes : List Byte} (hwf : Memory.wf s.obuf = true)
    (hbytes : s.ibufBytes 0 s.total = bytes) (hne : bytes ≠ []) (hshort : ∀ p ∈ hufPaths bytes, p.2.length ≤ 16) :
    Compresses (begun .compress .huf w s) (bytesBits (streamBytes (.hdr s.width s.height :: hufRecords bytes)))
      (HufResults bytes) := by
  set s1 := (begun .compress .huf w s).put (headerBytes s.width s.height) with hs1
  obtain ⟨nodes, queue, t, hbuild, htable⟩ := (hufBuild_spec (s := s1) (bytes := bytes)
    ((ibufBytes_congr 0 s.total).trans hbytes) hne rfl rfl (List.length_replicate ..)).1 hshort
  rw [streamBytes_huf _ _ hshort, bytesBits_append]
  refine compresses_header hwf fun hput => ?_
  have hbegin : beginEncode s1 = .ok { s1.built nodes queue t with enc := .hufSize, idx := 0 } := by
    have halg : s1.alg = .huf := rfl
    simp only [beginEncode, halg, hbuild, bind_ok]
  rw [hbegin, settle_ok]
  exact compresses_huf hne ⟨(encoding_begun .huf w hwf).next hput.keep rfl, htable⟩ rfl hbytes

/-- Settles O12: the header, the table of the merged tree, the code words. -/
theorem chufWritesTableAndCodeWords : Obligations.ChufWritesTableAndCodeWords := by
  intro s bytes stream hr hwf hin hbytes hshort hstream
  obtain ⟨w, _, hbegin⟩ := beginCommand_compress (alg := .huf) nofun hin
  have hlen : bytes.length = s.total := by rw [hbytes]; exact length_ibufBytes s 0 s.total
  have hne := List.ne_nil_of_length_pos (hlen ▸ Nat.pos_of_ne_zero (total_ne_zero hin.2.1))
  have h := compresses_chuf (w := w) hwf hbytes.symm hne hshort
  rw [← hstream, ← hbegin] at h
  obtain ⟨hfits, hover⟩ := exec_of_compresses hr h
  refine ⟨fun hcap => ?_, hover⟩
  obtain ⟨u, hexec, hdone, hsize, hres⟩ := hfits hcap
  refine ⟨_, hexec, hdone, hsize, ?_, ?_, ?_⟩
  · change u.finalStatTable.toNat = _
    have := length_occurring_le_256 bytes
    rw [State.finalStatTable, hres.alg, hres.dir]
    change (BitVec.ofNat 21 u.hufCount).toNat = _
    rw [hres.count, BitVec.toNat_ofNat]; omega
  · change u.finalStatClears = _
    rw [State.finalStatClears, hres.alg]
  · rw [hdone.outLen, hstream, length_streamBytes_huf _ _ hshort]

end Sys2Proof.Machine
end

section
/-! The round trip of Huffman (R136): in the table CHUF writes no code begins another, and the code words are those
of its entries. -/

namespace Sys2Proof.Machine

/-! ## CHUF that completes has short codes (R228) -/

/-- A code longer than 16 bits ends CHUF in a fault. -/
theorem chuf_faults {w : LzwWidth} {s : State} {bytes : List Byte} (hbytes : s.ibufBytes 0 s.total = bytes)
    (hne : bytes ≠ []) (hlong : ¬∀ p ∈ hufPaths bytes, p.2.length ≤ 16) :
    ∃ c u, Finishes (begun .compress .huf w s) (faultEntry c u) := by
  have hturn : engineTurn (begun .compress .huf w s) =
      ((putBytes (headerBytes s.width s.height) (begun .compress .huf w s)).bind beginEncode).settle :=
    engineTurn_compress (s := begun .compress .huf w s) (i := .hdr s.width s.height) rfl rfl rfl
  have hfault : ∃ c u, engineTurn (begun .compress .huf w s) = faultEntry c u := by
    rw [hturn]
    by_cases hfit : (begun .compress .huf w s).wpos + (headerBytes s.width s.height).length ≤
        (begun .compress .huf w s).params.obufCap
    · set s1 := (begun .compress .huf w s).put (headerBytes s.width s.height) with hs1
      obtain ⟨u, hbuild⟩ := (hufBuild_spec (s := s1) (bytes := bytes) ((ibufBytes_congr 0 s.total).trans hbytes) hne rfl
        rfl (List.length_replicate ..)).2 hlong
      have halg : s1.alg = .huf := rfl
      rw [putBytes_put hfit, bind_ok, beginEncode, halg]
      simp only [← hs1, hbuild]
      exact ⟨_, _, rfl⟩
    · obtain ⟨m, p, hfull⟩ := putBytes_full (headerBytes s.width s.height) (begun .compress .huf w s) (Nat.zero_le _)
        (by omega)
      rw [hfull]
      exact ⟨_, _, rfl⟩
  obtain ⟨c, u, hcu⟩ := hfault
  exact ⟨c, u, .turn rfl (by rw [hcu]; exact .quiet nofun)⟩

theorem short_of_done {s t : State} (hr : s.Ready) (hin : s.CompressInput)
    (h : exec (commandOf .compress .huf) s = .next t) (hd : t.state = .done) :
    ∀ p ∈ hufPaths (s.ibufBytes 0 s.total), p.2.length ≤ 16 := by
  by_contra hlong
  obtain ⟨w, _, hbegin⟩ := beginCommand_compress (alg := .huf) nofun hin
  have hne : s.ibufBytes 0 s.total ≠ [] :=
    List.ne_nil_of_length_pos (by rw [length_ibufBytes]; exact Nat.pos_of_ne_zero (total_ne_zero hin.2.1))
  obtain ⟨c, u, hf⟩ := chuf_faults (w := w) rfl hne hlong
  rw [← hbegin] at hf
  rw [exec_of_finishes hr hf] at h
  cases h
  cases hd

/-! ## The table as entries -/

/-- The entry of a byte value. -/
def entryOf (paths : List (Byte × List Bool)) (b : Byte) : HufEntry :=
  { sym := b, len := (pathOf paths b).length, code := bitsVal (pathOf paths b) }

theorem bits_entryOf (paths : List (Byte × List Bool)) (b : Byte) :
    bitsOf (entryOf paths b).len (entryOf paths b).code = pathOf paths b := bitsOf_bitsVal _

/-- Of the entries of the values that occur none begins another (R233). -/
theorem pairwise_entries {bytes : List Byte} (hne : bytes ≠ []) :
    ((occurring bytes).map (entryOf (hufPaths bytes))).Pairwise PrefixFree := by
  have hsymm : Std.Symm Apart := ⟨fun _ _ h => ⟨h.2, h.1⟩⟩
  rw [List.pairwise_map]
  refine (nodup_occurring bytes).imp_of_mem fun {b c} hb hc hbc => ?_
  unfold PrefixFree
  rw [bits_entryOf, bits_entryOf]
  exact (hufPaths_apart hne).forall (pathOf_mem (mem_occurring.mp hb)) (pathOf_mem (mem_occurring.mp hc))
    fun h => hbc (congrArg Prod.fst h)

theorem legal_entries {bytes : List Byte} (hne : bytes ≠ []) (hshort : ∀ p ∈ hufPaths bytes, p.2.length ≤ 16) :
    ∀ e ∈ (occurring bytes).map (entryOf (hufPaths bytes)), 1 ≤ e.len ∧ e.len ≤ 16 ∧ e.code < 2 ^ e.len := by
  rw [List.forall_mem_map]
  intro b hb
  have hmem := pathOf_mem (mem_occurring.mp hb)
  exact ⟨List.length_pos_iff.mpr (hufPaths_ne_nil hne hmem), hshort _ hmem, bitsVal_lt _⟩

/-- The bytes of the table are its records. -/
theorem bytesBits_tableBytes (bytes : List Byte) : bytesBits (tableBytes bytes) =
    encode (.hsz (BitVec.ofNat 8 ((occurring bytes).length - 1))) ++
      ((occurring bytes).map (entryOf (hufPaths bytes))).flatMap (fun e =>
        encode (.hen e.sym (BitVec.ofNat 8 e.len) (BitVec.ofNat 16 e.code))) := by
  rw [tableBytes, bytesBits_cons, List.flatMap_map, bytesBits, List.flatMap_assoc]
  congr 1
  exact List.flatMap_congr fun b _ => (encode_henOf _ b).symm

/-- Settles O25: the payload is a table RHUF accepts and the code words of the input's bytes. -/
theorem huffmanRoundTrip : Obligations.HuffmanRoundTrip := by
  intro s t u hr hwf h hd hru hwfu _ hlen hibuf hobuf hbuf
  obtain ⟨hin, _⟩ := compressInput_of_done hr h hd
  have hshort := short_of_done hr hin h hd
  obtain ⟨hfits, hover⟩ := chufWritesTableAndCodeWords s _ _ hr hwf hin rfl hshort rfl
  have hdone := completed_of_done (alg := .huf) h hd hfits hover
  have hbits := inputBits_of_stream hdone.obuf hdone.outLen hlen hbuf
  have houtLen := hdone.outLen.trans (length_streamBytes_huf _ _ hshort)
  have hinput : (s.ibufBytes 0 s.total).length = s.total := length_ibufBytes s 0 s.total
  have hne := List.ne_nil_of_length_pos (hinput ▸ Nat.pos_of_ne_zero (total_ne_zero hin.2.1))
  set bytes := s.ibufBytes 0 s.total with hbytes
  set entries := (occurring bytes).map (entryOf (hufPaths bytes)) with hentries
  have hk : entries.length = (occurring bytes).length := List.length_map _
  rw [streamBytes_huf _ _ hshort, bytesBits_append, bytesBits_append, bytesBits_recordBytes, bytesBits_tableBytes,
    ← hentries, ← hk] at hbits
  have hwords : (bytes.map (entryOf (hufPaths bytes))).flatMap (fun e => bitsOf e.len e.code) =
      bytes.flatMap (pathOf (hufPaths bytes)) := by
    rw [List.flatMap_map]
    exact List.flatMap_congr fun b _ => bits_entryOf _ b
  obtain ⟨v, hv, hcompleted, hwidth, hheight, _⟩ := rhufProducesTheSymbolsOfTheCodeWords u s.width s.height entries
    (bytes.map (entryOf (hufPaths bytes))) _ hru hwfu
    (by rw [hk]; exact List.length_pos_of_mem (mem_occurring.mpr (List.head_mem hne)))
    (by rw [hk]; exact length_occurring_le_256 bytes)
    (legal_entries hne hshort) (pairwise_entries hne)
    (List.forall_mem_map.mpr fun b hb => List.mem_map_of_mem (mem_occurring.mpr hb))
    (by rw [List.length_map, hinput]; rfl)
    ⟨hlen ▸ hibuf, by rw [hbits, hwords, encode_hdr, List.append_assoc, List.append_assoc]; rfl, hin.2.1, hobuf⟩
  refine ⟨v, hv, ?_, hwidth, hheight⟩
  have hsyms : (bytes.map (entryOf (hufPaths bytes))).map (fun e => e.sym) = bytes := by
    rw [List.map_map]; exact List.map_id _
  have hused : t.outLen = ceil8 (40 + 32 * entries.length +
      ((bytes.map (entryOf (hufPaths bytes))).map (fun e => e.len)).sum) := by
    rw [houtLen, hk, List.map_map]
    change _ = ceil8 (_ + (bytes.map fun b => (pathOf (hufPaths bytes) b).length).sum)
    unfold ceil8; omega
  rw [hsyms, ← hused] at hcompleted
  exact hcompleted

end Sys2Proof.Machine
end

section
/-! A record that does not fit `OBUF` (R151, R267): the run of each record of a COMPRESS begins with the write of its
encoding, so where that overflows the record does. -/

namespace Sys2Proof.Machine

/-- The run raises `OutputOverflow`. -/
def Res.Overflows (r : Res) : Prop := ∃ u, r = .raised .outputOverflow u

/-- What overflows does not go on. -/
theorem Res.Overflows.bind {r : Res} (h : r.Overflows) (f : State → Res) : (r.bind f).Overflows := by
  obtain ⟨u, rfl⟩ := h
  exact ⟨u, rfl⟩

section Writes

variable {s : State} (hroom : s.wpos ≤ s.params.obufCap)

include hroom

/-- A bit write that does not fit (R152). -/
theorem putBits_overflows {v n : Nat} (hc : s.wcnt < 8) (hfull : ¬s.Fits (bitsOf n v)) :
    (putBits v n s).Overflows := by
  obtain ⟨m, p, hput⟩ := putBitList_full (bitsOf n v) s hc hroom (Nat.lt_of_not_le hfull)
  exact ⟨_, hput⟩

/-- Whole bytes at a byte boundary, that do not fit (R151). -/
theorem putBytes_overflows {bytes : List Byte} (h0 : s.wcnt = 0) (hfull : ¬s.Fits (bytesBits bytes)) :
    (putBytes bytes s).Overflows := by
  have hover : s.params.obufCap < s.wpos + bytes.length := by
    unfold State.Fits at hfull
    rw [h0, length_bytesBits] at hfull; omega
  obtain ⟨m, p, hput⟩ := putBytes_full bytes s hroom hover
  exact ⟨_, hput⟩

theorem putByte_overflows {b : Byte} (h0 : s.wcnt = 0) (hfull : ¬s.Fits (bitsOf 8 b.toNat)) :
    (putByte b s).Overflows := by
  rw [← bytesBits_singleton] at hfull
  rw [← putBytes_singleton]
  exact putBytes_overflows hroom h0 hfull

theorem lzwOrdinary_overflows {w : LzwWidth} {c : Nat} (hd : s.dir = .compress) (hc : s.wcnt < 8)
    (hfull : ¬s.Fits (bitsOf w.bits c)) : (lzwOrdinary w c s).Overflows := by
  rw [lzwOrdinary, hd]
  exact (putBits_overflows hroom hc hfull).bind _

/-- CLEAR empties the table before it is written, which the writer does not see (R196). -/
theorem lzwClear_overflows {w : LzwWidth} (hd : s.dir = .compress) (hc : s.wcnt < 8)
    (hfull : ¬s.Fits (bitsOf w.bits 256)) : (lzwClear w s).Overflows := by
  rw [lzwClear, hd]
  exact (putBits_overflows (s := { s with lzwTable := [] }) hroom hc hfull).bind _

theorem lzwEnd_overflows {w : LzwWidth} (hd : s.dir = .compress) (hc : s.wcnt < 8)
    (hfull : ¬s.Fits (bitsOf w.bits 257)) : (lzwEnd w s).Overflows := by
  rw [lzwEnd, hd]
  exact (putBits_overflows hroom hc hfull).bind _

/-- Every record of a COMPRESS, the header of a Huffman stream included: its tree comes after the header's bytes. -/
theorem record_overflows {i : Instr} (hi : i.isRecord = true) (hw : i.wellFormed = true) (hd : s.dir = .compress)
    (hc : s.wcnt < 8) (h0 : i.wholeBytes = true → s.wcnt = 0) (hfull : ¬s.Fits (encode i)) :
    (recordRun i s).Overflows := by
  cases i with
  | hdr width height =>
    rw [encode_hdr] at hfull
    rw [recordRun, hdrRecord, hd]
    exact (putBytes_overflows hroom (h0 rfl) hfull).bind _
  | raw b =>
    rw [recordRun, rawRecord, hd]
    exact (putByte_overflows hroom (h0 rfl) hfull).bind _
  | rleRep count v =>
    rw [encode_rleRep] at hfull
    rw [recordRun, rleRepRecord, hd]
    exact (putBytes_overflows hroom (h0 rfl) hfull).bind _
  | rleLit data =>
    rw [encode_rleLit (of_decide_eq_true hw)] at hfull
    rw [recordRun, rleLitRecord, hd]
    exact (putBytes_overflows hroom (h0 rfl) hfull).bind _
  | lzwLit12 _ | lzwPhrase12 _ | lzwLit16 _ | lzwPhrase16 _ | lzwLit20 _ | lzwPhrase20 _ =>
    exact lzwOrdinary_overflows hroom hd hc hfull
  | lzwClear12 | lzwClear16 | lzwClear20 => exact lzwClear_overflows hroom hd hc hfull
  | lzwEnd12 | lzwEnd16 | lzwEnd20 => exact lzwEnd_overflows hroom hd hc hfull
  | hsz n =>
    rw [recordRun, hszRecord, hd]
    exact (putByte_overflows hroom (h0 rfl) hfull).bind _
  | hen sym len code =>
    rw [encode_hen] at hfull
    rw [recordRun, henRecord, hd]
    exact (putBytes_overflows hroom (h0 rfl) hfull).bind _
  | hcw len code =>
    rw [recordRun, hcwRecord, hd]
    exact (putBits_overflows hroom hc hfull).bind _
  | pad n =>
    rw [recordRun, padRecord, hd]
    exact (putBits_overflows hroom hc hfull).bind _
  | cnoop | crle | clzw | chuf | rnoop | rrle | rlzw | rhuf | sreset | cmdIllegal _ => cases hi

end Writes

/-- Settles O27: the record's run overflows, in a state that keeps what every run of a command keeps. -/
theorem encoderRecordsOverflow : Obligations.EncoderRecordsOverflow := by
  intro i s hi hw hd _ hc h0 hroom hover
  obtain ⟨u, hrun⟩ := record_overflows hroom hi hw hd hc h0 (Nat.not_le_of_lt hover)
  have hreached : Reached s (recordRun i s).settle := (tied_settle (recordRun_keepsRun hi s s.host)).1
  rw [hrun, settle_raised] at hreached
  refine ⟨faultEntry .outputOverflow u, ?_, ?_, hreached.size hd⟩
  · rw [exec_record hi, recordEffect_eq_settle, hrun, settle_raised]
  · exact { faulted_faultEntry .outputOverflow u with inputs := hreached.inputs }

end Sys2Proof.Machine
end

section
/-! The framer on its own (R151 to R160): bit writes in a row are one write, the flush completes the last byte with
zeros, and the reader gives back what was written. -/

namespace Sys2Proof.Machine

/-! ## Bit writes in a row (R152) -/

theorem putBitList_append (as bs : List Bool) (s : State) :
    putBitList (as ++ bs) s = (putBitList as s).bind (putBitList bs) := by
  induction as generalizing s with
  | nil => rfl
  | cons a as ih =>
    rw [List.cons_append, putBitList, putBitList, bind_assoc]
    exact congrArg _ (funext ih)

/-- The bits of a list of values, each with its width (R154). -/
def itemBits (items : List (Nat × Nat)) : List Bool := items.flatMap fun item => bitsOf item.2 item.1

theorem length_itemBits (items : List (Nat × Nat)) : (itemBits items).length = (items.map Prod.snd).sum := by
  simp [itemBits, List.length_flatMap]

/-- One `PutBits` per value is one write of all their bits. -/
theorem foldl_putBits (items : List (Nat × Nat)) (r : Res) :
    items.foldl (fun (r : Res) (item : Nat × Nat) => r.bind (putBits item.1 item.2)) r =
      r.bind (putBitList (itemBits items)) := by
  induction items generalizing r with
  | nil => cases r <;> rfl
  | cons item items ih =>
    rw [List.foldl_cons, ih, bind_assoc]
    exact congrArg _ (funext fun s => (putBitList_append _ (itemBits items) s).symm)

/-! ## The flush (R153) -/

/-- A value moved up by `n` bits, and `n` zeros below it. -/
theorem bitsOf_mul_two_pow (m n v : Nat) : bitsOf (m + n) (v * 2 ^ n) = bitsOf m v ++ bitsOf n 0 := by
  rw [bitsOf_add, Nat.mul_div_cancel _ (Nat.two_pow_pos n), ← bitsOf_mod n n (v * 2 ^ n) le_rfl, Nat.mul_mod_left]

theorem padWidth_of_pending {s : State} (h0 : 0 < s.wcnt) : s.padWidth = 8 - s.wcnt :=
  Nat.mod_eq_of_lt (by omega)

theorem flushBits_aligned {s : State} (h : s.wcnt = 0) : flushBits s = .ok s := by
  rw [flushBits, State.padWidth, h]; rfl

/-- Once `OBUF` is full no byte can be completed. -/
theorem putBitList_overflows_of_full {bits : List Bool} {s : State} (hc : s.wcnt < 8)
    (hfull : s.params.obufCap ≤ s.wpos) (hbyte : 8 ≤ s.wcnt + bits.length) : (putBitList bits s).Overflows := by
  induction bits generalizing s with
  | nil => rw [List.length_nil] at hbyte; omega
  | cons b bits ih =>
    rw [putBitList, putBit]
    by_cases h8 : s.wcnt + 1 = 8
    · rw [if_pos h8]
      refine Res.Overflows.bind ⟨_, putByte_full _ _ ?_⟩ _
      exact hfull
    · rw [List.length_cons] at hbyte
      rw [if_neg h8, bind_ok]
      refine ih ?_ hfull ?_
      · change s.wcnt + 1 < 8; omega
      · change 8 ≤ s.wcnt + 1 + bits.length; omega

theorem flushBits_full {s : State} (h0 : 0 < s.wcnt) (hc : s.wcnt < 8) (hfull : s.params.obufCap ≤ s.wpos) :
    (flushBits s).Overflows := by
  refine putBitList_overflows_of_full hc hfull ?_
  rw [length_bitsOf, padWidth_of_pending h0]; omega

/-- The one byte of the flush. -/
theorem flushBits_pending {s : State} (h0 : 0 < s.wcnt) (hc : s.wcnt < 8) (ha : s.wacc < 2 ^ s.wcnt)
    (hroom : s.wpos < s.params.obufCap) :
    flushBits s = .ok (s.wrote [BitVec.ofNat 8 (s.wacc * 2 ^ (8 - s.wcnt))] 0 0) := by
  obtain ⟨bytes, acc, hput, -, hacc, hbits⟩ := putBitList_ok (bitsOf (8 - s.wcnt) 0) s hc ha
    (by rw [length_bitsOf]; omega)
  have hsum : s.wcnt + (8 - s.wcnt) = 8 := by omega
  rw [length_bitsOf, hsum] at hput hacc hbits
  obtain rfl : acc = 0 := Nat.lt_one_iff.mp hacc
  have hbyte : bytes = [BitVec.ofNat 8 (s.wacc * 2 ^ (8 - s.wcnt))] := by
    refine bytesBits_injective ?_
    rw [← bitsOf_mul_two_pow, hsum] at hbits
    rw [bytesBits_singleton, bitsOf_ofNat, ← hbits, Nat.mod_self, bitsOf_zero, List.append_nil]
  rw [flushBits, padWidth_of_pending h0, putBits, hput, hbyte]

/-- Settles O47: the zeros of the flush complete one byte, which fits or not. -/
theorem flushWritesPendingBitsHigh : Obligations.FlushWritesPendingBitsHigh :=
  fun _ hc ha => ⟨fun h0 hroom => flushBits_pending h0 hc ha hroom, fun h0 hfull => flushBits_full h0 hc hfull,
    flushBits_aligned⟩

/-- A write from a byte boundary and the flush after it are one write, of the bits and the zeros up to the next
boundary. -/
theorem putBitList_flush {bits : List Bool} {s : State} (hc : s.wcnt = 0) (ha : s.wacc = 0) (hfit : s.Fits bits) :
    (putBitList bits s).bind flushBits = putBitList (bits ++ bitsOf (8 * ceil8 bits.length - bits.length) 0) s := by
  obtain ⟨bytes, acc, hput, -⟩ := putBitList_ok bits s (by omega) (by rw [hc, ha]; exact Nat.one_pos) hfit
  have hpad : State.padWidth (s.wrote bytes ((s.wcnt + bits.length) % 8) acc) =
      8 * ceil8 bits.length - bits.length := by
    change (8 - (s.wcnt + bits.length) % 8) % 8 = _
    unfold ceil8; omega
  rw [putBitList_append, hput, bind_ok, bind_ok, flushBits, putBits, hpad]

/-- The law of the writer for one bit string (R154). -/
theorem putBitList_flush_aligned (bits : List Bool) {s : State} (hc : s.wcnt = 0) (ha : s.wacc = 0)
    (hfit : s.wpos + ceil8 bits.length ≤ s.params.obufCap) :
    ∃ t bytes, (putBitList bits s).bind flushBits = .ok t ∧ Stores s t bytes ∧ bytes.length = ceil8 bits.length ∧
      t.wcnt = 0 ∧ t.wacc = 0 ∧
      bytesBits bytes = bits ++ List.replicate (8 * ceil8 bits.length - bits.length) false := by
  set pad := 8 * ceil8 bits.length - bits.length with hpad
  have hlen : s.wcnt + (bits ++ bitsOf pad 0).length = 8 * ceil8 bits.length := by
    rw [List.length_append, length_bitsOf, hc, hpad]; unfold ceil8; omega
  have hbits : s.Fits bits := by unfold State.Fits; unfold ceil8 at hfit; omega
  obtain ⟨bytes, acc, hput, hcount, hacc, hwritten⟩ := putBitList_ok (bits ++ bitsOf pad 0) s (by omega)
    (by rw [hc, ha]; exact Nat.one_pos) (by rw [hlen]; omega)
  rw [hlen, Nat.mul_mod_right] at hput hacc hwritten
  rw [hlen, Nat.mul_div_cancel_left _ (by decide)] at hcount
  obtain rfl : acc = 0 := Nat.lt_one_iff.mp hacc
  refine ⟨s.wrote bytes 0 0, bytes, (putBitList_flush hc ha hbits).trans hput,
    stores_writeBytes s _ bytes rfl rfl rfl, hcount, rfl, rfl, ?_⟩
  rw [bitsOf_zero, List.append_nil, hc, bitsOf_zero, List.nil_append, bitsOf_zero_value] at hwritten
  exact hwritten

/-- Settles O48: the bits of all the values and the pad are one write of whole bytes. -/
theorem writerLaw : Obligations.WriterLaw := by
  intro items s hc ha hfit
  rw [← length_itemBits] at hfit ⊢
  rw [foldl_putBits, bind_ok]
  exact putBitList_flush_aligned (itemBits items) hc ha hfit

/-! ## The reader (R155 to R158) -/

theorem take_bitsFrom (s : State) (q n k : Nat) : (s.bitsFrom q k).take n = s.bitsFrom q (min n k) := by
  rcases Nat.le_total n k with h | h
  · obtain ⟨j, rfl⟩ := Nat.exists_eq_add_of_le h
    rw [bitsFrom_add, List.take_left' (length_bitsFrom s q n), Nat.min_eq_left h]
  · rw [List.take_of_length_le (by rwa [length_bitsFrom]), Nat.min_eq_right h]

/-- What the reader looks at are the first of the unread bits (R156). -/
theorem window_eq_take (s : State) (n : Nat) : s.window n = s.unread.take n := (take_bitsFrom s s.rpos n _).symm

theorem getBits_of_unread {n v : Nat} {s : State} {rest : List Bool} (hv : v < 2 ^ n)
    (h : s.unread = bitsOf n v ++ rest) : getBits n s = .ok (v, skipBits n s) := by
  have hread : takeBits n (s.window n) = some (v, []) := by
    rw [window_eq_take, h, List.take_left' (length_bitsOf n v), ← List.append_nil (bitsOf n v), takeBits_bitsOf,
      Nat.mod_eq_of_lt hv]
  rw [getBits, peekBits, hread]

theorem getBits_short {n : Nat} {s : State} (h : s.unread.length < n) : getBits n s = .error .truncatedStream := by
  have hread : takeBits n (s.window n) = none := by
    rw [window_eq_take, List.take_of_length_le h.le, takeBits_short n _ h]
  rw [getBits, peekBits, hread]

/-- Settles O49: the reader takes the unread bits in front. -/
theorem readerReadsWhatWasWritten : Obligations.ReaderReadsWhatWasWritten := by
  intro n v s rest hv
  refine ⟨getBits_of_unread hv, fun hn hshort => getBits_short ?_, ?_⟩
  · rw [length_unread]; omega
  · rintro rfl h
    rw [getByte, getBits_of_unread hv h]; rfl

/-- Settles O46: a RESTORE runs no part of the pad, and any bits of its width read as the pad. -/
theorem padIsNeverExamined : Obligations.PadIsNeverExamined := by
  refine ⟨fun n s hd => ?_, fun n bits rest hlen => ?_⟩
  · rw [exec_pad, padRecord, hd]; rfl
  · have hread : takeBits n.toNat (bits ++ rest) = some (bitsVal bits % 2 ^ n.toNat, rest) := by
      rw [← takeBits_bitsOf, ← hlen, bitsOf_bitsVal]
    rw [decode, hread]

end Sys2Proof.Machine
end

section
/-! The records of the run finder (R181), and what one RLE record does in a RESTORE: its bytes where the channel has room
for them (R177 to R179), MalformedStream where it has not, and the fault of a record that is cut off (R180). -/

namespace Sys2Proof.Machine

/-! ## The records of a channel (R181) -/

/-- Every record of a channel is the first one of what is left there (R173). -/
theorem exists_rleFirst_of_mem {channel : List Byte} {r : Instr} (h : r ∈ rleRecords channel) :
    ∃ x xs, r = rleFirst x xs := by
  induction hn : channel.length using Nat.strongRecOn generalizing channel with
  | ind n ih =>
    subst hn
    cases channel with
    | nil => cases h
    | cons x xs =>
      have hspan := rleSpan_bounds x xs
      rw [rleRecords_cons] at h
      obtain rfl | h := List.mem_cons.mp h
      · exact ⟨x, xs, rfl⟩
      · exact ih _ (by rw [List.length_drop]; omega) h rfl

/-- The counts the run finder gives: at least 2 for a repeat record, 1 to 127 for a literal one (R171 to R173, R176). -/
theorem rleRecords_count {channel : List Byte} {r : Instr} (h : r ∈ rleRecords channel) :
    (∃ (k : BitVec 7) (v : Byte), r = .rleRep k v ∧ 2 ≤ k.toNat) ∨
      ∃ data : List Byte, r = .rleLit data ∧ 1 ≤ data.length ∧ data.length ≤ 127 := by
  obtain ⟨x, xs, rfl⟩ := exists_rleFirst_of_mem h
  have hsame := (sameLen_le x 126 xs).1
  have hlit := (litLen_le 127 (x :: xs)).1
  unfold rleFirst
  split
  · refine .inl ⟨_, _, rfl, ?_⟩
    rw [BitVec.toNat_ofNat]; omega
  · refine .inr ⟨_, rfl, ?_⟩
    rw [List.length_take, List.length_cons]; omega

/-- A record takes at most two bytes for each byte it stands for. -/
theorem length_encode_rleRecord {channel : List Byte} {r : Instr} (h : r ∈ rleRecords channel) :
    (encode r).length ≤ 16 * (rleYield r).length := by
  obtain ⟨k, v, rfl, hk⟩ | ⟨data, rfl, hpos, _⟩ := rleRecords_count h
  · rw [show (encode (.rleRep k v)).length = 16 from Laws.EncodeWidth.rleRep k v, rleYield, List.length_replicate]
    omega
  · rw [show (encode (.rleLit data)).length = 8 + 8 * data.length from Laws.EncodeWidth.rleLit data, rleYield]
    omega

/-- A bound on the encoding of each record is one on the encoding of them all. -/
theorem length_flatMap_encode_le {records : List Instr}
    (h : ∀ r ∈ records, (encode r).length ≤ 16 * (rleYield r).length) :
    (records.flatMap encode).length ≤ 16 * (records.flatMap rleYield).length := by
  induction records with
  | nil => exact Nat.le_refl _
  | cons r rs ih =>
    have hr := h r List.mem_cons_self
    have hrs := ih fun r hr => h r (List.mem_cons_of_mem _ hr)
    rw [List.flatMap_cons, List.flatMap_cons, List.length_append, List.length_append]
    omega

/-! Copies of one byte. -/

theorem sameLen_replicate (v : Byte) (cap m : Nat) : sameLen v cap (List.replicate m v) = min cap m := by
  induction m generalizing cap with
  | zero => cases cap <;> rfl
  | succ m ih =>
    cases cap with
    | zero => rw [Nat.zero_min]; rfl
    | succ cap => rw [List.replicate_succ, sameLen, if_pos rfl, ih]; omega

/-- Two copies or more begin with a repeat record of as many of them as its count can say. -/
theorem rleRecords_replicate {m : Nat} (v : Byte) (h : 2 ≤ m) :
    rleRecords (List.replicate m v) =
      .rleRep (BitVec.ofNat 7 (min 127 m)) v :: rleRecords (List.replicate (m - min 127 m) v) := by
  obtain ⟨m, rfl⟩ : ∃ j, m = j + 1 := ⟨m - 1, by omega⟩
  have hrun : 1 + sameLen v 126 (List.replicate m v) = min 127 (m + 1) := by rw [sameLen_replicate]; omega
  have hlong : 1 < min 127 (m + 1) := by omega
  rw [List.replicate_succ, rleRecords_cons, rleFirst, rleSpan, hrun, if_pos hlong, if_pos hlong, ← List.replicate_succ,
    List.drop_replicate]

/-- Each 127 copies are one record. -/
theorem rleRecords_replicate_add (v : Byte) (q m : Nat) :
    rleRecords (List.replicate (127 * q + m) v) =
      List.replicate q (.rleRep 127#7 v) ++ rleRecords (List.replicate m v) := by
  induction q with
  | zero => rw [Nat.mul_zero, Nat.zero_add]; rfl
  | succ q ih =>
    rw [rleRecords_replicate v (by omega), Nat.min_eq_left (by omega),
      show 127 * (q + 1) + m - 127 = 127 * q + m by omega, ih, List.replicate_succ, List.cons_append]

/-- Fewer than 127 copies are at most one record. -/
theorem rleRecords_replicate_lt {m : Nat} (v : Byte) (h : m < 127) :
    rleRecords (List.replicate m v) =
      if m = 0 then [] else if m = 1 then [.rleLit [v]] else [.rleRep (BitVec.ofNat 7 m) v] := by
  split
  · next h0 => rw [h0]; rfl
  split
  · next h1 => rw [h1]; rfl
  · rw [rleRecords_replicate v (by omega), Nat.min_eq_right (by omega), Nat.sub_self]; rfl

/-- Settles O31: the counts are those of each first record, and copies of one byte go 127 at a time. -/
theorem rleEncoderRecordsOfAChannel : Obligations.RleEncoderRecordsOfAChannel := by
  refine ⟨fun channel => ⟨fun r hr => rleRecords_count hr, rleYield_records channel, rleSegment_records channel, ?_⟩,
    fun m v => ?_⟩
  · have hlen := length_flatMap_encode_le fun r hr => length_encode_rleRecord (channel := channel) hr
    rw [rleYield_records] at hlen
    omega
  · conv_lhs => rw [← Nat.div_add_mod m 127]
    rw [rleRecords_replicate_add, rleRecords_replicate_lt v (Nat.mod_lt m (by decide))]

/-! ## A record that fits (R177 to R179) -/

/-- The meaning of an RLE record is the end of its run. -/
theorem exec_rle {i : Instr} (hi : i.isRle = true) (s : State) : exec i s = .next (recordRun i s).settle := by
  cases i with
  | rleRep count v => exact exec_rleRep count v s
  | rleLit data => exact exec_rleLit data s
  | _ => cases hi

/-- Settles O35: the bytes are stored, then counted, which leaves one of the three ends of R177. -/
theorem rleRecordsProduceTheirBytes : Obligations.RleRecordsProduceTheirBytes := by
  intro i s hi hw hd hb _ hroom hcap
  obtain ⟨c, v, hrun⟩ := recordRun_rle hi hw hd (Nat.le_sub_of_add_le' hroom) hcap
  rw [exec_rle hi, hrun, settle_ok]
  set bytes := rleYield i
  set t := State.put bytes (s.latched c bytes.length v)
  have hn : t.n = s.n := n_congr
  have hcnt : t.rleCnt = s.rleCnt := rfl
  have hch : t.rleCh = s.rleCh := rfl
  have hlzw : SameLzw s t := ⟨rfl, rfl, rfl, rfl, rfl⟩
  have hhuf : SameHuf s t := ⟨rfl, rfl, rfl, rfl, rfl, rfl, rfl, rfl⟩
  have hinputs : SameInputs s t := ⟨rfl, rfl, rfl, rfl, rfl, rfl, rfl⟩
  by_cases hinside : s.rleCnt + bytes.length < s.n
  · rw [rleCount_inside (by rwa [hcnt, hn])]
    refine ⟨_, rfl, stores_writeBytes s _ bytes rfl rfl rfl, { hinputs with }, ⟨rfl, rfl⟩, rfl, rfl, rfl,
      fun _ => ⟨{ hlzw with }, { hhuf with }, rfl⟩, fun _ => ⟨hb, rfl, rfl⟩, fun h => absurd h hinside.ne,
      fun h => absurd h hinside.ne⟩
  have hfull : s.rleCnt + bytes.length = s.n := by omega
  by_cases hnext : s.rleCh + 1 < 3
  · rw [rleCount_next (by rwa [hcnt, hn]) (by rwa [hch])]
    refine ⟨_, rfl, stores_writeBytes s _ bytes rfl rfl rfl, { hinputs with }, ⟨rfl, rfl⟩, rfl, rfl, rfl,
      fun _ => ⟨{ hlzw with }, { hhuf with }, rfl⟩, fun h => absurd h hinside, fun _ _ => ⟨hb, rfl, rfl⟩,
      fun _ h => by omega⟩
  · rw [rleCount_last (by rwa [hcnt, hn]) (by rwa [hch])]
    have hnot : s.state ≠ .done := by rw [hb]; decide
    refine ⟨_, rfl, stores_complete s _ bytes _ hnot rfl rfl, { hinputs with }, ⟨rfl, rfl⟩, rfl, rfl, rfl, nofun,
      fun h => absurd h hinside, fun _ h => by omega, fun _ _ => ⟨rfl, rfl, rfl⟩⟩

/-! ## A record that overruns its channel or is cut off (R180) -/

/-! The count a control byte holds (R95, R177). -/

theorem repControl_count (count : BitVec 7) : (repControl count.toNat).toNat % 128 = count.toNat := by
  have := count.isLt
  rw [repControl, BitVec.toNat_ofNat]; omega

theorem litControl_count {k : Nat} (h : k ≤ 127) : (litControl k).toNat % 128 = k := by
  rw [litControl, BitVec.toNat_ofNat]; omega

/-- The count is tested before a byte is produced (R180 (a)). -/
theorem rleProduce_overrun {control : Byte} {k : Nat} (bytes : List Byte) {s : State} (hk : control.toNat % 128 = k)
    (h : s.rleRoom < k) : rleProduce control bytes s = .raised .malformedStream { s with rleC := control, rleK := k } := by
  subst hk; exact if_pos h

/-- What an RLE record does in a channel that has no room for its bytes: nothing is stored (R180 (a)). -/
theorem recordRun_rle_overrun {i : Instr} {s : State} (hi : i.isRle = true) (hw : i.wellFormed = true)
    (hd : s.dir = .restore) (h : s.rleRoom < (rleYield i).length) :
    ∃ c v, recordRun i s = .raised .malformedStream (s.latched c (rleYield i).length v) := by
  cases i with
  | rleRep count v =>
    refine ⟨repControl count.toNat, v, ?_⟩
    rw [rleYield, List.length_replicate] at h ⊢
    change rleRepRecord count v s = _
    rw [rleRepRecord, hd]
    exact rleProduce_overrun (s := { s with rleV := v }) _ (repControl_count count) h
  | rleLit data =>
    refine ⟨litControl data.length, s.rleV, ?_⟩
    change rleLitRecord data s = _
    rw [rleLitRecord, hd]
    exact rleProduce_overrun data (litControl_count (of_decide_eq_true hw)) h
  | _ => cases hi

/-- The channel lacks fewer bytes than `k` exactly where `k` more overrun it (R177). -/
theorem rleRoom_lt_iff {s : State} (hcnt : s.rleCnt ≤ s.n) (k : Nat) : s.rleRoom < k ↔ s.n < s.rleCnt + k := by
  unfold State.rleRoom; omega

theorem exec_rle_overrun {i : Instr} {s : State} (hi : i.isRle = true) (hw : i.wellFormed = true) (hd : s.dir = .restore)
    (hcnt : s.rleCnt ≤ s.n) (h : s.n < s.rleCnt + (rleYield i).length) :
    ∃ t, exec i s = .next t ∧ Faulted .malformedStream s t ∧ SameSize s t := by
  obtain ⟨c, v, hrun⟩ := recordRun_rle_overrun hi hw hd ((rleRoom_lt_iff hcnt _).mpr h)
  rw [exec_rle hi, hrun, settle_raised]
  exact ⟨_, rfl, faulted_of_inputs _ ⟨rfl, rfl, rfl, rfl, rfl, rfl, rfl⟩, rfl, rfl⟩

theorem takeByte_short {bits : List Bool} (h : bits.length < 8) : takeByte bits = none := by
  rw [takeByte, takeBits_short 8 bits h]

theorem takeBytes_short {k : Nat} {bits : List Bool} (h : bits.length < 8 * k) : takeBytes k bits = none := by
  refine Option.eq_none_iff_forall_ne_some.mpr fun ⟨bytes, rest⟩ hread => ?_
  obtain ⟨hlen, rfl⟩ := takeBytes_some hread
  rw [List.length_append, length_bytesBits] at h
  omega

/-- A control byte whose data is not all there (R178, R179, R180 (e)). -/
theorem decodeRle_cut {flag : Bool} {count : BitVec 7} {tail : List Bool}
    (h : tail.length < 8 * (if flag then 1 else count.toNat)) :
    decodeRle (flag :: bitsOf 7 count.toNat ++ tail) = .error (.truncatedData count.toNat) := by
  rw [List.cons_append]
  cases flag with
  | true => simp only [decodeRle, takeBits_flag, takeBits_bitsOf, Nat.mod_eq_of_lt count.isLt, Bool.toNat_true, if_true,
      takeByte_short (show tail.length < 8 from h)]
  | false => simp only [decodeRle, takeBits_flag, takeBits_bitsOf, Nat.mod_eq_of_lt count.isLt, Bool.toNat_false,
      zero_ne_one, if_false, takeBytes_short (show tail.length < 8 * count.toNat from h)]

/-- The fault of a cut record: the count is tested before the data is read (R180 (e)). -/
theorem rejectCause_truncatedData (s : State) (k : Nat) :
    s.rejectCause (.truncatedData k) = if s.rleRoom < k then .malformedStream else .truncatedStream := rfl

/-- The turn of a RESTORE whose next RLE record is cut off; its window holds all that is left of the stream. -/
theorem engineTurn_rle_cut {s : State} {flag : Bool} {count : BitVec 7} {tail : List Bool} (hd : s.dir = .restore)
    (hp : s.dec = .rle) (hu : s.unread = flag :: bitsOf 7 count.toNat ++ tail)
    (h : tail.length < 8 * (if flag then 1 else count.toNat)) :
    engineTurn s = faultEntry (s.rejectCause (.truncatedData count.toNat)) s := by
  have hctx : s.ctx = .rle := by rw [State.ctx, hp]
  have hshort : s.unread.length ≤ 1024 := by
    have hcount := count.isLt
    rw [hu, List.length_append, List.length_cons, length_bitsOf]
    split at h <;> omega
  have hwindow : s.window Ctx.rle.maxBits = s.unread := by
    rw [window_eq_take]; exact List.take_of_length_le hshort
  refine engineTurn_raised ?_
  rw [fetchRecord_restore hd, readRecord, hctx, hwindow, hu, decode, decodeRle_cut h]

/-- Settles O36: the count of a whole record is tested before its bytes are produced, that of a cut one before the data is
found missing. -/
theorem overlongRleRecordIsMalformed : Obligations.OverlongRleRecordIsMalformed := by
  refine ⟨fun count v s hd h hcnt => ?_, fun data s hlen hd h hcnt => ?_,
    fun s flag count tail hh hb hd hp hcnt hu hcut => ?_⟩
  · exact exec_rle_overrun rfl rfl hd hcnt (by rwa [rleYield, List.length_replicate])
  · exact exec_rle_overrun rfl (decide_eq_true hlen) hd hcnt h
  · rw [step_busy hh hb, engineStep_eq, engineTurn_rle_cut hd hp hu hcut, rejectCause_truncatedData]
    refine ⟨_, rfl, ⟨rfl, rfl⟩, fun hover => ?_, fun hfits => ?_⟩
    · rw [if_pos ((rleRoom_lt_iff hcnt _).mpr hover)]
      exact faulted_faultEntry _ s
    · rw [if_neg (mt (rleRoom_lt_iff hcnt _).mp hfits.not_gt)]
      exact faulted_faultEntry _ s

end Sys2Proof.Machine
end

section
/-! The code sequence of CLZW (R199): groups of ordinary codes, one for each table, with CLEAR between them. -/

namespace Sys2Proof.Machine

/-! ## Groups of codes -/

/-- An ordinary code of a table that holds `k` phrases (R192). -/
def KnownCode (k c : Nat) : Prop := c < 256 ∨ (258 ≤ c ∧ c < 258 + k)

/-- The groups of codes the loop of R194 writes from a table of `k` phrases on. A code is the last of its group at the end
of the input, or where the phrase it inserts fills the table (R194, R196). -/
inductive CodeGroups (w : LzwWidth) : (k : Nat) → List (List Nat) → Prop where
  | last {k c : Nat} (hc : KnownCode k c) : CodeGroups w k [[c]]
  | full {k c : Nat} {more : List (List Nat)} (hc : KnownCode k c) (hk : 258 + k + 1 = w.cap)
      (h : CodeGroups w 0 more) : CodeGroups w k ([c] :: more)
  | code {k c : Nat} {group : List Nat} {more : List (List Nat)} (hc : KnownCode k c)
      (h : CodeGroups w (k + 1) (group :: more)) : CodeGroups w k ((c :: group) :: more)

theorem CodeGroups.exists_cons {w : LzwWidth} {k : Nat} {groups : List (List Nat)} (h : CodeGroups w k groups) :
    ∃ group more, groups = group :: more := by
  cases h <;> exact ⟨_, _, rfl⟩

/-- One more code in front of the codes of a group. -/
theorem knownCode_cons {k c : Nat} {group : List Nat} (hc : KnownCode k c)
    (h : ∀ j c', group[j]? = some c' → KnownCode (k + 1 + j) c') :
    ∀ j c', (c :: group)[j]? = some c' → KnownCode (k + j) c' := by
  intro j c' hj
  cases j with
  | zero => rw [← Option.some.inj hj]; exact hc
  | succ j => rw [← Nat.succ_add_eq_add_succ]; exact h j c' hj

/-- The first group continues the table of `k` phrases, which it fills unless it is the last; the other groups start from an
empty table. -/
theorem CodeGroups.first {w : LzwWidth} {k : Nat} {group : List Nat} {more : List (List Nat)}
    (h : CodeGroups w k (group :: more)) :
    group ≠ [] ∧ (∀ j c, group[j]? = some c → KnownCode (k + j) c) ∧
      (more = [] ∨ 258 + k + group.length = w.cap ∧ CodeGroups w 0 more) := by
  generalize hgroups : group :: more = groups at h
  induction h generalizing group more with
  | last hc =>
    cases hgroups
    exact ⟨List.cons_ne_nil _ _, knownCode_cons hc nofun, .inl rfl⟩
  | full hc hk hmore =>
    cases hgroups
    exact ⟨List.cons_ne_nil _ _, knownCode_cons hc nofun, .inr ⟨hk, hmore⟩⟩
  | code hc _ ih =>
    cases hgroups
    obtain ⟨_, hcodes, hmore⟩ := ih rfl
    exact ⟨List.cons_ne_nil _ _, knownCode_cons hc hcodes,
      hmore.imp_right fun ⟨hlen, hrest⟩ => ⟨by rw [List.length_cons]; omega, hrest⟩⟩

/-- R199 of the groups from an empty table on. -/
theorem CodeGroups.all {w : LzwWidth} {groups : List (List Nat)} (h : CodeGroups w 0 groups) :
    (∀ g ∈ groups, g ≠ [] ∧ ∀ j c, g[j]? = some c → KnownCode j c) ∧
      ∀ g ∈ groups.dropLast, g.length = 2 ^ w.bits - 258 := by
  induction groups with
  | nil => exact ⟨nofun, nofun⟩
  | cons group more ih =>
    obtain ⟨hne, hcodes, hmore⟩ := h.first
    simp only [Nat.zero_add] at hcodes
    obtain rfl | ⟨hlen, hrest⟩ := hmore
    · exact ⟨List.forall_mem_singleton.mpr ⟨hne, hcodes⟩, nofun⟩
    · obtain ⟨hall, hfull⟩ := ih hrest
      obtain ⟨next, more, rfl⟩ := hrest.exists_cons
      rw [List.dropLast_cons_cons]
      exact ⟨List.forall_mem_cons.mpr ⟨⟨hne, hcodes⟩, hall⟩,
        List.forall_mem_cons.mpr ⟨by change _ = w.cap - 258; omega, hfull⟩⟩

/-! ## The codes of the loop in groups -/

/-- The code of a known string is one of its table (R192). -/
theorem knownCode_phraseCode {dict : List (List Byte)} {str : List Byte} (h : phraseKnown dict str = true) :
    KnownCode dict.length (phraseCode dict str) := by
  obtain ⟨b, hb, _⟩ | ⟨k, hk, hstr⟩ := codeString_cases (codeString_phraseCode h)
  · rw [hb]; exact .inl b.isLt
  · obtain ⟨hlt, _⟩ := List.getElem?_eq_some_iff.mp hstr
    rw [hk]; exact .inr ⟨by omega, by omega⟩

/-- The loop of R194 writes its codes in groups. -/
theorem lzwCodesFrom_groups {w : LzwWidth} {dict : List (List Byte)} {buffer input : List Byte}
    (hbuffer : buffer = [] ∨ phraseKnown dict buffer = true) (hne : buffer ++ input ≠ []) :
    ∃ groups, (lzwCodesFrom w dict buffer input).1 = List.intercalate [256] groups ∧
      CodeGroups w dict.length groups := by
  induction input generalizing dict buffer with
  | nil =>
    have hknown := hbuffer.resolve_left fun h => hne (by rw [h]; rfl)
    exact ⟨_, (List.intercalate_singleton ..).symm, .last (knownCode_phraseCode hknown)⟩
  | cons b input ih =>
    rw [lzwCodesFrom]
    split
    · next hext => exact ih (.inr hext) (by simp)
    · next hext =>
      have hknown := hbuffer.resolve_left (by rintro rfl; exact hext rfl)
      have hcode := knownCode_phraseCode hknown
      split
      · next hfull =>
        obtain ⟨groups, hcodes, hgroups⟩ := ih (dict := []) (buffer := [b]) (.inr rfl) (by simp)
        refine ⟨[phraseCode dict buffer] :: groups, ?_, .full hcode hfull hgroups⟩
        obtain ⟨group, more, rfl⟩ := hgroups.exists_cons
        dsimp only
        rw [hcodes]; rfl
      · obtain ⟨groups, hcodes, hgroups⟩ := ih (dict := dict ++ [buffer ++ [b]]) (buffer := [b]) (.inr rfl) (by simp)
        rw [List.length_append, List.length_singleton] at hgroups
        obtain ⟨group, more, rfl⟩ := hgroups.exists_cons
        refine ⟨(phraseCode dict buffer :: group) :: more, ?_, .code hcode hgroups⟩
        dsimp only
        rw [hcodes]
        cases more <;> rfl

/-- Settles O32: a command that completes has written the codes of the loop, which come in groups. -/
theorem lzwEncoderCodeGroups : Obligations.LzwEncoderCodeGroups := by
  intro s t w hr hwf hw h hd
  obtain ⟨hin, _⟩ := compressInput_of_done (alg := .lzw) hr h hd
  obtain ⟨hfits, hover⟩ := clzwWritesDictionaryCodes s w _ hr hwf hw hin rfl
  have hdone := completed_of_done (alg := .lzw) h hd hfits hover
  have hinput : (s.ibufBytes 0 s.total).length = s.total := length_ibufBytes s 0 s.total
  have hne := List.ne_nil_of_length_pos (hinput ▸ Nat.pos_of_ne_zero (total_ne_zero hin.2.1))
  obtain ⟨groups, hcodes, hgroups⟩ := lzwCodesFrom_groups (w := w) (dict := []) (buffer := []) (.inl rfl) hne
  obtain ⟨group, more, rfl⟩ := hgroups.exists_cons
  obtain ⟨hall, hfull⟩ := CodeGroups.all hgroups
  refine ⟨_, ?_, List.cons_ne_nil _ _, fun g hg => (hall g hg).1, fun g hg => (hall g hg).2, hfull⟩
  rw [← hcodes]
  exact hdone.obuf

end Sys2Proof.Machine
end

section
/-! One LZW code at a time: what it does in a COMPRESS (R194 to R197) and in a RESTORE (R200 to R210). -/

namespace Sys2Proof.Machine

/-! ## A code of a COMPRESS -/

/-- The bits appended by a write after which only registers outside the writer have changed. -/
theorem appends_of_pending {s t : State} {bits : List Bool} {bytes : List Byte} {cnt acc : Nat} (hb : s.state = .busy)
    (hp : Pending s bits bytes cnt acc) (h : SameWriter (s.wrote bytes cnt acc) t) : Appends s t bits := by
  obtain ⟨t, ht, happ, _⟩ := (Res.LeavesWriter.goesOn h).appendsBits hb hp
  cases ht
  exact happ

/-- After a code before the end of the input: the phrase is inserted, the buffer is the byte that ended it, and CLEAR
follows where the table is full (R195, R196). -/
def State.learned (w : LzwWidth) (c : Nat) (s : State) : State :=
  { lzwInsert c (s.ibufByte s.idx) s with
    cur := some (s.ibufByte s.idx).toNat, idx := s.idx + 1,
    enc := if s.next + 1 = w.cap then .lzwClear else .lzwCodes }

theorem emitOrdinary_before {w : LzwWidth} {c : Nat} {s u : State} (hput : putBits c w.bits s = .ok u)
    (hidx : u.idx < u.total) : emitOrdinary w c s = .ok (u.learned w c) := by
  rw [emitOrdinary, emitCode, hput, bind_ok, if_pos hidx]
  dsimp only
  rw [lzwInsert_next]
  rfl

theorem emitOrdinary_end {w : LzwWidth} {c : Nat} {s u : State} (hput : putBits c w.bits s = .ok u)
    (hidx : u.total ≤ u.idx) : emitOrdinary w c s = .ok { u with enc := .lzwEnd } := by
  rw [emitOrdinary, emitCode, hput, bind_ok, if_neg hidx.not_gt]

/-- What follows the code: CLEAR exactly where the table is full (R196). -/
theorem learned_enc (w : LzwWidth) (c : Nat) (s : State) :
    ((s.learned w c).enc = .lzwClear ↔ s.next + 1 = w.cap) ∧
      ((s.learned w c).enc = .lzwCodes ↔ s.next + 1 ≠ w.cap) := by
  by_cases hfull : s.next + 1 = w.cap <;> simp [State.learned, hfull]

/-- Settles O30: the code is written, then the input has a next byte or has not. -/
theorem encoderOrdinaryCodeLearns : Obligations.EncoderOrdinaryCodeLearns := by
  intro w c s hc h1 h2 hd hb hcnt hacc hfit
  obtain ⟨bytes, cnt, acc, hput, hp⟩ := putBits_pending (v := c) (n := w.bits) hcnt hacc
    (by rwa [State.Fits, length_bitsOf])
  have hrun : exec (lzwInstr w c) s = .next (emitOrdinary w c s).settle := by
    rw [exec_lzwOrdinary w c s hc h1 h2, lzwOrdinary, hd]
  have htotal : (s.wrote bytes cnt acc).total = s.total := total_congr
  by_cases hidx : s.idx < s.total
  · rw [hrun, emitOrdinary_before hput (by rw [htotal]; exact hidx), settle_ok]
    obtain ⟨hclear, hcodes⟩ := learned_enc w c (s.wrote bytes cnt acc)
    exact ⟨_, rfl, appends_of_pending hb hp {}, hb, rfl,
      fun _ => ⟨rfl, lzwInsert_next c _ (s.wrote bytes cnt acc), rfl, rfl, hclear, hcodes⟩,
      fun h => absurd hidx h.not_gt⟩
  · rw [hrun, emitOrdinary_end hput (by rw [htotal]; exact Nat.le_of_not_lt hidx), settle_ok]
    exact ⟨_, rfl, appends_of_pending hb hp {}, hb, rfl, fun h => absurd h hidx, fun _ => ⟨rfl, rfl, rfl, rfl⟩⟩

/-! ## The cases of a code read by a RESTORE -/

section Cases

variable {w : LzwWidth} {c p : Nat} {s : State}

/-- Any code but CLEAR before the first CLEAR (R200). -/
theorem recordRun_unstarted (hc : c < w.cap) (h1 : c ≠ 256) (hd : s.dir = .restore) (hs : s.started = false) :
    recordRun (lzwInstr w c) s = .raised .malformedStream s := by
  by_cases h2 : c = 257
  · rw [h2, recordRun_lzwEnd, lzwEnd, hd]
    exact if_pos hs
  · rw [recordRun_ordinary hc h1 h2, lzwOrdinary, hd]
    exact if_pos hs

theorem readOrdinary_literal (hs : s.started = true) (hp : s.prev = none) (hc : c < 256) :
    readOrdinary w c s = (emitString [BitVec.ofNat 8 c] s).bind fun t => .ok { t with prev := some c } := by
  rw [readOrdinary, if_neg (by rw [hs]; decide), hp]
  exact if_neg (by omega)

theorem readOrdinary_phrase (hs : s.started = true) (hp : s.prev = none) (hc : 258 ≤ c) :
    readOrdinary w c s = .raised .malformedStream s := by
  rw [readOrdinary, if_neg (by rw [hs]; decide), hp]
  exact if_pos hc

theorem readOrdinary_present (hs : s.started = true) (hp : s.prev = some p) (hc : c < s.next) :
    readOrdinary w c s = learnAndEmit w c p (lzwFirst s.lzwTable c) (lzwStr s.lzwTable c) s := by
  rw [readOrdinary, if_neg (by rw [hs]; decide), hp]
  exact if_pos hc

theorem readOrdinary_next (hs : s.started = true) (hp : s.prev = some p) :
    readOrdinary w s.next s = learnAndEmit w s.next p (lzwFirst s.lzwTable p)
      (lzwStr s.lzwTable p ++ [lzwFirst s.lzwTable p]) s := by
  rw [readOrdinary, if_neg (by rw [hs]; decide), hp]
  exact (if_neg (Nat.lt_irrefl _)).trans (if_pos rfl)

theorem readOrdinary_above (hs : s.started = true) (hp : s.prev = some p) (hc : s.next < c) :
    readOrdinary w c s = .raised .malformedStream s := by
  rw [readOrdinary, if_neg (by rw [hs]; decide), hp]
  exact (if_neg hc.not_gt).trans (if_neg hc.ne')

/-- A string that runs past the image (R209). -/
theorem emitString_over {bytes : List Byte} (h : s.total < s.wpos + bytes.length) :
    emitString bytes s = .raised .malformedStream s := if_pos h

/-- An insertion that is due in a full table (R208). -/
theorem learnAndEmit_full {fb : Byte} {bytes : List Byte} (h : s.next = w.cap) :
    learnAndEmit w c p fb bytes s = .raised .tableOverflow s := if_pos h

theorem learnAndEmit_over {fb : Byte} {bytes : List Byte} (hcap : s.next ≠ w.cap)
    (h : s.total < s.wpos + bytes.length) :
    learnAndEmit w c p fb bytes s = .raised .malformedStream (lzwInsert p fb s) := by
  rw [learnAndEmit, if_neg hcap, emitString_over (s := lzwInsert p fb s) h, bind_raised]

theorem exec_readOrdinary (hc : c < w.cap) (h1 : c ≠ 256) (h2 : c ≠ 257) (hd : s.dir = .restore) :
    exec (lzwInstr w c) s = .next (readOrdinary w c s).settle := by
  rw [exec_lzwOrdinary w c s hc h1 h2, lzwOrdinary, hd]

end Cases

/-- The fault of a run that raises in a state with the inputs and the size of `s`. -/
theorem faulted_of_raised {i : Instr} {s u : State} {r : Res} {cause : Cause} (h : exec i s = .next r.settle)
    (hr : r = .raised cause u) (hin : SameInputs s u := by exact ⟨rfl, rfl, rfl, rfl, rfl, rfl, rfl⟩)
    (hsize : SameSize s u := by exact ⟨rfl, rfl⟩) : ∃ t, exec i s = .next t ∧ Faulted cause s t ∧ SameSize s t := by
  rw [h, hr]
  exact ⟨_, rfl, faulted_of_inputs cause hin, hsize⟩

/-- Settles O37: directly after CLEAR there is no `PREV`, and only a literal has a string. -/
theorem firstCodeAfterClearIsALiteral : Obligations.FirstCodeAfterClearIsALiteral := by
  intro w c s hc h1 h2 hd _ hs hp
  have hrun := exec_readOrdinary hc h1 h2 hd
  refine ⟨fun hlit hroom hcap => ?_, fun hphrase => ?_⟩
  · rw [hrun, readOrdinary_literal hs hp hlit, emitString_ok hroom hcap]
    exact ⟨_, rfl, stores_writeBytes s _ _ rfl rfl rfl, rfl⟩
  · exact faulted_of_raised hrun (readOrdinary_phrase hs hp hphrase)

/-- Settles O38: the code's string is emitted and its first byte learned. -/
theorem presentCodeIsEmittedAndLearned : Obligations.PresentCodeIsEmittedAndLearned := by
  intro w c p s hc hnext h1 h2 hd _ hs hp hfull hroom hcap
  rw [exec_readOrdinary hc h1 h2 hd, readOrdinary_present hs hp hnext, learnAndEmit_ok hfull hroom hcap]
  exact ⟨_, rfl, stores_writeBytes s _ _ rfl rfl rfl, rfl⟩

/-! ## The code being learned (R206) -/

/-- A literal, or a phrase of the table, has a string (R42). -/
theorem exists_codeString {dict : List (List Byte)} {c : Nat} (hc : c < 258 + dict.length) (h1 : c ≠ 256)
    (h2 : c ≠ 257) : ∃ str, codeString dict c = some str := by
  unfold codeString
  by_cases hl : c < 256
  · rw [if_pos hl]; exact ⟨_, rfl⟩
  · rw [if_neg hl, if_neg (by omega)]
    exact ⟨_, List.getElem?_eq_getElem (by omega)⟩

/-- A table in which every entry extends an earlier code stands for strings (R40, R42). -/
theorem exists_tableStrings {table : List LzwEntry}
    (h : ∀ k e, table[k]? = some e → e.pfx < 258 + k ∧ e.pfx ≠ 256 ∧ e.pfx ≠ 257) :
    ∃ dict, TableStrings table dict := by
  induction table using List.reverseRecOn with
  | nil => exact ⟨[], tableStrings_nil⟩
  | append_singleton table e ih =>
    obtain ⟨dict, hdict⟩ := ih fun k e' hk => by
      obtain ⟨hlt, _⟩ := List.getElem?_eq_some_iff.mp hk
      exact h k e' (by rw [List.getElem?_append_left hlt, hk])
    obtain ⟨hlt, h1, h2⟩ := h table.length e List.getElem?_concat_length
    rw [hdict.length] at hlt
    obtain ⟨str, hstr⟩ := exists_codeString hlt h1 h2
    exact ⟨_, hdict.insert hstr e.sfx⟩

/-- The string of the entry just inserted. -/
theorem lzwStr_insert {table : List LzwEntry} {p : Nat} (hp : p < 258 + table.length) (h1 : p ≠ 256) (h2 : p ≠ 257)
    (h : ∀ k e, table[k]? = some e → e.pfx < 258 + k ∧ e.pfx ≠ 256 ∧ e.pfx ≠ 257) (b : Byte) :
    lzwStr (table ++ [{ pfx := p, sfx := b }]) (258 + table.length) = lzwStr table p ++ [b] := by
  obtain ⟨dict, hdict⟩ := exists_tableStrings h
  obtain ⟨str, hstr⟩ := exists_codeString (hdict.length ▸ hp) h1 h2
  have hlast : codeString (dict ++ [str ++ [b]]) (258 + table.length) = some (str ++ [b]) := by
    rw [codeString_phrase, hdict.length, List.getElem?_concat_length]
  rw [((hdict.insert hstr b).str hlast).1, (hdict.str hstr).1]

/-- Settles O39: the phrase that is learned is the one the code stands for. -/
theorem codeEqualToNextIsReconstructed : Obligations.CodeEqualToNextIsReconstructed := by
  intro w p s hnext hd _ hs hp hdef horder hroom hcap
  have hge : 258 ≤ s.next := Nat.le_add_right _ _
  obtain ⟨hlt, h1, h2⟩ : p < 258 + s.lzwTable.length ∧ p ≠ 256 ∧ p ≠ 257 := by
    have hdef : p < 256 ∨ 258 ≤ p ∧ p < 258 + s.lzwTable.length := hdef
    omega
  rw [exec_readOrdinary hnext (by omega) (by omega) hd, readOrdinary_next hs hp,
    learnAndEmit_ok hnext.ne (by rwa [List.length_append]) hcap]
  exact ⟨_, rfl, stores_writeBytes s _ _ rfl rfl rfl, lzwStr_insert hlt h1 h2 horder _, rfl⟩

/-! ## The faults of a code (R200, R207 to R209) -/

/-- Settles O40: the tests of R200 and R207 to R209, each in the state in which it is reached. -/
theorem lzwDecoderFaults : Obligations.LzwDecoderFaults := by
  intro w c s hc h1 hd _
  refine ⟨fun hs => ?_, fun p hs h2 hp => ?_, fun hs hp hlit hover => ?_⟩
  · refine faulted_of_raised ?_ (recordRun_unstarted hc h1 hd hs)
    rw [exec_record (isRecord_lzwInstr w c), recordEffect_eq_settle]
  · have hrun := exec_readOrdinary hc h1 h2 hd
    refine ⟨fun habove => ?_, fun hpresent hfull => ?_, fun hpresent hroom hover => ?_, fun hlast _ hover => ?_⟩
    · exact faulted_of_raised hrun (readOrdinary_above hs hp habove)
    · exact faulted_of_raised hrun ((readOrdinary_present hs hp hpresent).trans (learnAndEmit_full hfull))
    · exact faulted_of_raised hrun ((readOrdinary_present hs hp hpresent).trans (learnAndEmit_over hroom hover))
    · subst hlast
      exact faulted_of_raised hrun ((readOrdinary_next hs hp).trans
        (learnAndEmit_over hc.ne (by rwa [List.length_append])))
  · refine faulted_of_raised (exec_readOrdinary hc h1 (by omega) hd) ?_
    rw [readOrdinary_literal hs hp hlit, emitString_over hover, bind_raised]

/-! ## CLEAR and END (R202, R203) -/

/-- Settles O41: CLEAR in either direction; END after the last byte of the image, or before it. -/
theorem clearAndEndControlTheStream : Obligations.ClearAndEndControlTheStream := by
  intro w s
  refine ⟨fun hd => ?_, fun hd hb hcnt hacc hfit => ?_, fun hd halg _ hs => ?_⟩
  · have hclear : lzwClear w s = readClear s := by rw [lzwClear, hd]
    rw [exec_lzwClear, hclear]; rfl
  · obtain ⟨bytes, cnt, acc, hput, hp⟩ := putBits_pending (s := { s with lzwTable := [] }) (v := 256) (n := w.bits)
      hcnt hacc (by rwa [State.Fits, length_bitsOf])
    rw [exec_lzwClear, lzwClear, hd]
    dsimp only
    rw [emitClear, emitCode, hput]
    exact ⟨_, rfl, appends_of_pending hb { hp with } {}, rfl, rfl, rfl, rfl, hb, rfl⟩
  · have hrun : exec (lzwInstr w 257) s = .next (readEnd s).settle := by rw [exec_lzwEnd, lzwEnd, hd]
    have hstarted : ¬s.started = false := by rw [hs]; decide
    refine ⟨fun hfull => ?_, fun hshort => ?_⟩
    · rw [hrun, readEnd, if_neg hstarted, if_neg (not_not.mpr hfull), settle_ok]
      refine ⟨_, rfl, rfl, rfl, hfull, rfl, ?_, ?_, ⟨rfl, rfl, rfl, rfl, rfl, rfl, rfl⟩, ⟨rfl, rfl⟩,
        fun a ha => ?_⟩
      · change s.finalStatTable = _
        rw [State.finalStatTable, halg]
      · change s.finalStatClears = _
        rw [State.finalStatClears, halg]
      · change Memory.lookup (Memory.below s.wpos s.obuf) a = _
        rw [lookup_below, if_pos (by rwa [hfull])]
    · exact faulted_of_raised hrun ((if_neg hstarted).trans (if_pos hshort.ne))

/-! ## A stream of another width (R210) -/

/-- Where the first bit of a CLEAR code that is set stands. -/
theorem idxOf_clear (w : LzwWidth) (rest : List Bool) : (lzwCodeBits w 256 ++ rest).idxOf true = w.bits - 9 := by
  cases w <;> rfl

theorem LzwWidth.eq_of_bits_sub {v w : LzwWidth} (h : v.bits - 9 = w.bits - 9) : v = w := by
  cases v <;> cases w <;> simp_all [LzwWidth.bits]

/-- A CLEAR code is no CLEAR code of another width (R210). -/
theorem clear_width_unique {v w : LzwWidth} {rest rest' : List Bool}
    (h : lzwCodeBits v 256 ++ rest = lzwCodeBits w 256 ++ rest') : v = w := by
  have hidx := congrArg (List.idxOf true) h
  rw [idxOf_clear, idxOf_clear] at hidx
  exact LzwWidth.eq_of_bits_sub hidx

/-- The bits in front of a stream that is long enough are a code. -/
theorem exists_code {w : LzwWidth} {bits : List Bool} (h : w.bits ≤ bits.length) :
    ∃ c rest, c < w.cap ∧ bits = lzwCodeBits w c ++ rest := by
  have hlen : (bits.take w.bits).length = w.bits := List.length_take_of_le h
  refine ⟨bitsVal (bits.take w.bits), bits.drop w.bits, ?_, ?_⟩
  · have hlt := bitsVal_lt (bits.take w.bits)
    rwa [hlen] at hlt
  · have hbits := bitsOf_bitsVal (bits.take w.bits)
    rw [hlen] at hbits
    rw [lzwCodeBits, hbits, List.take_append_drop]

/-- The turn of an LZW RESTORE of which less than a code is left (R156). -/
theorem engineTurn_code_cut {s : State} (hd : s.dir = .restore) (hp : s.dec = .lzw) (h : s.unread.length < s.w.bits) :
    engineTurn s = faultEntry .truncatedStream s := by
  have hctx : s.ctx = .lzw s.w := by rw [State.ctx, hp]
  have hwindow : s.window s.ctx.maxBits = s.unread := by
    rw [hctx, window_eq_take]; exact List.take_of_length_le h.le
  refine engineTurn_raised ?_
  rw [fetchRecord_restore hd, readRecord, hwindow, hctx, decode, takeBits_short _ _ h]
  rfl

/-- The turn of an LZW RESTORE whose first code is no CLEAR (R200). -/
theorem engineTurn_unstarted {s : State} {c : Nat} {rest : List Bool} (hd : s.dir = .restore) (hp : s.dec = .lzw)
    (hl : ∀ l ∈ s.lens, l ≤ 16) (hs : s.started = false) (hc : c < s.w.cap) (h1 : c ≠ 256)
    (hu : s.unread = lzwCodeBits s.w c ++ rest) :
    engineTurn s = faultEntry .malformedStream (skipBits s.w.bits s) := by
  obtain ⟨hw, henc⟩ := encode_lzwInstr hc
  rw [lzwCodeBits, ← henc] at hu
  have hctx : s.ctx.admits (lzwInstr s.w c) := by rw [State.ctx, hp]; exact admits_lzwInstr _ _
  rw [engineTurn_reads hd hl hw hctx hu, henc, length_bitsOf,
    recordRun_unstarted (s := skipBits s.w.bits s) hc h1 hd hs, settle_raised]

/-- RLZW after its header (R125). -/
def lzwHeaded (w : LzwWidth) (width height : Half) (s : State) : State :=
  { headed .lzw w width height s with dec := .lzw }

/-- RLZW whose turn after the header enters FAULT. -/
theorem rlzw_of_turn_raised {s u : State} {w : LzwWidth} {width height : Half} {payload : List Bool} {c : Cause}
    (hr : s.Ready) (hw : legalWidth s.lzwW = some w) (hin : s.RestoreInput width height payload)
    (h : engineTurn (lzwHeaded w width height s) = faultEntry c u) :
    exec .rlzw s = .next (faultEntry c u) ∧ Faulted c s (faultEntry c u) := by
  obtain ⟨w', hw', hbegin, hturn, _⟩ := finishes_restore (alg := .lzw)
    (fun _ => by rw [hw]; exact Option.some_ne_none w) hin
  obtain rfl : w = w' := Option.some.inj (hw.symm.trans (hw' rfl))
  rw [beginDecode_lzw rfl, settle_ok] at hturn
  have hf : Finishes (beginCommand .restore .lzw s) (faultEntry c u) := by
    rw [hbegin]
    refine .turn rfl ?_
    rw [hturn]
    refine .turn rfl ?_
    change Finishes (engineTurn (lzwHeaded w width height s)) _
    rw [h]
    exact .quiet nofun
  exact ⟨exec_of_finishes hr hf, faulted_of_finishes hf⟩

/-- Settles O42: the payload begins with no CLEAR of the width it is read with, or holds no code of that width. -/
theorem lzwWidthMismatchFaults : Obligations.LzwWidthMismatchFaults := by
  intro s written read width height rest hr hread hne hin
  set t := lzwHeaded read width height s
  have hbits : t.unread = lzwCodeBits written 256 ++ rest := by
    obtain ⟨_, hinput, _, _⟩ := hin
    rw [lzwCodeBits, ← (encode_lzwInstr (capacity_codes written).1).2]
    exact (unread_congr (s := headed .lzw read width height s)).trans (unread_headed hinput)
  have hlen : t.unread.length = written.bits + rest.length := by
    rw [hbits, List.length_append, lzwCodeBits, length_bitsOf]
  by_cases hwhole : read.bits ≤ written.bits + rest.length
  · obtain ⟨c, rest', hc, hcode⟩ := exists_code (hlen ▸ hwhole)
    have h1 : c ≠ 256 := by
      rintro rfl
      exact hne (clear_width_unique (hbits.symm.trans hcode))
    obtain ⟨hexec, hfaulted⟩ := rlzw_of_turn_raised hr hread hin
      (engineTurn_unstarted (s := t) rfl rfl nofun rfl hc h1 hcode)
    exact ⟨_, hexec, rfl, rfl, fun _ => hfaulted, fun h => absurd hwhole h.not_ge⟩
  · obtain ⟨hexec, hfaulted⟩ := rlzw_of_turn_raised hr hread hin
      (engineTurn_code_cut (s := t) rfl rfl (hlen ▸ Nat.lt_of_not_le hwhole))
    exact ⟨_, hexec, rfl, rfl, fun h => absurd h hwhole, fun _ => hfaulted⟩

end Sys2Proof.Machine
end

section
/-! The header of CHUF builds the codes (R221 to R228), of which none begins another and which are complete (R233). -/

namespace Sys2Proof.Machine

/-! ## The header record (R124, R221 to R228) -/

theorem beginEncode_huf {s : State} (h : s.alg = .huf) :
    beginEncode s = (hufBuild s).bind fun t => .ok { t with enc := .hufSize, idx := 0 } := by
  simp only [beginEncode, h]

/-- Behind the header's bytes comes the first payload record of the codec. -/
theorem hdrRecord_fits {s : State} (width height : Half) (hd : s.dir = .compress)
    (hfit : s.wpos + 4 ≤ s.params.obufCap) :
    hdrRecord width height s = beginEncode (s.put (headerBytes width height)) := by
  rw [hdrRecord, hd]
  change (putBytes (headerBytes width height) s).bind beginEncode = _
  rw [putBytes_put hfit, bind_ok]

/-- A record of a COMPRESS whose run raises ends in that fault, and keeps what every run of a command keeps. -/
theorem exec_compress_raised {i : Instr} {s u : State} {c : Cause} (hi : i.isRecord = true) (hd : s.dir = .compress)
    (hrun : recordRun i s = .raised c u) : ∃ t, exec i s = .next t ∧ Faulted c s t ∧ SameSize s t := by
  have hreached : Reached s (recordRun i s).settle := (tied_settle (recordRun_keepsRun hi s s.host)).1
  rw [exec_record hi, recordEffect_eq_settle]
  rw [hrun, settle_raised] at hreached ⊢
  exact ⟨_, rfl, { faulted_faultEntry c u with inputs := hreached.inputs }, hreached.size hd⟩

/-- From a cleared table the frequency pass counts the input (R221). -/
theorem inputFreq_getD {s : State} (hfreq : s.freq = List.replicate 256 0) (b : Byte) :
    s.inputFreq.getD b.toNat 0 = (s.ibufBytes 0 s.total).count b := by
  obtain ⟨_, hcount⟩ := freqCount_spec (freq := s.freq) (bytes := s.ibufBytes 0 s.total)
    (by rw [hfreq, List.length_replicate])
  rw [State.inputFreq, hcount, hfreq, List.getD_replicate _ b.isLt, Nat.zero_add]

/-- Settles O28: the header's bytes, then the tree and the codes of the input. -/
theorem huffmanHeaderBuildsTheCodes : Obligations.HuffmanHeaderBuildsTheCodes := by
  intro s width height hd halg hb _ hfit hn hfreq hlen hcode
  set bytes := s.ibufBytes 0 s.total with hbytes
  set s1 := s.put (headerBytes width height)
  have hinput : s1.ibufBytes 0 s1.total = bytes := ibufBytes_congr 0 s.total
  have hne : bytes ≠ [] :=
    List.ne_nil_of_length_pos (by rw [hbytes, length_ibufBytes]; exact Nat.pos_of_ne_zero (total_ne_zero hn))
  have hrun : hdrRecord width height s = (hufBuild s1).bind fun t => .ok { t with enc := .hufSize, idx := 0 } :=
    (hdrRecord_fits width height hd hfit).trans (beginEncode_huf halg)
  obtain ⟨hshort, hlong⟩ := hufBuild_spec hinput hne hfreq hlen hcode
  refine ⟨fun h => ?_, fun ⟨p, hp, hdeep⟩ => ?_⟩
  · obtain ⟨nodes, queue, codes, hbuild, htable⟩ := hshort h
    rw [exec_hdr, hrun, hbuild, bind_ok, settle_ok]
    refine ⟨_, rfl, stores_writeBytes s _ _ rfl rfl rfl, hb, rfl, rfl, ⟨rfl, rfl, rfl, rfl, rfl, rfl, rfl⟩,
      ⟨rfl, rfl⟩, fun p hp => ⟨htable.len p hp, htable.code p hp⟩, fun b hcount => ?_, fun b => ?_⟩
    · exact Nat.eq_zero_of_not_pos fun hpos =>
        List.count_eq_zero.mp hcount ((htable.pos_iff hne b).mp hpos)
    · exact (inputFreq_getD (s := s1) hfreq b).trans (congrArg (List.count b) hinput)
  · obtain ⟨u, hbuild⟩ := hlong fun h => (h p hp).not_gt hdeep
    exact exec_compress_raised rfl hd (hrun.trans (by rw [hbuild, bind_raised]))

/-! ## The codes of a tree are complete (R233) -/

/-- A path of length `l` takes `2 ^ (depth - l)` of the `2 ^ depth` bit strings of length `depth`. -/
def kraftSum (depth : Nat) (paths : List (Byte × List Bool)) : Nat :=
  (paths.map fun p => 2 ^ (depth - p.2.length)).sum

theorem kraftSum_append (depth : Nat) (ps qs : List (Byte × List Bool)) :
    kraftSum depth (ps ++ qs) = kraftSum depth ps + kraftSum depth qs := by
  rw [kraftSum, List.map_append, List.sum_append]; rfl

/-- An edge in front of every path takes up one bit of the depth. -/
theorem kraftSum_edge (depth : Nat) (b : Bool) (ps : List (Byte × List Bool)) :
    kraftSum (depth + 1) (ps.map fun p => (p.1, b :: p.2)) = kraftSum depth ps := by
  simp only [kraftSum, List.map_map, Function.comp_def, List.length_cons, Nat.add_sub_add_right]

/-- Every bit string long enough begins with the path of exactly one leaf. -/
theorem HufTree.kraftSum_paths {t : HufTree} {depth : Nat} (h : ∀ p ∈ t.paths, p.2.length ≤ depth) :
    kraftSum depth t.paths = 2 ^ depth := by
  induction t generalizing depth with
  | leaf f b => rfl
  | node f l r ihl ihr =>
    rw [HufTree.paths, List.forall_mem_append, List.forall_mem_map, List.forall_mem_map] at h
    obtain ⟨hl, hr⟩ := h
    obtain ⟨p, hp⟩ := List.exists_mem_of_ne_nil l.paths fun h => l.syms_ne_nil (by rw [HufTree.syms, h]; rfl)
    obtain ⟨depth, rfl⟩ := Nat.exists_eq_add_one.mpr (Nat.zero_lt_of_lt (hl p hp))
    rw [HufTree.paths, kraftSum_append, kraftSum_edge, kraftSum_edge,
      ihl fun p hp => Nat.le_of_succ_le_succ (hl p hp), ihr fun p hp => Nat.le_of_succ_le_succ (hr p hp), Nat.pow_succ,
      Nat.mul_two]

/-- Settles O29: one code per byte value, apart from each other; the codes are the paths of a tree, or the bit 0. -/
theorem huffmanCodesArePrefixFreeAndComplete : Obligations.HuffmanCodesArePrefixFreeAndComplete := by
  intro bytes hne
  have hsyms := hufPaths_syms hne
  refine ⟨fun b => ?_, ?_, fun depth htwo hdepth => ?_, fun hone => ?_⟩
  · rw [← mem_occurring, ← hsyms.mem_iff]
    simp only [List.mem_map, Prod.exists, exists_and_right, exists_eq_right]
  · have hdistinct := List.pairwise_map.mp (hsyms.nodup_iff.mpr (nodup_occurring bytes))
    exact hdistinct.and (hufPaths_apart hne)
  · cases hufCodes_of_ne_nil hne with
    | single b _ hp => rw [hp] at htwo; exact absurd htwo (Nat.lt_irrefl 1)
    | tree f l r _ _ hp _ =>
      rw [hp] at hdepth ⊢
      exact HufTree.kraftSum_paths hdepth
  · cases hufCodes_of_ne_nil hne with
    | single b _ hp => exact ⟨b, hp⟩
    | tree f l r htwo _ _ _ => rw [← hsyms.length_eq, List.length_map] at htwo; omega

end Sys2Proof.Machine
end

section
/-! The records of a Huffman RESTORE one by one (R235 to R241): the table size, the entries, the code search and the
code words. -/

namespace Sys2Proof.Machine

/-! ## The table (R235 to R237) -/

theorem hufLookup_isSome_iff {entries : List HufEntry} {l v : Nat} :
    (hufLookup entries l v).isSome = true ↔ ∃ e ∈ entries, e.len = l ∧ e.code = v := by
  induction entries with
  | nil => simp [hufLookup]
  | cons e es ih =>
    rw [hufLookup, List.exists_mem_cons_iff, ← ih]
    by_cases h : e.len = l ∧ e.code = v
    · simp [h]
    · rw [if_neg h]; exact (or_iff_right h).symm

/-- `LENS` holds the lengths of the entries, which are at most 16 (R236, R237). -/
theorem mem_lensOf_iff {entries : List HufEntry} (h : ∀ e ∈ entries, e.len ≤ 16) {l : Nat} :
    l ∈ lensOf entries ↔ ∃ e ∈ entries, e.len = l := by
  refine ⟨mem_lensOf, ?_⟩
  rintro ⟨e, he, rfl⟩
  exact List.mem_filter.mpr ⟨List.mem_range.mpr (Nat.lt_succ_of_le (h e he)),
    List.any_eq_true.mpr ⟨e, he, decide_eq_true rfl⟩⟩

theorem exec_readHsz (n : Byte) {s : State} (hd : s.dir = .restore) :
    exec (.hsz n) s = .next (readHsz n s).settle := by
  rw [exec_hsz, hszRecord, hd]

section Entries

variable {sym len : Byte} {code : Half} {s : State}

theorem exec_readHen (hd : s.dir = .restore) : exec (.hen sym len code) s = .next (readHen sym len code s).settle := by
  rw [exec_hen, henRecord, hd]

/-- An entry passes the checks of R236 and is collected; behind the last `LENS` is known (R237). -/
theorem readHen_legal (h1 : 1 ≤ len.toNat) (h16 : len.toNat ≤ 16) (hcode : code.toNat < 2 ^ len.toNat)
    (hnew : ∀ e ∈ s.dtab, ¬(e.len = len.toNat ∧ e.code = code.toNat)) {dtab : List HufEntry}
    (hdtab : dtab = s.dtab ++ [{ sym := sym, len := len.toNat, code := code.toNat }]) :
    readHen sym len code s = if dtab.length < s.dn then .ok { s with dtab := dtab }
      else .ok { s with dtab := dtab, lens := lensOf dtab, dec := .hufCodes } := by
  rw [readHen, if_neg (by omega), if_neg hcode.not_ge, hufLookup_eq_none hnew, Option.isSome_none,
    if_neg Bool.false_ne_true, hdtab]

/-- The checks of R236 raise one cause. -/
theorem readHen_illegal (h : len.toNat = 0 ∨ 16 < len.toNat ∨ 2 ^ len.toNat ≤ code.toNat ∨
    ∃ e ∈ s.dtab, e.len = len.toNat ∧ e.code = code.toNat) :
    readHen sym len code s = .raised .malformedStream s := by
  rw [← or_assoc, ← hufLookup_isSome_iff] at h
  rw [readHen]
  by_cases hlen : len.toNat = 0 ∨ 16 < len.toNat
  · exact if_pos hlen
  rw [if_neg hlen]
  by_cases hcode : 2 ^ len.toNat ≤ code.toNat
  · exact if_pos hcode
  rw [if_neg hcode]
  exact if_pos ((h.resolve_left hlen).resolve_left hcode)

end Entries

/-- Settles O43: the size is latched; an entry passes the checks of R236 or fails one. -/
theorem tableSizeAndEntriesAreRead : Obligations.TableSizeAndEntriesAreRead := by
  refine ⟨fun n s hd => exec_readHsz n hd, fun sym len code s hd _ => ⟨?_, fun hbad => ?_⟩⟩
  · intro h1 h16 hcode hnew
    set dtab := s.dtab ++ [{ sym := sym, len := len.toNat, code := code.toNat }] with hdtab
    rw [exec_readHen hd, readHen_legal h1 h16 hcode hnew hdtab]
    by_cases hlast : dtab.length < s.dn
    · rw [if_pos hlast]
      exact ⟨_, rfl, rfl, rfl, fun _ => ⟨rfl, rfl⟩, fun h => absurd h hlast.ne⟩
    · rw [if_neg hlast]
      refine ⟨_, rfl, rfl, rfl, fun h => absurd h hlast, fun _ => ⟨rfl, pairwise_lensOf dtab, fun hold l => ?_⟩⟩
      exact mem_lensOf_iff (List.forall_mem_append.mpr ⟨hold, List.forall_mem_singleton.mpr h16⟩)
  · exact faulted_of_raised (exec_readHen hd) (readHen_illegal hbad)

/-! ## The code words (R238, R239, R241) -/

theorem exec_readHcw {len : BitVec 5} {code : Half} {s : State} (hd : s.dir = .restore) :
    exec (.hcw len code) s = .next (readHcw len code s).settle := by
  rw [exec_hcw, hcwRecord, hd]

/-- A code word of the table does what a byte of a NoOp payload does: its symbol is stored and counted (R127, R241). -/
theorem exec_hcw_eq_raw {len : BitVec 5} {code : Half} {s : State} {b : Byte} (hd : s.dir = .restore)
    (h : hufLookup s.dtab len.toNat code.toNat = some b) : exec (.hcw len code) s = exec (.raw b) s := by
  rw [exec_readHcw hd, exec_raw, rawRecord, hd, readHcw, h]
  rfl

theorem readHcw_unknown {len : BitVec 5} {code : Half} {s : State}
    (h : hufLookup s.dtab len.toNat code.toNat = none) : readHcw len code s = .raised .malformedStream s := by
  rw [readHcw, h]

/-- Settles O44: the symbol is stored like a byte of a NoOp payload; without an entry there is none. -/
theorem codeWordEmitsItsSymbol : Obligations.CodeWordEmitsItsSymbol := by
  intro len code s hd hb hlt hcap
  refine ⟨fun b hfound => ?_, fun hnone => faulted_of_raised (exec_readHcw hd) (readHcw_unknown hnone)⟩
  rw [exec_hcw_eq_raw hd hfound]
  exact rawByteIsCopied b s hd hb hlt hcap

/-! ## The code search (R238 to R240) -/

section Search

variable {entries : List HufEntry} {bits : List Bool}

/-- Candidate lengths without a match are passed over (R238). -/
theorem decodeCode_skip {front : List Nat} (back : List Nat) (h : ∀ k ∈ front, NoMatchAt entries bits k) :
    decodeCode entries (front ++ back) bits = decodeCode entries back bits := by
  induction front with
  | nil => rfl
  | cons k front ih =>
    obtain ⟨⟨hlen, hnone⟩, hfront⟩ := List.forall_mem_cons.mp h
    rw [List.cons_append, decodeCode, takeBits_of_le hlen]
    simp only [hnone, Option.isSome_none, if_neg Bool.false_ne_true]
    exact ih hfront

/-- A candidate longer than the bits that are left (R240). -/
theorem decodeCode_short {l : Nat} (back : List Nat) (h : bits.length < l) :
    decodeCode entries (l :: back) bits = .error .truncated := by
  rw [decodeCode, takeBits_short l bits h]

/-- What the search finds is a match, behind candidates without one (R238). -/
theorem exists_match_of_decodeCode {lens : List Nat} {i : Instr} {rest : List Bool}
    (h : decodeCode entries lens bits = .ok (i, rest)) : ∃ front l back, lens = front ++ l :: back ∧
      (∀ k ∈ front, NoMatchAt entries bits k) ∧ l ≤ bits.length ∧
      (hufLookup entries l (bitsVal (bits.take l))).isSome = true ∧
      i = .hcw (BitVec.ofNat 5 l) (BitVec.ofNat 16 (bitsVal (bits.take l))) ∧ rest = bits.drop l := by
  induction lens with
  | nil => cases h
  | cons l ls ih =>
    by_cases hlen : l ≤ bits.length
    · by_cases hsome : (hufLookup entries l (bitsVal (bits.take l))).isSome = true
      · rw [decodeCode, takeBits_of_le hlen] at h
        simp only [if_pos hsome] at h
        cases h
        exact ⟨[], l, ls, rfl, nofun, hlen, hsome, rfl, rfl⟩
      · have hnone : NoMatchAt entries bits l := ⟨hlen, by simpa using hsome⟩
        rw [← List.singleton_append, decodeCode_skip ls (List.forall_mem_singleton.mpr hnone)] at h
        obtain ⟨front, l', back, rfl, hfront, hmatch⟩ := ih h
        exact ⟨l :: front, l', back, rfl, List.forall_mem_cons.mpr ⟨hnone, hfront⟩, hmatch⟩
    · rw [decodeCode_short ls (Nat.lt_of_not_le hlen)] at h
      cases h

/-- The search takes the shortest match of an ascending list (R238). -/
theorem decodeCode_shortest {lens : List Nat} {len : BitVec 5} {code : Half} {rest : List Bool}
    (hasc : lens.Pairwise (· < ·)) (hlens : ∀ l ∈ lens, 1 ≤ l ∧ l ≤ 16)
    (h : decodeCode entries lens bits = .ok (.hcw len code, rest)) :
    len.toNat ∈ lens ∧ (hufLookup entries len.toNat code.toNat).isSome = true ∧
      bits = bitsOf len.toNat code.toNat ++ rest ∧
      ∀ l ∈ lens, l < len.toNat → hufLookup entries l (bitsVal (bits.take l)) = none := by
  obtain ⟨front, l, back, rfl, hfront, hlen, hsome, hi, rfl⟩ := exists_match_of_decodeCode h
  obtain ⟨rfl, rfl⟩ := Instr.hcw.inj hi
  have hmem : l ∈ front ++ l :: back := List.mem_append_right _ List.mem_cons_self
  obtain ⟨_, h16⟩ := hlens l hmem
  have htake : (bits.take l).length = l := List.length_take_of_le hlen
  have hval : bitsVal (bits.take l) < 2 ^ 16 := by
    refine (bitsVal_lt _).trans_le (Nat.pow_le_pow_right (by decide) ?_)
    rwa [htake]
  have h5 : (BitVec.ofNat 5 l).toNat = l := by rw [BitVec.toNat_ofNat]; omega
  rw [h5, BitVec.toNat_ofNat, Nat.mod_eq_of_lt hval]
  refine ⟨hmem, hsome, ?_, fun k hk hlt => ?_⟩
  · have hbits := bitsOf_bitsVal (bits.take l)
    rw [htake] at hbits
    rw [hbits, List.take_append_drop]
  · obtain hk | hk := List.mem_append.mp hk
    · exact (hfront k hk).2
    · obtain ⟨hback, _⟩ := List.pairwise_cons.mp (List.pairwise_append.mp hasc).2.1
      obtain rfl | hk := List.mem_cons.mp hk
      · exact absurd hlt (Nat.lt_irrefl _)
      · exact absurd hlt (hback k hk).not_gt

/-- Without a match there is no code (R239). -/
theorem decodeCode_noCode {lens : List Nat} (h : ∀ l ∈ lens, NoMatchAt entries bits l) :
    decodeCode entries lens bits = .error .noCode := by
  rw [← List.append_nil lens, decodeCode_skip [] h]; rfl

/-- Without a match before a candidate that is too long the stream is truncated (R240). -/
theorem decodeCode_truncated {lens : List Nat} {l : Nat} (hasc : lens.Pairwise (· < ·)) (hl : l ∈ lens)
    (hshort : bits.length < l) (h : ∀ k ∈ lens, k < l → NoMatchAt entries bits k) :
    decodeCode entries lens bits = .error .truncated := by
  obtain ⟨front, back, rfl⟩ := List.append_of_mem hl
  have hbefore := (List.pairwise_append.mp hasc).2.2
  rw [decodeCode_skip _ fun k hk => h k (List.mem_append_left _ hk) (hbefore k hk l List.mem_cons_self),
    decodeCode_short back hshort]

end Search

/-- A step of a running RESTORE where the decoder finds no record. -/
theorem step_restore_rejected {s : State} {r : Reject} (hh : s.host = []) (hb : s.state = .busy) (hd : s.dir = .restore)
    (hl : ∀ l ∈ s.lens, l ≤ 16) (h : decode s.ctx s.unread = .error r) :
    ∃ t, step s = .next t ∧ Faulted (s.rejectCause r) s t ∧ SameSize s t := by
  have hstep : engineStep s = .next (faultEntry (s.rejectCause r) s) := by
    have hturn := engineStep_restore s hd hl
    rwa [← State.unread, h] at hturn
  rw [step_busy hh hb, hstep]
  exact ⟨_, rfl, faulted_faultEntry _ s, rfl, rfl⟩

/-- Settles O45: the search, the code words of a table where no code begins another, the two ways of finding none. -/
theorem shortestCodeMatchWins : Obligations.ShortestCodeMatchWins := by
  refine ⟨fun entries lens bits hasc hlens => ⟨fun len code rest => decodeCode_shortest hasc hlens,
    decodeCode_noCode, fun l hl => decodeCode_truncated hasc hl⟩,
    fun entries lens e rest hasc hmem hlegal hfree he => ?_, fun s bits hh hb hd hp hasc hlens hbits => ?_⟩
  · have ht : HufTable entries := ⟨hlegal, hfree⟩
    have hfound := ht.lookup he
    refine ⟨?_, hfound⟩
    exact decodeCode_bitsOf rest ((hmem e.len).mpr ⟨e, he, rfl⟩) (by rw [hfound]; rfl) hasc
      (fun l _ hl => ht.lookup_shorter he hl) (hlegal e he).2.2
  · have hdecode : decode s.ctx s.unread = decodeCode s.dtab s.lens bits := by
      rw [State.ctx, hp, hbits]; rfl
    have hreject {r : Reject} (h : decodeCode s.dtab s.lens bits = .error r) :=
      step_restore_rejected hh hb hd (fun l hl => (hlens l hl).2) (hdecode.trans h)
    exact ⟨fun hnone => hreject (decodeCode_noCode hnone),
      fun l hl hshort hnone => hreject (decodeCode_truncated hasc hl hshort hnone)⟩

end Sys2Proof.Machine
end

section
/-! Faults of a command before its payload: an illegal command word or width (R122, R268), and a tree that is too deep
(R228, R266). -/

namespace Sys2Proof.Machine

/-! ## Illegal commands (R122) -/

theorem legalWidth_eq_none {v : BitVec 5} (h12 : v ≠ 12#5) (h16 : v ≠ 16#5) (h20 : v ≠ 20#5) : legalWidth v = none :=
  (if_neg h12).trans ((if_neg h16).trans (if_neg h20))

/-- An LZW command at an illegal width ends at its start, before the tests of its direction (R122). -/
theorem beginCommand_illegalWidth (dir : Dir) {s : State} (h : legalWidth s.lzwW = none) :
    beginCommand dir .lzw s = faultEntry .illegalCommand (startedAs dir .lzw s) := by
  have hwidth : legalWidth (startCommand s).lzwW = none := h
  simp only [beginCommand, hwidth]
  rfl

/-- Settles O6: both kinds of illegal command raise before anything but the registers of R121 has changed. -/
theorem illegalCommandsFault : Obligations.IllegalCommandsFault := by
  intro s hr
  refine ⟨fun word => ⟨beginIllegal s, acceptCommand_ready beginIllegal s hr, ?_, rfl, rfl, rfl, rfl⟩,
    fun dir h12 h16 h20 => ?_⟩
  · exact faulted_of_inputs .illegalCommand ⟨rfl, rfl, rfl, rfl, rfl, rfl, rfl⟩
  · have hbegin := beginCommand_illegalWidth dir (legalWidth_eq_none h12 h16 h20)
    have hf : Finishes (beginCommand dir .lzw s) (faultEntry .illegalCommand (startedAs dir .lzw s)) := by
      rw [hbegin]; exact .quiet nofun
    exact ⟨_, exec_of_finishes hr hf, faulted_of_finishes hf, rfl, rfl, rfl, rfl⟩

/-! ## Deep trees (R228) -/

/-- Settles O13: the header fits, and its record builds the tree and raises, in the command's first turn. -/
theorem chufFaultsOnDeepTrees : Obligations.ChufFaultsOnDeepTrees := by
  rintro s hr hcap hin ⟨p, hp, hdeep⟩
  obtain ⟨w, _, hbegin⟩ := beginCommand_compress (alg := .huf) nofun hin
  set b := begun .compress .huf w s
  have hbytes : b.ibufBytes 0 b.total = s.ibufBytes 0 s.total := ibufBytes_congr 0 s.total
  obtain ⟨t, hexec, hfault, _⟩ := (huffmanHeaderBuildsTheCodes b s.width s.height rfl rfl rfl rfl
    ((Nat.zero_add 4).trans_le hcap) hin.2.1 rfl rfl List.length_replicate).2 ⟨p, by rwa [hbytes], hdeep⟩
  have hturn : engineTurn b = t :=
    Host.Outcome.next.inj ((engineStep_eq b).symm.trans ((engineStep_compress b rfl).trans hexec))
  have hf : Finishes (beginCommand .compress .huf s) t := by
    rw [hbegin]
    exact .turn rfl (by rw [hturn]; exact .quiet (by rw [hfault.state]; nofun))
  have hinputs : SameInputs s t := by rw [← runCommand_of_finishes hf]; exact runCommand_inputs .compress .huf s
  exact ⟨t, exec_of_finishes hr hf, { hfault with inputs := hinputs }, sameSize_of_finishes hf⟩

end Sys2Proof.Machine
end

section
/-! The causes a command can end in (R260 to R268): each record's run goes on, completes the command or raises one of them,
and a running command stays in the phases of its codec. -/

namespace Sys2Proof.Machine

/-! ## The causes of a command -/

/-- The causes a codec command can end in (R123, R125 to R133). -/
def causesOf : Dir → Alg → List Cause
  | .compress, .noop | .compress, .rle => [.invalidInput, .outputOverflow]
  | .compress, .lzw => [.illegalCommand, .invalidInput, .outputOverflow]
  | .compress, .huf => [.invalidInput, .outputOverflow, .codeTooLong]
  | .restore, .noop => [.invalidInput, .truncatedStream, .outputOverflow]
  | .restore, .rle | .restore, .huf => [.invalidInput, .truncatedStream, .outputOverflow, .malformedStream]
  | .restore, .lzw =>
    [.illegalCommand, .invalidInput, .truncatedStream, .outputOverflow, .malformedStream, .tableOverflow]

theorem invalidInput_mem (dir : Dir) (alg : Alg) : .invalidInput ∈ causesOf dir alg := by
  cases dir <;> cases alg <;> decide

theorem outputOverflow_mem (dir : Dir) (alg : Alg) : .outputOverflow ∈ causesOf dir alg := by
  cases dir <;> cases alg <;> decide

theorem truncatedStream_mem (alg : Alg) : .truncatedStream ∈ causesOf .restore alg := by
  cases alg <;> decide

/-! ## Runs that raise only some causes -/

/-- The run goes on in a state with `P`, completes the command, or raises one of `causes`. -/
inductive Res.Within (P : State → Prop) (causes : List Cause) : Res → Prop where
  | running {t : State} (h : P t) : Within P causes (.ok t)
  | completed (used : Nat) (t : State) : Within P causes (.ok (complete used t))
  | raised {c : Cause} (t : State) (h : c ∈ causes) : Within P causes (.raised c t)

section Within

variable {P : State → Prop} {causes : List Cause}

theorem within_ite {p : Prop} [Decidable p] {r r' : Res} (h : p → r.Within P causes) (h' : ¬p → r'.Within P causes) :
    (if p then r else r').Within P causes := by
  split
  · next hp => exact h hp
  · next hp => exact h' hp

variable (hfull : .outputOverflow ∈ causes)
include hfull

/-- A byte write raises `OutputOverflow` (R151), or the rest of the run decides. -/
theorem within_putBytes {bs : List Byte} {s : State} {f : State → Res}
    (hf : ∀ m p, (f { s with obuf := m, wpos := p }).Within P causes) : ((putBytes bs s).bind f).Within P causes := by
  obtain ⟨_, h⟩ | ⟨m, p, h⟩ := putBytes_cases bs s <;> rw [h]
  · exact hf _ _
  · exact .raised _ hfull

theorem within_putByte {b : Byte} {s : State} {f : State → Res}
    (hf : ∀ m p, (f { s with obuf := m, wpos := p }).Within P causes) : ((putByte b s).bind f).Within P causes := by
  rw [← putBytes_singleton]; exact within_putBytes hfull hf

/-- The same for a bit write (R152). -/
theorem within_putBits {v n : Nat} {s : State} {f : State → Res}
    (hf : ∀ m p cnt acc, (f { s with obuf := m, wpos := p, wcnt := cnt, wacc := acc }).Within P causes) :
    ((putBits v n s).bind f).Within P causes := by
  obtain ⟨m, p, cnt, acc, h⟩ | ⟨m, p, h⟩ := putBitList_cases (bitsOf n v) s <;> rw [putBits, h]
  · exact hf _ _ _ _
  · exact .raised _ hfull

/-- A string that runs past `TOTAL` is malformed (R209). -/
theorem within_emitString {bytes : List Byte} {s : State} {f : State → Res} (hlong : .malformedStream ∈ causes)
    (hf : ∀ m p, (f { s with obuf := m, wpos := p }).Within P causes) :
    ((emitString bytes s).bind f).Within P causes := by
  unfold emitString
  split
  · exact .raised _ hlong
  · exact within_putBytes hfull hf

end Within

/-! ## LZW codes -/

/-- What holds of the runs of CLEAR, END and the ordinary codes holds of every LZW code's. -/
theorem recordRun_lzwInstr_induct {P : (State → Res) → Prop} {w : LzwWidth} (ordinary : ∀ c, P (lzwOrdinary w c))
    (clear : P (lzwClear w)) (fin : P (lzwEnd w)) (c : Nat) : P (recordRun (lzwInstr w c)) := by
  by_cases h1 : c = 256
  · rw [h1, recordRun_lzwClear]; exact clear
  by_cases h2 : c = 257
  · rw [h2, recordRun_lzwEnd]; exact fin
  obtain ⟨c', hc⟩ := recordRun_lzwOrdinary w h1 h2
  rw [hc]; exact ordinary c'

/-! ## Whole commands -/

/-- The state is where such a run ends. -/
def EndsWithin (P : State → Prop) (causes : List Cause) (t : State) : Prop :=
  ∃ r : Res, r.Within P causes ∧ r.settle = t

/-- When every turn of a running command is such a run, so is the whole of it. -/
theorem runRecords_within {P : State → Prop} {causes : List Cause}
    (hturn : ∀ s, P s → EndsWithin P causes (engineTurn s)) (fuel : Nat) {s : State} (h : EndsWithin P causes s) :
    EndsWithin P causes (runRecords fuel s) := by
  refine runRecords_invariant (fun s h hb => ?_) fuel h
  obtain ⟨r, hr, rfl⟩ := h
  cases hr with
  | running h => exact hturn _ h
  | completed | raised => cases hb

/-- A fault there has one of the causes. -/
theorem EndsWithin.cause_mem {P : State → Prop} {causes : List Cause} {t : State} {c : Cause}
    (h : EndsWithin P causes t) (hbusy : ∀ s, P s → s.state = .busy) (hf : t.state = .fault) (hc : t.cause = some c) :
    c ∈ causes := by
  obtain ⟨r, hr, rfl⟩ := h
  cases hr with
  | running h => cases (hbusy _ h).symm.trans hf
  | completed => cases hf
  | raised _ h => cases hc; exact h

/-- At the start of a command an illegal width and the tests of its direction can raise (R122, R123, R125). -/
theorem beginCommand_within {P : State → Prop} {dir : Dir} {alg : Alg} {s : State}
    (h : ∀ w, (directionChecks (begun dir alg w s)).Within P (causesOf dir alg)) :
    EndsWithin P (causesOf dir alg) (beginCommand dir alg s) := by
  by_cases hw : alg = .lzw → legalWidth s.lzwW ≠ none
  · obtain ⟨w, _, hbegin⟩ := beginCommand_checks dir hw
    exact ⟨_, h w, hbegin.symm⟩
  · simp only [Classical.not_imp, not_not] at hw
    obtain ⟨rfl, hw⟩ := hw
    exact ⟨.raised .illegalCommand (startedAs dir .lzw s), .raised _ (by cases dir <;> decide),
      (beginCommand_illegalWidth dir hw).symm⟩

/-! ## Records of a COMPRESS -/

/-- A running COMPRESS of `s0`: the header is its first record. -/
structure Compressing (alg : Alg) (s0 s : State) : Prop where
  busy : s.state = .busy
  dir : s.dir = .compress
  first : s.enc = .header → s0.n ≠ 0 ∧ ∃ w, s = begun .compress alg w s0

theorem compressing_begun {alg : Alg} {w : LzwWidth} {s : State} (hn : s.n ≠ 0) :
    Compressing alg s (begun .compress alg w s) := ⟨rfl, rfl, fun _ => ⟨hn, w, rfl⟩⟩

section Compress

variable {alg : Alg} {s0 s : State}

theorem compressing_of_enc {t : State} (hb : t.state = .busy) (hd : t.dir = .compress) (he : t.enc ≠ .header) :
    Compressing alg s0 t := ⟨hb, hd, fun h => absurd h he⟩

/-- Only the tree of CHUF, which the first turn builds, can raise a cause other than `OutputOverflow`, and it is never
malformed (R228, R242). -/
theorem header_within {w : LzwWidth} (hn : s0.n ≠ 0) :
    (hdrRecord s0.width s0.height (begun .compress alg w s0)).Within (Compressing alg s0) (causesOf .compress alg) := by
  refine within_putBytes (outputOverflow_mem .compress alg) fun m p => ?_
  cases alg with
  | noop | rle | lzw => exact .running (compressing_of_enc rfl rfl nofun)
  | huf =>
    set s1 : State := { begun .compress .huf w s0 with obuf := m, wpos := p }
    have hne : s1.ibufBytes 0 s1.total ≠ [] := List.ne_nil_of_length_pos (by
      rw [length_ibufBytes]; exact Nat.pos_of_ne_zero (total_ne_zero (s := s1) hn))
    obtain ⟨hshort, hlong⟩ := hufBuild_spec (s := s1) rfl hne rfl rfl List.length_replicate
    rw [beginEncode_huf rfl]
    by_cases h : ∀ p ∈ hufPaths (s1.ibufBytes 0 s1.total), p.2.length ≤ 16
    · obtain ⟨nodes, queue, t, hbuild, _⟩ := hshort h
      rw [hbuild]
      exact .running (compressing_of_enc rfl rfl nofun)
    · obtain ⟨u, hbuild⟩ := hlong h
      rw [hbuild]
      exact .raised u (by decide)

variable (hb : s.state = .busy) (hd : s.dir = .compress)
include hb hd

/-- CLEAR, END or an ordinary code, whatever the code is. -/
theorem lzwRecord_within (w : LzwWidth) (c : Nat) :
    (recordRun (lzwInstr w c) s).Within (Compressing alg s0) (causesOf .compress alg) := by
  have hfull := outputOverflow_mem .compress alg
  refine recordRun_lzwInstr_induct (P := fun f => (f s).Within _ _) (fun c => ?_) ?_ ?_ c
  · rw [lzwOrdinary, hd]
    exact within_putBits hfull fun _ _ _ _ => within_ite
      (fun _ => .running (compressing_of_enc hb hd (by dsimp only; split <;> nofun)))
      fun _ => .running (compressing_of_enc hb hd nofun)
  · rw [lzwClear, hd]
    exact within_putBits hfull fun _ _ _ _ => .running (compressing_of_enc hb hd nofun)
  · rw [lzwEnd, hd]
    exact within_putBits hfull fun _ _ _ _ => .running (compressing_of_enc hb hd nofun)

variable (he : s.enc ≠ .header)
include he

theorem rleAdvance_within (k : Nat) :
    (Res.ok (rleAdvance k s)).Within (Compressing alg s0) (causesOf .compress alg) := by
  unfold rleAdvance
  split
  · exact .running (compressing_of_enc hb hd he)
  · split
    · exact .running (compressing_of_enc hb hd he)
    · exact .completed _ _

/-- Behind the header a COMPRESS raises `OutputOverflow` only (R267). -/
theorem compressRecord_within : (recordRun s.encNext s).Within (Compressing alg s0) (causesOf .compress alg) := by
  have hfull := outputOverflow_mem .compress alg
  cases hp : s.enc <;> simp only [State.encNext, hp]
  case header => exact absurd hp he
  case raw =>
    change (rawRecord _ s).Within _ _
    rw [rawRecord, hd]
    exact within_putByte hfull fun _ _ =>
      within_ite (fun _ => .running (compressing_of_enc hb hd he)) fun _ => .completed _ _
  case rle =>
    unfold State.rleNext
    split
    · change (rleRepRecord _ _ s).Within _ _
      rw [rleRepRecord, hd]
      exact within_putBytes hfull fun m p => rleAdvance_within (s := { s with obuf := m, wpos := p }) hb hd he _
    · change (rleLitRecord _ s).Within _ _
      rw [rleLitRecord, hd]
      exact within_putBytes hfull fun m p => rleAdvance_within (s := { s with obuf := m, wpos := p }) hb hd he _
  case lzwClear | lzwCodes | lzwEnd => exact lzwRecord_within hb hd _ _
  case hufSize =>
    change (hszRecord _ s).Within _ _
    rw [hszRecord, hd]
    exact within_putByte hfull fun _ _ => .running (compressing_of_enc hb hd nofun)
  case hufTable =>
    change (henRecord _ _ _ s).Within _ _
    rw [henRecord, hd]
    exact within_putBytes hfull fun _ _ => within_ite (fun _ => .running (compressing_of_enc hb hd he))
      fun _ => .running (compressing_of_enc hb hd nofun)
  case hufCodes =>
    change (hcwRecord _ _ s).Within _ _
    rw [hcwRecord, hd]
    exact within_putBits hfull fun _ _ _ _ => within_ite (fun _ => .running (compressing_of_enc hb hd he))
      fun _ => .running (compressing_of_enc hb hd nofun)
  case pad =>
    change (padRecord _ s).Within _ _
    rw [padRecord, hd]
    exact within_putBits hfull fun _ _ _ _ => .completed _ _

end Compress

/-- The first turn of a COMPRESS writes the header, every other one the record of its phase. -/
theorem compressTurn_within {alg : Alg} {s0 s : State} (h : Compressing alg s0 s) :
    EndsWithin (Compressing alg s0) (causesOf .compress alg) (engineTurn s) := by
  by_cases he : s.enc = .header
  · obtain ⟨hn, w, rfl⟩ := h.first he
    exact ⟨_, header_within hn, (engineTurn_compress (s := begun .compress alg w s0) rfl rfl rfl).symm⟩
  · have hscan := encScan_eq s
    have hb : (encScan s).state = .busy := by rw [hscan]; exact h.busy
    have hd : (encScan s).dir = .compress := by rw [hscan]; exact h.dir
    have he' : (encScan s).enc ≠ .header := by rw [hscan]; exact he
    exact ⟨_, compressRecord_within hb hd he', (engineTurn_compress h.dir rfl rfl).symm⟩

/-! ## Records of a RESTORE -/

/-- The phase is one of the codec's. -/
def DecPhase.BelongsTo (alg : Alg) : DecPhase → Prop
  | .header => True
  | .raw => alg = .noop
  | .rle => alg = .rle
  | .lzw => alg = .lzw
  | .hufSize | .hufTable | .hufCodes => alg = .huf

/-- The records a RESTORE can read in each phase (R102, R104). -/
inductive DecPhase.Reads : DecPhase → Instr → Prop where
  | header (width height : Half) : Reads .header (.hdr width height)
  | raw (b : Byte) : Reads .raw (.raw b)
  | rep (count : BitVec 7) (v : Byte) : Reads .rle (.rleRep count v)
  | lit (data : List Byte) : Reads .rle (.rleLit data)
  | code (w : LzwWidth) (c : Nat) : Reads .lzw (lzwInstr w c)
  | hsz (n : Byte) : Reads .hufSize (.hsz n)
  | hen (sym len : Byte) (code : Half) : Reads .hufTable (.hen sym len code)
  | hcw (len : BitVec 5) (code : Half) : Reads .hufCodes (.hcw len code)

theorem reads_of_decode {s : State} {bs rest : List Bool} {i : Instr} (h : decode s.ctx bs = .ok (i, rest)) :
    s.dec.Reads i := by
  cases hp : s.dec <;> simp only [State.ctx, hp, decode] at h
  case header =>
    split at h
    · cases h
    split at h <;> cases h
    exact .header _ _
  case raw => split at h <;> cases h; exact .raw _
  case rle => obtain ⟨count, v, rfl⟩ | ⟨data, rfl, _⟩ := decodeRle_cases h; exacts [.rep count v, .lit data]
  case lzw => split at h <;> cases h; exact .code _ _
  case hufSize => split at h <;> cases h; exact .hsz _
  case hufTable =>
    split at h
    · cases h
    split at h
    · cases h
    split at h <;> cases h
    exact .hen _ _ _
  case hufCodes => obtain ⟨len, code, rfl⟩ := decodeCode_isHcw h; exact .hcw len code

/-- NoOp has neither RLE records nor code words: what is missing is cut off by the end of the stream (R155). -/
theorem reject_eq_truncated {s : State} {bs : List Bool} {r : Reject} (hphase : s.dec.BelongsTo .noop)
    (h : decode s.ctx bs = .error r) : r = .truncated := by
  cases hp : s.dec <;> rw [hp] at hphase <;> simp only [State.ctx, hp, decode] at h
  case header =>
    split at h
    · cases h; rfl
    split at h <;> cases h
    rfl
  case raw => split at h <;> cases h; rfl
  all_goals cases hphase

theorem rejectCause_cases (s : State) (r : Reject) :
    s.rejectCause r = .truncatedStream ∨ s.rejectCause r = .malformedStream := by
  cases r with
  | truncated => exact .inl rfl
  | truncatedData count => exact (ite_eq_or_eq ..).symm
  | noCode => exact .inr rfl

/-- A running RESTORE is in a phase of its codec. -/
structure Reading (alg : Alg) (s : State) : Prop where
  busy : s.state = .busy
  dir : s.dir = .restore
  codec : s.alg = alg
  phase : s.dec.BelongsTo alg

section Restore

variable {alg : Alg} {s : State}

theorem beginDecode_within (h : Reading alg s) :
    (beginDecode s).Within (Reading alg) (causesOf .restore alg) := by
  obtain rfl := h.codec
  unfold beginDecode
  split
  · next ha => exact within_ite (fun _ => .raised _ (truncatedStream_mem _)) fun _ => .running { h with phase := ha }
  all_goals next ha => exact .running { h with phase := ha }

theorem readHeader_within (width height : Half) (h : Reading alg s) :
    (readHeader width height s).Within (Reading alg) (causesOf .restore alg) :=
  within_ite (fun _ => .raised _ (invalidInput_mem _ _)) fun _ =>
    within_ite (fun _ => .raised _ (outputOverflow_mem _ _)) fun _ =>
      beginDecode_within (s := { s with width := width, height := height }) { h with }

/-- One byte of the image (R127, R241). -/
theorem putImageByte_within (b : Byte) (h : Reading alg s) :
    ((putByte b s).bind fun s1 => if s1.wpos < s1.total then .ok s1 else .ok (finishRestore s1)).Within
      (Reading alg) (causesOf .restore alg) :=
  within_putByte (outputOverflow_mem _ _) fun _ _ => within_ite (fun _ => .running { h with }) fun _ => .completed _ _

theorem rleCount_within (k : Nat) (h : Reading alg s) :
    (Res.ok (rleCount k s)).Within (Reading alg) (causesOf .restore alg) := by
  unfold rleCount
  split
  · exact .running { h with }
  · split
    · exact .running { h with }
    · exact .completed _ _

theorem rleProduce_within (control : Byte) (bytes : List Byte) (h : Reading .rle s) :
    (rleProduce control bytes s).Within (Reading .rle) (causesOf .restore .rle) :=
  within_ite (fun _ => .raised _ (by decide)) fun _ => within_putBytes (by decide) fun _ _ =>
    rleCount_within _ { h with }

theorem learnAndEmit_within (w : LzwWidth) (c p : Nat) (fb : Byte) (bytes : List Byte) (h : Reading .lzw s) :
    (learnAndEmit w c p fb bytes s).Within (Reading .lzw) (causesOf .restore .lzw) :=
  within_ite (fun _ => .raised _ (by decide)) fun _ => within_emitString (by decide) (by decide) fun _ _ =>
    .running { h with }

theorem readOrdinary_within (w : LzwWidth) (c : Nat) (h : Reading .lzw s) :
    (readOrdinary w c s).Within (Reading .lzw) (causesOf .restore .lzw) := by
  have hbad (t : State) : (Res.raised .malformedStream t).Within (Reading .lzw) (causesOf .restore .lzw) :=
    .raised t (by decide)
  refine within_ite (fun _ => hbad s) fun _ => ?_
  split
  · exact within_ite (fun _ => hbad s) fun _ => within_emitString (by decide) (by decide) fun _ _ => .running { h with }
  · exact within_ite (fun _ => learnAndEmit_within w c _ _ _ h) fun _ =>
      within_ite (fun _ => learnAndEmit_within w c _ _ _ h) fun _ => hbad s

theorem readEnd_within : (readEnd s).Within (Reading .lzw) (causesOf .restore .lzw) :=
  within_ite (fun _ => .raised _ (by decide)) fun _ => within_ite (fun _ => .raised _ (by decide)) fun _ =>
    .completed _ _

theorem readHen_within (sym len : Byte) (code : Half) (h : Reading .huf s) :
    (readHen sym len code s).Within (Reading .huf) (causesOf .restore .huf) :=
  within_ite (fun _ => .raised _ (by decide)) fun _ => within_ite (fun _ => .raised _ (by decide)) fun _ =>
    within_ite (fun _ => .raised _ (by decide)) fun _ =>
      within_ite (fun _ => .running { h with }) fun _ => .running { h with phase := rfl }

theorem readHcw_within (len : BitVec 5) (code : Half) (h : Reading .huf s) :
    (readHcw len code s).Within (Reading .huf) (causesOf .restore .huf) := by
  unfold readHcw
  split
  · exact .raised _ (by decide)
  · exact putImageByte_within _ h

/-- Every record of a RESTORE, in the phase that reads it. -/
theorem restoreRecord_within {i : Instr} (h : Reading alg s) (hi : s.dec.Reads i) :
    (recordRun i s).Within (Reading alg) (causesOf .restore alg) := by
  have hphase := h.phase
  generalize s.dec = dec at hi hphase
  cases hi with
  | header width height =>
    change (hdrRecord width height s).Within _ _
    rw [hdrRecord, h.dir]; exact readHeader_within width height h
  | raw b =>
    change (rawRecord b s).Within _ _
    rw [rawRecord, h.dir]; exact putImageByte_within b h
  | rep count v =>
    obtain rfl : alg = .rle := hphase
    change (rleRepRecord count v s).Within _ _
    rw [rleRepRecord, h.dir]; exact rleProduce_within (s := { s with rleV := v }) _ _ { h with }
  | lit data =>
    obtain rfl : alg = .rle := hphase
    change (rleLitRecord data s).Within _ _
    rw [rleLitRecord, h.dir]; exact rleProduce_within _ data h
  | code w c =>
    obtain rfl : alg = .lzw := hphase
    refine recordRun_lzwInstr_induct (P := fun f => (f s).Within _ _) (fun c => ?_) ?_ ?_ c
    · rw [lzwOrdinary, h.dir]; exact readOrdinary_within w c h
    · rw [lzwClear, h.dir]; exact .running { h with }
    · rw [lzwEnd, h.dir]; exact readEnd_within
  | hsz n =>
    obtain rfl : alg = .huf := hphase
    change (hszRecord n s).Within _ _
    rw [hszRecord, h.dir]; exact .running { h with phase := rfl }
  | hen sym len code =>
    obtain rfl : alg = .huf := hphase
    change (henRecord sym len code s).Within _ _
    rw [henRecord, h.dir]; exact readHen_within sym len code h
  | hcw len code =>
    obtain rfl : alg = .huf := hphase
    change (hcwRecord len code s).Within _ _
    rw [hcwRecord, h.dir]; exact readHcw_within len code h

/-- The cause of a record that is not there. -/
theorem rejectCause_mem {bs : List Bool} {r : Reject} (h : Reading alg s) (hr : decode s.ctx bs = .error r) :
    s.rejectCause r ∈ causesOf .restore alg := by
  cases alg with
  | noop => rw [reject_eq_truncated h.phase hr]; exact truncatedStream_mem _
  | rle | lzw | huf => obtain hc | hc := rejectCause_cases s r <;> rw [hc] <;> decide

/-- A turn of a RESTORE: the record it reads, or the cause of its absence. -/
theorem restoreTurn_within (h : Reading alg s) :
    EndsWithin (Reading alg) (causesOf .restore alg) (engineTurn s) := by
  have hf := fetchRecord_restore h.dir
  unfold readRecord at hf
  split at hf
  · next i rest hdec =>
    rw [engineTurn_record hf]
    set s1 := skipBits ((s.window s.ctx.maxBits).length - rest.length) s
    exact ⟨_, restoreRecord_within (s := s1) { h with } (reads_of_decode hdec), rfl⟩
  · next r hdec =>
    rw [engineTurn_raised hf]
    exact ⟨.raised _ s, .raised s (rejectCause_mem h hdec), rfl⟩

end Restore

/-! ## The end of a command -/

/-- A command that ends in a fault has raised one of its causes. -/
theorem runCommand_cause_mem {dir : Dir} {alg : Alg} {s : State} {c : Cause}
    (hf : (runCommand dir alg s).state = .fault) (hc : (runCommand dir alg s).cause = some c) : c ∈ causesOf dir alg := by
  cases dir with
  | compress =>
    have hstart : EndsWithin (Compressing alg s) (causesOf .compress alg) (beginCommand .compress alg s) :=
      beginCommand_within fun w => within_ite (fun _ => .raised _ (invalidInput_mem _ _)) fun _ =>
        within_ite (fun _ => .raised _ (invalidInput_mem _ _)) fun hn =>
          within_ite (fun _ => .raised _ (invalidInput_mem _ _)) fun _ => .running (compressing_begun hn)
    exact (runRecords_within (fun _ => compressTurn_within) _ hstart).cause_mem (fun _ h => h.busy) hf hc
  | restore =>
    have hstart : EndsWithin (Reading alg) (causesOf .restore alg) (beginCommand .restore alg s) :=
      beginCommand_within fun w => within_ite (fun _ => .raised _ (invalidInput_mem _ _)) fun _ =>
        within_ite (fun _ => .raised _ (truncatedStream_mem _)) fun _ => .running ⟨rfl, rfl, rfl, trivial⟩
    exact (runRecords_within (fun _ => restoreTurn_within) _ hstart).cause_mem (fun _ h => h.busy) hf hc

/-- Settles O18: the causes of the tests at the start, of the records in the phases of the command's codec, and of records
that are not there. -/
theorem commandsRaiseOnlyTheirCauses : Obligations.CommandsRaiseOnlyTheirCauses := by
  intro dir alg s t c hr h hf hc
  rw [exec_commandOf, acceptCommand_ready _ _ hr] at h
  cases h
  have hmem := runCommand_cause_mem hf hc
  cases dir <;> cases alg <;> simpa [causesOf] using hmem

end Sys2Proof.Machine
end

section
/-! Every command word ends its command (R310): a codec command by the bound on its turns, an illegal word at once. -/

namespace Sys2Proof.Machine

/-- A command word other than SRESET is one of the eight codec commands or an illegal word (R92, R122). -/
theorem command_cases {i : Instr} (hi : i.isCommand = true) (hs : i ≠ .sreset) :
    (∃ dir alg, i = commandOf dir alg) ∨ ∃ word, i = .cmdIllegal word := by
  cases i with
  | cnoop => exact .inl ⟨.compress, .noop, rfl⟩
  | crle => exact .inl ⟨.compress, .rle, rfl⟩
  | clzw => exact .inl ⟨.compress, .lzw, rfl⟩
  | chuf => exact .inl ⟨.compress, .huf, rfl⟩
  | rnoop => exact .inl ⟨.restore, .noop, rfl⟩
  | rrle => exact .inl ⟨.restore, .rle, rfl⟩
  | rlzw => exact .inl ⟨.restore, .lzw, rfl⟩
  | rhuf => exact .inl ⟨.restore, .huf, rfl⟩
  | cmdIllegal word => exact .inr ⟨word, rfl⟩
  | sreset => exact absurd rfl hs
  | _ => cases hi

/-- A codec command ends in `DONE` or `FAULT` (R76, R310). -/
theorem runCommand_state (dir : Dir) (alg : Alg) (s : State) :
    (runCommand dir alg s).state = .done ∨ (runCommand dir alg s).state = .fault := by
  obtain ⟨used, t, _, h⟩ | ⟨c, t, _, h⟩ := runCommand_ended dir alg s <;> rw [h]
  · exact .inl rfl
  · exact .inr rfl

/-- Settles O19: each turn of a codec command leaves fewer turns, so it ends within its bound; an illegal word faults at its
start. -/
theorem everyCommandEnds : Obligations.EveryCommandEnds := by
  intro i s hi hs hr
  obtain ⟨dir, alg, rfl⟩ | ⟨word, rfl⟩ := command_cases hi hs
  · rw [exec_commandOf, acceptCommand_ready _ _ hr]
    exact ⟨_, rfl, runCommand_state dir alg s⟩
  · exact ⟨beginIllegal s, acceptCommand_ready _ _ hr, .inr rfl⟩

end Sys2Proof.Machine
end

section
/-! The resets (R300, R301), fault entry and exit (R270, R271), and what the host's accesses do in each state of the engine
(R21, R68, R74, R304). -/

namespace Sys2Proof.Machine

/-! ## The resets -/

theorem atReset_softReset (s : State) : (softReset s).AtReset := ⟨rfl, rfl, rfl, rfl, rfl, rfl, rfl, rfl, rfl, rfl⟩

theorem atReset_hardReset (s : State) : (hardReset s).AtReset := ⟨rfl, rfl, rfl, rfl, rfl, rfl, rfl, rfl, rfl, rfl⟩

/-- Only a running command has bytes of `OBUF` to lose (R135, U15). -/
theorem softReset_keeps_obuf {s : State} (h : s.state ≠ .busy) :
    (softReset s).obuf = s.obuf ∧ (softReset s).obufEpoch = s.obufEpoch := ⟨if_neg h, if_neg h⟩

/-- Settles O5: SRESET is accepted in every state, and of its registers only `OBUF`'s depend on the state it is written in. -/
theorem softResetGivesResetValues : Obligations.SoftResetGivesResetValues := fun s =>
  ⟨softReset s, rfl, atReset_softReset s, rfl, rfl, softReset_keeps_obuf, rfl, rfl, rfl⟩

/-- In IDLE with no host action pending nothing happens (R69). -/
theorem step_idle {s : State} (hh : s.host = []) (hi : s.state = .idle) : step s = .next s := by
  simp only [step, hh, engineOrQuiet, hi]

/-- Settles O55: the reset input is answered in every state, whatever the host's hands are. -/
theorem resetValues : Obligations.ResetValues := by
  refine ⟨⟨rfl, rfl, rfl, rfl, rfl, rfl, rfl, rfl, rfl, rfl⟩, fun s rest hh => ?_⟩
  have hstep : step s = .next (hardReset (s.withHost rest)) := step_hostEffect hh (.inr rfl)
  exact ⟨_, hstep, atReset_hardReset _, rfl, rfl, rfl, rfl, rfl, rfl, rfl, fun hrest => step_idle hrest rfl⟩

/-! ## Fault entry and exit -/

/-- The soft reset word, written either way, and the reset input reset the engine in every state. -/
theorem step_resetAction {s : State} {a : HostAct} {rest : List HostAct} (hh : s.host = a :: rest)
    (ha : resetAction a = true) :
    step s = .next (softReset (s.withHost rest)) ∨ step s = .next (hardReset (s.withHost rest)) := by
  cases a with
  | regWrite n v =>
    simp only [resetAction, Bool.and_eq_true, decide_eq_true_eq] at ha
    obtain ⟨rfl, hv⟩ := ha
    have hs := decodeCmd_eq_sreset.mpr hv
    have hstep := (stepRunsTheCommandWord s v rest hh).1 (.inr hs)
    rw [hs] at hstep
    exact .inl hstep
  | cmdStart word =>
    have hs := decodeCmd_eq_sreset.mpr (of_decide_eq_true ha)
    have hstep := step_cmdStart hh (.inr hs)
    rw [hs] at hstep
    exact .inl hstep
  | hardReset => exact .inr (step_hostEffect hh (.inr rfl))
  | regRead n | ibufWrite a b | obufRead a | engine | wait => cases ha

/-- A fault reached from a state of the same inputs. -/
theorem Faulted.of_inputs {c : Cause} {s s1 t : State} (h : Faulted c s1 t) (hs : SameInputs s s1) : Faulted c s t :=
  { h with inputs := hs.trans h.inputs }

/-- A running command that reaches `FAULT` has entered it. -/
theorem Reached.exists_faulted {s t : State} (h : Reached s t) (hs : s.state ≠ .fault) (ht : t.state = .fault) :
    ∃ c, Faulted c s t := by
  cases h with
  | running k => exact absurd (k.state.symm.trans ht) hs
  | completed => cases ht
  | faulted c k => exact ⟨c, faulted_of_inputs c k.inputs⟩

theorem regWrite_state (n v : Nat) (s : State) : (s.regWrite n v).state = s.state := by
  unfold State.regWrite; split <;> rfl

/-- A step enters `FAULT` at the start of a command or in one of its turns, from a state of the same inputs; only the host's
queue may have changed. -/
theorem StepGives.exists_faulted {s t : State} (h : StepGives s t) (hs : s.state ≠ .fault) (ht : t.state = .fault) :
    ∃ c q, Faulted c (s.withHost q) t := by
  cases h with
  | turn => exact ((engineTurn_reached s.popped).exists_faulted hs ht).imp fun _ h => ⟨_, h⟩
  | waitTurn =>
    exact ((engineTurn_reached (s.withHost (.wait :: s.host.tail))).exists_faulted hs ht).imp fun _ h => ⟨_, h⟩
  | command _ dir alg =>
    exact ((runCommand_reached dir alg _).exists_faulted nofun ht).imp fun _ h =>
      ⟨_, h.of_inputs (startedAs_inputs dir alg s.popped)⟩
  | begun _ dir alg =>
    exact ((beginCommand_reached dir alg _).exists_faulted nofun ht).imp fun _ h =>
      ⟨_, h.of_inputs (startedAs_inputs dir alg s.popped)⟩
  | illegal => exact ⟨.illegalCommand, s.host.tail, faulted_of_inputs _ ⟨rfl, rfl, rfl, rfl, rfl, rfl, rfl⟩⟩
  | regWrite _ n v => exact absurd ((regWrite_state n v s.popped).symm.trans ht) hs
  | quiet | ibufWrite => exact absurd ht hs
  | soft | hard => cases ht

theorem Reached.ne_idle {s t : State} (h : Reached s t) (hs : s.state ≠ .idle) : t.state ≠ .idle := by
  cases h with
  | running k => rwa [k.state]
  | completed | faulted => exact nofun

/-- `IDLE` is entered by the two resets only. -/
theorem StepGives.idle {s t : State} (h : StepGives s t) (hreset : ∀ a, s.host.head? = some a → resetAction a = false)
    (ht : t.state = .idle) : s.state = .idle := by
  cases h with
  | turn hb => exact absurd ht ((engineTurn_reached _).ne_idle fun hi => nomatch hb.symm.trans hi)
  | waitTurn hb => exact absurd ht ((engineTurn_reached _).ne_idle fun hi => nomatch hb.symm.trans hi)
  | command _ dir alg => exact absurd ht ((runCommand_reached dir alg _).ne_idle nofun)
  | begun _ dir alg => exact absurd ht ((beginCommand_reached dir alg _).ne_idle nofun)
  | illegal => cases ht
  | regWrite _ n v => exact (regWrite_state n v s.popped).symm.trans ht
  | quiet | ibufWrite => exact ht
  | soft a hh ha => cases ha.symm.trans (hreset a hh)
  | hard hh => cases hreset _ hh

/-- `t` is `s` but for the value the host has read, and its hands, which only a `STATUS` read can have freed. -/
def Unmoved (a : HostAct) (s t : State) : Prop :=
  t = { s with rdata := t.rdata, handsOff := t.handsOff } ∧
    (t.handsOff = s.handsOff ∨ t.handsOff = false ∧ (a = .regRead 1 ∨ a = .wait))

theorem unmoved_of_rdata (a : HostAct) (r : Nat) (s : State) : Unmoved a s { s with rdata := r } := ⟨rfl, .inl rfl⟩

theorem unmoved_hostRegRead {a : HostAct} {n : Nat} {s t : State} (ha : n = 1 → a = .regRead 1 ∨ a = .wait)
    (h : hostRegRead n s = .next t) : Unmoved a s t := by
  unfold hostRegRead at h
  split at h
  · cases h
  cases h
  refine ⟨rfl, ?_⟩
  by_cases hn : n = 1 ∧ (s.state = .done ∨ s.state = .fault)
  · exact .inr ⟨if_pos hn, ha hn.1⟩
  · exact .inl (if_neg hn)

/-- In `FAULT` a command word other than SRESET is ignored, however it is written (R120). -/
theorem command_ignored {word : CmdWord} {s : State} (hf : s.state = .fault) (hw : word ≠ 0x80#32) :
    exec (decodeCmd word) s = .next s ∧ commandBegin (decodeCmd word) s = .next s := by
  obtain ⟨dir, alg, hd⟩ | ⟨h, _⟩ | ⟨_, hd⟩ := decodeCmd_cases word
  · rw [hd, exec_commandOf, commandBegin_commandOf]
    exact ⟨acceptCommand_fault _ s hf, acceptCommand_fault _ s hf⟩
  · exact absurd h hw
  · rw [hd]; exact ⟨acceptCommand_fault _ s hf, acceptCommand_fault _ s hf⟩

/-- No host action but a reset moves an engine in `FAULT` (R271). -/
theorem unmoved_hostEffect {a : HostAct} {s t : State} (hf : s.state = .fault) (ha : resetAction a = false)
    (h : hostEffect a s = .next t) : Unmoved a s t := by
  have ignored (hs : hostEffect a s = .next s) : Unmoved a s t := by
    cases hs.symm.trans h; exact unmoved_of_rdata a s.rdata s
  cases a with
  | regWrite n v =>
    by_cases hn : n = 0
    · subst hn
      exact ignored (command_ignored hf (by simpa [resetAction] using ha)).1
    · refine ignored ?_
      simp only [hostEffect, if_neg hn, hostRegWrite, hf]
  | cmdStart word => exact ignored (command_ignored hf (by simpa [resetAction] using ha)).2
  | regRead n => exact unmoved_hostRegRead (fun hn => .inl (by rw [hn])) h
  | ibufWrite a b =>
    refine ignored ?_
    simp only [hostEffect, hostIbufWrite, hf] at h ⊢
    split at h
    · cases h
    · next hc => exact if_neg hc
  | obufRead a =>
    simp only [hostEffect, hostObufRead] at h
    split at h
    · cases h
    split at h <;> cases h
    exact unmoved_of_rdata _ _ s
  | hardReset => cases ha
  | engine => refine ignored ?_; simp only [hostEffect, engineOrQuiet, hf]
  | wait =>
    rw [hostEffect_wait_quiet (by rw [hf]; exact nofun)] at h
    exact unmoved_hostRegRead (fun _ => .inr rfl) h

/-- A step that gives a next state is the effect of the host's next action. -/
theorem hostEffect_of_step {s t : State} {a : HostAct} {rest : List HostAct} (hh : s.host = a :: rest)
    (h : step s = .next t) : hostEffect a (s.withHost rest) = .next t := by
  by_cases hoff : s.handsOff = true ∧ handsOffAllows a = false
  · rw [step_handsOff hh hoff.1 hoff.2] at h; cases h
  · rw [← h]
    refine (step_hostEffect hh ?_).symm
    cases ho : s.handsOff <;> cases ha : handsOffAllows a <;> simp_all

/-- `FAULT` is sticky: without a reset a step takes the host's next action off its queue and answers a read (R139, R271). -/
theorem step_fault {s t : State} (h : step s = .next t) (hreset : ∀ a, s.host.head? = some a → resetAction a = false)
    (hf : s.state = .fault) :
    t = { s with host := s.host.tail, rdata := t.rdata, handsOff := t.handsOff } ∧
      (t.handsOff = s.handsOff ∨
        t.handsOff = false ∧ (s.host.head? = some (.regRead 1) ∨ s.host.head? = some .wait)) := by
  cases hh : s.host with
  | nil =>
    simp only [step, hh, engineOrQuiet, hf] at h
    cases h
    exact ⟨by rw [List.tail_nil, ← hh], .inl rfl⟩
  | cons a rest =>
    obtain ⟨ht, hoff⟩ := unmoved_hostEffect (s := s.withHost rest) hf (hreset a (by rw [hh]; rfl))
      (hostEffect_of_step hh h)
    exact ⟨ht, hoff.imp_right (.imp_right (.imp (congrArg some) (congrArg some)))⟩

/-- Settles O58: entry is one of the two ends of a running command; in `FAULT` only a reset moves the engine. -/
theorem faultEntryAndExit : Obligations.FaultEntryAndExit := by
  intro s t h
  refine ⟨fun hs ht => ?_, fun a hh ha => ?_, fun hreset => ⟨step_fault h hreset, (step_gives h).idle hreset⟩⟩
  · obtain ⟨c, q, hfault⟩ := (step_gives h).exists_faulted hs ht
    exact ⟨by rw [hfault.cause]; rfl, hfault.outLen, hfault.inUsed, hfault.statTable, hfault.statClears, hfault.obuf,
      hfault.inputs.lzwW, hfault.inputs.inLen, hfault.inputs.ibuf, hfault.inputs.ibufEpoch⟩
  · obtain ⟨rest, hrest⟩ := List.head?_eq_some_iff.mp hh
    obtain hreset | hreset := step_resetAction hrest ha <;> cases h.symm.trans hreset
    · exact ⟨atReset_softReset _, rfl⟩
    · exact ⟨atReset_hardReset _, rfl⟩

/-! ## Register accesses -/

/-- With its hands free, or for what R304 allows, the host's action has its effect. -/
theorem step_free {s : State} {a : HostAct} {rest : List HostAct} (hh : s.host = a :: rest)
    (hf : s.handsOff = false ∨ handsOffAllows a = true) : step s = hostEffect a (s.withHost rest) :=
  step_hostEffect hh hf

/-- With the engine BUSY or its hands off, the host is refused whatever R304 does not name (R68). -/
theorem step_refused {s : State} {a : HostAct} {rest : List HostAct} (hh : s.host = a :: rest)
    (ha : handsOffAllows a = false) (hbusy : s.state = .busy → hostEffect a (s.withHost rest) = .refused .busyAccess)
    (h : s.state = .busy ∨ s.handsOff = true) : step s = .refused .busyAccess := by
  by_cases hoff : s.handsOff = true
  · exact step_handsOff hh hoff ha
  · exact (step_free hh (.inl (Bool.eq_false_iff.mpr hoff))).trans (hbusy (h.resolve_right hoff))

/-- The four registers a host write changes, by their numbers (R21). -/
theorem regWrite_eq (n v : Nat) (s : State) : s.regWrite n v =
    if n = 3 then { s with width := BitVec.ofNat 16 v }
    else if n = 4 then { s with height := BitVec.ofNat 16 v }
    else if n = 5 then { s with lzwW := BitVec.ofNat 5 v }
    else if n = 6 then { s with inLen := v % 2 ^ s.params.lenW }
    else s := by
  unfold State.regWrite
  split
  case h_5 h3 h4 h5 h6 => rw [if_neg h3, if_neg h4, if_neg h5, if_neg h6]
  all_goals rfl

section RegWrite

variable {n : Nat} (v : Nat) {s : State} (hn : n ≠ 0)
include hn

theorem hostEffect_regWrite : hostEffect (.regWrite n v) s = hostRegWrite n v s := if_neg hn

theorem hostEffect_regWrite_ready (hr : s.Ready) : hostEffect (.regWrite n v) s = .next (s.regWrite n v) := by
  rw [hostEffect_regWrite v hn]
  obtain hs | hs := hr <;> simp only [hostRegWrite, hs]

theorem hostEffect_regWrite_fault (hf : s.state = .fault) : hostEffect (.regWrite n v) s = .next s := by
  rw [hostEffect_regWrite v hn]; simp only [hostRegWrite, hf]

theorem hostEffect_regWrite_busy (hb : s.state = .busy) :
    hostEffect (.regWrite n v) s = .refused .busyAccess := by
  rw [hostEffect_regWrite v hn]; simp only [hostRegWrite, hb]

/-- The hands that are off stay off `CMD`'s other words and every other register (R304). -/
theorem handsOffAllows_regWrite : handsOffAllows (.regWrite n v) = false := by
  simp only [handsOffAllows, resetAction, decide_eq_false hn, Bool.false_and]

end RegWrite

theorem hostRegRead_ok {n : Nat} {s : State} (h : s.state ≠ .busy ∨ n = 1) :
    hostRegRead n s = .next { s with rdata := s.regRead n, handsOff := s.handsOffAfterRead n } :=
  if_neg fun hx => h.elim (fun hb => hb hx.1) hx.2

theorem hostRegRead_refused {n : Nat} {s : State} (hb : s.state = .busy) (hn : n ≠ 1) :
    hostRegRead n s = .refused .busyAccess := if_pos ⟨hb, hn⟩

/-- Settles O59: each access goes through the host's turn and has the effect of its engine state. -/
theorem hostRegisterAccess : Obligations.HostRegisterAccess := by
  intro s n v rest
  refine ⟨fun hh hn => ⟨fun hr hoff => ?_, fun hf hoff => ?_, ?_⟩, fun hh hb => ?_, fun hh => ⟨fun h hn => ?_, fun h => ?_⟩⟩
  · rw [step_free hh (.inl hoff), hostEffect_regWrite_ready (s := s.withHost rest) v hn hr, regWrite_eq]
    rfl
  · exact (step_free hh (.inl hoff)).trans (hostEffect_regWrite_fault (s := s.withHost rest) v hn hf)
  · exact step_refused hh (handsOffAllows_regWrite v hn) (hostEffect_regWrite_busy (s := s.withHost rest) v hn)
  · have hread : step (s.withHost (.regRead 1 :: rest)) = hostEffect (.regRead 1) (s.withHost rest) :=
      step_free rfl (.inr rfl)
    exact (step_free hh (.inr rfl)).trans ((hostEffect_wait_quiet (s := s.withHost rest) hb).trans hread.symm)
  · exact step_refused hh (decide_eq_false hn) (fun hb => hostRegRead_refused (s := s.withHost rest) hb hn) h
  · have hfree : s.handsOff = false ∨ handsOffAllows (.regRead n) = true := h.imp And.right decide_eq_true
    refine ⟨_, (step_free hh hfree).trans (hostRegRead_ok (s := s.withHost rest) (h.imp_left And.left)), rfl, rfl, ?_⟩
    dsimp only
    match n with
    | 0 | 3 | 4 | 5 | 6 | 7 | 8 | 9 | 10 => rfl
    | 1 => change s.state.bits.toNat = _; cases s.state <;> rfl
    | 2 =>
      change s.causeBits.toNat = _
      unfold State.causeBits
      cases s.cause with
      | none => rfl
      | some c => cases c <;> rfl
    | n + 11 => rfl

/-! ## Buffer accesses -/

section Buffer

variable {a : Nat} {b : Byte} {s : State}

/-- At or beyond the capacity an `IBUF` write is refused in every state but BUSY (R74). -/
theorem hostIbufWrite_beyond (hb : s.state ≠ .busy) (ha : s.params.ibufCap ≤ a) :
    hostIbufWrite a b s = .refused .bufferIndex := by
  unfold hostIbufWrite
  split
  · next hs => exact absurd hs hb
  all_goals exact if_pos ha

theorem hostIbufWrite_busy (hb : s.state = .busy) : hostIbufWrite a b s = .refused .busyAccess := by
  simp only [hostIbufWrite, hb]

theorem hostIbufWrite_fault (hf : s.state = .fault) (ha : a < s.params.ibufCap) : hostIbufWrite a b s = .next s := by
  simp only [hostIbufWrite, hf]; exact if_neg ha.not_ge

theorem hostIbufWrite_ready (hr : s.Ready) (ha : a < s.params.ibufCap) :
    hostIbufWrite a b s = .next { s with ibuf := Memory.write s.ibuf a b } := by
  obtain hs | hs := hr <;> simp only [hostIbufWrite, hs] <;> exact if_neg ha.not_ge

/-- A byte of `IBUF` after a store (R61). -/
theorem ibufByte_write (x : Nat) :
    State.ibufByte { s with ibuf := Memory.write s.ibuf a b } x = if x = a then b else s.ibufByte x := by
  simp only [State.ibufByte, lookup_write]
  by_cases hx : x = a
  · rw [if_pos hx, if_pos hx]
  · rw [if_neg hx, if_neg hx]

theorem hostObufRead_busy (hb : s.state = .busy) : hostObufRead a s = .refused .busyAccess := if_pos hb

theorem hostObufRead_beyond (hb : s.state ≠ .busy) (ha : s.params.obufCap ≤ a) :
    hostObufRead a s = .refused .bufferIndex := (if_neg hb).trans (if_pos ha)

theorem hostObufRead_ok (hb : s.state ≠ .busy) (ha : a < s.params.obufCap) :
    hostObufRead a s = .next { s with rdata := (s.obufByte a).toNat } := (if_neg hb).trans (if_neg ha.not_ge)

/-- A valid byte reads as it is held (R31, R75). -/
theorem obufByte_valid (hd : s.state = .done) (ha : a < s.outLen) (hb : Memory.lookup s.obuf a = some b) :
    s.obufByte a = b := by
  rw [State.obufByte, if_pos ⟨hd, ha⟩, hb]

end Buffer

/-- Settles O60: each access goes through the host's turn; below the capacity it stores or reads the byte. -/
theorem hostBufferAccess : Obligations.HostBufferAccess := by
  intro s a b rest
  refine ⟨fun hh => ⟨?_, fun hb hoff ha => ?_, fun hf hoff ha => ?_, fun hr hoff ha => ?_⟩,
    fun hh => ⟨?_, fun hb hoff ha => ?_, fun hb hoff ha => ?_, fun hd hoff hlen ha hbyte => ?_⟩⟩
  · exact step_refused hh rfl (hostIbufWrite_busy (s := s.withHost rest))
  · exact (step_free hh (.inl hoff)).trans (hostIbufWrite_beyond (s := s.withHost rest) hb ha)
  · exact (step_free hh (.inl hoff)).trans (hostIbufWrite_fault (s := s.withHost rest) hf ha)
  · refine ⟨_, (step_free hh (.inl hoff)).trans (hostIbufWrite_ready (s := s.withHost rest) hr ha), rfl, ?_, fun x hx => ?_⟩
    · rw [ibufByte_write, if_pos rfl]
    · rw [ibufByte_write, if_neg hx]; rfl
  · exact step_refused hh rfl (hostObufRead_busy (s := s.withHost rest))
  · exact (step_free hh (.inl hoff)).trans (hostObufRead_beyond (s := s.withHost rest) hb ha)
  · exact ⟨_, (step_free hh (.inl hoff)).trans (hostObufRead_ok (s := s.withHost rest) hb ha), rfl⟩
  · have hbusy : s.state ≠ .busy := by rw [hd]; exact nofun
    rw [step_free hh (.inl hoff)]
    refine (hostObufRead_ok (s := s.withHost rest) hbusy ha).trans ?_
    rw [obufByte_valid (s := s.withHost rest) hd hlen hbyte]
    rfl

end Sys2Proof.Machine
end

section
/-! The invariant of the engine from command to command (R23, R27 to R34, R74, R138, R211, R304): what it says of an engine
at rest, that the writer keeps it, and that every record of a running command does, phase by phase. -/

namespace Sys2Proof.Machine

/-! ## At rest -/

/-- What the invariant says of an engine that runs no command. -/
structure State.Resting (s : State) : Prop where
  caps : s.params.legal
  ibufWf : Memory.wf s.ibuf = true
  obufWf : Memory.wf s.obuf = true
  ibufRange : ∀ c ∈ s.ibuf, c.1 < s.params.ibufCap
  obufRange : ∀ c ∈ s.obuf, c.1 < s.params.obufCap
  causeOfFault : s.state = .fault ↔ s.cause.isSome = true
  resultsOnlyDone : s.state ≠ .done → s.outLen = 0 ∧ s.inUsed = 0 ∧ s.statTable = 0 ∧ s.statClears = 0
  doneObuf : s.state = .done → s.obuf.map Prod.fst = List.range s.outLen
  doneFlushed : s.state = .done → s.wcnt = 0
  idleHandsFree : s.state = .idle → s.handsOff = false
  inLenBits : s.inLen < 2 ^ s.params.lenW
  outLenCap : s.outLen ≤ s.params.obufCap
  inUsedCap : s.inUsed ≤ s.params.ibufCap
  pending : s.wcnt < 8 ∧ s.wacc < 2 ^ s.wcnt
  hufSizes : s.freq.length = 256 ∧ s.hlen.length = 256 ∧ s.hcode.length = 256

/-- All other clauses are about a running command. -/
theorem State.Resting.inv {s : State} (h : s.Resting) (hb : s.state ≠ .busy) : s.Inv :=
  { h with
    busyHandsOff := fun hs => absurd hs hb
    busyTableOrder := fun hs => absurd hs hb
    busyInput := fun hs => absurd hs hb
    busyRead := fun hs => absurd hs hb
    busyWrite := fun hs => absurd hs hb
    busyWritten := fun hs => absurd hs hb
    busyAligned := fun hs => absurd hs hb
    busyTable := fun hs => absurd hs hb
    encInput := fun hs => absurd hs hb
    encCode := fun hs => absurd hs hb
    encFresh := fun hs => absurd hs hb
    encNoTwice := fun hs => absurd hs hb
    encClear := fun hs => absurd hs hb
    encRoom := fun hs => absurd hs hb
    decCode := fun hs => absurd hs hb
    decSize := fun hs => absurd hs hb }

/-- Fault entry from a state of the same inputs (R270). -/
theorem inv_faultEntry {c : Cause} {s t : State} (h : s.Inv) (hin : SameInputs s (faultEntry c t)) :
    (faultEntry c t).Inv := by
  have ⟨hpending, hsizes⟩ := faultEntry_private c t
  refine State.Resting.inv ?_ nofun
  exact
    { caps := by rw [hin.params]; exact h.caps
      ibufWf := by rw [hin.ibuf]; exact h.ibufWf
      obufWf := wf_nil
      ibufRange := by rw [hin.ibuf, hin.params]; exact h.ibufRange
      obufRange := nofun
      causeOfFault := ⟨fun _ => rfl, fun _ => rfl⟩
      resultsOnlyDone := fun _ => ⟨rfl, rfl, rfl, rfl⟩
      doneObuf := nofun
      doneFlushed := nofun
      idleHandsFree := nofun
      inLenBits := by rw [hin.inLen, hin.params]; exact h.inLenBits
      outLenCap := Nat.zero_le _
      inUsedCap := Nat.zero_le _
      pending := hpending
      hufSizes := hsizes }

theorem inv_softReset {s : State} (h : s.Inv) : (softReset s).Inv := by
  refine State.Resting.inv ?_ nofun
  have hobuf : (softReset s).obuf = [] ∨ (softReset s).obuf = s.obuf := ite_eq_or_eq ..
  exact { resetMeetsTheInvariant with
    caps := h.caps
    ibufWf := h.ibufWf
    obufWf := by obtain ho | ho := hobuf <;> rw [ho]; exacts [wf_nil, h.obufWf]
    ibufRange := h.ibufRange
    obufRange := by obtain ho | ho := hobuf <;> rw [ho]; exacts [nofun, h.obufRange]
    doneObuf := nofun
    inLenBits := Nat.two_pow_pos _
    outLenCap := Nat.zero_le _
    inUsedCap := Nat.zero_le _ }

theorem inv_hardReset {s : State} (h : s.Inv) : (hardReset s).Inv := by
  refine State.Resting.inv ?_ nofun
  exact { resetMeetsTheInvariant with
    caps := h.caps
    ibufRange := nofun
    obufRange := nofun
    inLenBits := Nat.two_pow_pos _
    outLenCap := Nat.zero_le _
    inUsedCap := Nat.zero_le _ }

/-! ## The writer and the end of a command -/

theorem mem_writeBytes {m : Memory} {a : Nat} {bs : List Byte} {c : Host.Cell} (h : c ∈ Memory.writeBytes m a bs) :
    c ∈ m ∨ c.1 < a + bs.length := by
  induction bs generalizing m a with
  | nil => exact .inl h
  | cons b bs ih =>
    rw [List.length_cons]
    obtain hc | hc := ih h
    · obtain rfl | hc := mem_write hc
      · exact .inr (by change a < _; omega)
      · exact .inl hc
    · exact .inr (by omega)

/-- The phases of a COMPRESS that write bits. -/
def EncPhase.writesBits : EncPhase → Bool
  | .lzwClear | .lzwCodes | .lzwEnd | .hufCodes | .pad => true
  | .header | .raw | .rle | .hufSize | .hufTable => false

/-- They are not among those that write whole bytes (R150). -/
theorem not_writesBytes {s : State} (hd : s.dir = .compress) (he : s.enc.writesBits = true) : ¬s.writesBytes := by
  rintro (h | h | h | h | h | h)
  · exact nomatch hd.symm.trans h
  all_goals rw [h] at he; cases he

section Running

variable {s : State} (h : s.Inv) (hb : s.state = .busy)
include h hb

/-- Bytes that fit, written at `WPOS`, and fewer than eight bits pending (R151, R152). -/
theorem inv_wrote {bytes : List Byte} {cnt acc : Nat} (hroom : s.wpos + bytes.length ≤ s.params.obufCap)
    (hpending : cnt < 8 ∧ acc < 2 ^ cnt) (haligned : s.writesBytes → cnt = 0) : (s.wrote bytes cnt acc).Inv :=
  { h with
    obufWf := wf_writeBytes _ _ h.obufWf
    obufRange := fun c hc => (mem_writeBytes hc).elim (h.obufRange c) fun hlt => hlt.trans_le hroom
    doneObuf := fun hd => nomatch hb.symm.trans hd
    doneFlushed := fun hd => nomatch hb.symm.trans hd
    pending := hpending
    busyWrite := fun _ => hroom
    busyWritten := fun _ a ha => by
      change a < s.wpos + bytes.length at ha
      change (Memory.lookup (Memory.writeBytes s.obuf s.wpos bytes) a).isSome = true
      rw [lookup_writeBytes]
      split
      · rw [List.getElem?_eq_getElem (by omega)]; rfl
      · exact h.busyWritten hb a (by omega)
    busyAligned := fun _ => haligned }

theorem inv_putBytes {bytes : List Byte} {f : State → Res}
    (hf : (s.wrote bytes s.wcnt s.wacc).Inv → (f (s.wrote bytes s.wcnt s.wacc)).Lands State.Inv) :
    ((putBytes bytes s).bind f).Lands State.Inv := by
  by_cases hroom : s.wpos + bytes.length ≤ s.params.obufCap
  · rw [putBytes_ok bytes s hroom]
    exact hf (inv_wrote h hb hroom h.pending (h.busyAligned hb))
  · obtain ⟨m, p, hfull⟩ := putBytes_full bytes s (h.busyWrite hb) (Nat.lt_of_not_le hroom)
    rw [hfull]
    exact lands_raised _ _

theorem inv_putByte {b : Byte} {f : State → Res}
    (hf : (s.wrote [b] s.wcnt s.wacc).Inv → (f (s.wrote [b] s.wcnt s.wacc)).Lands State.Inv) :
    ((putByte b s).bind f).Lands State.Inv := by
  rw [← putBytes_singleton]; exact inv_putBytes h hb hf

theorem inv_putBits {v n : Nat} {f : State → Res} (hbits : ¬s.writesBytes)
    (hf : ∀ bytes acc, (s.wrote bytes ((s.wcnt + n) % 8) acc).Inv →
      (f (s.wrote bytes ((s.wcnt + n) % 8) acc)).Lands State.Inv) : ((putBits v n s).bind f).Lands State.Inv := by
  by_cases hfit : s.Fits (bitsOf n v)
  · obtain ⟨bytes, acc, hput, hlen, hacc, _⟩ := putBitList_ok (bitsOf n v) s h.pending.1 h.pending.2 hfit
    rw [length_bitsOf] at hput hlen hacc
    rw [putBits, hput]
    have hroom : s.wpos + bytes.length ≤ s.params.obufCap := by
      rw [hlen]; rwa [State.Fits, length_bitsOf] at hfit
    exact hf bytes acc (inv_wrote h hb hroom ⟨Nat.mod_lt _ (by decide), hacc⟩ fun hw => absurd hw hbits)
  · obtain ⟨u, hfull⟩ := putBits_overflows (h.busyWrite hb) h.pending.1 hfit
    rw [hfull]
    exact lands_raised _ _

/-- Completion with the writer flushed (R134). -/
theorem inv_complete {used : Nat} (hflushed : s.wcnt = 0) (hused : used ≤ s.params.ibufCap) :
    (complete used s).Inv := by
  have hsizes := (complete_private used s).2.2
  refine State.Resting.inv ?_ nofun
  exact { h with
    obufWf := wf_below _ h.obufWf
    obufRange := fun c hc => h.obufRange c (mem_below hc).1
    causeOfFault := by
      rw [complete_cause, ← h.causeOfFault, hb]; exact ⟨nofun, nofun⟩
    resultsOnlyDone := fun hd => absurd rfl hd
    doneObuf := fun _ => keys_below ⟨h.obufWf, h.busyWritten hb⟩
    doneFlushed := fun _ => hflushed
    idleHandsFree := nofun
    outLenCap := h.busyWrite hb
    inUsedCap := hused
    hufSizes := hsizes }

theorem inv_finishCompress (hflushed : s.wcnt = 0) : (finishCompress s).Inv :=
  inv_complete h hb hflushed (h.busyInput hb)

/-- A RESTORE has nothing in the writer and has read no more than its input. -/
theorem inv_finishRestore (hd : s.dir = .restore) : (finishRestore s).Inv := by
  refine inv_complete h hb (h.busyAligned hb (.inl hd)) ?_
  have hread := h.busyRead hb
  have hin := h.busyInput hb
  unfold ceil8; omega

end Running

/-! ## The code table (R40, R193, R195) -/

/-- `Find` gives the code of an entry. -/
theorem findFrom_lt {p j k : Nat} {b : Byte} {es : List LzwEntry} (h : findFrom p b es k = some j) :
    j < k + es.length := by
  induction es generalizing k with
  | nil => cases h
  | cons e es ih =>
    simp only [findFrom] at h
    rw [List.length_cons]
    split at h
    · cases h; omega
    · have := ih h; omega

theorem codeDefined_of_find {s : State} {p k : Nat} {b : Byte} (h : s.lzwFind p b = some k) : s.codeDefined k :=
  .inr ⟨findFrom_ge h, findFrom_lt h⟩

/-- A pair that is not found is no entry. -/
theorem not_mem_of_findFrom {p k : Nat} {b : Byte} {es : List LzwEntry} (h : findFrom p b es k = none) :
    ({ pfx := p, sfx := b } : LzwEntry) ∉ es := by
  induction es generalizing k with
  | nil => exact List.not_mem_nil
  | cons e es ih =>
    simp only [findFrom] at h
    split at h
    · cases h
    · next hne =>
      rw [List.mem_cons]
      rintro (rfl | hmem)
      · exact hne ⟨rfl, rfl⟩
      · exact ih h hmem

/-- A code with a string is neither CLEAR nor END and fits the width. -/
theorem State.codeDefined.bounds {s : State} {c : Nat} (hc : s.codeDefined c) (hcap : s.next ≤ s.w.cap) :
    c < s.w.cap ∧ c ≠ 256 ∧ c ≠ 257 := by
  have := LzwWidth.cap_pos s.w
  obtain hc | ⟨hge, hlt⟩ := hc <;> omega

/-- Every entry extends the string of an earlier code, never of CLEAR or END (R42). -/
def TableOrder (table : List LzwEntry) : Prop :=
  ∀ k e, table[k]? = some e → e.pfx < 258 + k ∧ e.pfx ≠ 256 ∧ e.pfx ≠ 257

theorem tableOrder_insert {s : State} (h : TableOrder s.lzwTable) {p : Nat} (hp : s.codeDefined p) (b : Byte) :
    TableOrder (s.lzwTable ++ [{ pfx := p, sfx := b }]) := by
  intro k e he
  by_cases hk : k < s.lzwTable.length
  · rw [List.getElem?_append_left hk] at he; exact h k e he
  · obtain ⟨hlt, _⟩ := List.getElem?_eq_some_iff.mp he
    rw [List.length_append, List.length_singleton] at hlt
    obtain rfl : k = s.lzwTable.length := by omega
    rw [List.getElem?_concat_length] at he
    cases he
    have hnext := next_eq s
    change p < _ ∧ p ≠ 256 ∧ p ≠ 257
    obtain hp | ⟨hge, hlt⟩ := hp <;> omega

/-- Codes keep their strings when the table grows. -/
theorem codeDefined_insert {s : State} {c : Nat} (hc : s.codeDefined c) (p : Nat) (b : Byte) :
    (lzwInsert p b s).codeDefined c := by
  unfold State.codeDefined at hc ⊢
  rw [lzwInsert_next]; omega

/-! ## The tree builder keeps the sizes of its tables (R45, R47) -/

theorem length_freqCount (freq : List Nat) (bytes : List Byte) : (freqCount freq bytes).length = freq.length := by
  induction bytes generalizing freq with
  | nil => rfl
  | cons b bs ih => exact (ih _).trans List.length_set

theorem hufAssign_length_codes {nodes : List HufNode} {fuel j v d : Nat} {t t' : List Nat × List Half}
    (h : hufAssign nodes fuel j v d t = .ok t') : t'.2.length = t.2.length := by
  induction fuel generalizing j v d t t' with
  | zero => cases h
  | succ fuel ih =>
    simp only [hufAssign] at h
    split at h
    · cases h
    · split at h
      · cases h
      · cases h; exact List.length_set
    · split at h
      · cases h
      · next h1 => exact (ih h).trans (ih h1)

theorem inv_hufBuild {s : State} (h : s.Inv) : (hufBuild s).Lands fun t => t.Inv ∧
    ∃ freq nodes queue hlen hcode,
      t = { s with freq := freq, nodes := nodes, queue := queue, hlen := hlen, hcode := hcode } := by
  obtain ⟨hfreq, hlen, hcode⟩ := h.hufSizes
  have hinput : s.inputFreq.length = 256 := (length_freqCount _ _).trans hfreq
  by_cases hleaf : ∃ f sym, hufLeaves 0 s.inputFreq = [.leaf f sym]
  · obtain ⟨f, sym, hleaf⟩ := hleaf
    rw [hufBuild_single hleaf]
    refine lands_ok ⟨{ h with hufSizes := ⟨hinput, ?_, ?_⟩ }, _, _, _, _, _, rfl⟩
    · exact List.length_set.trans hlen
    · exact List.length_set.trans hcode
  · rw [hufBuild_tree fun f sym hl => hleaf ⟨f, sym, hl⟩]
    unfold hufTree
    dsimp only
    split
    · split
      · next t ht =>
        refine lands_ok ⟨{ h with hufSizes := ⟨hinput, ?_, ?_⟩ }, _, _, _, _, _, rfl⟩
        · exact (hufAssign_length ht).trans hlen
        · exact (hufAssign_length_codes ht).trans hcode
      · exact lands_raised _ _
    · exact lands_raised _ _

/-! ## Records of a COMPRESS, in the phase that writes them -/

/-- Into a phase of which only the writer's alignment is claimed. -/
theorem inv_enter {s : State} (h : s.Inv) (hd : s.dir = .compress) (enc : EncPhase) (idx : Nat)
    (haligned : s.wcnt = 0 ∨ enc.writesBits = true)
    (henc : enc ≠ .header ∧ enc ≠ .lzwClear ∧ enc ≠ .lzwCodes := by decide) :
    State.Inv { s with enc := enc, idx := idx } :=
  { h with
    busyAligned := fun _ hbytes => haligned.resolve_right fun hbits =>
      not_writesBytes (s := { s with enc := enc, idx := idx }) hd hbits hbytes
    encFresh := fun _ _ he => absurd he henc.1
    encClear := fun _ _ he => absurd he henc.2.1
    encRoom := fun _ _ he => absurd he henc.2.2 }

section Compress

variable {s : State} (h : s.Inv) (hb : s.state = .busy) (hd : s.dir = .compress)
include h hb hd

theorem inv_beginEncode (he : s.enc = .header) : (beginEncode s).Lands State.Inv := by
  have haligned : s.wcnt = 0 := h.busyAligned hb (.inr (.inl he))
  have hcur := h.encFresh hb hd he
  unfold beginEncode
  split
  · exact lands_ok (inv_enter h hd .raw 0 (.inl haligned))
  · exact lands_ok (inv_enter (s := { s with rleBase := 0, rleI := 0, rleCh := 0 }) { h with } hd .rle s.idx
      (.inl haligned))
  · exact lands_ok { h with
      busyAligned := fun _ _ => haligned
      encFresh := nofun
      encClear := fun _ _ _ c hc => nomatch hcur.symm.trans hc
      encRoom := nofun }
  · intro t ht
    obtain ⟨u, hu, ht⟩ := bind_eq_ok.mp ht
    obtain ⟨hinv, freq, nodes, queue, hlen, hcode, rfl⟩ := inv_hufBuild h u hu
    cases ht
    exact inv_enter (s := { s with freq := freq, nodes := nodes, queue := queue, hlen := hlen, hcode := hcode }) hinv hd
      .hufSize 0 (.inl haligned)

theorem inv_emitHeader (width height : Half) (he : s.enc = .header) : (emitHeader width height s).Lands State.Inv :=
  inv_putBytes h hb fun hw => inv_beginEncode hw hb hd he

omit hd in
theorem inv_emitRaw (b : Byte) (he : s.enc = .raw) : (emitRaw b s).Lands State.Inv := by
  have haligned : s.wcnt = 0 := h.busyAligned hb (.inr (.inr (.inl he)))
  refine inv_putByte h hb fun hw => lands_ite (fun _ => lands_ok { hw with }) fun _ => lands_ok ?_
  exact inv_finishCompress (s := { s.wrote [b] s.wcnt s.wacc with idx := s.idx + 1 }) { hw with } hb haligned

omit hd in
theorem inv_rleAdvance (k : Nat) (he : s.enc = .rle) : (rleAdvance k s).Inv := by
  have haligned : s.wcnt = 0 := h.busyAligned hb (.inr (.inr (.inr (.inl he))))
  unfold rleAdvance
  split
  · exact { h with }
  · split
    · exact { h with }
    · exact inv_finishCompress (s := { s with rleI := s.rleI + k }) { h with } hb haligned

omit hd in
/-- `EmitRep` and `EmitLit` (R174, R175). -/
theorem inv_emitRle (bytes : List Byte) (k : Nat) (he : s.enc = .rle) :
    ((putBytes bytes s).bind fun s1 => .ok (rleAdvance k s1)).Lands State.Inv :=
  inv_putBytes h hb fun hw => lands_ok (inv_rleAdvance hw hb k he)

/-- CLEAR seeds the table; `CUR` is a literal there (R194, R196). -/
theorem inv_emitClear (he : s.enc = .lzwClear) : (emitClear s.w s).Lands State.Inv := by
  have hcleared : State.Inv { s with lzwTable := [] } := { h with
    busyTableOrder := nofun
    busyTable := fun _ => (LzwWidth.cap_pos s.w).le
    encCode := fun _ _ c hc => .inl (h.encClear hb hd he c hc)
    encNoTwice := fun _ _ => List.nodup_nil
    encRoom := fun _ _ hc => nomatch he.symm.trans hc
    decCode := fun _ hr => nomatch hd.symm.trans hr }
  refine inv_putBits hcleared hb (not_writesBytes hd (by change s.enc.writesBits = true; rw [he]; rfl))
    fun bytes acc hw => lands_ok { hw with
      busyAligned := fun _ hbytes => absurd hbytes (not_writesBytes hd rfl)
      encFresh := nofun
      encClear := nofun
      encRoom := fun _ _ _ => LzwWidth.cap_pos s.w }

/-- A code before the end of the input: a new pair enters the table, and `CUR` is a literal (R194 to R196). -/
theorem inv_learned {c : Nat} (he : s.enc = .lzwCodes) (hc : s.codeDefined c)
    (hnew : s.lzwFind c (s.ibufByte s.idx) = none) : (s.learned s.w c).Inv := by
  have hroom := h.encRoom hb hd he
  have hlen := next_eq s
  obtain ⟨hclear, hcodes⟩ := learned_enc s.w c s
  have hbits : (s.learned s.w c).enc.writesBits = true := by
    unfold State.learned; dsimp only; split <;> rfl
  have hliteral (c' : Nat) (hc' : some (s.ibufByte s.idx).toNat = some c') : c' < 256 := by
    cases hc'; exact BitVec.isLt _
  have hnext : (s.learned s.w c).next = s.next + 1 := lzwInsert_next c _ s
  exact { h with
    busyTableOrder := fun _ => tableOrder_insert (h.busyTableOrder hb) hc _
    busyAligned := fun _ hbytes => absurd hbytes (not_writesBytes hd hbits)
    busyTable := fun _ => by rw [hnext]; exact hroom
    encCode := fun _ _ c' hc' => .inl (hliteral c' hc')
    encFresh := fun _ _ hheader => by rw [hheader] at hbits; cases hbits
    encNoTwice := fun _ _ => (h.encNoTwice hb hd).append (List.nodup_singleton _)
      (List.disjoint_singleton.mpr (not_mem_of_findFrom hnew))
    encClear := fun _ _ _ => hliteral
    encRoom := fun _ _ hphase => by
      rw [hnext]
      exact Nat.lt_of_le_of_ne hroom (hcodes.mp hphase)
    decCode := fun _ hr => nomatch hd.symm.trans hr }

theorem inv_emitOrdinary {c : Nat} (he : s.enc = .lzwCodes) (hc : s.codeDefined c)
    (hnew : s.idx < s.total → s.lzwFind c (s.ibufByte s.idx) = none) : (emitOrdinary s.w c s).Lands State.Inv := by
  have hbits : ¬s.writesBytes := not_writesBytes hd (by rw [he]; rfl)
  refine inv_putBits h hb hbits fun bytes acc hw => lands_ite (fun hlt => ?_) fun _ =>
    lands_ok (inv_enter hw hd .lzwEnd _ (.inr rfl))
  dsimp only
  rw [lzwInsert_next]
  exact lands_ok (inv_learned hw hb hd he hc (hnew hlt))

theorem inv_emitEnd (he : s.enc = .lzwEnd) : (emitEnd s.w s).Lands State.Inv :=
  inv_putBits h hb (not_writesBytes hd (by rw [he]; rfl)) fun _ _ hw => lands_ok (inv_enter hw hd .pad _ (.inr rfl))

theorem inv_emitHsz (n : Byte) (he : s.enc = .hufSize) : (emitHsz n s).Lands State.Inv := by
  have haligned : s.wcnt = 0 := h.busyAligned hb (.inr (.inr (.inr (.inr (.inl he)))))
  exact inv_putByte h hb fun hw => lands_ok (inv_enter hw hd .hufTable 0 (.inl haligned))

theorem inv_emitHen (sym len : Byte) (code : Half) : (emitHen sym len code s).Lands State.Inv :=
  inv_putBytes h hb fun hw => lands_ite (fun _ => lands_ok { hw with }) fun _ =>
    lands_ok (inv_enter hw hd .hufCodes 0 (.inr rfl))

theorem inv_emitHcw (len : BitVec 5) (code : Half) (he : s.enc = .hufCodes) : (emitHcw len code s).Lands State.Inv :=
  inv_putBits h hb (not_writesBytes hd (by rw [he]; rfl)) fun _ _ hw =>
    lands_ite (fun _ => lands_ok { hw with }) fun _ => lands_ok (inv_enter hw hd .pad _ (.inr rfl))

/-- The pad completes the last byte, and with it the command (R153). -/
theorem inv_emitPad (he : s.enc = .pad) :
    ((putBits 0 (BitVec.ofNat 3 s.padWidth).toNat s).bind fun s1 => .ok (finishCompress s1)).Lands State.Inv := by
  rw [BitVec.toNat_ofNat, Nat.mod_eq_of_lt (padWidth_lt s)]
  exact inv_putBits h hb (not_writesBytes hd (by rw [he]; rfl)) fun _ _ hw =>
    lands_ok (inv_finishCompress hw hb (padWidth_spec s h.pending.1))

/-- The code of `CUR` (R194). -/
theorem codeDefined_cur : s.codeDefined (s.cur.getD 0) := by
  cases hcur : s.cur with
  | none => exact .inl (by decide)
  | some c => exact h.encCode hb hd c hcur

/-- Every record of a COMPRESS. Where the input has a next byte the scan has stopped at a pair that is not in the table. -/
theorem inv_compressRecord
    (hscan : s.enc = .lzwCodes → s.idx < s.total → s.lzwFind (s.cur.getD 0) (s.ibufByte s.idx) = none) :
    (recordRun s.encNext s).Lands State.Inv := by
  cases he : s.enc <;> simp only [State.encNext, he]
  case header =>
    change (hdrRecord _ _ s).Lands _
    rw [hdrRecord, hd]; exact inv_emitHeader h hb hd _ _ he
  case raw =>
    change (rawRecord _ s).Lands _
    rw [rawRecord, hd]; exact inv_emitRaw h hb _ he
  case rle =>
    unfold State.rleNext
    split
    · change (rleRepRecord _ _ s).Lands _
      rw [rleRepRecord, hd]; exact inv_emitRle h hb _ _ he
    · change (rleLitRecord _ s).Lands _
      rw [rleLitRecord, hd]; exact inv_emitRle h hb _ _ he
  case lzwClear => rw [recordRun_lzwClear, lzwClear, hd]; exact inv_emitClear h hb hd he
  case lzwCodes =>
    have hcode := codeDefined_cur h hb hd
    obtain ⟨hcap, h1, h2⟩ := hcode.bounds (h.busyTable hb)
    rw [recordRun_ordinary hcap h1 h2, lzwOrdinary, hd]
    exact inv_emitOrdinary h hb hd he hcode (hscan he)
  case lzwEnd => rw [recordRun_lzwEnd, lzwEnd, hd]; exact inv_emitEnd h hb hd he
  case hufSize =>
    change (hszRecord _ s).Lands _
    rw [hszRecord, hd]; exact inv_emitHsz h hb hd _ he
  case hufTable =>
    change (henRecord _ _ _ s).Lands _
    rw [henRecord, hd]; exact inv_emitHen h hb hd _ _ _
  case hufCodes =>
    change (hcwRecord _ _ s).Lands _
    rw [hcwRecord, hd]; exact inv_emitHcw h hb hd _ _ he
  case pad =>
    change (padRecord _ s).Lands _
    rw [padRecord, hd]; exact inv_emitPad h hb hd he

end Compress

/-! ## The scan of a COMPRESS (R173, R194) -/

theorem inv_lzwScanLoop (fuel : Nat) {s : State} (h : s.Inv) (he : s.enc = .lzwCodes) :
    (lzwScanLoop fuel s).Inv := by
  induction fuel generalizing s with
  | zero => exact h
  | succ fuel ih =>
    have moved {c : Nat} (hc : s.codeDefined c) : State.Inv { s with cur := some c, idx := s.idx + 1 } := { h with
      encCode := fun _ _ c' hc' => by cases hc'; exact hc
      encFresh := fun _ _ hheader => nomatch he.symm.trans hheader
      encClear := fun _ _ hclear => nomatch he.symm.trans hclear }
    by_cases hi : s.idx < s.total
    · cases hc : s.cur with
      | none => rw [lzwScanLoop_first fuel hi hc]; exact ih (moved (.inl (BitVec.isLt _))) he
      | some p =>
        cases hf : s.lzwFind p (s.ibufByte s.idx) with
        | none => rw [lzwScanLoop_stop fuel hi hc hf]; exact h
        | some k => rw [lzwScanLoop_found fuel hi hc hf]; exact ih (moved (codeDefined_of_find hf)) he
    · rw [lzwScanLoop_end fuel hi]; exact h

/-- With a turn per input byte the scan ends at the end of the input or at a pair that is not in the table. -/
theorem lzwScanLoop_stops {fuel : Nat} {s : State} (hfuel : s.total - s.idx ≤ fuel)
    (hlt : (lzwScanLoop fuel s).idx < (lzwScanLoop fuel s).total) :
    (lzwScanLoop fuel s).lzwFind ((lzwScanLoop fuel s).cur.getD 0)
      ((lzwScanLoop fuel s).ibufByte (lzwScanLoop fuel s).idx) = none := by
  induction fuel generalizing s with
  | zero => change s.idx < s.total at hlt; omega
  | succ fuel ih =>
    have moved (c : Nat) : State.total { s with cur := some c, idx := s.idx + 1 } - (s.idx + 1) ≤ fuel := by
      change s.total - (s.idx + 1) ≤ fuel; omega
    by_cases hi : s.idx < s.total
    · cases hc : s.cur with
      | none => rw [lzwScanLoop_first fuel hi hc] at hlt ⊢; exact ih (moved _) hlt
      | some p =>
        cases hf : s.lzwFind p (s.ibufByte s.idx) with
        | none => rw [lzwScanLoop_stop fuel hi hc hf, hc]; exact hf
        | some k => rw [lzwScanLoop_found fuel hi hc hf] at hlt ⊢; exact ih (moved _) hlt
    · rw [lzwScanLoop_end fuel hi] at hlt; exact absurd hlt hi

theorem inv_encScan {s : State} (h : s.Inv) : (encScan s).Inv := by
  cases he : s.enc <;> simp only [encScan, he]
  case rle => rw [rleScan_eq]; exact { h with }
  case lzwCodes => exact inv_lzwScanLoop _ h he
  all_goals exact h

theorem encScan_stops {s : State} (he : (encScan s).enc = .lzwCodes) (hlt : (encScan s).idx < (encScan s).total) :
    (encScan s).lzwFind ((encScan s).cur.getD 0) ((encScan s).ibufByte (encScan s).idx) = none := by
  have he' : s.enc = .lzwCodes := by rw [encScan_eq] at he; exact he
  have hscan : encScan s = lzwScanLoop (s.total - s.idx) s := by simp only [encScan, he']; rfl
  rw [hscan] at hlt ⊢
  exact lzwScanLoop_stops le_rfl hlt

/-! ## Records of a RESTORE, in the phase that reads them -/

section Restore

variable {s : State} (h : s.Inv) (hb : s.state = .busy) (hd : s.dir = .restore)
include h hb hd

omit hb hd in
/-- The image has a size, and `OBUF` holds it (R125). -/
theorem inv_beginDecode (hn : s.n ≠ 0) (hroom : s.total ≤ s.params.obufCap) : (beginDecode s).Lands State.Inv := by
  unfold beginDecode
  split
  · exact lands_ite (fun _ => lands_raised _ _) fun _ => lands_ok { h with decSize := fun _ _ _ => ⟨hn, hroom⟩ }
  all_goals exact lands_ok { h with decSize := fun _ _ _ => ⟨hn, hroom⟩ }

omit hb in
theorem inv_readHeader (width height : Half) (hp : s.dec = .header) : (readHeader width height s).Lands State.Inv := by
  have hsized : (s.sized width height).Inv := { h with
    encInput := fun _ hc => nomatch hd.symm.trans hc
    decSize := fun _ _ hne => absurd hp hne }
  exact lands_ite (fun _ => lands_raised _ _) fun hn => lands_ite (fun _ => lands_raised _ _) fun hroom =>
    inv_beginDecode hsized hn (Nat.le_of_not_lt hroom)

/-- One byte of the image (R127, R241). -/
theorem inv_putImageByte (b : Byte) :
    ((putByte b s).bind fun s1 => if s1.wpos < s1.total then .ok s1 else .ok (finishRestore s1)).Lands State.Inv :=
  inv_putByte h hb fun hw => lands_ite (fun _ => lands_ok hw) fun _ => lands_ok (inv_finishRestore hw hb hd)

theorem inv_rleCount (k : Nat) : (rleCount k s).Inv := by
  unfold rleCount
  split
  · exact { h with }
  · split
    · exact { h with }
    · exact inv_finishRestore (s := { s with rleCnt := s.rleCnt + k }) { h with } hb hd

/-- `DecodeRep` and `DecodeLit` (R178, R179). -/
theorem inv_rleProduce (control v : Byte) (bytes : List Byte) :
    (rleProduce control bytes { s with rleV := v }).Lands State.Inv := by
  have hlatched : State.Inv { s with rleV := v, rleC := control, rleK := control.toNat % 128 } := { h with }
  exact lands_ite (fun _ => lands_raised _ _) fun _ =>
    inv_putBytes hlatched hb fun hw => lands_ok (inv_rleCount hw hb hd _)

omit hd in
theorem inv_emitString {bytes : List Byte} {f : State → Res}
    (hf : (s.wrote bytes s.wcnt s.wacc).Inv → (f (s.wrote bytes s.wcnt s.wacc)).Lands State.Inv) :
    ((emitString bytes s).bind f).Lands State.Inv := by
  unfold emitString
  split
  · exact lands_raised _ _
  · exact inv_putBytes h hb hf

/-- An entry is inserted while there is room for it, and the code just read has a string then (R201, R205 to R208). -/
theorem inv_learnAndEmit {c p : Nat} (fb : Byte) (bytes : List Byte) (hprev : s.prev = some p)
    (hc : (lzwInsert p fb s).codeDefined c) : (learnAndEmit s.w c p fb bytes s).Lands State.Inv := by
  refine lands_ite (fun _ => lands_raised _ _) fun hroom => ?_
  have hp := h.decCode hb hd p hprev
  have hinserted : (lzwInsert p fb s).Inv := { h with
    busyTableOrder := fun _ => tableOrder_insert (h.busyTableOrder hb) hp fb
    busyTable := fun _ => by
      rw [lzwInsert_next]; exact Nat.lt_of_le_of_ne (h.busyTable hb) hroom
    encCode := fun _ hc => nomatch hd.symm.trans hc
    encNoTwice := fun _ hc => nomatch hd.symm.trans hc
    encRoom := fun _ hc => nomatch hd.symm.trans hc
    decCode := fun _ _ c' hc' => codeDefined_insert (h.decCode hb hd c' hc') p fb }
  exact inv_emitString hinserted hb fun hw => lands_ok { hw with
    decCode := fun _ _ c' hc' => by cases hc'; exact hc }

theorem inv_readOrdinary {c : Nat} (h1 : c ≠ 256) (h2 : c ≠ 257) : (readOrdinary s.w c s).Lands State.Inv := by
  refine lands_ite (fun _ => lands_raised _ _) fun _ => ?_
  split
  · refine lands_ite (fun _ => lands_raised _ _) fun hc => inv_emitString h hb fun hw => lands_ok { hw with
      decCode := fun _ _ c' hc' => ?_ }
    cases hc'
    exact .inl (by omega)
  · next p hprev =>
    have hdefined (fb : Byte) (hle : c ≤ s.next) : (lzwInsert p fb s).codeDefined c := by
      unfold State.codeDefined
      rw [lzwInsert_next]; omega
    refine lands_ite (fun hlt => inv_learnAndEmit h hb hd _ _ hprev (hdefined _ hlt.le)) fun _ =>
      lands_ite (fun heq => inv_learnAndEmit h hb hd _ _ hprev (hdefined _ heq.le)) fun _ => lands_raised _ _

omit hb in
theorem inv_readClear : (readClear s).Lands State.Inv :=
  lands_ok { h with
    busyTableOrder := nofun
    busyTable := fun _ => (LzwWidth.cap_pos s.w).le
    encCode := fun _ hc => nomatch hd.symm.trans hc
    encNoTwice := fun _ _ => List.nodup_nil
    encRoom := fun _ _ _ => LzwWidth.cap_pos s.w
    decCode := nofun }

theorem inv_readEnd : (readEnd s).Lands State.Inv :=
  lands_ite (fun _ => lands_raised _ _) fun _ => lands_ite (fun _ => lands_raised _ _) fun _ =>
    lands_ok (inv_finishRestore h hb hd)

/-- A code of the command's width. -/
theorem inv_readCode {c : Nat} (hc : c < s.w.cap) : (recordRun (lzwInstr s.w c) s).Lands State.Inv := by
  by_cases h1 : c = 256
  · rw [h1, recordRun_lzwClear, lzwClear, hd]; exact inv_readClear h hd
  by_cases h2 : c = 257
  · rw [h2, recordRun_lzwEnd, lzwEnd, hd]; exact inv_readEnd h hb hd
  rw [recordRun_ordinary hc h1 h2, lzwOrdinary, hd]
  exact inv_readOrdinary h hb hd h1 h2

omit hb hd in
theorem inv_readHen (sym len : Byte) (code : Half) (hp : s.dec = .hufTable) :
    (readHen sym len code s).Lands State.Inv :=
  lands_ite (fun _ => lands_raised _ _) fun _ => lands_ite (fun _ => lands_raised _ _) fun _ =>
    lands_ite (fun _ => lands_raised _ _) fun _ => lands_ite (fun _ => lands_ok { h with }) fun _ => lands_ok { h with
      decSize := fun hb hd _ => h.decSize hb hd (by rw [hp]; exact nofun) }

theorem inv_readHcw (len : BitVec 5) (code : Half) : (readHcw len code s).Lands State.Inv := by
  unfold readHcw
  split
  · exact lands_raised _ _
  · exact inv_putImageByte h hb hd _

omit h hb hd in
/-- The LZW decoder reads codes of the command's width (R97). -/
theorem exists_code_of_decode {w : LzwWidth} {bs rest : List Bool} {i : Instr}
    (hdec : decode (.lzw w) bs = .ok (i, rest)) : ∃ c, c < w.cap ∧ i = lzwInstr w c := by
  simp only [decode] at hdec
  split at hdec <;> cases hdec
  next hv => exact ⟨_, (takeBits_some hv).1, rfl⟩

/-- Every record of a RESTORE. -/
theorem inv_restoreRecord {bs rest : List Bool} {i : Instr} (hdec : decode s.ctx bs = .ok (i, rest)) :
    (recordRun i s).Lands State.Inv := by
  have hreads := reads_of_decode hdec
  generalize hp : s.dec = dec at hreads
  cases hreads with
  | header width height =>
    change (hdrRecord width height s).Lands _
    rw [hdrRecord, hd]; exact inv_readHeader h hd width height hp
  | raw b =>
    change (rawRecord b s).Lands _
    rw [rawRecord, hd]; exact inv_putImageByte h hb hd b
  | rep count v =>
    change (rleRepRecord count v s).Lands _
    rw [rleRepRecord, hd]; exact inv_rleProduce h hb hd _ v _
  | lit data =>
    change (rleLitRecord data s).Lands _
    rw [rleLitRecord, hd]; exact inv_rleProduce h hb hd _ s.rleV data
  | code w c =>
    rw [State.ctx, hp] at hdec
    obtain ⟨c', hc', hi⟩ := exists_code_of_decode hdec
    rw [hi]; exact inv_readCode h hb hd hc'
  | hsz n =>
    change (hszRecord n s).Lands _
    rw [hszRecord, hd]
    exact lands_ok { h with decSize := fun hb hd _ => h.decSize hb hd (by rw [hp]; exact nofun) }
  | hen sym len code =>
    change (henRecord sym len code s).Lands _
    rw [henRecord, hd]; exact inv_readHen h sym len code hp
  | hcw len code =>
    change (hcwRecord len code s).Lands _
    rw [hcwRecord, hd]; exact inv_readHcw h hb hd len code

end Restore

/-! ## Turns and commands -/

/-- A run that keeps the inputs ends in a state with the invariant where it goes on in one. -/
theorem inv_settle {s : State} {r : Res} (h : s.Inv) (hin : SameInputs s r.settle) (hr : r.Lands State.Inv) :
    r.settle.Inv := by
  cases r with
  | ok t => exact hr t rfl
  | raised c t => exact inv_faultEntry h hin

theorem inv_engineTurn {s : State} (h : s.Inv) (hb : s.state = .busy) : (engineTurn s).Inv := by
  have hin := (engineTurn_reached s).inputs
  cases hd : s.dir with
  | compress =>
    have k := encScan_keeps s
    rw [engineTurn_record (fetchRecord_compress hd)] at hin ⊢
    exact inv_settle h hin (inv_compressRecord (inv_encScan h) (k.state.trans hb) (k.dir.trans hd) encScan_stops)
  | restore =>
    have hf := fetchRecord_restore hd
    unfold readRecord at hf
    split at hf
    · next i rest hdec =>
      rw [engineTurn_record hf] at hin ⊢
      have hle : (s.window s.ctx.maxBits).length ≤ 8 * s.inLen - s.rpos := by
        rw [State.window, length_bitsFrom]; exact Nat.min_le_right _ _
      set taken := (s.window s.ctx.maxBits).length - rest.length with htaken
      have hread := h.busyRead hb
      have hmoved : (skipBits taken s).Inv := { h with
        busyRead := fun _ => by change s.rpos + taken ≤ 8 * s.inLen; omega }
      exact inv_settle h hin (inv_restoreRecord hmoved hb hd hdec)
    · rw [engineTurn_raised hf] at hin ⊢
      exact inv_faultEntry h hin

/-- A command starts with nothing read or written and every table empty (R121). -/
theorem inv_begun {dir : Dir} {alg : Alg} (w : LzwWidth) {s : State} (h : s.Inv) (hin : s.inLen ≤ s.params.ibufCap)
    (hsize : dir = .compress → s.n ≠ 0 ∧ s.inLen = s.total) : (begun dir alg w s).Inv :=
  { h with
    causeOfFault := ⟨nofun, nofun⟩
    resultsOnlyDone := fun _ => ⟨rfl, rfl, rfl, rfl⟩
    doneObuf := nofun
    doneFlushed := nofun
    busyHandsOff := fun _ => rfl
    idleHandsFree := nofun
    outLenCap := Nat.zero_le _
    inUsedCap := Nat.zero_le _
    pending := ⟨Nat.succ_pos 7, Nat.two_pow_pos 0⟩
    hufSizes := ⟨List.length_replicate, List.length_replicate, List.length_replicate⟩
    busyTableOrder := nofun
    busyInput := fun _ => hin
    busyRead := fun _ => Nat.zero_le _
    busyWrite := fun _ => Nat.zero_le _
    busyWritten := fun _ _ ha => absurd ha (Nat.not_lt_zero _)
    busyAligned := fun _ _ => rfl
    busyTable := fun _ => (LzwWidth.cap_pos w).le
    encInput := fun _ => hsize
    encCode := nofun
    encFresh := fun _ _ _ => rfl
    encNoTwice := fun _ _ => List.nodup_nil
    encClear := nofun
    encRoom := nofun
    decCode := nofun
    decSize := fun _ _ hdec => absurd rfl hdec }

/-- The tests of the direction let only such inputs pass (R123, R125). -/
theorem inv_directionChecks (dir : Dir) (alg : Alg) (w : LzwWidth) {s : State} (h : s.Inv) :
    (directionChecks (begun dir alg w s)).Lands State.Inv := by
  cases dir with
  | compress =>
    exact lands_ite (fun _ => lands_raised _ _) fun hin => lands_ite (fun _ => lands_raised _ _) fun hn =>
      lands_ite (fun _ => lands_raised _ _) fun hlen =>
        lands_ok (inv_begun w h (Nat.le_of_not_lt hin) fun _ => ⟨hn, Decidable.not_not.mp hlen⟩)
  | restore =>
    exact lands_ite (fun _ => lands_raised _ _) fun hin => lands_ite (fun _ => lands_raised _ _) fun _ =>
      lands_ok (inv_begun w h (Nat.le_of_not_lt hin) nofun)

theorem inv_beginCommand (dir : Dir) (alg : Alg) {s : State} (h : s.Inv) : (beginCommand dir alg s).Inv := by
  have hin := beginCommand_inputs dir alg s
  by_cases hw : alg = .lzw → legalWidth s.lzwW ≠ none
  · obtain ⟨w, _, hbegin⟩ := beginCommand_checks dir hw
    rw [hbegin] at hin ⊢
    exact inv_settle h hin (inv_directionChecks dir alg w h)
  · simp only [Classical.not_imp, not_not] at hw
    obtain ⟨rfl, hw⟩ := hw
    rw [beginCommand_illegalWidth dir hw] at hin ⊢
    exact inv_faultEntry h hin

theorem inv_runCommand (dir : Dir) (alg : Alg) {s : State} (h : s.Inv) : (runCommand dir alg s).Inv :=
  runRecords_invariant (fun _ h hb => inv_engineTurn h hb) _ (inv_beginCommand dir alg h)

/-! ## Steps -/

theorem inv_withHost {s : State} (h : s.Inv) (q : List HostAct) : (s.withHost q).Inv := { h with }

/-- A host write of a register keeps its low bits (R21, R27). -/
theorem inv_regWrite {s : State} (h : s.Inv) (hb : s.state ≠ .busy) (n v : Nat) : (s.regWrite n v).Inv := by
  refine State.Resting.inv ?_ (by rwa [regWrite_state])
  unfold State.regWrite
  split
  case h_4 => exact { h with inLenBits := Nat.mod_lt _ (Nat.two_pow_pos _) }
  all_goals exact { h with }

theorem inv_ibufWrite {s : State} (h : s.Inv) (hb : s.state ≠ .busy) {a : Nat} (b : Byte) (ha : a < s.params.ibufCap) :
    State.Inv { s with ibuf := Memory.write s.ibuf a b } := by
  refine State.Resting.inv { h with ibufWf := wf_write _ _ h.ibufWf, ibufRange := fun c hc => ?_ } hb
  obtain rfl | hc := mem_write hc
  · exact ha
  · exact h.ibufRange c hc

theorem State.Ready.ne_busy {s : State} (hr : s.Ready) : s.state ≠ .busy := by
  obtain h | h := hr <;> rw [h] <;> exact nofun

/-- Settles O57: of everything a step can be, a turn of a running command is the one that needs the phases; the other steps
leave the engine at rest, or just started. -/
theorem everyStepKeepsTheInvariant : Obligations.EveryStepKeepsTheInvariant := by
  intro s t h hstep
  have hpopped : s.popped.Inv := inv_withHost h _
  cases step_gives hstep with
  | turn hb => exact inv_engineTurn hpopped hb
  | waitTurn hb => exact inv_engineTurn (inv_withHost h (.wait :: s.host.tail)) hb
  | quiet r off hoff =>
    exact { h with
      busyHandsOff := fun hb => by
        obtain rfl | ⟨_, hd | hf⟩ := hoff
        · exact h.busyHandsOff hb
        · exact nomatch hb.symm.trans hd
        · exact nomatch hb.symm.trans hf
      idleHandsFree := fun hi => by
        obtain rfl | ⟨rfl, _⟩ := hoff
        · exact h.idleHandsFree hi
        · rfl }
  | command _ dir alg => exact inv_runCommand dir alg hpopped
  | begun _ dir alg => exact inv_beginCommand dir alg hpopped
  | illegal => exact inv_faultEntry hpopped ⟨rfl, rfl, rfl, rfl, rfl, rfl, rfl⟩
  | regWrite hr n v => exact inv_regWrite hpopped hr.ne_busy n v
  | ibufWrite hr a b ha => exact inv_ibufWrite hpopped hr.ne_busy b ha
  | soft => exact inv_softReset hpopped
  | hard => exact inv_hardReset hpopped

end Sys2Proof.Machine
end

section
/-! The frame of a record (R33, R36, R69, R151): each record's run changes the registers of its own codec, and stores bytes
from `WPOS` on only. -/

namespace Sys2Proof.Machine

/-! ## What a write leaves of `OBUF` -/

/-- From `m` with `WPOS` at `p` to `m'` with `WPOS` at `p'` the bytes between the two are all that can have changed. -/
structure Memory.Extends (m : Memory) (p : Nat) (m' : Memory) (p' : Nat) : Prop where
  le : p ≤ p'
  outside : ∀ a, a < p ∨ p' ≤ a → Memory.lookup m' a = Memory.lookup m a

theorem extends_refl (m : Memory) (p : Nat) : m.Extends p m p := ⟨Nat.le_refl p, fun _ _ => rfl⟩

theorem Memory.Extends.trans {m m' m'' : Memory} {p p' p'' : Nat} (h : m.Extends p m' p') (h' : m'.Extends p' m'' p'') :
    m.Extends p m'' p'' where
  le := h.le.trans h'.le
  outside := fun a ha => by
    have := h.le
    have := h'.le
    exact (h'.outside a (by omega)).trans (h.outside a (by omega))

theorem extends_writeBytes (m : Memory) (p : Nat) (bytes : List Byte) :
    m.Extends p (Memory.writeBytes m p bytes) (p + bytes.length) where
  le := Nat.le_add_right _ _
  outside := fun a ha => by rw [lookup_writeBytes, if_neg (by omega)]

theorem putByte_extends {b : Byte} {s t : State} (h : putByte b s = .ok t) : s.obuf.Extends s.wpos t.obuf t.wpos := by
  unfold putByte at h
  split at h <;> cases h
  exact extends_writeBytes s.obuf s.wpos [b]

theorem putBitList_extends {bits : List Bool} {s t : State} (h : putBitList bits s = .ok t) :
    s.obuf.Extends s.wpos t.obuf t.wpos := by
  induction bits generalizing s with
  | nil => cases h; exact extends_refl _ _
  | cons b bits ih =>
    obtain ⟨u, hu, ht⟩ := bind_eq_ok.mp h
    refine Memory.Extends.trans ?_ (ih ht)
    unfold putBit at hu
    split at hu
    · exact putByte_extends (s := { s with wacc := 0, wcnt := 0 }) hu
    · cases hu; exact extends_refl _ _

/-! ## What a record leaves -/

/-- What the record `i` leaves unchanged from `s` to `t` while the command runs. An assignment to registers `i` may change
leaves it all. -/
structure Framed (i : Instr) (s t : State) : Prop where
  memory : s.obuf.Extends s.wpos t.obuf t.wpos := by exact extends_refl _ _
  size : i.isHdr = false → SameSize s t := by exact fun _ => ⟨rfl, rfl⟩
  rle : i.isHdr = false → i.isRle = false → SameRle s t := by
    exact fun _ _ => ⟨rfl, rfl, rfl, rfl, rfl, rfl, rfl, rfl, rfl⟩
  lzw : i.isLzw = false → SameLzw s t := by exact fun _ => ⟨rfl, rfl, rfl, rfl, rfl⟩
  huf : i.isHdr = false → i.isHuf = false → SameHuf s t := by
    exact fun _ _ => ⟨rfl, rfl, rfl, rfl, rfl, rfl, rfl, rfl⟩
  writer : s.dir = .restore → t.wcnt = s.wcnt ∧ t.wacc = s.wacc := by exact fun _ => ⟨rfl, rfl⟩
  state : t.state = s.state := by rfl
  rpos : t.rpos = s.rpos := by rfl
  obufEpoch : t.obufEpoch = s.obufEpoch := by rfl
  privateEpoch : t.privateEpoch = s.privateEpoch := by rfl
  cause : t.cause = s.cause := by rfl
  outLen : t.outLen = s.outLen := by rfl
  inUsed : t.inUsed = s.inUsed := by rfl
  statTable : t.statTable = s.statTable := by rfl
  statClears : t.statClears = s.statClears := by rfl
  dir : t.dir = s.dir := by rfl
  alg : t.alg = s.alg := by rfl
  w : t.w = s.w := by rfl

/-- The run of record `i` from `s` goes on or completes from a state of its frame, or raises; only the header latches a size. -/
inductive Res.Frames (i : Instr) (s : State) : Res → Prop where
  | running {t : State} (h : Framed i s t := by exact {}) : Frames i s (.ok t)
  | completed (used : Nat) {t : State} (h : Framed i s t := by exact {}) : Frames i s (.ok (complete used t))
  | raised (c : Cause) {u : State} (h : i.isHdr = false → SameSize s u := by exact fun _ => ⟨rfl, rfl⟩) :
      Frames i s (.raised c u)

section Frames

variable {i : Instr} {s : State}

theorem frames_ite {p : Prop} [Decidable p] {r r' : Res} (h : p → r.Frames i s) (h' : ¬p → r'.Frames i s) :
    (if p then r else r').Frames i s := by
  split
  · next hp => exact h hp
  · next hp => exact h' hp

/-! A write, from a state that differs from `s` in registers `i` may change, and the rest of the run. -/

variable {u : State} {f : State → Res}

theorem frames_putBytes {bytes : List Byte}
    (hf : ∀ m p, u.obuf.Extends u.wpos m p → (f { u with obuf := m, wpos := p }).Frames i s)
    (hu : i.isHdr = false → SameSize s u := by exact fun _ => ⟨rfl, rfl⟩) : ((putBytes bytes u).bind f).Frames i s := by
  obtain ⟨_, h⟩ | ⟨m, p, h⟩ := putBytes_cases bytes u <;> rw [h]
  · exact hf _ _ (extends_writeBytes _ _ _)
  · exact .raised _ hu

theorem frames_putByte {b : Byte}
    (hf : ∀ m p, u.obuf.Extends u.wpos m p → (f { u with obuf := m, wpos := p }).Frames i s)
    (hu : i.isHdr = false → SameSize s u := by exact fun _ => ⟨rfl, rfl⟩) : ((putByte b u).bind f).Frames i s := by
  rw [← putBytes_singleton]; exact frames_putBytes hf hu

theorem frames_putBits {v n : Nat}
    (hf : ∀ m p cnt acc, u.obuf.Extends u.wpos m p →
      (f { u with obuf := m, wpos := p, wcnt := cnt, wacc := acc }).Frames i s)
    (hu : i.isHdr = false → SameSize s u := by exact fun _ => ⟨rfl, rfl⟩) : ((putBits v n u).bind f).Frames i s := by
  obtain ⟨m, p, cnt, acc, h⟩ | ⟨m, p, h⟩ := putBitList_cases (bitsOf n v) u <;> rw [putBits, h]
  · exact hf m p cnt acc (putBitList_extends h)
  · exact .raised _ hu

theorem frames_emitString {bytes : List Byte}
    (hf : ∀ m p, u.obuf.Extends u.wpos m p → (f { u with obuf := m, wpos := p }).Frames i s)
    (hu : i.isHdr = false → SameSize s u := by exact fun _ => ⟨rfl, rfl⟩) : ((emitString bytes u).bind f).Frames i s := by
  unfold emitString
  split
  · exact .raised _ hu
  · exact frames_putBytes hf hu

end Frames

/-! ## Every record -/

section Records

variable (s : State)

theorem hdrRecord_frames (width height : Half) : (hdrRecord width height s).Frames (.hdr width height) s := by
  cases hd : s.dir <;> simp only [hdrRecord, hd]
  · refine frames_putBytes fun m p hm => ?_
    unfold beginEncode
    split
    · exact .running { memory := hm }
    · exact .running { memory := hm, rle := nofun }
    · exact .running { memory := hm }
    · cases hbuild : hufBuild { s with obuf := m, wpos := p } with
      | raised c u => exact .raised c nofun
      | ok u =>
        obtain ⟨freq, nodes, queue, hlen, hcode, rfl, _⟩ := hufBuild_lands _ u hbuild
        exact .running { memory := hm, huf := nofun }
  · refine frames_ite (fun _ => .raised _ nofun) fun _ => frames_ite (fun _ => .raised _ nofun) fun _ => ?_
    unfold beginDecode
    split
    · exact frames_ite (fun _ => .raised _ nofun) fun _ => .running { size := nofun }
    all_goals exact .running { size := nofun, rle := nofun }

theorem rawRecord_frames (b : Byte) : (rawRecord b s).Frames (.raw b) s := by
  cases hd : s.dir <;> simp only [rawRecord, hd]
  · exact frames_putByte fun m p hm => frames_ite (fun _ => .running { memory := hm }) fun _ =>
      .completed _ (t := { s with obuf := m, wpos := p, idx := s.idx + 1 }) { memory := hm }
  · exact frames_putByte fun _ _ hm => frames_ite (fun _ => .running { memory := hm }) fun _ =>
      .completed _ { memory := hm }

section Rle

variable {i : Instr} (hi : i.isRle = true)
include hi

theorem rleAdvance_frames {m : Memory} {p : Nat} (k : Nat) (hm : s.obuf.Extends s.wpos m p) :
    (Res.ok (rleAdvance k { s with obuf := m, wpos := p })).Frames i s := by
  have hrle {P : Prop} (h : i.isRle = false) : P := nomatch hi.symm.trans h
  unfold rleAdvance
  split
  · exact .running { memory := hm, rle := fun _ => hrle }
  · split
    · exact .running { memory := hm, rle := fun _ => hrle }
    · exact .completed _ (t := { s with obuf := m, wpos := p, rleI := s.rleI + k }) { memory := hm, rle := fun _ => hrle }

/-- `EmitRep` and `EmitLit` (R174, R175). -/
theorem emitRle_frames (bytes : List Byte) (k : Nat) :
    ((putBytes bytes s).bind fun s1 => .ok (rleAdvance k s1)).Frames i s :=
  frames_putBytes fun _ _ hm => rleAdvance_frames s hi k hm

/-- `DecodeRep` and `DecodeLit` (R178, R179). -/
theorem rleProduce_frames (control v : Byte) (bytes : List Byte) :
    (rleProduce control bytes { s with rleV := v }).Frames i s := by
  have hrle {P : Prop} (h : i.isRle = false) : P := nomatch hi.symm.trans h
  refine frames_ite (fun _ => .raised _) fun _ => frames_putBytes fun m p hm => ?_
  unfold rleCount
  split
  · exact .running { memory := hm, rle := fun _ => hrle }
  · split
    · exact .running { memory := hm, rle := fun _ => hrle }
    · exact .completed _ { memory := hm, rle := fun _ => hrle }

end Rle

theorem rleRepRecord_frames (count : BitVec 7) (v : Byte) :
    (rleRepRecord count v s).Frames (.rleRep count v) s := by
  cases hd : s.dir <;> simp only [rleRepRecord, hd]
  · exact emitRle_frames s rfl _ _
  · exact rleProduce_frames s rfl _ v _

theorem rleLitRecord_frames (data : List Byte) : (rleLitRecord data s).Frames (.rleLit data) s := by
  cases hd : s.dir <;> simp only [rleLitRecord, hd]
  · exact emitRle_frames s rfl _ _
  · exact rleProduce_frames s rfl _ s.rleV data

section Lzw

variable {i : Instr} (hi : i.isLzw = true) (w : LzwWidth)
include hi

theorem learnAndEmit_frames (c p : Nat) (fb : Byte) (bytes : List Byte) :
    (learnAndEmit w c p fb bytes s).Frames i s :=
  frames_ite (fun _ => .raised _) fun _ => frames_emitString fun _ _ hm =>
    .running { memory := hm, lzw := fun h => nomatch hi.symm.trans h }

theorem lzwOrdinary_frames (c : Nat) : (lzwOrdinary w c s).Frames i s := by
  have hlzw {P : Prop} (h : i.isLzw = false) : P := nomatch hi.symm.trans h
  cases hd : s.dir <;> simp only [lzwOrdinary, hd]
  · have hwriter {P : Prop} (h : s.dir = .restore) : P := nomatch hd.symm.trans h
    exact frames_putBits fun _ _ _ _ hm => frames_ite
      (fun _ => .running { memory := hm, lzw := hlzw, writer := hwriter })
      fun _ => .running { memory := hm, writer := hwriter }
  · refine frames_ite (fun _ => .raised _) fun _ => ?_
    split
    · exact frames_ite (fun _ => .raised _) fun _ => frames_emitString fun _ _ hm =>
        .running { memory := hm, lzw := hlzw }
    · exact frames_ite (fun _ => learnAndEmit_frames s hi w c _ _ _) fun _ =>
        frames_ite (fun _ => learnAndEmit_frames s hi w c _ _ _) fun _ => .raised _

theorem lzwClear_frames : (lzwClear w s).Frames i s := by
  have hlzw {P : Prop} (h : i.isLzw = false) : P := nomatch hi.symm.trans h
  cases hd : s.dir <;> simp only [lzwClear, hd]
  · exact frames_putBits fun _ _ _ _ hm =>
      .running { memory := hm, lzw := hlzw, writer := fun h => nomatch hd.symm.trans h }
  · exact .running { lzw := hlzw }

omit hi in
theorem lzwEnd_frames : (lzwEnd w s).Frames i s := by
  cases hd : s.dir <;> simp only [lzwEnd, hd]
  · exact frames_putBits fun _ _ _ _ hm => .running { memory := hm, writer := fun h => nomatch hd.symm.trans h }
  · exact frames_ite (fun _ => .raised _) fun _ => frames_ite (fun _ => .raised _) fun _ => .completed _

end Lzw

theorem hszRecord_frames (n : Byte) : (hszRecord n s).Frames (.hsz n) s := by
  cases hd : s.dir <;> simp only [hszRecord, hd]
  · exact frames_putByte fun _ _ hm => .running { memory := hm }
  · exact .running { huf := nofun }

theorem henRecord_frames (sym len : Byte) (code : Half) :
    (henRecord sym len code s).Frames (.hen sym len code) s := by
  cases hd : s.dir <;> simp only [henRecord, hd]
  · exact frames_putBytes fun _ _ hm => frames_ite (fun _ => .running { memory := hm }) fun _ => .running { memory := hm }
  · exact frames_ite (fun _ => .raised _) fun _ => frames_ite (fun _ => .raised _) fun _ =>
      frames_ite (fun _ => .raised _) fun _ => frames_ite (fun _ => .running { huf := nofun }) fun _ =>
        .running { huf := nofun }

theorem hcwRecord_frames (len : BitVec 5) (code : Half) : (hcwRecord len code s).Frames (.hcw len code) s := by
  cases hd : s.dir <;> simp only [hcwRecord, hd]
  · have hwriter {P : Prop} (h : s.dir = .restore) : P := nomatch hd.symm.trans h
    exact frames_putBits fun _ _ _ _ hm => frames_ite (fun _ => .running { memory := hm, writer := hwriter }) fun _ =>
      .running { memory := hm, writer := hwriter }
  · unfold readHcw
    split
    · exact .raised _
    · exact frames_putByte fun _ _ hm => frames_ite (fun _ => .running { memory := hm }) fun _ =>
        .completed _ { memory := hm }

theorem padRecord_frames (n : BitVec 3) : (padRecord n s).Frames (.pad n) s := by
  cases hd : s.dir <;> simp only [padRecord, hd]
  · exact frames_putBits fun _ _ _ _ hm => .completed _ { memory := hm, writer := fun h => nomatch hd.symm.trans h }
  · exact .running

theorem recordRun_frames {i : Instr} (hi : i.isRecord = true) : (recordRun i s).Frames i s := by
  cases i with
  | hdr width height => exact hdrRecord_frames s width height
  | raw b => exact rawRecord_frames s b
  | rleRep count v => exact rleRepRecord_frames s count v
  | rleLit data => exact rleLitRecord_frames s data
  | lzwLit12 _ | lzwPhrase12 _ | lzwLit16 _ | lzwPhrase16 _ | lzwLit20 _ | lzwPhrase20 _ =>
    exact lzwOrdinary_frames s rfl _ _
  | lzwClear12 | lzwClear16 | lzwClear20 => exact lzwClear_frames s rfl _
  | lzwEnd12 | lzwEnd16 | lzwEnd20 => exact lzwEnd_frames s _
  | hsz n => exact hszRecord_frames s n
  | hen sym len code => exact henRecord_frames s sym len code
  | hcw len code => exact hcwRecord_frames s len code
  | pad n => exact padRecord_frames s n
  | cnoop | crle | clzw | chuf | rnoop | rrle | rlzw | rhuf | sreset | cmdIllegal _ => cases hi

end Records

theorem exec_record_settle {i : Instr} (hi : i.isRecord = true) (s : State) :
    exec i s = .next (recordRun i s).settle := by
  rw [exec_record hi, recordEffect_eq_settle]

/-- Settles O50: the run of the record goes on, completes or raises, each with what its frame leaves. -/
theorem recordFrame : Obligations.RecordFrame := by
  intro i s t hi hb h
  rw [exec_record_settle hi] at h
  cases h
  have hreached := (tied_settle (recordRun_keepsRun hi s s.host)).1
  have hframes := recordRun_frames s hi
  generalize recordRun i s = r at hreached hframes
  refine ⟨hreached.inputs, hreached.handsOff, ?_⟩
  cases hframes with
  | @running t f =>
    have ht : t.state = .busy := f.state.trans hb
    refine ⟨fun hs => hs.elim hreached.size f.size, fun _ => ?_, fun hd _ => f.writer hd, fun hdone => ?_, .inl ht⟩
    · exact ⟨f.rpos, f.rle, f.lzw, f.huf, f.memory.le, f.memory.outside, f.obufEpoch, f.privateEpoch, f.cause, f.outLen,
        f.inUsed, f.statTable, f.statClears, f.dir, f.alg, f.w⟩
    · exact nomatch ht.symm.trans hdone
  | @completed used t f =>
    refine ⟨fun hs => hs.elim hreached.size f.size, nofun, fun hd _ => f.writer hd, fun _ => ⟨f.cause, fun a ha => ?_⟩,
      .inr (.inl rfl)⟩
    rw [settle_ok, complete_obuf, lookup_below, if_pos (ha.trans_le f.memory.le)]
    exact f.memory.outside a (.inl ha)
  | @raised c u hu =>
    exact ⟨fun hs => hs.elim hreached.size hu, nofun, fun _ hne => absurd rfl hne, nofun, .inr (.inr rfl)⟩

end Sys2Proof.Machine
end
